-- ==== Sys2Proof/Word.lean ====
section
/-!
DEFINITION. The widths of the block's values (00_scope R10): every value is unsigned.
-/

namespace Sys2Proof

/-- A byte: 8 bits (R10, R66). -/
abbrev Byte := BitVec 8

/-- A command word, and a register of the host register map: 32 bits (R44, R91). -/
abbrev Word := BitVec 32

/-- A MemoryAddress: a 16-bit linear offset into the EEPROM (R63). -/
abbrev MemAddr := BitVec 16

/-- A count of bytes: 17 bits, so that 65536 is representable (R10, R24, R25, R28). -/
abbrev Count := BitVec 17

end Sys2Proof
end

