-- ==== Sys2Proof/Config.lean ====
section
/-!
DEFINITION. What an implementation fixes (the parameters of 00_scope R9), what the environment can do (the agents of R7 outside
the command unit, 40_line_engine R141) and the free values. A free value is an opaque constant: nothing can be proved of it
beyond its type.
-/

namespace Sys2Proof

/-- The parameters of R9. They are fixed for one machine: no step changes them. -/
structure Params where
  /-- PAGE_SIZE. -/
  pageSize : Nat
  /-- MAX_ADDRESS. -/
  maxAddress : Nat
  /-- DEV_BASE, OPEN. -/
  devBase : BitVec 7
  /-- SPIN_LIMIT, OPEN: a number of flag samples. -/
  spinLimit : Nat
  /-- READY_RETRIES: a number of probe attempts. -/
  readyRetries : Nat
  /-- READY_DELAY_MS: a number of millisecond ticks. -/
  readyDelayMs : Nat
  /-- BUF_SIZE. -/
  bufSize : Nat
  /-- CCR_STD, OPEN. -/
  ccrStd : BitVec 16
  /-- TRISE_STD, OPEN. -/
  triseStd : BitVec 8
  /-- CCR_FAST, OPEN. -/
  ccrFast : BitVec 16
  /-- TRISE_FAST, OPEN. -/
  triseFast : BitVec 8
  /-- F_REF_HZ, informative. -/
  fRefHz : Nat
  /-- F_SCL_STD_HZ, informative. -/
  fSclStdHz : Nat
  /-- F_SCL_FAST_HZ, informative. -/
  fSclFastHz : Nat
  deriving DecidableEq, Repr

/-- The constraints R9 puts on the parameters. -/
abbrev Params.Legal (c : Params) : Prop :=
  (∃ k, k < 17 ∧ c.pageSize = 2 ^ k) ∧ c.maxAddress ≤ 0xFFFF ∧ 1 ≤ c.spinLimit ∧ 1 ≤ c.readyRetries ∧
    1 ≤ c.bufSize ∧ c.bufSize ≤ 65536

/-- SEL of the reference EEPROM (R73). -/
inductive Sel where
  | none
  | write
  | read
  deriving DecidableEq, Repr, Inhabited

/-- What a read-selected slave does with the data line (implied by R77 and R255): `fresh` after its address byte, `driving`
when the master acknowledged the byte it gave last, `released` when the master answered NAK or no read is open. -/
inductive SlaveOut where
  | fresh
  | driving
  | released
  deriving DecidableEq, Repr, Inhabited

/-- A slave's transaction state, drawn where the spec leaves it open (U6, U16); its `ptr` is the draw of log 8 too. -/
structure SlaveDraw where
  sel : Sel
  out : SlaveOut
  first : Bool
  naddr : Fin 3
  hi : Byte
  ptr : MemAddr
  deriving DecidableEq, Repr, Inhabited

/-- The environment's answers at one engine step (R141): `ack` (`true` = ACK) for a transmitted byte, `byte` for a received
one, on a bus whose slaves are unknown; and, on every bus, the draws for what the spec leaves open. -/
structure Answer where
  ack : Bool
  byte : Byte
  slave : SlaveDraw
  deriving DecidableEq, Repr, Inhabited

/-- A move of the bus environment between two actions of the command unit. -/
inductive EnvMove where
  /-- The environment lets the line engine's enabled step happen and answers it (R141). -/
  | engine (a : Answer)
  /-- A slave holds the clock line low, so the enabled step does not happen (R130). -/
  | hold
  /-- The EEPROM's busy period ends: `BUSYDEV <- 0` (R78). -/
  | ready
  deriving DecidableEq, Repr, Inhabited

/-- One host access of the register interface (R44), a reset (R250), or a pause in which the other agents move. -/
inductive HostAction where
  /-- Write `value` at byte offset `offset`. -/
  | write (offset : Nat) (value : Word)
  /-- Read at byte offset `offset`. -/
  | read (offset : Nat)
  /-- Assert and release `rst`. -/
  | reset
  /-- No access. -/
  | idle
  deriving DecidableEq, Repr, Inhabited

/-- A move of any agent but the command unit. -/
inductive Move where
  | env (m : EnvMove)
  | host (a : HostAction)
  deriving DecidableEq, Repr, Inhabited

/-- What happens between two actions of the command unit: any number of moves (R161), and, where the unit waits for a
`tick_ms` pulse (R198), whether the pulse comes (`false`: it never comes, U12). -/
structure Gap where
  moves : List Move
  pulse : Bool
  deriving DecidableEq, Repr, Inhabited

/-- A gap in which only the bus environment moves. -/
structure EnvGap where
  moves : List EnvMove
  pulse : Bool
  deriving DecidableEq, Repr, Inhabited

/-- An environment that does the same in every gap: whether it lets the engine step, whether it ends the busy period, whether
ticks come, and its answers. -/
structure Steady where
  engine : Bool
  ready : Bool
  pulse : Bool
  answer : Answer
  deriving DecidableEq, Repr, Inhabited

/-- What follows the gaps a schedule lists: a steady environment, or free values. -/
inductive Tail where
  | steady (d : Steady)
  | free
  deriving DecidableEq, Repr, Inhabited

/-- The schedule and the environment's inputs still to come (R51, U19): the next gaps, then the tail. -/
structure Sched where
  gaps : List Gap
  tail : Tail
  deriving DecidableEq, Repr, Inhabited

/-- Which slaves are on the bus (R141): the reference EEPROM alone, or unknown ones. -/
inductive BusKind where
  | reference
  | unknown
  deriving DecidableEq, Repr, Inhabited

/-! ### Free values -/

/-- What the bus environment does in the `n`-th gap no schedule lists (U5, U12, U15, U18, U19). -/
opaque Config.freeGap : (n : Nat) → EnvGap

/-- WBUF byte `i` before the host has written it, after the `epoch`-th reset (U11). -/
opaque Config.wbufInit : (epoch i : Nat) → Byte

/-- RBUF byte `i` before a command has written it, after the `epoch`-th reset (U11). -/
opaque Config.rbufInit : (epoch i : Nat) → Byte

/-- The EEPROM's byte at an address nothing has written (R80, U13). -/
opaque Config.eepromInit : (a : Nat) → Byte

/-- The EEPROM's address pointer at the block's reset (R80, U13). -/
opaque Config.eepromPtrInit : MemAddr

/-- The byte at address `a` of a page after a write transaction crossed the page boundary; `n` tells draws apart (R79, U8). -/
opaque Config.pageDraw : (n a : Nat) → Byte

/-- A slave's transaction state after the block was reset inside a transaction (R251, U16). -/
opaque Config.slaveAfterReset : (n : Nat) → SlaveDraw

/-- The pairs of an addressed slave's page buffer after the block was reset inside a transaction (R251, U16). -/
opaque Config.pagebufAfterReset : (n : Nat) → List (Nat × Byte)

/-- DEV_BASE (U17). -/
opaque Config.devBase : BitVec 7

/-- SPIN_LIMIT less one: the limit is at least 1 (U1). -/
opaque Config.spinLimitPred : Nat

/-- CCR_STD (U14). -/
opaque Config.ccrStd : BitVec 16

/-- TRISE_STD (U14). -/
opaque Config.triseStd : BitVec 8

/-- CCR_FAST (U14). -/
opaque Config.ccrFast : BitVec 16

/-- TRISE_FAST (U14). -/
opaque Config.triseFast : BitVec 8

/-- The parameters of the machine at reset: the reference values of R9, and a free value for every OPEN one. -/
def Config.params : Params where
  pageSize := 128
  maxAddress := 0xFFFF
  devBase := Config.devBase
  spinLimit := Config.spinLimitPred + 1
  readyRetries := 100
  readyDelayMs := 5
  bufSize := 65536
  ccrStd := Config.ccrStd
  triseStd := Config.triseStd
  ccrFast := Config.ccrFast
  triseFast := Config.triseFast
  fRefHz := 16000000
  fSclStdHz := 100000
  fSclFastHz := 400000

end Sys2Proof
end

