-- ==== Sys2Proof/Syntax.lean ====
section
/-!
DEFINITION. The twelve commands (30_encoding R95), one constructor per row of spec/opcode_table.json, each with the operands
of its format (R92, R93).
-/

namespace Sys2Proof

/-- The bus speed mode INIT selects: `std` is 0 (100 kHz), `fast` is 1 (400 kHz) (R93, R104). -/
inductive BusMode where
  | std
  | fast
  deriving DecidableEq, Repr, Inhabited

/-- A host command. Operands are unsigned and used as they stand (R93). -/
inductive Instr where
  /-- INIT mode (R162). -/
  | init (mode : BusMode)
  /-- START (R163). -/
  | start
  /-- STOP (R164). -/
  | stop
  /-- WRADDR busaddr (R165): the whole BusAddress byte, direction in bit 0. -/
  | wraddr (busaddr : Byte)
  /-- WRBYTE data (R166). -/
  | wrbyte (data : Byte)
  /-- RDBYTE ack (R167): `true` acknowledges the received byte. -/
  | rdbyte (ack : Bool)
  /-- PROBE (R192). -/
  | probe
  /-- MRD1 addr (R193). -/
  | mrd1 (addr : MemAddr)
  /-- MWR1 addr, data (R194). -/
  | mwr1 (addr : MemAddr) (data : Byte)
  /-- MRDN addr, count in LEN (R195). -/
  | mrdn (addr : MemAddr)
  /-- MWRN addr, length in LEN, data in WBUF (R196). -/
  | mwrn (addr : MemAddr)
  /-- WAITRDY (R197). -/
  | waitrdy
  deriving DecidableEq, Repr, Inhabited

end Sys2Proof
end

