-- ==== Sys2Proof/Machine/State.lean ====
section
/-!
DEFINITION. The machine's state as plain data: everything the spec gives the block (10_state R20 to R52), the reference EEPROM
(20_memory R73), and the model's own fields (parameters, schedule, pending host accesses), and the state after reset.
-/

namespace Sys2Proof.Machine

/-- Bytes by address, a list of cells in rising order of address. -/
abbrev Memory := List Host.Cell

/-- Why a step stops with a fault. The spec names no behaviour that stops the block: every failure is an outcome, a refusal
of the command or a state that stays (R220, R224, U3, U5, U12), and each of them is a next state. So there is no
constructor, and no meaning answers a fault. -/
inductive Fault
  deriving DecidableEq, Repr

/-- Why a step has no meaning. -/
inductive Refusal where
  /-- Raised by `exec`'s arm of a command that has no meaning in the model yet; no command is left so. Safe: the model stops
  where the hardware goes on. -/
  | notModelled (mnemonic : String)
  deriving DecidableEq, Repr

/-- PHASE, the BusLine protocol state (R29); `code` values 0 to 3 are in `Phase.code`. -/
inductive Phase where
  | idle
  | addressPhase
  | dataPhase
  | error
  deriving DecidableEq, Repr, Inhabited

/-- TransferOutcome (R102). -/
inductive TransferOutcome where
  | success
  | addressOutOfRange
  | noAcknowledge
  | timeout
  deriving DecidableEq, Repr, Inhabited

/-- ILLCAUSE, the cause of a refused CMD write (R103). -/
inductive IllCause where
  | none
  | busy
  | opcode
  | noinit
  | phase
  | stoppend
  | len
  deriving DecidableEq, Repr, Inhabited

/-- ES, where in the protocol the line engine is (R132). -/
inductive EngineState where
  | idle
  | sb
  | addrHold
  | tx
  | rx
  | nak
  deriving DecidableEq, Repr, Inhabited

/-- ACT, the symbol the engine has been told to produce and has not completed (R132). -/
inductive Activity where
  | none
  | start
  | rstart
  | txAddr
  | txData
  | rxData
  deriving DecidableEq, Repr, Inhabited

/-- A bus symbol (R98, R122). In `tx b k` and `rx b k`, `k` is the acknowledge bit, `true` for ACK. -/
inductive Symbol where
  /-- `S`. -/
  | start
  /-- `Sr`. -/
  | rstart
  /-- `P`. -/
  | stop
  /-- `B(b, k)`. -/
  | tx (b : Byte) (k : Bool)
  /-- `R(b, k)`. -/
  | rx (b : Byte) (k : Bool)
  deriving DecidableEq, Repr, Inhabited

/-- The waits of a command's sequence, for SEQ (R30). -/
inductive SeqPoint where
  | begun
  | waitStart
  | waitAddress
  | waitTransmit
  | waitReceive
  | waitStop
  | delay
  deriving DecidableEq, Repr, Inhabited

/-- SEQ while a command executes: which command, and the wait its sequence has come to (R30). -/
structure Seq where
  cmd : Instr
  point : SeqPoint
  deriving DecidableEq, Repr, Inhabited

/-- The line engine L0: its registers, flags, hidden state and ports, and the ghost TRACE. -/
structure Engine where
  /-- DR (R21). -/
  dr : Byte
  /-- SHIFT (R22). -/
  shift : Byte
  /-- BITCNT, 0 to 8 (R22). -/
  bitcnt : Fin 9
  /-- SB (R31). -/
  sb : Bool
  /-- ADDR (R32). -/
  addr : Bool
  /-- TXE (R33). -/
  txe : Bool
  /-- RXNE (R34). -/
  rxne : Bool
  /-- STOPP (R35). -/
  stopp : Bool
  /-- AF (R36). -/
  af : Bool
  /-- ACKEN (R37). -/
  acken : Bool
  /-- DIR: `false` the master transmits, `true` it receives (R38). -/
  dir : Bool
  /-- ADDR_SEEN (R47). -/
  addrSeen : Bool
  /-- ES (R48). -/
  es : EngineState
  /-- ACT (R48). -/
  act : Activity
  /-- Port scl_o: `false` pulls the clock line low, `true` releases it (R49). -/
  sclO : Bool
  /-- Port sda_o (R49). -/
  sdaO : Bool
  /-- TRACE, oldest symbol first (R50). -/
  trace : List Symbol
  deriving DecidableEq, Repr

/-- The reference EEPROM, a slave of the environment (R73). -/
structure Eeprom where
  /-- MEM. -/
  mem : Memory
  /-- PTR. -/
  ptr : MemAddr
  /-- BUSYDEV. -/
  busydev : Bool
  /-- SEL. -/
  sel : Sel
  /-- NADDR, 0 to 2. -/
  naddr : Fin 3
  /-- PAGEBUF, the pairs in the order received. -/
  pagebuf : List (Nat × Byte)
  /-- The next byte is the first after a START or repeated START (implied by R74). -/
  first : Bool
  /-- The first of the two memory-address bytes (implied by R75). -/
  hi : Byte
  /-- What it does with the data line when read (implied by R77, R255). -/
  out : SlaveOut
  deriving DecidableEq, Repr

structure State where
  /-- The line engine L0. -/
  eng : Engine
  /-- PHASE (R29). -/
  phase : Phase
  /-- BUSY (R41). -/
  busy : Bool
  /-- INITED (R41, R54). -/
  inited : Bool
  /-- MODE (R41). -/
  mode : BusMode
  /-- CPL (R41). -/
  cpl : Bool
  /-- OUTCOME (R41, R102). -/
  outcome : TransferOutcome
  /-- ILL (R41). -/
  ill : Bool
  /-- ILLCAUSE (R41, R103). -/
  illcause : IllCause
  /-- RESULT (R23). -/
  result : Byte
  /-- LEN (R24). -/
  len : Count
  /-- DONE (R25). -/
  doneCount : Count
  /-- WBUF (R26): the bytes the host has written since reset. -/
  wbuf : Memory
  /-- RBUF (R27): the bytes commands have stored since reset. -/
  rbuf : Memory
  /-- CCR (R43). -/
  ccr : BitVec 16
  /-- TRISE (R43). -/
  trise : BitVec 8
  /-- CUR (R28). -/
  cur : Count
  /-- IDX (R28). -/
  idx : Count
  /-- CHUNK (R28). -/
  chunk : Count
  /-- RETRY (R28). -/
  retry : Nat
  /-- SPIN (R28). -/
  spin : Nat
  /-- TICKS (R28). -/
  ticks : Nat
  /-- ERR (R28). -/
  err : TransferOutcome
  /-- SEQ (R30); none when no command executes. -/
  seq : Option Seq
  /-- The reference EEPROM (R73), part of the environment. -/
  ee : Eeprom
  /-- The model's own: which slaves are on the bus (R141). -/
  bus : BusKind
  /-- The model's own: the schedule and the environment's inputs still to come (R51). -/
  sched : Sched
  /-- The model's own: how many free values have been drawn. -/
  draws : Nat
  /-- The model's own: how many resets there have been. -/
  epoch : Nat
  /-- The model's own: host accesses still to come, the next one first (R7, R44). -/
  host : List HostAction
  /-- The model's own: the read data the host interface gave last (R49). -/
  rdata : Word
  /-- The parameters of R9, fixed for the machine. -/
  cfg : Params
  deriving DecidableEq, Repr

/-- The line engine at reset (R52). -/
def Engine.reset : Engine where
  dr := 0
  shift := 0
  bitcnt := 0
  sb := false
  addr := false
  txe := false
  rxne := false
  stopp := false
  af := false
  acken := false
  dir := false
  addrSeen := false
  es := .idle
  act := .none
  sclO := true
  sdaO := true
  trace := []

/-- The reference EEPROM at the block's first reset: its content and pointer are free values, and no transaction is open and it
is not busy, which is the clean-start launch premise R80 names. DESIGN CHOICE (log 5, log 6). -/
def Eeprom.atReset : Eeprom where
  mem := []
  ptr := Config.eepromPtrInit
  busydev := false
  sel := .none
  naddr := 0
  pagebuf := []
  first := false
  hi := 0
  out := .released

/-- The machine right after reset (R52, R54, R250). -/
def State.reset : State where
  eng := Engine.reset
  phase := .idle
  busy := false
  inited := false
  mode := .std
  cpl := false
  outcome := .success
  ill := false
  illcause := .none
  result := 0
  len := 0
  doneCount := 0
  wbuf := []
  rbuf := []
  ccr := 0
  trise := 0
  cur := 0
  idx := 0
  chunk := 0
  retry := 0
  spin := 0
  ticks := 0
  err := .success
  seq := none
  ee := Eeprom.atReset
  bus := .unknown
  sched := ⟨[], .free⟩
  draws := 0
  epoch := 0
  host := []
  rdata := 0
  cfg := Config.params

end Sys2Proof.Machine
end

