-- ==== Sys2Proof/Machine/Memory.lean ====
section
/-!
DEFINITION. Byte memories held as cells in rising order of address: the EEPROM's array MEM (20_memory R73) and the host
buffers WBUF and RBUF (10_state R26, R27).
-/

namespace Sys2Proof.Machine

/-- The canonical form: addresses strictly rising. An address that is not listed has no value of its own (`Memory.read`
answers none), so no listed entry equals what an unlisted address reads as. -/
abbrev Memory.wf (m : Memory) : Prop := m.Pairwise (fun x y => x.1 < y.1)

/-- The byte listed at an address; none where nothing has been written, whose byte is then a free value (U11, U13). -/
def Memory.read : Memory → Nat → Option Byte
  | [], _ => none
  | (b, v) :: m, a => if a = b then some v else Memory.read m a

/-- Write one byte, keeping the canonical form. -/
def Memory.write : Memory → Nat → Byte → Memory
  | [], a, v => [(a, v)]
  | (b, w) :: m, a, v =>
    if a < b then (a, v) :: (b, w) :: m
    else if a = b then (a, v) :: m
    else (b, w) :: Memory.write m a v

/-- `MemRead(a, 1)` of the EEPROM: `MEM[a]`, arbitrary but fixed where nothing has been written (R73, R80). -/
def Eeprom.memRead (e : Eeprom) (a : Nat) : Byte := (Memory.read e.mem a).getD (Config.eepromInit a)

/-- `MemWrite(a, 1, v)` of the EEPROM: MEM has the addresses 0 to MAX_ADDRESS and no other (R73). DESIGN CHOICE: a byte for an address
above MAX_ADDRESS, which only a write the host builds itself can carry (R75), is stored nowhere; the write cycle starts all the same
(R76, log 33). -/
def Eeprom.memWrite (c : Params) (a : Nat) (v : Byte) (e : Eeprom) : Eeprom :=
  if a ≤ c.maxAddress then { e with mem := Memory.write e.mem a v } else e

/-- `WBUF[i]` (R26). -/
def State.wbufRead (s : State) (i : Nat) : Byte := (Memory.read s.wbuf i).getD (Config.wbufInit s.epoch i)

/-- `RBUF[i]` (R27). -/
def State.rbufRead (s : State) (i : Nat) : Byte := (Memory.read s.rbuf i).getD (Config.rbufInit s.epoch i)

end Sys2Proof.Machine
end

