-- ==== Sys2Proof/Machine/Operands.lean ====
section
/-!
DEFINITION. Operands and arithmetic: bus-address bytes (20_memory R62), memory-address bytes (R64), the range check
(42_paged_memory_ops R199) and the page and chunk arithmetic (R67, R200). All of it is on natural numbers without wrap (R10, R199).
-/

namespace Sys2Proof.Machine

/-- The BusAddress byte `{id[6:0], dir}` (R62). -/
def busAddress (id : BitVec 7) (dir : Bool) : Byte := id ++ BitVec.ofBool dir

/-- DEVW, the EEPROM's address byte for writing (R62). -/
def devW (c : Params) : Byte := busAddress c.devBase false

/-- DEVR, the EEPROM's address byte for reading (R62). -/
def devR (c : Params) : Byte := busAddress c.devBase true

/-- The 7-bit slave identifier of a BusAddress byte, bits 7:1 (R62). -/
def slaveId (b : Byte) : BitVec 7 := b.extractLsb' 1 7

/-- The direction bit of a BusAddress byte, bit 0: `true` reads (R62). -/
def directionBit (b : Byte) : Bool := b.getLsbD 0

/-- `a[15:8]`, the memory-address byte sent first (R64). -/
def addrHigh (a : MemAddr) : Byte := a.extractLsb' 8 8

/-- `a[7:0]`, the memory-address byte sent second (R64). -/
def addrLow (a : MemAddr) : Byte := a.extractLsb' 0 8

/-- `remaining(a) = PAGE_SIZE - (a mod PAGE_SIZE)`, the bytes to the next page boundary (R67, R200). -/
def remaining (pageSize a : Nat) : Nat := pageSize - a % pageSize

/-- A transfer of `n` bytes from `a` leaves the device's address range (R199): with `n = 0` when `a` itself does. -/
def outOfRange (c : Params) (a n : Nat) : Bool :=
  if n = 0 then decide (c.maxAddress < a) else decide (c.maxAddress < a + n - 1)

/-- The chunks (start, length) of a write of `n` bytes at `a` (R196, R200): each as long as the page and the input allow. `fuel`
bounds their number; every chunk has at least one byte, so `n` is enough. -/
def chunksFrom (pageSize : Nat) : (fuel a n : Nat) → List (Nat × Nat)
  | 0, _, _ => []
  | fuel + 1, a, n =>
    if n = 0 then []
    else
      (a, min (remaining pageSize a) n) ::
        chunksFrom pageSize fuel (a + min (remaining pageSize a) n) (n - min (remaining pageSize a) n)

/-- The chunks of MWRN with address `a` and LEN `n` (R196). -/
def chunks (pageSize a n : Nat) : List (Nat × Nat) := chunksFrom pageSize n a n

end Sys2Proof.Machine
end

