-- ==== Sys2Proof/Machine/Eeprom.lean ====
section
/-!
DEFINITION. The reference EEPROM (20_memory R73 to R80), a slave of the bus environment: what it does on START, STOP, a byte
the master transmits and a byte the master receives. Where the spec leaves its behaviour open (U6, U7, U8), it takes the
draws of the environment's `Answer` or a free value.
-/

namespace Sys2Proof.Machine

/-- The slave's transaction state becomes whatever the environment draws (U6). -/
def Eeprom.draw (d : SlaveDraw) (e : Eeprom) : Eeprom :=
  { e with sel := d.sel, out := d.out, first := d.first, naddr := d.naddr, hi := d.hi, ptr := d.ptr }

/-- START or repeated START seen by the device: not selected, a pending write discarded, the next byte is an address byte
(R74). -/
def Eeprom.begin (e : Eeprom) : Eeprom :=
  { e with sel := .none, pagebuf := [], first := true, out := .released }

/-- START or repeated START: a device that drives the data line, because the master acknowledged the byte it gave last, may
or may not see it, and its state afterwards is a draw (R124, R255, U6). -/
def Eeprom.onStart (ans : Answer) (e : Eeprom) : Eeprom :=
  if e.out = .driving then e.draw ans.slave else e.begin

/-- PTR advanced inside its page (R75). -/
def advanceInPage (pageSize : Nat) (p : MemAddr) : MemAddr :=
  BitVec.ofNat 16 (p.toNat / pageSize * pageSize + (p.toNat + 1) % pageSize)

/-- A byte in write direction: high address byte, low address byte, then data (R75). -/
def Eeprom.takeByte (c : Params) (b : Byte) (e : Eeprom) : Eeprom :=
  match e.naddr with
  | 0 => { e with hi := b, naddr := 1 }
  | 1 => { e with ptr := e.hi ++ b, naddr := 2 }
  | 2 => { e with pagebuf := e.pagebuf ++ [(e.ptr.toNat, b)], ptr := advanceInPage c.pageSize e.ptr }

/-- The byte after a START: the device answers its own identifier when it is not busy (R74). -/
def Eeprom.onAddress (c : Params) (b : Byte) (e : Eeprom) : Bool × Eeprom :=
  if slaveId b = c.devBase ∧ e.busydev = false then
    if directionBit b then (true, { e with first := false, sel := .read, out := .fresh })
    else (true, { e with first := false, sel := .write, naddr := 0, pagebuf := [], out := .released })
  else (false, { e with first := false, sel := .none })

/-- A byte the master transmits: the acknowledge bit (`true` = ACK) and the device afterwards (R74, R75). A device that is
read-selected and sees the master transmit answers as the environment draws (reachable only from a U6 draw). -/
def Eeprom.onByte (c : Params) (ans : Answer) (b : Byte) (e : Eeprom) : Bool × Eeprom :=
  if e.first then e.onAddress c b
  else
    match e.sel with
    | .none => (false, e)
    | .write => (true, e.takeByte c b)
    | .read => (ans.ack, e)

/-- PTR after a byte was read: the next address, from MAX_ADDRESS to 0 (R77). Where PTR + 1 does not fit 16 bits and no wrap is stated,
PTR being 0xFFFF above MAX_ADDRESS (R10), the new PTR is the environment's draw `d` (DESIGN CHOICE, log 8). -/
def nextReadPtr (c : Params) (d p : MemAddr) : MemAddr :=
  if p.toNat = c.maxAddress then 0
  else if c.maxAddress < p.toNat ∧ p = 0xFFFF then d
  else p + 1

/-- A byte the master receives and answers with `acked` (R77). An address above MAX_ADDRESS has no byte, and a device that is not
driving the line gives none: the byte is then the environment's draw (U7). Whether PTR advances when the master receives on after its
NAK, the device still selected for reading, is not said either: PTR is a draw too (DESIGN CHOICE, log 8). -/
def Eeprom.onRead (c : Params) (ans : Answer) (acked : Bool) (e : Eeprom) : Byte × Eeprom :=
  if e.sel = .read then
    if e.out = .released then (ans.byte, { e with ptr := ans.slave.ptr })
    else
      (if e.ptr.toNat ≤ c.maxAddress then e.memRead e.ptr.toNat else ans.byte,
        { e with ptr := nextReadPtr c ans.slave.ptr e.ptr, out := if acked then .driving else .released })
  else (ans.byte, e)

/-- The pairs of the page buffer stored in order, a later pair for the same address winning (R76). -/
def Eeprom.storePairs (c : Params) (ps : List (Nat × Byte)) (e : Eeprom) : Eeprom :=
  ps.foldl (fun e p => e.memWrite c p.1 p.2) e

/-- A write transaction crossed the page boundary: it carried more data bytes than remained in the page of the first (R79). -/
def crossesPage (c : Params) : List (Nat × Byte) → Bool
  | [] => false
  | p :: ps => decide (remaining c.pageSize p.1 < (p :: ps).length)

/-- Every byte of the page that holds `a` becomes a free value (R79, U8). -/
def Eeprom.redrawPage (c : Params) (n a : Nat) (e : Eeprom) : Eeprom :=
  let base := a / c.pageSize * c.pageSize
  (List.range c.pageSize).foldl (fun e j => e.memWrite c (base + j) (Config.pageDraw n (base + j))) e

/-- The write cycle a STOP starts when the page buffer holds data (R76); the page's content is open when the transaction
crossed its boundary (U8). `n` tells draws apart. -/
def Eeprom.commit (c : Params) (n : Nat) (e : Eeprom) : Eeprom :=
  match e.pagebuf with
  | [] => e
  | p :: ps =>
    if crossesPage c (p :: ps) then { e.redrawPage c n p.1 with busydev := true }
    else { e.storePairs c (p :: ps) with busydev := true }

/-- The device no longer selected: no transaction open. -/
def Eeprom.deselect (e : Eeprom) : Eeprom :=
  { e with sel := .none, first := false, out := .released, pagebuf := [] }

/-- STOP: a write transaction with data starts a write cycle, then the device is not selected (R76). A device that drives the
data line after a byte the master acknowledged may not see it, and its state afterwards is a draw (R127, R255, U6). R76 gives the effect of
STOP with SEL = write only: that STOP with SEL = read, right after an acknowledged DEVR too, is seen and only deselects the device, PTR and
memory kept, is the model's choice (DESIGN CHOICE, log 34). -/
def Eeprom.onStop (c : Params) (n : Nat) (ans : Answer) (e : Eeprom) : Eeprom :=
  if e.out = .driving then e.draw ans.slave
  else if e.sel = .write then (e.commit c n).deselect
  else e.deselect

/-- The block was reset inside a transaction: the slave's transaction state is a free value (R251, U16). -/
def Eeprom.onBlockReset (n : Nat) (e : Eeprom) : Eeprom :=
  { e.draw (Config.slaveAfterReset n) with pagebuf := Config.pagebufAfterReset n }

end Sys2Proof.Machine
end

