-- ==== Sys2Proof/Machine/Flags.lean ====
section
/-!
DEFINITION. The codes and layouts of the host-visible status: FLAGS (10_state R42), STATUS (R41), the codes of PHASE (R29),
OUTCOME (R102) and ILLCAUSE (R103), and the flag sample of `read_sr1()` (40_line_engine R120).
-/

namespace Sys2Proof.Machine

/-- PHASE as two bits (R29). -/
def Phase.code : Phase → BitVec 2
  | .idle => 0
  | .addressPhase => 1
  | .dataPhase => 2
  | .error => 3

/-- OUTCOME as two bits (R102). -/
def TransferOutcome.code : TransferOutcome → BitVec 2
  | .success => 0
  | .addressOutOfRange => 1
  | .noAcknowledge => 2
  | .timeout => 3

/-- ILLCAUSE as three bits (R103). -/
def IllCause.code : IllCause → BitVec 3
  | .none => 0
  | .busy => 1
  | .opcode => 2
  | .noinit => 3
  | .phase => 4
  | .stoppend => 5
  | .len => 6

/-- MODE as a bit: 0 standard, 1 fast (R41). -/
def modeBit : BusMode → Bool
  | .std => false
  | .fast => true

/-- FLAGS (R42): bit 0 SB, 1 ADDR, 2 TXE, 3 RXNE, 4 STOPP, 5 AF, 6 ACKEN, 7 DIR, the rest 0. -/
def flagsWord (e : Engine) : Word :=
  (0 : BitVec 24) ++ BitVec.ofBool e.dir ++ BitVec.ofBool e.acken ++ BitVec.ofBool e.af ++ BitVec.ofBool e.stopp ++
    BitVec.ofBool e.rxne ++ BitVec.ofBool e.txe ++ BitVec.ofBool e.addr ++ BitVec.ofBool e.sb

/-- STATUS (R41): bit 0 BUSY, 1 INITED, 2 MODE, 4:3 PHASE, 5 CPL, 7:6 OUTCOME, 8 ILL, 11:9 ILLCAUSE, the rest 0. -/
def statusWord (s : State) : Word :=
  (0 : BitVec 20) ++ s.illcause.code ++ BitVec.ofBool s.ill ++ s.outcome.code ++ BitVec.ofBool s.cpl ++ s.phase.code ++
    BitVec.ofBool (modeBit s.mode) ++ BitVec.ofBool s.inited ++ BitVec.ofBool s.busy

/-- The sample `read_sr1()` returns (R120, R135). -/
structure Sample where
  sb : Bool
  addr : Bool
  txe : Bool
  rxne : Bool
  stopp : Bool
  af : Bool
  deriving DecidableEq, Repr

/-- The flags as `read_sr1()` samples them (R135). -/
def Engine.sample (e : Engine) : Sample := ⟨e.sb, e.addr, e.txe, e.rxne, e.stopp, e.af⟩

/-- What `read_sr2()` returns (R135): DIR. `bl_write_address` makes the read for its effect and drops the value (R165). -/
def Engine.sr2 (e : Engine) : Bool := e.dir

end Sys2Proof.Machine
end

