-- ==== Sys2Proof/Machine/Lines.lean ====
section
/-!
DEFINITION. The line level (40_line_engine section 2): the levels the block drives on the clock and data lines for each
symbol, the levels the slaves drive, the levels on the lines, and what the block reads off them. The block at symbol level (R8)
completes a symbol in one engine step; the levels the symbol goes through are a function of the symbol (R123 to R129), and the ports
hold the last of them. PRESUMED: the line level is the spec's general knowledge of the bus (G1 to G4; log 16).
-/

namespace Sys2Proof.Machine

/-- What one device drives, or the levels on the two lines: `true` is released or high, `false` low (R49, R121). -/
structure Lines where
  scl : Bool
  sda : Bool
  deriving DecidableEq, Repr

/-- The level of an open-drain line: low when the block or any other device pulls it low (R121). -/
def wiredLevel (own : Bool) (others : List Bool) : Bool := own && others.all id

/-- The levels on the lines, `scl_i` and `sda_i`, when the block drives `own` and the slaves drive `slaves` (R49, R121). -/
def onLines (own : Lines) (slaves : List Lines) : Lines :=
  ⟨wiredLevel own.scl (slaves.map Lines.scl), wiredLevel own.sda (slaves.map Lines.sda)⟩

/-- The input ports `scl_i`, `sda_i` (R49), the slaves driving `slaves`. They are no state: the block's outputs are, and what the
slaves drive is the environment's (R51). -/
def Engine.portsIn (e : Engine) (slaves : List Lines) : Lines := onLines ⟨e.sclO, e.sdaO⟩ slaves

/-- Receiving a bit (R126): the block has released both lines, a slave drives `x` on the data line; the bit is `sda_i`. -/
def receivedBit (x : Bool) : Bool := (onLines ⟨true, true⟩ [⟨true, x⟩]).sda

/-- The clock line rises when the block releases it, unless a slave holds it low (`clock = false`): `scl_i` (R130). -/
def clockRises (clock : Bool) : Bool := (onLines ⟨true, true⟩ [⟨clock, true⟩]).scl

/-- The acknowledge bit the level of the data line in the ninth slot means: ACK when low (R66, R128). -/
def ackOfLevel (z : Bool) : Bool := !z

/-- Transmit one bit (R125); receiving a bit drives the same levels with the data line released (R126). -/
def bitLevels (x : Bool) : List Lines := [⟨false, x⟩, ⟨true, x⟩, ⟨false, x⟩]

/-- The bits of a byte in the order they go on the wire, bit 7 first (R65). -/
def bitsMsbFirst (b : Byte) : List Bool := [b[7], b[6], b[5], b[4], b[3], b[2], b[1], b[0]]

/-- The levels the block drives for a symbol (R123, R124, R127, R128, R129). -/
def Symbol.levels : Symbol → List Lines
  | .start => [⟨true, false⟩, ⟨false, false⟩]
  | .rstart => [⟨false, true⟩, ⟨true, true⟩, ⟨true, false⟩, ⟨false, false⟩]
  | .stop => [⟨false, false⟩, ⟨true, false⟩, ⟨true, true⟩]
  | .tx b _ => (bitsMsbFirst b).flatMap bitLevels ++ bitLevels true
  | .rx _ k => (List.replicate 8 (bitLevels true)).flatten ++ bitLevels (!k) ++ [⟨false, true⟩]

/-- A bit shifted into SHIFT: the bit received first ends up as bit 7 (R22, R129). -/
def shiftIn (b : Byte) (x : Bool) : Byte := b.extractLsb' 0 7 ++ BitVec.ofBool x

/-- Eight received bits, the first being bit 7 and the last bit 0 (R129). -/
def byteOfBits (bits : List Bool) : Byte := bits.foldl shiftIn 0

/-- The byte the block receives while a slave puts the byte `v` on the data line, bit 7 first (R65, R126, R129). -/
def receivedByte (v : Byte) : Byte := byteOfBits ((bitsMsbFirst v).map receivedBit)

/-- The acknowledge bit the block receives in the ninth slot, `k` being the slave's answer: a slave that acknowledges pulls the data
line low, and with no such slave the line stays high (R61, R66, R128). -/
def receivedAck (k : Bool) : Bool := ackOfLevel (receivedBit (!k))

/-- What the slaves drive while the block drives a symbol's levels, level by level: the acknowledge bit of a transmitted byte, the
eight bits of a received one, nothing else (R66, R128, R129). -/
def Symbol.slaveLevels : Symbol → List Lines
  | .start => List.replicate 2 ⟨true, true⟩
  | .rstart => List.replicate 4 ⟨true, true⟩
  | .stop => List.replicate 3 ⟨true, true⟩
  | .tx _ k => List.replicate 24 ⟨true, true⟩ ++ List.replicate 3 ⟨true, !k⟩
  | .rx b _ => (bitsMsbFirst b).flatMap (fun x => List.replicate 3 ⟨true, x⟩) ++ List.replicate 4 ⟨true, true⟩

/-- The levels on the lines during a symbol (R121). -/
def Symbol.wireLevels (sym : Symbol) : List Lines :=
  List.zipWith (fun own slaves => onLines own [slaves]) sym.levels sym.slaveLevels

/-- The levels the block drove since reset: both lines released, then the levels of every symbol of the trace. -/
def traceLevels (t : List Symbol) : List Lines := ⟨true, true⟩ :: t.flatMap Symbol.levels

/-- The data line sampled at each rising clock edge of a list of levels, `l` being the levels before it (R125, R126). -/
def risingSamples : Lines → List Lines → List Bool
  | _, [] => []
  | l, m :: ms => if !l.scl && m.scl then m.sda :: risingSamples m ms else risingSamples m ms

/-- The ports after a symbol: the last levels it drives (R142). -/
def linesAfter (sym : Symbol) : Lines := sym.levels.getLastD ⟨true, true⟩

/-- The engine has put a symbol on the wire: `emit(s)` (R11), and the ports hold the symbol's last levels. -/
def Engine.emit (sym : Symbol) (e : Engine) : Engine :=
  { e with trace := e.trace ++ [sym], sclO := (linesAfter sym).scl, sdaO := (linesAfter sym).sda }

end Sys2Proof.Machine
end

