-- ==== Sys2Proof/Machine/LineEngine.lean ====
section
/-!
DEFINITION. L0, the line engine (40_line_engine section 3): the seven accesses of its interface (R120, R133 to R140), which act
on the engine alone, and the engine steps (R141), which put one symbol on the wire and ask the bus environment for its
answer.
-/

namespace Sys2Proof.Machine

/-! ### The accesses L1 uses -/

/-- `assert_start()` (R133): AF is cleared; a START is told to the idle engine, a repeated START to one with a transaction
open. Outside those states nothing is started (R140). -/
def Engine.assertStart (e : Engine) : Engine :=
  if e.es = .idle ∧ e.act = .none ∧ e.stopp = false then { e with af := false, act := .start }
  else if (e.es = .sb ∨ e.es = .tx ∨ e.es = .rx) ∧ e.act = .none then { e with af := false, act := .rstart }
  else { e with af := false }

/-- `assert_stop()` (R139): nothing with no transaction open, a START not yet on the wire is cancelled, otherwise a STOP is
pending. -/
def Engine.assertStop (e : Engine) : Engine :=
  if e.es = .idle ∧ e.act = .none then e
  else if e.es = .idle ∧ e.act = .start then { e with act := .none }
  else { e with stopp := true }

/-- `load_tx(b)`: the address byte (R134), a data byte (R136), nothing outside their preconditions (R140). -/
def Engine.loadTx (b : Byte) (e : Engine) : Engine :=
  if e.es = .sb ∧ e.act = .none then { e with dr := b, sb := false, act := .txAddr }
  else if e.es = .tx ∧ e.act = .none ∧ e.txe = true then { e with dr := b, txe := false, act := .txData }
  else e

/-- `set_ack_mode(k)` (R137): ACKEN is written; in receiver mode one reception is armed. -/
def Engine.setAckMode (k : Bool) (e : Engine) : Engine :=
  if e.es = .rx ∧ e.act = .none ∧ e.rxne = false then { e with acken := k, act := .rxData }
  else { e with acken := k }

/-- `read_sr1()` (R135): the sample is `Engine.sample`; seeing ADDR = 1 sets ADDR_SEEN. -/
def Engine.readSr1 (e : Engine) : Engine := if e.addr then { e with addrSeen := true } else e

/-- `read_sr2()` (R135): the second step of the clear of ADDR; what it returns is `Engine.sr2`. -/
def Engine.readSr2 (e : Engine) : Engine :=
  if e.addrSeen then
    if e.dir then { e with addr := false, addrSeen := false, es := .rx }
    else { e with addr := false, addrSeen := false, es := .tx, txe := true }
  else e

/-- `read_dr()` (R138): it returns DR, `e.dr`, and clears RXNE. -/
def Engine.readDr (e : Engine) : Engine := { e with rxne := false }

/-! ### The bus environment's side of a step -/

/-- The slaves see a START or repeated START. -/
def State.slaveStart (ans : Answer) (s : State) : Eeprom :=
  match s.bus with
  | .reference => s.ee.onStart ans
  | .unknown => s.ee

/-- The slaves see a STOP. -/
def State.slaveStop (ans : Answer) (s : State) : Eeprom :=
  match s.bus with
  | .reference => s.ee.onStop s.cfg s.draws ans
  | .unknown => s.ee

/-- `env.ack(b)` (R141) and the slaves afterwards: the reference EEPROM's answer, or any answer on an unknown bus, as the block
reads it off the data line in the ninth slot (R128). -/
def State.slaveByte (ans : Answer) (b : Byte) (s : State) : Bool × Eeprom :=
  match s.bus with
  | .reference => (receivedAck (s.ee.onByte s.cfg ans b).1, (s.ee.onByte s.cfg ans b).2)
  | .unknown => (receivedAck ans.ack, s.ee)

/-- `env.byte()` (R141) and the slaves afterwards, `acked` being the master's acknowledge bit: the byte a slave puts on the data
line, as the block receives it bit by bit (R129). -/
def State.slaveRead (ans : Answer) (acked : Bool) (s : State) : Byte × Eeprom :=
  match s.bus with
  | .reference => (receivedByte (s.ee.onRead s.cfg ans acked).1, (s.ee.onRead s.cfg ans acked).2)
  | .unknown => (receivedByte ans.byte, s.ee)

/-! ### The engine steps -/

/-- START on the wire (R133). -/
def Engine.afterStart (e : Engine) : Engine :=
  { e.emit .start with sb := true, es := .sb, act := .none }

/-- Repeated START on the wire (R133). -/
def Engine.afterRstart (e : Engine) : Engine :=
  { e.emit .rstart with
    sb := true, addr := false, txe := false, rxne := false, addrSeen := false, es := .sb, act := .none }

/-- SHIFT and BITCNT after a byte was transmitted: no bit is left (R128). DESIGN CHOICE for SHIFT (log 15). -/
def Engine.shiftedOut (e : Engine) : Engine := { e with shift := 0, bitcnt := 0 }

/-- The address byte on the wire with its acknowledge bit (R134). -/
def Engine.afterTxAddr (k : Bool) (e : Engine) : Engine :=
  if k then
    { (e.emit (.tx e.dr true)).shiftedOut with
      act := .none, addr := true, dir := directionBit e.dr, es := .addrHold }
  else { (e.emit (.tx e.dr false)).shiftedOut with act := .none, af := true, es := .nak }

/-- A data byte on the wire with its acknowledge bit (R136). -/
def Engine.afterTxData (k : Bool) (e : Engine) : Engine :=
  if k then { (e.emit (.tx e.dr true)).shiftedOut with act := .none, txe := true }
  else { (e.emit (.tx e.dr false)).shiftedOut with act := .none, af := true, es := .nak }

/-- A byte received, the master's acknowledge bit being ACKEN (R137). DESIGN CHOICE for SHIFT and BITCNT (log 15). -/
def Engine.afterRx (v : Byte) (e : Engine) : Engine :=
  { e.emit (.rx v e.acken) with shift := v, bitcnt := 0, dr := v, rxne := true, act := .none }

/-- STOP on the wire (R139): AF, ACKEN and DIR stay. -/
def Engine.afterStop (e : Engine) : Engine :=
  { e.emit .stop with
    sb := false, addr := false, txe := false, rxne := false, addrSeen := false, stopp := false, es := .idle }

/-- The engine step, if one is enabled (R141): the activity told to the engine, else a pending STOP, else nothing. -/
def engineStep (ans : Answer) (s : State) : State :=
  match s.eng.act with
  | .start => { s with eng := s.eng.afterStart, ee := s.slaveStart ans }
  | .rstart => { s with eng := s.eng.afterRstart, ee := s.slaveStart ans }
  | .txAddr =>
    { s with eng := s.eng.afterTxAddr (s.slaveByte ans s.eng.dr).1, ee := (s.slaveByte ans s.eng.dr).2 }
  | .txData =>
    { s with eng := s.eng.afterTxData (s.slaveByte ans s.eng.dr).1, ee := (s.slaveByte ans s.eng.dr).2 }
  | .rxData =>
    { s with
      eng := s.eng.afterRx (s.slaveRead ans s.eng.acken).1, ee := (s.slaveRead ans s.eng.acken).2 }
  | .none =>
    if s.eng.stopp then { s with eng := s.eng.afterStop, ee := s.slaveStop ans, draws := s.draws + 1 } else s

/-- The engine tries its enabled step while a slave's clock output is `clock`: a clock line held low keeps it waiting for
`scl_i = 1`, so the symbol is not completed yet (R130, R141). -/
def engineTry (clock : Bool) (ans : Answer) (s : State) : State := if clockRises clock then engineStep ans s else s

end Sys2Proof.Machine
end

