-- ==== Sys2Proof/Machine/Ops.lean ====
section
/-!
DEFINITION. The operations every command shares: reset (70_reset_and_hazards R250), host accesses (10_state R44, R45), what
happens between two actions of the command unit (a gap), the wait on a flag (41_busline_ops R161), the delay
(42_paged_memory_ops R198), and the life of a command (R97, R160): the refusal, the acceptance and the finish, which stand
where a processor takes an exception and returns from one (60_exceptions R220, R224).
-/

namespace Sys2Proof.Machine

/-! ### Reset -/

/-- A transaction is open on the wire, or a symbol is pending. -/
def Engine.inTransaction (e : Engine) : Bool := decide (e.es ≠ .idle ∨ e.act ≠ .none)

/-- The reference EEPROM across a reset of the block: untouched, but for its transaction state when a transaction was open on
its bus (R251, U16). -/
def State.slaveReset (s : State) : Eeprom :=
  match s.bus with
  | .reference => if s.eng.inTransaction then s.ee.onBlockReset s.draws else s.ee
  | .unknown => s.ee

/-- `rst` (R250): every piece of the block's state takes its reset value (R52); the slaves, the schedule, the pending host
accesses and the parameters are not the block's. The buffers hold no defined value again (U11). -/
def resetBlock (s : State) : State :=
  { State.reset with
    ee := s.slaveReset, bus := s.bus, sched := s.sched, draws := s.draws + 1, epoch := s.epoch + 1, host := s.host,
    rdata := s.rdata, cfg := s.cfg }

/-! ### Host accesses -/

/-- Byte offset of CMD (R40, R44). -/
def cmdOffset : Nat := 0x00000

/-- Byte offset of LEN (R24, R44). -/
def lenOffset : Nat := 0x00010

/-- Byte offset of WBUF[0] (R44). -/
def wbufOffset : Nat := 0x10000

/-- Byte offset of RBUF[0] (R44). -/
def rbufOffset : Nat := 0x20000

/-- What a host read at a byte offset returns (R44): the register, the buffer byte, or 0. -/
def regRead (s : State) (off : Nat) : Word :=
  if off = 0x00004 then statusWord s
  else if off = 0x00008 then flagsWord s.eng
  else if off = 0x0000C then s.result.setWidth 32
  else if off = lenOffset then s.len.setWidth 32
  else if off = 0x00014 then s.doneCount.setWidth 32
  else if off = 0x00018 then s.ccr.setWidth 32
  else if off = 0x0001C then s.trise.setWidth 32
  else if wbufOffset ≤ off ∧ off < wbufOffset + s.cfg.bufSize then (s.wbufRead (off - wbufOffset)).setWidth 32
  else if rbufOffset ≤ off ∧ off < rbufOffset + s.cfg.bufSize then (s.rbufRead (off - rbufOffset)).setWidth 32
  else 0

/-- A host read: the read data, and no other effect (R70). -/
def hostRead (off : Nat) (s : State) : State := { s with rdata := regRead s off }

/-- A host write to any offset but CMD (R44, R45): LEN takes the low 17 bits, a WBUF byte the low 8; while a command executes,
and at every other offset, nothing. -/
def hostWrite (off : Nat) (v : Word) (s : State) : State :=
  if s.busy then s
  else if off = lenOffset then { s with len := v.setWidth 17 }
  else if wbufOffset ≤ off ∧ off < wbufOffset + s.cfg.bufSize then
    { s with wbuf := Memory.write s.wbuf (off - wbufOffset) (v.setWidth 8) }
  else s

/-! ### The life of a command -/

/-- `refuse(c)` (R97): ILL and its cause, and nothing else. -/
def refuse (c : IllCause) (s : State) : State := { s with ill := true, illcause := c }

/-- Acceptance (R97, R160). -/
def accept (i : Instr) (s : State) : State :=
  { s with ill := false, illcause := .none, cpl := false, busy := true, seq := some ⟨i, .begun⟩ }

/-- `finish(e)` (R160). -/
def finish (e : TransferOutcome) (s : State) : State :=
  { s with outcome := e, cpl := true, busy := false, seq := none }

/-- SEQ comes to another of its waits (R30). -/
def seqAt (p : SeqPoint) (s : State) : State := { s with seq := s.seq.map (fun q => { q with point := p }) }

/-- A command of L2: PagedMemoryDevice (R95). -/
def isPaged : Instr → Bool
  | .probe | .mrd1 _ | .mwr1 _ _ | .mrdn _ | .mwrn _ | .waitrdy => true
  | .init _ | .start | .stop | .wraddr _ | .wrbyte _ | .rdbyte _ => false

/-- The opcode is INIT. -/
def isInit : Instr → Bool
  | .init _ => true
  | .start | .stop | .wraddr _ | .wrbyte _ | .rdbyte _ | .probe | .mrd1 _ | .mwr1 _ _ | .mrdn _ | .mwrn _ | .waitrdy => false

/-- The table of R97: the PHASE values, and the direction, in which a command is accepted. -/
def phaseAllows (i : Instr) (s : State) : Bool :=
  match i with
  | .init _ => s.phase == .idle
  | .start => s.phase == .idle || s.phase == .addressPhase || s.phase == .dataPhase
  | .stop => true
  | .wraddr _ => s.phase == .addressPhase
  | .wrbyte _ => s.phase == .dataPhase && !s.eng.dir
  | .rdbyte _ => s.phase == .dataPhase && s.eng.dir
  | .probe | .mrd1 _ | .mwr1 _ _ | .mrdn _ | .mwrn _ | .waitrdy => s.phase == .idle

/-- The commands check 5 of R97 concerns: START with PHASE Idle, and every L2 command. -/
def reusesBus (i : Instr) (s : State) : Bool :=
  match i with
  | .start => s.phase == .idle
  | .probe | .mrd1 _ | .mwr1 _ _ | .mrdn _ | .mwrn _ | .waitrdy => true
  | .init _ | .stop | .wraddr _ | .wrbyte _ | .rdbyte _ => false

/-- The commands check 6 of R97 concerns, and their length beyond the buffer. -/
def lenTooLong (i : Instr) (s : State) : Bool :=
  match i with
  | .mrdn _ | .mwrn _ => decide (s.cfg.bufSize < s.len.toNat)
  | .init _ | .start | .stop | .wraddr _ | .wrbyte _ | .rdbyte _ | .probe | .mrd1 _ | .mwr1 _ _ | .waitrdy => false

/-- Checks 1 and 3 to 6 of R97 for a legal word, in their order: the cause of the first that fails. (Check 2, the encoding, is the
decoder's.) -/
def refusalCause (i : Instr) (s : State) : Option IllCause :=
  if s.busy then some .busy
  else if isInit i == s.inited then some .noinit
  else if !phaseAllows i s then some .phase
  else if s.eng.stopp && reusesBus i s then some .stoppend
  else if lenTooLong i s then some .len
  else none

/-! ### Runs of the command unit -/

/-- Where a run of the command unit stands: it came to its end with a value, or the command was cut short and executes no
further, by a reset or because it waits for ever (U12). -/
inductive Ran (α : Type) where
  | done (a : α) (s : State)
  | cut (s : State)

/-- Go on with the value and the state, unless the command was cut short. -/
def Ran.andThen {α β : Type} (r : Ran α) (k : α → State → Ran β) : Ran β :=
  match r with
  | .done a s => k a s
  | .cut s => .cut s

/-- `r <- …; if r != S then return onError(r)`, then go on (R190). -/
def Ran.orFail (r : Ran TransferOutcome) (onError : TransferOutcome → State → Ran TransferOutcome)
    (k : State → Ran TransferOutcome) : Ran TransferOutcome :=
  r.andThen (fun e s => if e = .success then k s else onError e s)

/-- The state of a run, ended or cut. -/
def Ran.state {α : Type} : Ran α → State
  | .done _ s => s
  | .cut s => s

/-! ### Gaps -/

/-- The gap of a steady environment: the busy period ends first, then the engine takes every step it can (an activity and a
pending STOP). -/
def steadyGap (d : Steady) : Gap :=
  ⟨(if d.ready then [.env .ready] else []) ++
    (if d.engine then [.env (.engine d.answer), .env (.engine d.answer)] else []), d.pulse⟩

/-- A gap in which only the environment moves, as a gap. -/
def envGap (g : EnvGap) : Gap := ⟨g.moves.map .env, g.pulse⟩

/-- The next gap of the schedule, and the state once it is taken from it (R51, U19). -/
def nextGap (s : State) : Gap × State :=
  match s.sched.gaps, s.sched.tail with
  | g :: rest, _ => (g, { s with sched := { s.sched with gaps := rest } })
  | [], .steady d => (steadyGap d, s)
  | [], .free => (envGap (Config.freeGap s.draws), { s with draws := s.draws + 1 })

/-- A move of the bus environment (R78, R130, R141). -/
def envMove : EnvMove → State → State
  | .engine ans, s => engineTry true ans s
  | .hold, s => engineTry false default s
  | .ready, s => { s with ee := { s.ee with busydev := false } }

/-- A host access while a command executes (R45): a read sees the current values, a write to CMD is refused with cause 1, a
write to anything else is ignored. With no command executing the access joins the host's pending ones. -/
def hostMove (a : HostAction) (s : State) : State :=
  if s.busy then
    match a with
    | .write off v => if off = cmdOffset then refuse .busy s else hostWrite off v s
    | .read off => hostRead off s
    | .reset => resetBlock s
    | .idle => s
  else { s with host := s.host ++ [a] }

/-- A move resets the block while a command executes. -/
def isReset : Move → Bool
  | .host .reset => true
  | .host (.write _ _) | .host (.read _) | .host .idle | .env _ => false

/-- A move of another agent. -/
def move : Move → State → State
  | .env m, s => envMove m s
  | .host a, s => hostMove a s

/-- The moves of a gap in order. A reset of the block ends the command (R250). -/
def runMoves : List Move → State → Ran Unit
  | [], s => .done () s
  | m :: ms, s => if isReset m && s.busy then .cut (move m s) else runMoves ms (move m s)

/-- What happens between two actions of the command unit (R161): the moves of the schedule's next gap. -/
def gap (s : State) : Ran Unit := runMoves (nextGap s).1.moves (nextGap s).2

/-! ### Waits -/

/-- `read_sr1()` by the command unit (R135). -/
def readSr1 (s : State) : State := { s with eng := s.eng.readSr1 }

/-- The samples of a wait (R161), `n` of them left: after each gap the flags are read; `ok` wins over `bad`; SPIN counts. -/
def waitLoop (ok bad : Sample → Bool) : Nat → State → Ran TransferOutcome
  | 0, s => .done .timeout s
  | n + 1, s =>
    (gap s).andThen fun _ t =>
      if ok t.eng.sample then .done .success (readSr1 t)
      else if bad t.eng.sample then .done .noAcknowledge (readSr1 t)
      else waitLoop ok bad n { readSr1 t with spin := t.spin + 1 }

/-- `wait(ok, bad)` (R161). -/
def wait (ok bad : Sample → Bool) (s : State) : Ran TransferOutcome :=
  waitLoop ok bad s.cfg.spinLimit { s with spin := 0 }

/-- No sample fails the wait. -/
def never : Sample → Bool := fun _ => false

/-- The pulses of a delay (R198), `n` of them left. Where the next pulse never comes the command stays in the delay (U12). -/
def delayLoop : Nat → State → Ran Unit
  | 0, s => .done () s
  | n + 1, s =>
    (gap s).andThen fun _ t =>
      if (nextGap s).1.pulse then delayLoop n { t with ticks := t.ticks + 1 } else .cut t

/-- `delay_ms(m)` (R198). -/
def delayMs (m : Nat) (s : State) : Ran Unit := delayLoop m { seqAt .delay s with ticks := 0 }

/-! ### Executing a command -/

/-- A command's end (R160): after a last gap, `finish` with its outcome; a command cut short finishes nothing. -/
def conclude (r : Ran TransferOutcome) : State :=
  match r with
  | .done e s =>
    match gap s with
    | .done _ t => finish e t
    | .cut t => t
  | .cut s => s

/-- A CMD write of a legal word (R97, R160): refused with its cause, or accepted and its body run to its end. -/
def command (i : Instr) (body : State → Ran TransferOutcome) (s : State) : Host.Outcome State Fault Refusal :=
  match refusalCause i s with
  | some c => .next (refuse c s)
  | none => .next (conclude (body (accept i s)))

end Sys2Proof.Machine
end

