-- ==== Sys2Proof/Machine/BusLine.lean ====
section
/-!
DEFINITION. L1: the BusLine operations (41_busline_ops R160 to R167), as bodies `bl…` that L2 calls too, and the commands INIT,
START, STOP, WRADDR, WRBYTE, RDBYTE. Every body begins with a gap, in which the other agents may move (log 2).
-/

namespace Sys2Proof.Machine

/-- PHASE after an L1 operation with outcome `r`: `p` on Success, Error otherwise (R29, R168). -/
def setPhase (r : TransferOutcome) (p : Phase) (s : State) : State :=
  { s with phase := if r = .success then p else .error }

/-- What INIT writes (R162). -/
def initRegisters (m : BusMode) (s : State) : State :=
  { s with
    mode := m
    ccr := match m with
      | .std => s.cfg.ccrStd
      | .fast => s.cfg.ccrFast
    trise := match m with
      | .std => s.cfg.triseStd
      | .fast => s.cfg.triseFast
    eng := { s.eng with sclO := true, sdaO := true }
    inited := true }

/-- `bl_init(mode)` (R162). -/
def blInit (m : BusMode) (s : State) : Ran TransferOutcome :=
  (gap s).andThen fun _ t => .done .success (initRegisters m t)

/-- `bl_start()` (R163). -/
def blStart (s : State) : Ran TransferOutcome :=
  (gap s).andThen fun _ t =>
    (wait (fun f => f.sb) never (seqAt .waitStart { t with eng := t.eng.assertStart })).andThen fun r u =>
      .done r (setPhase r .addressPhase u)

/-- `bl_stop()` (R164). -/
def blStop (s : State) : Ran TransferOutcome :=
  (gap s).andThen fun _ t => .done .success { t with eng := t.eng.assertStop, phase := .idle }

/-- The second step of the clear of ADDR, and PHASE, after an acknowledged address byte; PHASE Error otherwise (R165). -/
def settleAddress (r : TransferOutcome) (s : State) : State :=
  if r = .success then setPhase r .dataPhase { s with eng := s.eng.readSr2 } else setPhase r .dataPhase s

/-- `bl_write_address(a)` (R165). -/
def blWriteAddress (a : Byte) (s : State) : Ran TransferOutcome :=
  (gap s).andThen fun _ t =>
    (wait (fun f => f.addr) (fun f => f.af) (seqAt .waitAddress { t with eng := t.eng.loadTx a })).andThen fun r u =>
      .done r (settleAddress r u)

/-- PHASE after a data-phase operation: unchanged on Success, Error otherwise (R166, R167). -/
def failToError (r : TransferOutcome) (s : State) : State :=
  { s with phase := if r = .success then s.phase else .error }

/-- `bl_write_byte(d)` (R166). -/
def blWriteByte (d : Byte) (s : State) : Ran TransferOutcome :=
  (gap s).andThen fun _ t =>
    (wait (fun f => f.txe) (fun f => f.af) (seqAt .waitTransmit { t with eng := t.eng.loadTx d })).andThen fun r u =>
      .done r (failToError r u)

/-- `RESULT <- read_dr()` on Success, PHASE Error otherwise (R167). -/
def takeResult (r : TransferOutcome) (s : State) : State :=
  if r = .success then { s with result := s.eng.dr, eng := s.eng.readDr } else failToError r s

/-- `bl_read_byte(k)` (R167). -/
def blReadByte (k : Bool) (s : State) : Ran TransferOutcome :=
  (gap s).andThen fun _ t =>
    (wait (fun f => f.rxne) never (seqAt .waitReceive { t with eng := t.eng.setAckMode k })).andThen fun r u =>
      .done r (takeResult r u)

/-- INIT mode (R162). -/
def execInit (m : BusMode) (s : State) : Host.Outcome State Fault Refusal := command (.init m) (blInit m) s

/-- START (R163). -/
def execStart (s : State) : Host.Outcome State Fault Refusal := command .start blStart s

/-- STOP (R164). -/
def execStop (s : State) : Host.Outcome State Fault Refusal := command .stop blStop s

/-- WRADDR busaddr (R165). -/
def execWraddr (a : Byte) (s : State) : Host.Outcome State Fault Refusal := command (.wraddr a) (blWriteAddress a) s

/-- WRBYTE data (R166). -/
def execWrbyte (d : Byte) (s : State) : Host.Outcome State Fault Refusal := command (.wrbyte d) (blWriteByte d) s

/-- RDBYTE ack (R167). -/
def execRdbyte (k : Bool) (s : State) : Host.Outcome State Fault Refusal := command (.rdbyte k) (blReadByte k) s

end Sys2Proof.Machine
end

