-- ==== Sys2Proof/Machine/Paged.lean ====
section
/-!
DEFINITION. L2: the PagedMemoryDevice operations (42_paged_memory_ops R190 to R198), as fixed sequences of L1 operations, and
the commands PROBE, MRD1, MWR1, MRDN, MWRN, WAITRDY.
-/

namespace Sys2Proof.Machine

/-! ### Helpers (R190) -/

/-- `stop_wait()`: a stop, then its completion observed (R190). -/
def stopWait (s : State) : Ran TransferOutcome :=
  (blStop s).andThen fun _ t => wait (fun f => !f.stopp) never (seqAt .waitStop t)

/-- `abort(e)`: ERR keeps the first error, the bus is freed, the first error is returned (R190, R226, R227). -/
def abort (e : TransferOutcome) (s : State) : Ran TransferOutcome :=
  (stopWait { s with err := e }).andThen fun _ t => .done e t

/-- An error passed on as it is. -/
def giveBack (e : TransferOutcome) (s : State) : Ran TransferOutcome := .done e s

/-- `addr_phase(a)` and, when it succeeds, what follows it; on an error, `abort` (R190, R193 to R196). -/
def addrPhaseThen (a : MemAddr) (k : State → Ran TransferOutcome) (s : State) : Ran TransferOutcome :=
  (blStart s).orFail abort fun s =>
    (blWriteAddress (devW s.cfg) s).orFail abort fun s =>
      (blWriteByte (addrHigh a) s).orFail abort fun s =>
        (blWriteByte (addrLow a) s).orFail abort k

/-- The repeated START and the read address byte of a read, and what follows (R193, R195). -/
def turnToRead (k : State → Ran TransferOutcome) (s : State) : Ran TransferOutcome :=
  (blStart s).orFail abort fun s =>
    (blWriteAddress (devR s.cfg) s).orFail abort k

/-! ### Bodies -/

/-- `pm_probe()` (R192). -/
def pmProbe (s : State) : Ran TransferOutcome :=
  (blStart s).orFail abort fun s =>
    (blWriteAddress (devW s.cfg) s).orFail abort stopWait

/-- `pm_read_byte(a)` (R193). -/
def pmReadByte (a : MemAddr) (s : State) : Ran TransferOutcome :=
  if outOfRange s.cfg a.toNat 1 then .done .addressOutOfRange s
  else addrPhaseThen a (turnToRead fun s => (blReadByte false s).orFail abort stopWait) s

/-- The probes of the ready wait (R197), `n` of them left: an acknowledge ends it, a Timeout is propagated, a busy device is
probed again after the delay, unless the probe's stop did not complete. Reading FLAGS.STOPP is an action of its own: as before
every other flag read, the other agents may move before it, so a stop whose wait timed out may have completed by then (R161, U19,
R223). -/
def readyLoop : Nat → State → Ran TransferOutcome
  | 0, s => .done .timeout s
  | n + 1, s =>
    (pmProbe s).andThen fun r t =>
      let u := { t with retry := t.retry + 1 }
      if r = .noAcknowledge then
        (gap u).andThen fun _ v =>
          if v.eng.stopp then .done .timeout v
          else (delayMs v.cfg.readyDelayMs v).andThen fun _ x => readyLoop n x
      else .done r u

/-- `ready_wait()` (R197). -/
def readyWait (s : State) : Ran TransferOutcome := readyLoop s.cfg.readyRetries { s with retry := 0 }

/-- `pm_write_byte(a, d)` (R194). -/
def pmWriteByte (a : MemAddr) (d : Byte) (s : State) : Ran TransferOutcome :=
  if outOfRange s.cfg a.toNat 1 then .done .addressOutOfRange s
  else
    addrPhaseThen a (fun s =>
      (blWriteByte d s).orFail abort fun s =>
        (stopWait s).orFail giveBack readyWait) s

/-- `RBUF[i] <- RESULT ; DONE <- i + 1` (R195). -/
def storeReceived (i : Nat) (s : State) : State :=
  { s with
    rbuf := Memory.write s.rbuf i s.result, doneCount := BitVec.ofNat 17 (i + 1), idx := BitVec.ofNat 17 (i + 1) }

/-- The receptions of a read (R195), `n` of them left, the next one stored at index `i`: every byte is acknowledged but the
last. -/
def receiveLoop : (n i : Nat) → State → Ran TransferOutcome
  | 0, _, s => stopWait s
  | n + 1, i, s =>
    (blReadByte (decide (0 < n)) s).orFail abort fun t => receiveLoop n (i + 1) (storeReceived i t)

/-- `pm_read_bytes(a)` (R195): LEN is read once, at acceptance. -/
def pmReadBytes (a : MemAddr) (s : State) : Ran TransferOutcome :=
  let n := s.len.toNat
  let t := { s with doneCount := 0 }
  if outOfRange t.cfg a.toNat n then .done .addressOutOfRange t
  else if n = 0 then .done .success t
  else addrPhaseThen a (turnToRead (receiveLoop n 0)) { t with idx := 0 }

/-- The data bytes of a chunk (R196), `n` of them left, the next one `WBUF[i]`, and what follows them. -/
def sendLoop (k : State → Ran TransferOutcome) : (n i : Nat) → State → Ran TransferOutcome
  | 0, _, s => k s
  | n + 1, i, s => (blWriteByte (s.wbufRead i) s).orFail abort fun t => sendLoop k n (i + 1) t

/-- The chunks of a write (R196), `i` bytes lying in the chunks already written: each chunk's transaction, its stop, its ready
wait, then DONE. -/
def chunkLoop : List (Nat × Nat) → (i : Nat) → State → Ran TransferOutcome
  | [], _, s => .done .success s
  | (c, m) :: cs, i, s =>
    addrPhaseThen (BitVec.ofNat 16 c)
      (sendLoop (fun s =>
        (stopWait s).orFail giveBack fun s =>
          (readyWait s).orFail giveBack fun s =>
            chunkLoop cs (i + m)
              { s with
                cur := BitVec.ofNat 17 (c + m), idx := BitVec.ofNat 17 (i + m), doneCount := BitVec.ofNat 17 (i + m) })
        m i)
      { s with chunk := BitVec.ofNat 17 m }

/-- `pm_write_bytes(a)` (R196): LEN is read once, at acceptance. -/
def pmWriteBytes (a : MemAddr) (s : State) : Ran TransferOutcome :=
  let n := s.len.toNat
  let t := { s with doneCount := 0 }
  if outOfRange t.cfg a.toNat n then .done .addressOutOfRange t
  else if n = 0 then .done .success t
  else chunkLoop (chunks t.cfg.pageSize a.toNat n) 0 { t with cur := a.setWidth 17, idx := 0 }

/-! ### Commands -/

/-- PROBE (R192). -/
def execProbe (s : State) : Host.Outcome State Fault Refusal := command .probe pmProbe s

/-- MRD1 addr (R193). -/
def execMrd1 (a : MemAddr) (s : State) : Host.Outcome State Fault Refusal := command (.mrd1 a) (pmReadByte a) s

/-- MWR1 addr, data (R194). -/
def execMwr1 (a : MemAddr) (d : Byte) (s : State) : Host.Outcome State Fault Refusal :=
  command (.mwr1 a d) (pmWriteByte a d) s

/-- MRDN addr (R195). -/
def execMrdn (a : MemAddr) (s : State) : Host.Outcome State Fault Refusal := command (.mrdn a) (pmReadBytes a) s

/-- MWRN addr (R196). -/
def execMwrn (a : MemAddr) (s : State) : Host.Outcome State Fault Refusal := command (.mwrn a) (pmWriteBytes a) s

/-- WAITRDY (R197). -/
def execWaitrdy (s : State) : Host.Outcome State Fault Refusal := command .waitrdy readyWait s

end Sys2Proof.Machine
end

