-- ==== Sys2Proof/Machine/Dispatch.lean ====
section
/-!
DEFINITION. One arm per command: the meaning of each instruction.
-/

namespace Sys2Proof.Machine

def exec (i : Instr) (s : State) : Host.Outcome State Fault Refusal :=
  match i with
  | .init m => Sys2Proof.Machine.execInit m s
  | .start => Sys2Proof.Machine.execStart s
  | .stop => Sys2Proof.Machine.execStop s
  | .wraddr a => Sys2Proof.Machine.execWraddr a s
  | .wrbyte d => Sys2Proof.Machine.execWrbyte d s
  | .rdbyte k => Sys2Proof.Machine.execRdbyte k s
  | .probe => Sys2Proof.Machine.execProbe s
  | .mrd1 a => Sys2Proof.Machine.execMrd1 a s
  | .mwr1 a d => Sys2Proof.Machine.execMwr1 a d s
  | .mrdn a => Sys2Proof.Machine.execMrdn a s
  | .mwrn a => Sys2Proof.Machine.execMwrn a s
  | .waitrdy => Sys2Proof.Machine.execWaitrdy s

end Sys2Proof.Machine
end

