-- ==== Sys2Proof/WellFormed.lean ====
section
/-!
DEFINITION. Which command words are legal (30_encoding R96), read off the match and mask of each row of
spec/opcode_table.json, and which instructions are well formed. It is written from the table; `Decode.lean` is written from
the formats of R92 and the opcode map of R95. That the two agree is a statement.
-/

namespace Sys2Proof

/-- One row of the opcode table: a word `w` is the row's command when `w &&& mask = value`. -/
structure OpcodeRow where
  mnemonic : String
  value : Word
  mask : Word
  deriving DecidableEq, Repr

/-- The BusLine rows of the opcode table (R162 to R167). -/
def busLineRows : List OpcodeRow :=
  [ ⟨"INIT",   0x01000000, 0xFFFFFFFE⟩,
    ⟨"START",  0x02000000, 0xFFFFFFFF⟩,
    ⟨"STOP",   0x03000000, 0xFFFFFFFF⟩,
    ⟨"WRADDR", 0x04000000, 0xFFFFFF00⟩,
    ⟨"WRBYTE", 0x05000000, 0xFFFFFF00⟩,
    ⟨"RDBYTE", 0x06000000, 0xFFFFFFFE⟩ ]

/-- The PagedMemoryDevice rows of the opcode table (R192 to R197). -/
def pagedRows : List OpcodeRow :=
  [ ⟨"PROBE",   0x10000000, 0xFFFFFFFF⟩,
    ⟨"MRD1",    0x11000000, 0xFFFF0000⟩,
    ⟨"MWR1",    0x12000000, 0xFF000000⟩,
    ⟨"MRDN",    0x13000000, 0xFFFF0000⟩,
    ⟨"MWRN",    0x14000000, 0xFFFF0000⟩,
    ⟨"WAITRDY", 0x15000000, 0xFFFFFFFF⟩ ]

/-- The opcode table, twelve rows (R95). -/
def opcodeRows : List OpcodeRow := busLineRows ++ pagedRows

/-- The row's fixed bits stand in the word. -/
def OpcodeRow.matchesWord (r : OpcodeRow) (w : Word) : Bool := (w &&& r.mask) == r.value

/-- A word is legal when some row of the table matches it: its opcode is listed and every reserved bit of its format is 0
(R96). -/
def legalWord (w : Word) : Bool := opcodeRows.any (fun r => r.matchesWord w)

/-- The mnemonic of an instruction's row in spec/opcode_table.json. -/
def Instr.mnemonic : Instr → String
  | .init _ => "INIT"
  | .start => "START"
  | .stop => "STOP"
  | .wraddr _ => "WRADDR"
  | .wrbyte _ => "WRBYTE"
  | .rdbyte _ => "RDBYTE"
  | .probe => "PROBE"
  | .mrd1 _ => "MRD1"
  | .mwr1 _ _ => "MWR1"
  | .mrdn _ => "MRDN"
  | .mwrn _ => "MWRN"
  | .waitrdy => "WAITRDY"

/-- An instruction is well formed when the opcode table has its row. Every operand's type has exactly the width its format
gives it (R92), so no operand can be out of range and no further check stands here: the checks that can fail are those of
`legalWord` on the words. -/
def Instr.wellFormed (i : Instr) : Bool := opcodeRows.any (fun r => r.mnemonic == i.mnemonic)

end Sys2Proof
end

