-- ==== Sys2Proof/Decode.lean ====
section
/-!
DEFINITION. Decoding a command word (30_encoding R91 to R96) and encoding a command. `decode` answers none for an illegal word
(R96); the machine then refuses the write with ILLCAUSE 2.
-/

namespace Sys2Proof

/-- `op = w[31:24]` (R91). -/
def opField (w : Word) : Byte := w.extractLsb' 24 8

/-- The low byte `w[7:0]`: `busaddr` of format A, `data` of format B (R92). -/
def lowByte (w : Word) : Byte := w.extractLsb' 0 8

/-- `w[23:16]`: `data` of format MD (R92). -/
def midByte (w : Word) : Byte := w.extractLsb' 16 8

/-- `w[15:0]`: `addr` of formats M and MD (R92). -/
def addrField (w : Word) : MemAddr := w.extractLsb' 0 16

/-- `w[0]`: `mode` of format I, `ack` of format K (R92). -/
def bitField (w : Word) : Bool := w.getLsbD 0

/-- The reserved bits `w[23:0]` of format N are 0. -/
def reservedN (w : Word) : Bool := w.extractLsb' 0 24 == 0

/-- The reserved bits `w[23:1]` of formats I and K are 0. -/
def reservedIK (w : Word) : Bool := w.extractLsb' 1 23 == 0

/-- The reserved bits `w[23:8]` of formats A and B are 0. -/
def reservedAB (w : Word) : Bool := w.extractLsb' 8 16 == 0

/-- The reserved bits `w[23:16]` of format M are 0. -/
def reservedM (w : Word) : Bool := midByte w == 0

/-- `mode` of format I: 0 = standard, 1 = fast (R93). -/
def busModeOf (b : Bool) : BusMode := if b then .fast else .std

/-- The instruction when its format's reserved bits are 0, no instruction otherwise. -/
def whenReserved (ok : Bool) (i : Instr) : Option Instr := if ok then some i else none

/-- The decoder: the opcode selects the command, then the reserved bits of its format are checked (R95, R96). -/
def decode (w : Word) : Option Instr :=
  if opField w = 0x01 then whenReserved (reservedIK w) (.init (busModeOf (bitField w)))
  else if opField w = 0x02 then whenReserved (reservedN w) .start
  else if opField w = 0x03 then whenReserved (reservedN w) .stop
  else if opField w = 0x04 then whenReserved (reservedAB w) (.wraddr (lowByte w))
  else if opField w = 0x05 then whenReserved (reservedAB w) (.wrbyte (lowByte w))
  else if opField w = 0x06 then whenReserved (reservedIK w) (.rdbyte (bitField w))
  else if opField w = 0x10 then whenReserved (reservedN w) .probe
  else if opField w = 0x11 then whenReserved (reservedM w) (.mrd1 (addrField w))
  else if opField w = 0x12 then some (.mwr1 (addrField w) (midByte w))
  else if opField w = 0x13 then whenReserved (reservedM w) (.mrdn (addrField w))
  else if opField w = 0x14 then whenReserved (reservedM w) (.mwrn (addrField w))
  else if opField w = 0x15 then whenReserved (reservedN w) .waitrdy
  else none

/-- Bit 0 of format I: the mode as a bit (R93). -/
def busModeBit : BusMode → Bool
  | .std => false
  | .fast => true

/-- An opcode with the operand field `arg = w[23:0]` (R91). -/
def wordOf (op : Byte) (arg : BitVec 24) : Word := op ++ arg

/-- The encoder (R91, R92, R95): the word of an instruction, every reserved bit 0. -/
def encode : Instr → Word
  | .init m => wordOf 0x01 (BitVec.ofBool (busModeBit m) |>.setWidth 24)
  | .start => wordOf 0x02 0
  | .stop => wordOf 0x03 0
  | .wraddr a => wordOf 0x04 (a.setWidth 24)
  | .wrbyte d => wordOf 0x05 (d.setWidth 24)
  | .rdbyte k => wordOf 0x06 (BitVec.ofBool k |>.setWidth 24)
  | .probe => wordOf 0x10 0
  | .mrd1 a => wordOf 0x11 (a.setWidth 24)
  | .mwr1 a d => wordOf 0x12 (d ++ a)
  | .mrdn a => wordOf 0x13 (a.setWidth 24)
  | .mwrn a => wordOf 0x14 (a.setWidth 24)
  | .waitrdy => wordOf 0x15 0

/-- The instruction the decoder reads from a table word: one 32-bit word, bit 0 its least significant bit (R10, R91). A row
gives every bit of its word (`nbits = 32`); bits above `nbits` would be 0. -/
def decodeTableWord (nbits w : Nat) : Option Instr := decode (BitVec.ofNat 32 (w % 2 ^ nbits))

end Sys2Proof
end

