-- ==== Sys2Proof/Machine/HostStep.lean ====
section
/-!
DEFINITION. What a step does besides executing a command: it takes the host's next access, and it reads a CMD word. The block
fetches nothing (20_memory R86): each command word is a host write to CMD (10_state R40).
-/

namespace Sys2Proof.Machine

/-- The host's next access: the first pending one, or none (a pause). -/
def nextAccess (s : State) : HostAction :=
  match s.host with
  | [] => .idle
  | a :: _ => a

/-- The state once the host's next access is taken from the pending ones. -/
def takeAccess (s : State) : State := { s with host := s.host.tail }

/-- A pause of the host: one gap passes, in which the other agents move. -/
def pause (s : State) : State := (gap s).state

/-- The cause a CMD write of an illegal word is refused with: check 1 of R97 comes before check 2. -/
def illegalCause (s : State) : IllCause := if s.busy then .busy else .opcode

/-- The state with a table word as the host's next write to CMD (log 17). -/
def placeCommand (s : State) (nbits w : Nat) : State :=
  { s with host := .write cmdOffset (BitVec.ofNat 32 (w % 2 ^ nbits)) :: s.host }

end Sys2Proof.Machine
end

