-- ==== Sys2Proof/Machine/Step.lean ====
section
/-!
DEFINITION. One step of the machine: the host's next access. A write to CMD presents its word as a command (10_state R40), which is
refused or executed whole; a pause lets the other agents move.
-/

namespace Sys2Proof.Machine

/-- A word written to CMD (R40, R96, R97). -/
def present (w : Word) (s : State) : Host.Outcome State Fault Refusal :=
  match decode w with
  | some i => exec i s
  | none => .next (refuse (illegalCause s) s)

/-- One step. -/
def step (s : State) : Host.Outcome State Fault Refusal :=
  match nextAccess s with
  | .write off v => if off = cmdOffset then present v (takeAccess s) else .next (hostWrite off v (takeAccess s))
  | .read off => .next (hostRead off (takeAccess s))
  | .reset => .next (resetBlock (takeAccess s))
  | .idle => .next (pause (takeAccess s))

/-- The state in which the next step presents a table word as a command. -/
def State.withFetchWord (s : State) (nbits w : Nat) : State := placeCommand s nbits w

end Sys2Proof.Machine
end

