-- ==== Sys2Proof/Safety.lean ====
section
/-!
DEFINITION. What claims about the machine are stated in: the invariant of the block, and the named launch premises under which a
command succeeds (20_memory R80, R88; 92_eei_decisions A_SPIN, A_WRITE_CYCLE).
-/

namespace Sys2Proof.Machine

/-- What holds of the line engine between any two actions (10_state R39; 40_line_engine R132 to R139, R142). -/
structure Engine.Inv (e : Engine) : Prop where
  /-- SB stands in ES_SB only. -/
  sb_state : e.sb = true → e.es = .sb
  /-- In ES_SB, SB stands until the address byte is loaded. -/
  sb_stands : e.es = .sb → e.act ≠ .txAddr → e.sb = true
  /-- ADDR is 1 exactly in ES_ADDRHOLD. -/
  addr_state : e.addr = true ↔ e.es = .addrHold
  /-- ADDR_SEEN says that ADDR = 1 was seen. -/
  seen_addr : e.addrSeen = true → e.addr = true
  /-- TXE implies ES_TX (R39). -/
  txe_state : e.txe = true → e.es = .tx
  /-- In ES_TX the buffer is empty until a byte is loaded. -/
  txe_stands : e.es = .tx → e.act ≠ .txData → e.txe = true
  /-- RXNE implies ES_RX (R39). -/
  rxne_state : e.rxne = true → e.es = .rx
  /-- ES_TX is entered with DIR = 0. -/
  tx_dir : e.es = .tx → e.dir = false
  /-- ES_RX is entered with DIR = 1. -/
  rx_dir : e.es = .rx → e.dir = true
  /-- STOPP = 1 implies a transaction is open (R139). -/
  stopp_open : e.stopp = true → e.es ≠ .idle
  /-- A pending START waits in ES_IDLE. -/
  act_start : e.act = .start → e.es = .idle
  /-- A pending repeated START waits in an open transaction. -/
  act_rstart : e.act = .rstart → e.es = .sb ∨ e.es = .tx ∨ e.es = .rx
  /-- A pending address byte waits in ES_SB, SB cleared. -/
  act_txAddr : e.act = .txAddr → e.es = .sb ∧ e.sb = false
  /-- A pending data byte waits in ES_TX, TXE cleared. -/
  act_txData : e.act = .txData → e.es = .tx ∧ e.txe = false
  /-- An armed reception waits in ES_RX, RXNE clear. -/
  act_rxData : e.act = .rxData → e.es = .rx ∧ e.rxne = false
  /-- The clock line is released exactly with no transaction open (R142). -/
  scl_idle : e.sclO = true ↔ e.es = .idle
  /-- The data line is pulled low after a START or repeated START, released otherwise (R142). -/
  sda_sb : e.sdaO = false ↔ e.es = .sb

/-- The protocol state and the engine at a command's boundaries (10_state R29, R35; 40_line_engine R140). -/
structure State.PhaseInv (s : State) : Prop where
  /-- A pending STOP implies PHASE Idle (R35). -/
  stopp_idle : s.eng.stopp = true → s.phase = .idle
  /-- PHASE Idle with no STOP pending: the engine is idle (R140). -/
  idle : s.phase = .idle → s.eng.stopp = false → s.eng.es = .idle ∧ s.eng.act = .none
  /-- PHASE AddressPhase: ES_SB, and no activity but a repeated START still withheld (R140, log 31). -/
  addressPhase : s.phase = .addressPhase → s.eng.es = .sb ∧ (s.eng.act = .none ∨ s.eng.act = .rstart)
  /-- PHASE DataPhase: the engine waits for the next byte in the transaction's direction (R140). -/
  dataPhase : s.phase = .dataPhase →
    s.eng.act = .none ∧ ((s.eng.es = .tx ∧ s.eng.dir = false) ∨ (s.eng.es = .rx ∧ s.eng.dir = true ∧ s.eng.rxne = false))

/-- What every step keeps. -/
structure State.Inv (s : State) : Prop where
  /-- The line engine's flags, state and ports agree. -/
  engine : s.eng.Inv
  /-- PHASE and the engine agree. -/
  phaseInv : s.PhaseInv
  /-- SEQ exists only while BUSY = 1 (R30). -/
  seq_busy : s.seq.isSome = s.busy
  /-- ILLCAUSE is 0 exactly when ILL = 0 (R41). -/
  ill_cause : s.ill = false ↔ s.illcause = .none
  /-- Before INIT nothing is on the wire: PHASE Idle and the engine idle (R54, R97). -/
  uninited : s.inited = false → s.phase = .idle ∧ s.eng.es = .idle ∧ s.eng.act = .none
  /-- MEM is in canonical form. -/
  mem_wf : Memory.wf s.ee.mem
  /-- WBUF is in canonical form. -/
  wbuf_wf : Memory.wf s.wbuf
  /-- RBUF is in canonical form. -/
  rbuf_wf : Memory.wf s.rbuf

/-- The schedule lists no gap and goes on steadily as `d` says. -/
abbrev State.SteadyAs (s : State) (d : Steady) : Prop := s.sched = ⟨[], .steady d⟩

/-- A_SPIN as a premise: the environment withholds no engine step (40_line_engine R141; D20), from here on. -/
abbrev State.Prompt (s : State) (d : Steady) : Prop := s.SteadyAs d ∧ d.engine = true ∧ 1 ≤ s.cfg.spinLimit

/-- The block accepts a command of L2 (R97): initialised, idle, no STOP pending, no command executing. -/
abbrev State.ReadyForPaged (s : State) : Prop :=
  s.busy = false ∧ s.inited = true ∧ s.phase = .idle ∧ s.eng.stopp = false ∧ s.eng.Inv ∧ s.PhaseInv

/-- The gap lets the engine take its enabled step (R141). -/
def letsEngine (g : Gap) : Bool := g.moves.any fun m =>
  match m with
  | .env (.engine _) => true
  | .env .hold | .env .ready | .host _ => false

/-- A_SPIN as a premise on a schedule (20_memory R88; D20): every wait sees its flag within SPIN_LIMIT samples, however late the
engine's steps fall. Of SPIN_LIMIT listed gaps in a row at least one lets the engine step (a step let where none is enabled does
nothing, so every schedule in which each wait sees its flag in time can be written so), and the gaps after the listed ones all do.
The ticks come (70_reset_and_hazards R265) and the host does not reset the block; what else moves in a gap is arbitrary: the
answers, held clocks, where a busy period ends, host accesses. -/
structure Timely (c : Params) (k : Sched) : Prop where
  flags : ∀ w, w <:+: k.gaps → w.length = c.spinLimit → ∃ g ∈ w, letsEngine g = true
  ticks : ∀ g ∈ k.gaps, g.pulse = true
  noReset : ∀ g ∈ k.gaps, .host .reset ∉ g.moves
  tail : ∃ d : Steady, k.tail = .steady d ∧ d.engine = true ∧ d.pulse = true

/-! ### The devices on the bus, as premises -/

/-- The device at DEV_BASE answers ACK to every byte a read needs it to: an unknown bus that acknowledges, or the reference EEPROM
alone, not left driving the data line (U6), and not busy when it is asked. -/
def State.DeviceAcks (s : State) (d : Steady) : Prop :=
  match s.bus with
  | .unknown => d.answer.ack = true
  | .reference => s.ee.out ≠ .driving ∧ (s.ee.busydev = false ∨ d.ready = true)

/-- The device at DEV_BASE answers NAK to its address byte, always: an unknown bus that does not acknowledge, or the reference
EEPROM in a busy period that does not end (R78). -/
def State.DeviceNaks (s : State) (d : Steady) : Prop :=
  match s.bus with
  | .unknown => d.answer.ack = false
  | .reference => s.ee.out ≠ .driving ∧ s.ee.busydev = true ∧ d.ready = false

/-- The device at DEV_BASE takes a write and its write cycle ends before it is probed (A_WRITE_CYCLE, R78, R88). -/
def State.DeviceWrites (s : State) (d : Steady) : Prop :=
  match s.bus with
  | .unknown => d.answer.ack = true
  | .reference => s.ee.out ≠ .driving ∧ d.ready = true

/-- The byte a read of address `a` receives: the answer of an unknown bus, or the byte of the reference EEPROM (R77, R81). -/
def State.deviceByte (s : State) (d : Steady) (a : Nat) : Byte :=
  match s.bus with
  | .unknown => d.answer.byte
  | .reference => s.ee.memRead a

/-- The EEPROM after a gap of a steady environment: the busy period has ended if the environment ends it (R78). -/
def Eeprom.rested (d : Steady) (e : Eeprom) : Eeprom := { e with busydev := e.busydev && !d.ready }

/-- The state with the EEPROM after a gap of a steady environment. -/
def State.rested (d : Steady) (s : State) : State := { s with ee := s.ee.rested d }

/-! ### Transactions on the wire (30_encoding R98 to R101) -/

/-- The probe shape, the device answering `k`. -/
def probeShape (c : Params) (k : Bool) : List Symbol := [.start, .tx (devW c) k, .stop]

/-- `j` probes that are not acknowledged. -/
def refusedProbes (c : Params) (j : Nat) : List Symbol := (List.replicate j (probeShape c false)).flatten

/-- The address phase of a memory transaction: START, DEVW, the two bytes of `a`, all acknowledged. -/
def addressShape (c : Params) (a : MemAddr) : List Symbol :=
  [.start, .tx (devW c) true, .tx (addrHigh a) true, .tx (addrLow a) true]

/-- The shape of a write of the bytes `ds` at address `a`. -/
def writeShape (c : Params) (a : MemAddr) (ds : List Byte) : List Symbol :=
  addressShape c a ++ ds.map (fun d => .tx d true) ++ [.stop]

/-- Bytes received one after another, all acknowledged but the last. -/
def receivedShape : List Byte → List Symbol
  | [] => []
  | [v] => [.rx v false]
  | v :: w :: vs => .rx v true :: receivedShape (w :: vs)

/-- The shape of a read of the bytes `vs` at address `a`. -/
def readShape (c : Params) (a : MemAddr) (vs : List Byte) : List Symbol :=
  addressShape c a ++ [.rstart, .tx (devR c) true] ++ receivedShape vs ++ [.stop]

/-- The data bytes of MWRN with address `a` that lie in the chunk of `m` bytes at `c`. -/
def State.chunkData (s : State) (a c m : Nat) : List Byte := (List.range m).map (fun j => s.wbufRead (c - a + j))

/-- What MWRN puts on the wire when the device acknowledges everything: each chunk's write, then one probe. -/
def State.chunkShapes (s : State) (a : MemAddr) (n : Nat) : List Symbol :=
  (chunks s.cfg.pageSize a.toNat n).flatMap fun p =>
    writeShape s.cfg (BitVec.ofNat 16 p.1) (s.chunkData a.toNat p.1 p.2) ++ probeShape s.cfg true

/-- Where in the grammar of R98 and R99 the wire is. -/
inductive Wire where
  | free
  | address
  | sending
  | receiving
  | refused
  deriving DecidableEq, Repr

/-- The grammar: a transaction begins with START; the first byte after START or repeated START is an address byte, and a repeated START or
STOP may come instead of it (R133, R139, V26); bit 0 of the address byte says which way the bytes after it go; after a transmitted byte that is
not acknowledged there is only STOP, while after a received byte, acknowledged or not, any of a reception, a repeated START and STOP
may come (R98, R99, R132, R255, U7). -/
def Wire.next : Wire → Symbol → Option Wire
  | .free, .start => some .address
  | .address, .rstart => some .address
  | .address, .stop => some .free
  | .address, .tx b k => if k then some (if directionBit b then .receiving else .sending) else some .refused
  | .sending, .tx _ k => if k then some .sending else some .refused
  | .sending, .rstart => some .address
  | .sending, .stop => some .free
  | .receiving, .rx _ _ => some .receiving
  | .receiving, .rstart => some .address
  | .receiving, .stop => some .free
  | .refused, .stop => some .free
  | .free, .rstart | .free, .stop | .free, .tx _ _ | .free, .rx _ _ => none
  | .address, .start | .address, .rx _ _ => none
  | .sending, .start | .sending, .rx _ _ => none
  | .receiving, .start | .receiving, .tx _ _ => none
  | .refused, .start | .refused, .rstart | .refused, .tx _ _ | .refused, .rx _ _ => none

/-- Where a whole trace leaves the wire, none when it does not follow the grammar. -/
def wireOf (t : List Symbol) : Option Wire := t.foldlM Wire.next .free

/-- The place in the grammar the engine's state stands for. -/
def Engine.wire (e : Engine) : Wire :=
  match e.es with
  | .idle => .free
  | .sb => .address
  | .addrHold => if e.dir then .receiving else .sending
  | .tx => .sending
  | .rx => .receiving
  | .nak => .refused

/-- The trace follows the grammar and has come to where the engine is. -/
abbrev State.TraceInv (s : State) : Prop := wireOf s.eng.trace = some s.eng.wire

/-- The ports hold the last levels the symbols of the trace drive (R49, R142). -/
abbrev State.LinesInv (s : State) : Prop :=
  (⟨s.eng.sclO, s.eng.sdaO⟩ : Lines) = (traceLevels s.eng.trace).getLastD ⟨true, true⟩

/-- Every listed byte lies where the spec has one: MEM at 0 to MAX_ADDRESS, the buffers at 0 to BUF_SIZE - 1 (R26, R27, R73). -/
structure State.RangeInv (s : State) : Prop where
  mem_range : ∀ c ∈ s.ee.mem, c.1 ≤ s.cfg.maxAddress
  wbuf_range : ∀ c ∈ s.wbuf, c.1 < s.cfg.bufSize
  rbuf_range : ∀ c ∈ s.rbuf, c.1 < s.cfg.bufSize

/-! ### How a command ends -/

/-- The state of a command that has been accepted and has finished with `e`, all else as the body left it (R97, R160). -/
def State.ended (e : TransferOutcome) (s : State) : State :=
  { s with outcome := e, cpl := true, busy := false, seq := none, ill := false, illcause := .none }

/-- What every finished command leaves when nothing but the bus environment moved meanwhile: its outcome, no command executing
(R160), and the registers no command but INIT writes. -/
structure State.Completed (s t : State) (e : TransferOutcome) : Prop where
  busy : t.busy = false
  seq : t.seq = none
  cpl : t.cpl = true
  outcome : t.outcome = e
  ill : t.ill = false
  illcause : t.illcause = .none
  inited : t.inited = s.inited
  mode : t.mode = s.mode
  ccr : t.ccr = s.ccr
  trise : t.trise = s.trise
  len : t.len = s.len
  wbuf : t.wbuf = s.wbuf
  host : t.host = s.host
  rdata : t.rdata = s.rdata
  cfg : t.cfg = s.cfg
  bus : t.bus = s.bus
  sched : t.sched = s.sched
  epoch : t.epoch = s.epoch

/-- The engine with no transaction open and nothing pending (R39, R142). -/
structure Engine.AtRest (e : Engine) : Prop where
  es : e.es = .idle
  act : e.act = .none
  sb : e.sb = false
  addr : e.addr = false
  txe : e.txe = false
  rxne : e.rxne = false
  stopp : e.stopp = false
  addrSeen : e.addrSeen = false
  sclO : e.sclO = true
  sdaO : e.sdaO = true

/-- A command of L2 has finished with `e` and left the bus free (R160, R190, R205). -/
structure State.Freed (t : State) (e : TransferOutcome) : Prop where
  busy : t.busy = false
  seq : t.seq = none
  cpl : t.cpl = true
  outcome : t.outcome = e
  phase : t.phase = .idle
  rest : t.eng.AtRest

/-- What a memory command leaves whose first byte DEVW was not acknowledged: the bus freed after that byte, NoAcknowledge, nothing
read and nothing stored (R190, R222, R227); `n` is DONE. -/
structure State.Refused (s t : State) (n : Count) : Prop where
  completed : s.Completed t .noAcknowledge
  rest : t.eng.AtRest
  phase : t.phase = .idle
  trace : t.eng.trace = s.eng.trace ++ probeShape s.cfg false
  af : t.eng.af = true
  acken : t.eng.acken = s.eng.acken
  dir : t.eng.dir = s.eng.dir
  dr : t.eng.dr = devW s.cfg
  result : t.result = s.result
  rbuf : t.rbuf = s.rbuf
  doneCount : t.doneCount = n
  mem : ∀ x, t.ee.memRead x = s.ee.memRead x

/-- The state after a pending STOP went on the wire in the state `u`, as a STOP command leaves it (R139). -/
def State.stopped (d : Steady) (u : State) : State :=
  { u with
    eng := { u.eng with
      sb := false, addr := false, txe := false, rxne := false, addrSeen := false, stopp := false, es := .idle
      trace := u.eng.trace ++ [.stop], sclO := true, sdaO := true }
    ee := State.slaveStop d.answer u, draws := u.draws + 1, phase := .idle }

/-- The PHASE values in which a command is accepted (the table of R97). -/
def phasesOf : Instr → List Phase
  | .init _ => [.idle]
  | .start => [.idle, .addressPhase, .dataPhase]
  | .stop => [.idle, .addressPhase, .dataPhase, .error]
  | .wraddr _ => [.addressPhase]
  | .wrbyte _ => [.dataPhase]
  | .rdbyte _ => [.dataPhase]
  | .probe | .mrd1 _ | .mwr1 _ _ | .mrdn _ | .mwrn _ | .waitrdy => [.idle]

/-- The direction bit a command needs, if it needs one (the table of R97). -/
def dirNeeded : Instr → Option Bool
  | .wrbyte _ => some false
  | .rdbyte _ => some true
  | .init _ | .start | .stop | .wraddr _ | .probe | .mrd1 _ | .mwr1 _ _ | .mrdn _ | .mwrn _ | .waitrdy => none

/-- A command of L1 (R95). -/
def isBusLine : Instr → Bool
  | .init _ | .start | .stop | .wraddr _ | .wrbyte _ | .rdbyte _ => true
  | .probe | .mrd1 _ | .mwr1 _ _ | .mrdn _ | .mwrn _ | .waitrdy => false

/-- A command's body (R162 to R167, R192 to R197). -/
def bodyOf : Instr → State → Ran TransferOutcome
  | .init m => blInit m
  | .start => blStart
  | .stop => blStop
  | .wraddr a => blWriteAddress a
  | .wrbyte d => blWriteByte d
  | .rdbyte k => blReadByte k
  | .probe => pmProbe
  | .mrd1 a => pmReadByte a
  | .mwr1 a d => pmWriteByte a d
  | .mrdn a => pmReadBytes a
  | .mwrn a => pmWriteBytes a
  | .waitrdy => readyWait

/-- The addresses of EEPROM memory a command may store to, `n` being LEN: one for MWR1, `n` for MWRN, none otherwise (R194,
R196). -/
def storesTo (i : Instr) (n x : Nat) : Prop :=
  match i with
  | .mwr1 a _ => x = a.toNat
  | .mwrn a => a.toNat ≤ x ∧ x < a.toNat + n
  | .init _ | .start | .stop | .wraddr _ | .wrbyte _ | .rdbyte _ | .probe | .mrd1 _ | .mrdn _ | .waitrdy => False

/-- An address operand and LEN out of range (R199). -/
def leavesRange (i : Instr) (c : Params) (n : Nat) : Prop :=
  match i with
  | .mrd1 a | .mwr1 a _ => c.maxAddress < a.toNat
  | .mrdn a | .mwrn a => if n = 0 then c.maxAddress < a.toNat else c.maxAddress < a.toNat + n - 1
  | .init _ | .start | .stop | .wraddr _ | .wrbyte _ | .rdbyte _ | .probe | .waitrdy => False

/-- The outcomes a command can finish with (the table of R235). -/
def outcomesOf : Instr → List TransferOutcome
  | .init _ | .stop => [.success]
  | .start | .rdbyte _ | .waitrdy => [.success, .timeout]
  | .wraddr _ | .wrbyte _ | .probe => [.success, .noAcknowledge, .timeout]
  | .mrd1 _ | .mwr1 _ _ | .mrdn _ | .mwrn _ => [.success, .addressOutOfRange, .noAcknowledge, .timeout]

/-- PHASE after an accepted command, `p` before it, that finished with Success (`true`) or with another outcome (the table of
R168). -/
def phaseAfter (i : Instr) (p : Phase) (ok : Bool) : Phase :=
  match i with
  | .init _ => p
  | .start => if ok then .addressPhase else .error
  | .stop => .idle
  | .wraddr _ => if ok then .dataPhase else .error
  | .wrbyte _ | .rdbyte _ => if ok then .dataPhase else .error
  | .probe | .mrd1 _ | .mwr1 _ _ | .mrdn _ | .mwrn _ | .waitrdy => .idle

end Sys2Proof.Machine
end

