-- ==== Sys2Proof/Certificates/Slice0/Obligations.lean ====
section
/-!
DEFINITION. The statements about the machine, from the numbered rules of the spec. A schedule or a bus answer that a statement
does not mention is arbitrary.
-/

section Slice0Obligations

open Sys2Proof Sys2Proof.Machine

/-! ### Encoding -/

/-- R92, R95: the words of the spec's worked examples (R162 to R167, R192 to R197) decode to the commands they stand for. -/
def Obligations.SampleWordsDecode : Prop :=
  decode 0x01000000 = some (.init .std) ∧ decode 0x01000001 = some (.init .fast) ∧
  decode 0x02000000 = some .start ∧ decode 0x03000000 = some .stop ∧ decode 0x040000A0 = some (.wraddr 0xA0) ∧
  decode 0x05000012 = some (.wrbyte 0x12) ∧ decode 0x06000000 = some (.rdbyte false) ∧
  decode 0x06000001 = some (.rdbyte true) ∧ decode 0x10000000 = some .probe ∧
  decode 0x11000123 = some (.mrd1 0x0123) ∧ decode 0x12AB0123 = some (.mwr1 0x0123 0xAB) ∧
  decode 0x13000010 = some (.mrdn 0x0010) ∧ decode 0x14000064 = some (.mwrn 0x0064) ∧
  decode 0x15000000 = some .waitrdy

/-- R91 to R95: every command, with every operand, is read back from its own word. -/
def Obligations.DecodeEncode : Prop := ∀ i : Instr, decode (encode i) = some i

/-- R92, R95: no two words read as one command: the word a command was read from is the command's own. -/
def Obligations.EncodeDecode : Prop := ∀ (w : Word) (i : Instr), decode w = some i → encode i = w

/-- R95, R96: the decoder reads exactly the words that match a row of the opcode table, and reads that row's command. -/
def Obligations.DecodesLegalWords : Prop :=
  ∀ w : Word, (legalWord w = true ↔ (decode w).isSome = true) ∧
    ∀ (i : Instr) (r : OpcodeRow), decode w = some i → r ∈ opcodeRows → (r.matchesWord w = true ↔ r.mnemonic = i.mnemonic)

/-- R96: a word with a reserved opcode, or with a reserved bit of its format set, is refused with ILLCAUSE 2 and has no other
effect (busy comes first, R97); the all-zero word is one of them. -/
def Obligations.IllegalWordRefused : Prop :=
  legalWord 0 = false ∧
  ∀ (w : Word) (s : State), s.busy = false →
    (w.toNat / 2 ^ 24 ∉ [0x01, 0x02, 0x03, 0x04, 0x05, 0x06, 0x10, 0x11, 0x12, 0x13, 0x14, 0x15] ∨
      (w.toNat / 2 ^ 24 ∈ [0x02, 0x03, 0x10, 0x15] ∧ w.toNat % 2 ^ 24 ≠ 0) ∨
      (w.toNat / 2 ^ 24 ∈ [0x01, 0x06] ∧ w.toNat % 2 ^ 24 / 2 ≠ 0) ∨
      (w.toNat / 2 ^ 24 ∈ [0x04, 0x05] ∧ w.toNat % 2 ^ 24 / 2 ^ 8 ≠ 0) ∨
      (w.toNat / 2 ^ 24 ∈ [0x11, 0x13, 0x14] ∧ w.toNat % 2 ^ 24 / 2 ^ 16 ≠ 0)) →
    present w s = .next { s with ill := true, illcause := .opcode }

/-! ### The step and the acceptance of a command -/

/-- R40, R44: a step is the host's next access. A write to CMD whose word decodes runs `exec` on the command; every other access
does what the register interface says. -/
def Obligations.StepRunsDecodedCommand : Prop :=
  ∀ (s : State) (rest : List HostAction),
    (∀ (w : Word) (i : Instr), s.host = .write cmdOffset w :: rest → decode w = some i →
      step s = exec i { s with host := rest }) ∧
    (∀ w : Word, s.host = .write cmdOffset w :: rest → decode w = none →
      step s = .next { s with host := rest, ill := true, illcause := if s.busy then .busy else .opcode }) ∧
    (∀ (off : Nat) (v : Word), off ≠ cmdOffset → s.host = .write off v :: rest →
      step s = .next (hostWrite off v { s with host := rest })) ∧
    (∀ off : Nat, s.host = .read off :: rest → step s = .next { s with host := rest, rdata := regRead s off }) ∧
    (s.host = .reset :: rest → step s = .next (resetBlock { s with host := rest })) ∧
    (s.host = .idle :: rest → step s = .next (gap { s with host := rest }).state) ∧
    (s.host = [] → step s = .next (gap s).state)

/-- R97: a write of `w` to CMD, checked in the order the rule gives; the first check that fails refuses it, and nothing else
changes; an accepted command's body runs from the state the rule gives. -/
def Obligations.AcceptanceChecks : Prop :=
  ∀ (w : Word) (s : State),
    present w s =
      if s.busy = true then .next { s with ill := true, illcause := .busy }
      else
        match decode w with
        | none => .next { s with ill := true, illcause := .opcode }
        | some i =>
          if (isInit i = true ∧ s.inited = true) ∨ (isInit i = false ∧ s.inited = false) then
            .next { s with ill := true, illcause := .noinit }
          else if s.phase ∉ phasesOf i ∨ (dirNeeded i = some true ∧ s.eng.dir = false) ∨
              (dirNeeded i = some false ∧ s.eng.dir = true) then
            .next { s with ill := true, illcause := .phase }
          else if s.eng.stopp = true ∧ ((i = .start ∧ s.phase = .idle) ∨ isPaged i = true) then
            .next { s with ill := true, illcause := .stoppend }
          else if (i.mnemonic = "MRDN" ∨ i.mnemonic = "MWRN") ∧ s.cfg.bufSize < s.len.toNat then
            .next { s with ill := true, illcause := .len }
          else
            .next (conclude (bodyOf i
              { s with ill := false, illcause := .none, cpl := false, busy := true, seq := some ⟨i, .begun⟩ }))

/-! ### The host's view -/

/-- R42: the FLAGS word, bit by bit; a host read of it changes nothing but the read data. -/
def Obligations.FlagsLayout : Prop :=
  (∀ e : Engine,
    (flagsWord e).getLsbD 0 = e.sb ∧ (flagsWord e).getLsbD 1 = e.addr ∧ (flagsWord e).getLsbD 2 = e.txe ∧
    (flagsWord e).getLsbD 3 = e.rxne ∧ (flagsWord e).getLsbD 4 = e.stopp ∧ (flagsWord e).getLsbD 5 = e.af ∧
    (flagsWord e).getLsbD 6 = e.acken ∧ (flagsWord e).getLsbD 7 = e.dir ∧
    ∀ i, 8 ≤ i → (flagsWord e).getLsbD i = false) ∧
  ∀ s : State, hostRead 0x00008 s = { s with rdata := flagsWord s.eng }

/-- R41: the STATUS word, field by field, with the codes of R29, R102 and R103. -/
def Obligations.StatusLayout : Prop :=
  (∀ s : State,
    (statusWord s).getLsbD 0 = s.busy ∧ (statusWord s).getLsbD 1 = s.inited ∧
    ((statusWord s).getLsbD 2 = true ↔ s.mode = .fast) ∧
    (statusWord s).extractLsb' 3 2 = s.phase.code ∧ (statusWord s).getLsbD 5 = s.cpl ∧
    (statusWord s).extractLsb' 6 2 = s.outcome.code ∧ (statusWord s).getLsbD 8 = s.ill ∧
    (statusWord s).extractLsb' 9 3 = s.illcause.code ∧ (statusWord s).extractLsb' 12 20 = 0) ∧
  (Phase.code .idle = 0 ∧ Phase.code .addressPhase = 1 ∧ Phase.code .dataPhase = 2 ∧ Phase.code .error = 3) ∧
  (TransferOutcome.code .success = 0 ∧ TransferOutcome.code .addressOutOfRange = 1 ∧
    TransferOutcome.code .noAcknowledge = 2 ∧ TransferOutcome.code .timeout = 3) ∧
  (IllCause.code .none = 0 ∧ IllCause.code .busy = 1 ∧ IllCause.code .opcode = 2 ∧ IllCause.code .noinit = 3 ∧
    IllCause.code .phase = 4 ∧ IllCause.code .stoppend = 5 ∧ IllCause.code .len = 6)

/-- R44: what a read of each offset of the register map returns, and that a write outside LEN, WBUF and CMD has no effect. (That a
register or byte narrower than 32 bits reads with zeros above it, and that each offset is taken as it stands, aligned or not, is the
model's reading, log 18.) -/
def Obligations.RegisterMap : Prop :=
  ∀ s : State, s.cfg.bufSize ≤ 65536 →
    regRead s 0x00000 = 0 ∧ regRead s 0x00004 = statusWord s ∧ regRead s 0x00008 = flagsWord s.eng ∧
    regRead s 0x0000C = s.result.setWidth 32 ∧ regRead s 0x00010 = s.len.setWidth 32 ∧
    regRead s 0x00014 = s.doneCount.setWidth 32 ∧ regRead s 0x00018 = s.ccr.setWidth 32 ∧
    regRead s 0x0001C = s.trise.setWidth 32 ∧
    (∀ i, i < s.cfg.bufSize → regRead s (0x10000 + i) = (s.wbufRead i).setWidth 32) ∧
    (∀ i, i < s.cfg.bufSize → regRead s (0x20000 + i) = (s.rbufRead i).setWidth 32) ∧
    (∀ off, off ∉ [0x00004, 0x00008, 0x0000C, 0x00010, 0x00014, 0x00018, 0x0001C] →
      (off < 0x10000 ∨ 0x10000 + s.cfg.bufSize ≤ off) → (off < 0x20000 ∨ 0x20000 + s.cfg.bufSize ≤ off) →
      regRead s off = 0) ∧
    (∀ off v, off ≠ 0x00010 → (off < 0x10000 ∨ 0x10000 + s.cfg.bufSize ≤ off) → hostWrite off v s = s)

/-- R24, R26: a host write to LEN stores its low 17 bits, one to a WBUF byte that byte and no other; neither changes anything
else the host can read or any command's result. -/
def Obligations.HostWrites : Prop :=
  ∀ (s : State) (v : Word), s.busy = false →
    hostWrite 0x00010 v s = { s with len := v.setWidth 17 } ∧
    ∀ i, i < s.cfg.bufSize →
      (∀ j, (hostWrite (0x10000 + i) v s).wbufRead j = if j = i then v.setWidth 8 else s.wbufRead j) ∧
      hostWrite (0x10000 + i) v s = { s with wbuf := (hostWrite (0x10000 + i) v s).wbuf }

/-- R45: host accesses while a command executes: a read sees the current values, a write to LEN, WBUF or any other register is
ignored, a write to CMD is refused with cause 1 and changes nothing else. -/
def Obligations.HostAccessWhileBusy : Prop :=
  ∀ s : State, s.busy = true →
    (∀ off, hostMove (.read off) s = { s with rdata := regRead s off }) ∧
    (∀ off v, off ≠ cmdOffset → hostMove (.write off v) s = s) ∧
    (∀ v, hostMove (.write cmdOffset v) s = { s with ill := true, illcause := .busy }) ∧
    (∀ w, present w s = .next { s with ill := true, illcause := .busy })

/-! ### Reset -/

/-- R52, R250, R251: the values of the block's state after reset, from the first reset and from a reset of any state. The EEPROM
keeps its content and its busy state, and its pointer too unless the reset came inside a transaction (then the pointer is a
free value of the model, log 13). -/
def Obligations.ResetValues : Prop :=
  ∀ s t : State, t = State.reset ∨ t = resetBlock s →
    (t.eng.sb = false ∧ t.eng.addr = false ∧ t.eng.txe = false ∧ t.eng.rxne = false ∧ t.eng.stopp = false ∧
      t.eng.af = false ∧ t.eng.acken = false ∧ t.eng.dir = false ∧ t.eng.addrSeen = false) ∧
    t.phase = .idle ∧ (t.eng.es = .idle ∧ t.eng.act = .none) ∧
    (t.busy = false ∧ t.inited = false ∧ t.mode = .std ∧ t.cpl = false ∧ t.outcome = .success ∧ t.ill = false ∧
      t.illcause = .none) ∧
    (t.eng.dr = 0 ∧ t.eng.shift = 0 ∧ t.eng.bitcnt = 0 ∧ t.result = 0) ∧ (t.len = 0 ∧ t.doneCount = 0) ∧
    (t.ccr = 0 ∧ t.trise = 0) ∧
    (t.cur = 0 ∧ t.idx = 0 ∧ t.chunk = 0 ∧ t.retry = 0 ∧ t.spin = 0 ∧ t.ticks = 0 ∧ t.err = .success ∧ t.seq = none) ∧
    (t.eng.sclO = true ∧ t.eng.sdaO = true) ∧ t.eng.trace = [] ∧
    (t = resetBlock s → t.cfg = s.cfg ∧ (∀ a, t.ee.memRead a = s.ee.memRead a) ∧ t.ee.busydev = s.ee.busydev ∧
      (s.eng.inTransaction = false → t.ee = s.ee))

/-- The invariants hold after reset (R52). -/
def Obligations.ResetMeetsInvariants : Prop :=
  State.reset.Inv ∧ State.reset.LinesInv ∧ State.reset.TraceInv ∧ State.reset.RangeInv

/-! ### Invariants of every step -/

/-- R39, R30, R35, R41, R54, R140: whatever the host and the environment do, a step keeps the flags, the engine, PHASE, SEQ and
ILLCAUSE in agreement and the memories in canonical form. (Where R140 says that AddressPhase implies that no activity is
pending, the model has one exception, a repeated START still withheld, log 31.) -/
def Obligations.StepKeepsInvariant : Prop := ∀ s t : State, s.Inv → step s = .next t → t.Inv

/-- R9, R141: no step changes a parameter, or which slaves are on the bus. -/
def Obligations.StepKeepsParameters : Prop := ∀ s t : State, step s = .next t → t.cfg = s.cfg ∧ t.bus = s.bus

/-- R49, R123 to R129, R142: after every step the ports hold the last levels the symbols of the trace drive. (The line levels
are the spec's general knowledge of the bus, log 16.) -/
def Obligations.LinesFollowTrace : Prop :=
  ∀ s t : State, s.Inv → s.LinesInv → step s = .next t → t.LinesInv

/-- R98, R99, R132 to R134, R136, R137, R139: after every step the trace follows the grammar of transactions (`Wire.next`). The first byte
after START or repeated START is an address byte; a repeated START or STOP may come instead of it (V26), so the frames R98 writes after each
may be none. The bytes after it go in its direction. After a transmitted byte that was not acknowledged only STOP comes; after a
received byte, whatever the master answered, a reception, a repeated START or STOP may come (R255, U7). -/
def Obligations.TraceFollowsGrammar : Prop :=
  ∀ s t : State, s.Inv → s.TraceInv → step s = .next t → t.TraceInv

/-- R26, R27, R73: no step puts a byte at an address the EEPROM's memory or a buffer does not have. -/
def Obligations.CellsStayInRange : Prop :=
  ∀ s t : State, s.RangeInv → step s = .next t → t.RangeInv

/-- R50, R82: a step only appends to the trace, unless it resets the block. -/
def Obligations.TraceOnlyGrows : Prop :=
  ∀ s t : State, step s = .next t → t.epoch = s.epoch → s.eng.trace <+: t.eng.trace

/-! ### The line engine -/

/-- The flag invariants that 10_state section 4 and 40_line_engine section 3 derive from R133 to R139 (the spec marks them as
inferences of its own). -/
def Obligations.FlagInvariants : Prop :=
  (∀ e : Engine, e.Inv →
    ¬(e.sb = true ∧ e.addr = true) ∧ (e.txe = true → e.dir = false ∧ e.es = .tx) ∧
    (e.rxne = true → e.dir = true ∧ e.es = .rx) ∧
    (e.es = .idle → e.act = .none →
      e.sb = false ∧ e.addr = false ∧ e.txe = false ∧ e.rxne = false ∧ e.stopp = false) ∧
    (e.stopp = true → e.es ≠ .idle)) ∧
  ∀ (ans : Answer) (s : State), s.eng.act = .txAddr → s.eng.addr = false → s.eng.af = false →
    ¬((engineStep ans s).eng.addr = true ∧ (engineStep ans s).eng.af = true)

/-- R133: `assert_start()` and the engine steps it starts. -/
def Obligations.AssertStart : Prop :=
  (∀ e : Engine,
    (e.es = .idle → e.act = .none → e.stopp = false → e.assertStart = { e with af := false, act := .start }) ∧
    (e.es = .sb ∨ e.es = .tx ∨ e.es = .rx → e.act = .none → e.assertStart = { e with af := false, act := .rstart }) ∧
    (¬(e.es = .idle ∧ e.act = .none ∧ e.stopp = false) → ¬((e.es = .sb ∨ e.es = .tx ∨ e.es = .rx) ∧ e.act = .none) →
      e.assertStart = { e with af := false })) ∧
  ∀ (ans : Answer) (s : State),
    (s.eng.act = .start → (engineStep ans s).eng =
      { s.eng with
        trace := s.eng.trace ++ [.start], sb := true, es := .sb, act := .none, sclO := false, sdaO := false }) ∧
    (s.eng.act = .rstart → (engineStep ans s).eng =
      { s.eng with
        trace := s.eng.trace ++ [.rstart], sb := true, addr := false, txe := false, rxne := false, addrSeen := false
        es := .sb, act := .none, sclO := false, sdaO := false })

/-- R134, R136: `load_tx(b)` and the engine steps it starts; `k` is `env.ack(DR)`. -/
def Obligations.LoadTx : Prop :=
  (∀ (e : Engine) (b : Byte),
    (e.es = .sb → e.act = .none → e.loadTx b = { e with dr := b, sb := false, act := .txAddr }) ∧
    (e.es = .tx → e.act = .none → e.txe = true → e.loadTx b = { e with dr := b, txe := false, act := .txData }) ∧
    (¬(e.es = .sb ∧ e.act = .none) → ¬(e.es = .tx ∧ e.act = .none ∧ e.txe = true) → e.loadTx b = e)) ∧
  ∀ (ans : Answer) (s : State) (k : Bool), k = (s.slaveByte ans s.eng.dr).1 →
    (s.eng.act = .txAddr → ∀ f : Engine, f = (engineStep ans s).eng →
      f.trace = s.eng.trace ++ [.tx s.eng.dr k] ∧ f.act = .none ∧
      (k = true → f.addr = true ∧ f.dir = s.eng.dr.getLsbD 0 ∧ f.es = .addrHold ∧ f.af = s.eng.af) ∧
      (k = false → f.af = true ∧ f.es = .nak ∧ f.addr = s.eng.addr ∧ f.dir = s.eng.dir) ∧
      f.dr = s.eng.dr ∧ f.sb = s.eng.sb ∧ f.txe = s.eng.txe ∧ f.rxne = s.eng.rxne ∧ f.stopp = s.eng.stopp ∧
      f.acken = s.eng.acken ∧ f.addrSeen = s.eng.addrSeen ∧ f.sclO = false ∧ f.sdaO = true) ∧
    (s.eng.act = .txData → ∀ f : Engine, f = (engineStep ans s).eng →
      f.trace = s.eng.trace ++ [.tx s.eng.dr k] ∧ f.act = .none ∧
      (k = true → f.txe = true ∧ f.es = s.eng.es ∧ f.af = s.eng.af) ∧
      (k = false → f.af = true ∧ f.es = .nak ∧ f.txe = s.eng.txe) ∧
      f.dr = s.eng.dr ∧ f.sb = s.eng.sb ∧ f.addr = s.eng.addr ∧ f.rxne = s.eng.rxne ∧ f.stopp = s.eng.stopp ∧
      f.acken = s.eng.acken ∧ f.dir = s.eng.dir ∧ f.addrSeen = s.eng.addrSeen ∧ f.sclO = false ∧ f.sdaO = true)

/-- R135: the two-step clear of ADDR. -/
def Obligations.TwoStepClear : Prop :=
  ∀ e : Engine,
    e.sample = ⟨e.sb, e.addr, e.txe, e.rxne, e.stopp, e.af⟩ ∧
    e.readSr1 = { e with addrSeen := e.addrSeen || e.addr } ∧
    (e.addrSeen = true → e.dir = false →
      e.readSr2 = { e with addr := false, addrSeen := false, es := .tx, txe := true }) ∧
    (e.addrSeen = true → e.dir = true → e.readSr2 = { e with addr := false, addrSeen := false, es := .rx }) ∧
    (e.addrSeen = false → e.readSr2 = e) ∧ e.sr2 = e.dir ∧
    (e.es = .addrHold → ∀ (b : Byte) (k : Bool), e.loadTx b = e ∧ e.setAckMode k = { e with acken := k })

/-- R137, R138: `set_ack_mode(k)` arms one reception in receiver mode, the engine step receives it; `read_dr()`, by which
`bl_read_byte` takes the byte into RESULT, returns DR and clears RXNE. -/
def Obligations.Reception : Prop :=
  (∀ (e : Engine) (k : Bool),
    (e.es = .rx → e.act = .none → e.rxne = false → e.setAckMode k = { e with acken := k, act := .rxData }) ∧
    (¬(e.es = .rx ∧ e.act = .none ∧ e.rxne = false) → e.setAckMode k = { e with acken := k })) ∧
  (∀ (ans : Answer) (s : State) (v : Byte), v = (s.slaveRead ans s.eng.acken).1 → s.eng.act = .rxData →
    ∀ f : Engine, f = (engineStep ans s).eng →
      f.trace = s.eng.trace ++ [.rx v s.eng.acken] ∧ f.dr = v ∧ f.rxne = true ∧ f.act = .none ∧
      f.es = s.eng.es ∧ f.sb = s.eng.sb ∧ f.addr = s.eng.addr ∧ f.txe = s.eng.txe ∧ f.stopp = s.eng.stopp ∧
      f.af = s.eng.af ∧ f.acken = s.eng.acken ∧ f.dir = s.eng.dir ∧ f.addrSeen = s.eng.addrSeen ∧
      f.sclO = false ∧ f.sdaO = true) ∧
  (∀ e : Engine, e.readDr = { e with rxne := false }) ∧
  ∀ s : State, takeResult .success s = { s with result := s.eng.dr, eng := s.eng.readDr }

/-- R139: `assert_stop()`, and the engine step of a pending STOP, enabled only with no activity pending. (The invariant the rule
derives is in `FlagInvariants`.) -/
def Obligations.AssertStop : Prop :=
  (∀ e : Engine,
    (e.es = .idle → e.act = .none → e.assertStop = e) ∧
    (e.es = .idle → e.act = .start → e.assertStop = { e with act := .none }) ∧
    (¬(e.es = .idle ∧ (e.act = .none ∨ e.act = .start)) → e.assertStop = { e with stopp := true })) ∧
  (∀ (ans : Answer) (s : State), s.eng.stopp = true → s.eng.act = .none →
    (engineStep ans s).eng =
      { s.eng with
        trace := s.eng.trace ++ [.stop], sb := false, addr := false, txe := false, rxne := false, addrSeen := false
        stopp := false, es := .idle, sclO := true, sdaO := true }) ∧
  ∀ (ans : Answer) (s : State), s.eng.stopp = true → s.eng.act ≠ .none → (engineStep ans s).eng.stopp = true

/-- R140 for the BusLine commands: where the body of an accepted command comes to its call of the line engine, whatever the other agents
did in the gap before it, the call's precondition holds (R133, R134, R136, R137). One case is outside, the one log 31 gives: START and
WRADDR in AddressPhase while the repeated START of the START before is still pending; there the call starts nothing. -/
def Obligations.PreconditionsMet : Prop :=
  ∀ (i : Instr) (s t : State), s.Inv → refusalCause i s = none → gap (accept i s) = .done () t →
    (i = .start →
      (t.eng.es = .idle ∧ t.eng.act = .none ∧ t.eng.stopp = false) ∨
        ((t.eng.es = .sb ∨ t.eng.es = .tx ∨ t.eng.es = .rx) ∧ t.eng.act = .none) ∨
        (s.phase = .addressPhase ∧ s.eng.act = .rstart ∧ t.eng = s.eng ∧ t.eng.assertStart = { t.eng with af := false })) ∧
    (∀ a, i = .wraddr a →
      (t.eng.es = .sb ∧ t.eng.act = .none) ∨ (s.eng.act = .rstart ∧ t.eng = s.eng ∧ t.eng.loadTx a = t.eng)) ∧
    (∀ b, i = .wrbyte b → t.eng.es = .tx ∧ t.eng.act = .none ∧ t.eng.txe = true) ∧
    (∀ k, i = .rdbyte k → t.eng.es = .rx ∧ t.eng.act = .none ∧ t.eng.rxne = false)

/-- R141: an engine step is enabled when an activity is pending or a STOP is; it puts exactly one symbol on the wire and leaves no
activity; with nothing pending there is no step. -/
def Obligations.EngineStepOneSymbol : Prop :=
  ∀ (ans : Answer) (s : State),
    (s.eng.act ≠ .none ∨ s.eng.stopp = true →
      ∃ sym, (engineStep ans s).eng.trace = s.eng.trace ++ [sym] ∧ (engineStep ans s).eng.act = .none) ∧
    (s.eng.act = .none → s.eng.stopp = false → engineStep ans s = s)

/-- R65, R66, R121, R123, R124, R126 to R130: the levels of each symbol. A line is low exactly when the block or a slave pulls it low;
what the block reads off it is the level on the line. Bits go most significant first, one per rising clock edge, and the eight bits of a
received byte make it again, the first as bit 7; a slave acknowledges by pulling the data line low in the ninth slot; the clock line rises
unless a slave holds it; the data line falls while the clock is high for a START and rises for a STOP. (General knowledge of the spec,
log 16.) -/
def Obligations.LineLevels : Prop :=
  (∀ (own : Lines) (slaves : List Lines),
    ((onLines own slaves).scl = true ↔ own.scl = true ∧ ∀ d ∈ slaves, d.scl = true) ∧
    ((onLines own slaves).sda = true ↔ own.sda = true ∧ ∀ d ∈ slaves, d.sda = true)) ∧
  (∀ (b : Byte) (k x : Bool), risingSamples ⟨false, x⟩ (Symbol.tx b k).levels =
    [b.getLsbD 7, b.getLsbD 6, b.getLsbD 5, b.getLsbD 4, b.getLsbD 3, b.getLsbD 2, b.getLsbD 1, b.getLsbD 0, true]) ∧
  (∀ (b : Byte) (k x : Bool), risingSamples ⟨false, x⟩ (Symbol.rx b k).levels = List.replicate 8 true ++ [!k]) ∧
  (∀ (b : Byte) (k x : Bool) (sym : Symbol), sym = .tx b k ∨ sym = .rx b k → risingSamples ⟨false, x⟩ sym.wireLevels =
    [b.getLsbD 7, b.getLsbD 6, b.getLsbD 5, b.getLsbD 4, b.getLsbD 3, b.getLsbD 2, b.getLsbD 1, b.getLsbD 0, !k]) ∧
  (∀ x7 x6 x5 x4 x3 x2 x1 x0 : Bool, ∀ v : Byte, v = byteOfBits [x7, x6, x5, x4, x3, x2, x1, x0] →
    v.getLsbD 7 = x7 ∧ v.getLsbD 6 = x6 ∧ v.getLsbD 5 = x5 ∧ v.getLsbD 4 = x4 ∧ v.getLsbD 3 = x3 ∧ v.getLsbD 2 = x2 ∧
    v.getLsbD 1 = x1 ∧ v.getLsbD 0 = x0) ∧
  (∀ v : Byte, receivedByte v = v) ∧ (∀ k : Bool, receivedAck k = k ∧ receivedBit k = k ∧ clockRises k = k) ∧
  Symbol.start.levels = [⟨true, false⟩, ⟨false, false⟩] ∧
  Symbol.rstart.levels = [⟨false, true⟩, ⟨true, true⟩, ⟨true, false⟩, ⟨false, false⟩] ∧
  Symbol.stop.levels = [⟨false, false⟩, ⟨true, false⟩, ⟨true, true⟩]

/-! ### The reference EEPROM -/

/-- R74, R75, R77: what the device answers, and where PTR goes. A device that drives the data line is excluded where the spec leaves
what it sees open (U6). That the two address bytes reach PTR together, PTR staying as it was between them, is the model's reading of R75
(log 6). -/
def Obligations.EepromAnswers : Prop :=
  ∀ (c : Params) (ans : Answer) (b : Byte) (e : Eeprom),
    (e.out ≠ .driving →
      (e.onStart ans).sel = .none ∧ (e.onStart ans).pagebuf = [] ∧ (e.onStart ans).first = true ∧
      (e.onStart ans).mem = e.mem) ∧
    (e.first = true → slaveId b = c.devBase → e.busydev = false → b.getLsbD 0 = false →
      (e.onByte c ans b).1 = true ∧ (e.onByte c ans b).2.sel = .write ∧ (e.onByte c ans b).2.naddr = 0 ∧
      (e.onByte c ans b).2.pagebuf = []) ∧
    (e.first = true → slaveId b = c.devBase → e.busydev = false → b.getLsbD 0 = true →
      (e.onByte c ans b).1 = true ∧ (e.onByte c ans b).2.sel = .read) ∧
    (e.first = true → slaveId b ≠ c.devBase ∨ e.busydev = true → (e.onByte c ans b).1 = false) ∧
    (e.first = false → e.sel = .write → e.naddr = 0 →
      e.onByte c ans b = (true, { e with hi := b, naddr := 1 })) ∧
    (e.first = false → e.sel = .write → e.naddr = 1 →
      e.onByte c ans b = (true, { e with ptr := e.hi ++ b, naddr := 2 })) ∧
    (e.first = false → e.sel = .write → e.naddr = 2 →
      (e.onByte c ans b).1 = true ∧ (e.onByte c ans b).2.pagebuf = e.pagebuf ++ [(e.ptr.toNat, b)] ∧
      (e.onByte c ans b).2.ptr = advanceInPage c.pageSize e.ptr ∧ (e.onByte c ans b).2.mem = e.mem) ∧
    (e.sel = .read → e.out ≠ .released → e.ptr.toNat ≤ c.maxAddress → ∀ k : Bool,
      (e.onRead c ans k).1 = e.memRead e.ptr.toNat ∧ (e.onRead c ans k).2.mem = e.mem ∧
      (e.onRead c ans k).2.ptr = if e.ptr.toNat = c.maxAddress then 0 else e.ptr + 1)

/-- R75, R67: PTR advances inside its page and wraps to the page's first address. -/
def Obligations.PointerWrapsInPage : Prop :=
  ∀ (k : Nat) (p : MemAddr), k ≤ 16 →
    (advanceInPage (2 ^ k) p).toNat = p.toNat / 2 ^ k * 2 ^ k + (p.toNat + 1) % 2 ^ k ∧
    (advanceInPage (2 ^ k) p).toNat / 2 ^ k = p.toNat / 2 ^ k

/-- R76, R78: a STOP after a write that stayed in its page stores its bytes, a later byte for an address winning, and starts a
busy period; a STOP after no data stores nothing and starts none. (For a byte above MAX_ADDRESS, stored nowhere, the busy period is the
model's choice, log 33.) -/
def Obligations.EepromCommits : Prop :=
  ∀ (c : Params) (n : Nat) (ans : Answer) (e : Eeprom), e.sel = .write → e.out ≠ .driving →
    (e.pagebuf = [] → (∀ x, (e.onStop c n ans).memRead x = e.memRead x) ∧ (e.onStop c n ans).busydev = e.busydev) ∧
    (e.pagebuf ≠ [] → crossesPage c e.pagebuf = false →
      (e.onStop c n ans).busydev = true ∧
      ∀ x, x ≤ c.maxAddress → (e.onStop c n ans).memRead x =
        match e.pagebuf.reverse.find? (fun p => p.1 == x) with
        | some p => p.2
        | none => e.memRead x) ∧
    (e.onStop c n ans).sel = .none

/-! ### Arithmetic -/

/-- R200, R68, R67: the chunks of a write of `n` bytes at `a`. -/
def Obligations.ChunkLaws : Prop :=
  ∀ p : Nat, 1 ≤ p →
    (∀ c, 1 ≤ remaining p c ∧ remaining p c ≤ p ∧ (remaining p c = p ↔ c % p = 0)) ∧
    ∀ a n, 1 ≤ n →
      (chunks p a n).length = (a + n - 1) / p - a / p + 1 ∧
      ((chunks p a n).map (fun x => x.2)).sum = n ∧
      (∀ c m, (c, m) ∈ chunks p a n →
        1 ≤ m ∧ c / p = (c + m - 1) / p ∧ a ≤ c ∧ c + m ≤ a + n ∧ (c ≠ a → c % p = 0) ∧
          (c + m ≠ a + n → (c + m) % p = 0)) ∧
      (∀ k, k < (chunks p a n).length →
        ((chunks p a n).map (fun x => x.1)).getD k 0 = a + (((chunks p a n).take k).map (fun x => x.2)).sum)

/-! ### Waits -/

/-- R161, R223, R226: a wait takes at most SPIN_LIMIT samples, ends in Timeout exactly when it used them all, and never in
AddressOutOfRange. -/
def Obligations.WaitIsBounded : Prop :=
  ∀ (ok bad : Sample → Bool) (s t : State) (r : TransferOutcome), wait ok bad s = .done r t →
    t.spin ≤ s.cfg.spinLimit ∧ (r = .timeout ↔ t.spin = s.cfg.spinLimit) ∧ r ≠ .addressOutOfRange

/-- R197, R229: the ready wait makes at least one and at most READY_RETRIES probes, and ends in Success or Timeout. -/
def Obligations.ReadyWaitIsBounded : Prop :=
  ∀ (s t : State) (r : TransferOutcome), 1 ≤ s.cfg.readyRetries → readyWait s = .done r t →
    1 ≤ t.retry ∧ t.retry ≤ s.cfg.readyRetries ∧ (r = .success ∨ r = .timeout)

/-! ### Every command, in every schedule -/

/-- R168, R205, R29: PHASE after an accepted command that finished, whatever the schedule and the bus did; and the refusals of the
table. -/
def Obligations.PhaseTransitions : Prop :=
  (∀ (i : Instr) (s t : State), s.Inv → refusalCause i s = none → exec i s = .next t → t.cpl = true →
    t.phase = phaseAfter i s.phase (t.outcome == .success)) ∧
  ∀ (i : Instr) (s : State), s.busy = false → s.inited = !isInit i →
    s.phase ∉ phasesOf i ∨ (dirNeeded i = some true ∧ s.eng.dir = false) ∨ (dirNeeded i = some false ∧ s.eng.dir = true) →
    exec i s = .next { s with ill := true, illcause := .phase }

/-- R235, R220 to R223: the outcomes an accepted command can finish with, whatever the schedule and the bus do. -/
def Obligations.OutcomesAllowed : Prop :=
  ∀ (i : Instr) (s t : State), refusalCause i s = none → exec i s = .next t → t.cpl = true → t.outcome ∈ outcomesOf i

/-- R23 to R27, R43, R162, R167 (frame): a BusLine command changes no register but those its rule names, in any schedule in which the
block is not reset meanwhile. (That CUR, IDX, CHUNK, RETRY, TICKS and ERR keep their values across it is the model's choice, log 22: R20
and R28 call them dead between commands.) -/
def Obligations.BusLineFrame : Prop :=
  ∀ (i : Instr) (s t : State), isBusLine i = true → exec i s = .next t → t.epoch = s.epoch →
    (isInit i = false → t.inited = s.inited ∧ t.mode = s.mode ∧ t.ccr = s.ccr ∧ t.trise = s.trise) ∧
    (i.mnemonic ≠ "RDBYTE" → t.result = s.result ∧ t.eng.acken = s.eng.acken) ∧
    t.len = s.len ∧ t.doneCount = s.doneCount ∧ t.wbuf = s.wbuf ∧ t.rbuf = s.rbuf ∧ t.cur = s.cur ∧ t.idx = s.idx ∧
    t.chunk = s.chunk ∧ t.retry = s.retry ∧ t.ticks = s.ticks ∧ t.err = s.err ∧ t.cfg = s.cfg ∧ t.bus = s.bus ∧
    t.host = s.host

/-- R21, R31 to R38, R143 (frame): the flags, and DR, a BusLine command leaves unchanged, in any schedule in which the block is not reset
meanwhile. -/
def Obligations.FlagFrame : Prop :=
  ∀ (i : Instr) (s t : State), s.Inv → exec i s = .next t → t.epoch = s.epoch →
    (isInit i = true → t.eng = s.eng ∧ t.phase = s.phase) ∧
    (i = .start →
      t.eng.stopp = s.eng.stopp ∧ t.eng.acken = s.eng.acken ∧ t.eng.dir = s.eng.dir ∧ t.eng.dr = s.eng.dr) ∧
    (i = .stop → s.phase ≠ .error → s.eng.stopp = false →
      t.eng.af = s.eng.af ∧ t.eng.acken = s.eng.acken ∧ t.eng.dir = s.eng.dir ∧ t.eng.dr = s.eng.dr) ∧
    (i.mnemonic = "WRADDR" →
      t.eng.rxne = s.eng.rxne ∧ t.eng.stopp = s.eng.stopp ∧ t.eng.acken = s.eng.acken) ∧
    (i.mnemonic = "WRBYTE" →
      t.eng.sb = s.eng.sb ∧ t.eng.addr = s.eng.addr ∧ t.eng.rxne = s.eng.rxne ∧ t.eng.stopp = s.eng.stopp ∧
      t.eng.acken = s.eng.acken ∧ t.eng.dir = s.eng.dir) ∧
    (i.mnemonic = "RDBYTE" →
      t.eng.sb = s.eng.sb ∧ t.eng.addr = s.eng.addr ∧ t.eng.txe = s.eng.txe ∧ t.eng.stopp = s.eng.stopp ∧
      t.eng.af = s.eng.af ∧ t.eng.dir = s.eng.dir)

/-- R23 to R27, R43, R192 to R197 (frame): a PagedMemoryDevice command changes no register but those its rule names and the working
registers its sequence uses, in any schedule in which the block is not reset meanwhile. (That CUR, CHUNK, IDX, RETRY and TICKS keep their
values across a command whose sequence does not use them is the model's choice, log 22: R20 and R28 call them dead between commands.) -/
def Obligations.PagedFrame : Prop :=
  ∀ (i : Instr) (s t : State), isPaged i = true → exec i s = .next t → t.epoch = s.epoch →
    (t.inited = s.inited ∧ t.mode = s.mode ∧ t.ccr = s.ccr ∧ t.trise = s.trise ∧ t.len = s.len ∧ t.wbuf = s.wbuf ∧
      t.cfg = s.cfg ∧ t.bus = s.bus ∧ t.host = s.host) ∧
    (i.mnemonic ≠ "MRD1" → i.mnemonic ≠ "MRDN" → t.result = s.result ∧ t.eng.acken = s.eng.acken) ∧
    (i.mnemonic ≠ "MRDN" → t.rbuf = s.rbuf) ∧
    (i.mnemonic ≠ "MWRN" → t.cur = s.cur ∧ t.chunk = s.chunk) ∧
    (i.mnemonic ≠ "MRDN" → i.mnemonic ≠ "MWRN" → t.doneCount = s.doneCount ∧ t.idx = s.idx) ∧
    (i = .probe ∨ i.mnemonic = "MRD1" ∨ i.mnemonic = "MRDN" → t.retry = s.retry ∧ t.ticks = s.ticks)

/-- R69, R70, R73, R76 (frame): every byte of EEPROM memory but those a write command stores to reads as before, whatever the
schedule, the bus and the outcome, unless the block is reset meanwhile. A STOP ends whatever write transaction the host built, so
for it the device's page buffer is empty and no byte to transmit is pending (`StopCompletes` and `EepromCommits` say what a STOP stores
otherwise). Excluded: a device left driving the data line when a PagedMemoryDevice command starts (U6). -/
def Obligations.MemoryFrame : Prop :=
  ∀ (i : Instr) (s t : State) (x : Nat), s.Inv → s.cfg.Legal →
    (i = .stop → s.ee.pagebuf = [] ∧ s.eng.act ≠ .txAddr ∧ s.eng.act ≠ .txData) →
    (isPaged i = true → s.ee.out ≠ .driving) → exec i s = .next t → t.epoch = s.epoch →
    ¬storesTo i s.len.toNat x → t.ee.memRead x = s.ee.memRead x

/-- R221, R199, R89: a command whose addresses leave the device finishes with AddressOutOfRange and touches neither the engine,
nor PHASE, nor a data register but DONE, whatever the schedule, unless the block is reset meanwhile; no other command can return
it. -/
def Obligations.OutOfRange : Prop :=
  (∀ (i : Instr) (s : State), s.ReadyForPaged → (isPaged i = true → lenTooLong i s = false) →
    leavesRange i s.cfg s.len.toNat →
    ∃ t, exec i s = .next t ∧
      (t.epoch = s.epoch → t.cpl = true ∧ t.outcome = .addressOutOfRange ∧ t.eng = s.eng ∧ t.phase = .idle ∧
        t.result = s.result ∧ t.rbuf = s.rbuf ∧ ∀ x, t.ee.memRead x = s.ee.memRead x)) ∧
  ∀ (i : Instr) (s t : State), refusalCause i s = none → exec i s = .next t → t.cpl = true →
    (t.outcome = .addressOutOfRange ↔ leavesRange i s.cfg s.len.toNat)

/-- R195, R196, R199, R202: MRDN and MWRN with LEN = 0 and an address in range finish with Success and put nothing on the wire. -/
def Obligations.ZeroLength : Prop :=
  ∀ (i : Instr) (a : MemAddr) (s : State), i = .mrdn a ∨ i = .mwrn a → s.ReadyForPaged → s.len = 0 →
    a.toNat ≤ s.cfg.maxAddress →
    ∃ t, exec i s = .next t ∧
      (t.epoch = s.epoch → t.cpl = true ∧ t.outcome = .success ∧ t.eng = s.eng ∧ t.phase = .idle ∧ t.doneCount = 0 ∧
        t.result = s.result ∧ t.rbuf = s.rbuf ∧ ∀ x, t.ee.memRead x = s.ee.memRead x)

/-- R25, R201: when MWRN ends, DONE is the total length of its first chunks, all of them after Success; whatever the schedule and
the bus did. -/
def Obligations.MwrnProgress : Prop :=
  ∀ (a : MemAddr) (s t : State), refusalCause (.mwrn a) s = none → exec (.mwrn a) s = .next t → t.cpl = true →
    (t.outcome = .addressOutOfRange → t.doneCount = 0) ∧
    ∃ k, k ≤ (chunks s.cfg.pageSize a.toNat s.len.toNat).length ∧
      t.doneCount.toNat = (((chunks s.cfg.pageSize a.toNat s.len.toNat).take k).map (fun x => x.2)).sum ∧
      (t.outcome = .success → k = (chunks s.cfg.pageSize a.toNat s.len.toNat).length)

/-- R25, R27, R195: when MRDN ends, DONE counts the bytes it stored, LEN of them after Success, and RBUF at index DONE and above
is as it was; whatever the schedule and the bus did. -/
def Obligations.MrdnProgress : Prop :=
  ∀ (a : MemAddr) (s t : State), refusalCause (.mrdn a) s = none → exec (.mrdn a) s = .next t → t.cpl = true →
    t.doneCount.toNat ≤ s.len.toNat ∧ (t.outcome = .success → t.doneCount = s.len) ∧
    (∀ i, t.doneCount.toNat ≤ i → t.rbufRead i = s.rbufRead i) ∧
    (t.outcome = .success → 1 ≤ s.len.toNat → t.rbufRead (s.len.toNat - 1) = t.result)

/-! ### The BusLine commands in an environment that withholds no step

The next states are written whole; that the working registers R20 and R28 call dead keep their values there is the model's choice
(log 22). -/

/-- R162: INIT. -/
def Obligations.InitCompletes : Prop :=
  ∀ (m : BusMode) (s : State) (d : Steady), s.Inv → s.SteadyAs d → s.busy = false → s.inited = false →
    exec (.init m) s = .next (State.ended .success
      { s with
        mode := m, inited := true, ee := s.ee.rested d
        ccr := if m = .std then s.cfg.ccrStd else s.cfg.ccrFast
        trise := if m = .std then s.cfg.triseStd else s.cfg.triseFast
        eng := { s.eng with sclO := true, sdaO := true } })

/-- R163: START from an idle bus, and a repeated START. In AddressPhase a repeated START of the START before may still be pending (log 31):
its symbol goes on the wire first, and START is as from the state after it. -/
def Obligations.StartCompletes : Prop :=
  ∀ (s : State) (d : Steady), s.Inv → s.Prompt d → s.busy = false → s.inited = true →
    (s.phase = .idle → s.eng.stopp = false →
      exec .start s = .next (State.ended .success
        { s with
          eng := { s.eng with
            af := false, sb := true, es := .sb, trace := s.eng.trace ++ [.start], sclO := false, sdaO := false }
          ee := (State.slaveStart d.answer (s.rested d)).rested d, phase := .addressPhase, spin := 0 })) ∧
    (s.phase = .addressPhase ∨ s.phase = .dataPhase → s.eng.act = .none →
      exec .start s = .next (State.ended .success
        { s with
          eng := { s.eng with
            af := false, sb := true, addr := false, txe := false, rxne := false, addrSeen := false, es := .sb
            trace := s.eng.trace ++ [.rstart], sclO := false, sdaO := false }
          ee := (State.slaveStart d.answer (s.rested d)).rested d, phase := .addressPhase, spin := 0 })) ∧
    (s.phase = .addressPhase → s.eng.act ≠ .none →
      (engineStep d.answer (s.rested d)).eng.act = .none ∧ (engineStep d.answer (s.rested d)).phase = .addressPhase ∧
      exec .start s = exec .start (engineStep d.answer (s.rested d)))

/-- R164, R139: STOP, in every engine state. With no transaction open nothing goes on the wire. Where the environment withholds the
engine, a START not yet on the wire is cancelled, and in an open transaction the STOP is pending. Where it does not, the STOP is on the
wire when the command finishes: after a symbol that was pending before the command (a START too), which the engine completes first; and
when a STOP was pending already, the one STOP. -/
def Obligations.StopCompletes : Prop :=
  ∀ (s : State) (d : Steady), s.Inv → s.SteadyAs d → s.busy = false → s.inited = true →
    (s.eng.es = .idle → s.eng.act = .none →
      exec .stop s = .next (State.ended .success { s with ee := s.ee.rested d, phase := .idle })) ∧
    (s.eng.es = .idle → s.eng.act = .start → d.engine = false →
      exec .stop s = .next (State.ended .success
        { s with eng := { s.eng with act := .none }, ee := s.ee.rested d, phase := .idle })) ∧
    (s.eng.es ≠ .idle → d.engine = false →
      exec .stop s = .next (State.ended .success
        { s with eng := { s.eng with stopp := true }, ee := s.ee.rested d, phase := .idle })) ∧
    (s.eng.es ≠ .idle → s.eng.act = .none → s.eng.stopp = false → d.engine = true →
      exec .stop s = .next (State.ended .success
        { s with
          eng := { s.eng with
            sb := false, addr := false, txe := false, rxne := false, addrSeen := false, stopp := false, es := .idle
            trace := s.eng.trace ++ [.stop], sclO := true, sdaO := true }
          ee := State.slaveStop d.answer (s.rested d), draws := s.draws + 1, phase := .idle })) ∧
    (s.eng.act ≠ .none → s.eng.stopp = false → d.engine = true →
      exec .stop s = .next (State.ended .success (((engineStep d.answer (s.rested d)).rested d).stopped d))) ∧
    (s.eng.act ≠ .none → s.eng.stopp = true → d.engine = true →
      exec .stop s = .next (State.ended .success (((engineStep d.answer (s.rested d)).stopped d).rested d))) ∧
    (s.eng.act = .none → s.eng.stopp = true → d.engine = true →
      exec .stop s = .next (State.ended .success (((s.rested d).stopped d).rested d)))

/-- R165, R134, R135: WRADDR, the slave acknowledging the address byte and not acknowledging it. A repeated START still pending (log 31)
goes on the wire first, and WRADDR is as from the state after it. (SHIFT after the byte is the model's choice, log 15.) -/
def Obligations.WraddrCompletes : Prop :=
  ∀ (a : Byte) (s : State) (d : Steady), s.Inv → s.Prompt d → s.busy = false → s.inited = true → s.phase = .addressPhase →
    (∀ (k : Bool) (e : Eeprom), s.eng.act = .none → State.slaveByte d.answer a (s.rested d) = (k, e) →
      exec (.wraddr a) s = .next (
        if k = true then State.ended .success
          { s with
            eng := { s.eng with
              dr := a, shift := 0, bitcnt := 0, sb := false, txe := !a.getLsbD 0, dir := a.getLsbD 0
              es := if a.getLsbD 0 then .rx else .tx, trace := s.eng.trace ++ [.tx a true], sclO := false, sdaO := true }
            ee := e.rested d, phase := .dataPhase, spin := 0 }
        else State.ended .noAcknowledge
          { s with
            eng := { s.eng with
              dr := a, shift := 0, bitcnt := 0, sb := false, af := true, es := .nak
              trace := s.eng.trace ++ [.tx a false], sclO := false, sdaO := true }
            ee := e.rested d, phase := .error, spin := 0 })) ∧
    (s.eng.act ≠ .none →
      (engineStep d.answer (s.rested d)).eng.act = .none ∧ (engineStep d.answer (s.rested d)).phase = .addressPhase ∧
      exec (.wraddr a) s = exec (.wraddr a) (engineStep d.answer (s.rested d)))

/-- R166, R136: WRBYTE, the slave acknowledging the byte and not acknowledging it. (SHIFT after the byte is the model's choice, log 15.) -/
def Obligations.WrbyteCompletes : Prop :=
  ∀ (b : Byte) (s : State) (d : Steady) (k : Bool) (e : Eeprom), s.Inv → s.Prompt d → s.busy = false → s.inited = true →
    s.phase = .dataPhase → s.eng.dir = false → State.slaveByte d.answer b (s.rested d) = (k, e) →
    exec (.wrbyte b) s = .next (
      if k = true then State.ended .success
        { s with
          eng := { s.eng with
            dr := b, shift := 0, bitcnt := 0, trace := s.eng.trace ++ [.tx b true], sclO := false, sdaO := true }
          ee := e.rested d, spin := 0 }
      else State.ended .noAcknowledge
        { s with
          eng := { s.eng with
            dr := b, shift := 0, bitcnt := 0, txe := false, af := true, es := .nak
            trace := s.eng.trace ++ [.tx b false], sclO := false, sdaO := true }
          ee := e.rested d, phase := .error, spin := 0 })

/-- R167, R137, R138: RDBYTE (SHIFT after the byte is the model's choice, log 15). -/
def Obligations.RdbyteCompletes : Prop :=
  ∀ (k : Bool) (s : State) (d : Steady) (v : Byte) (e : Eeprom), s.Inv → s.Prompt d → s.busy = false → s.inited = true →
    s.phase = .dataPhase → s.eng.dir = true → State.slaveRead d.answer k (s.rested d) = (v, e) →
    exec (.rdbyte k) s = .next (State.ended .success
      { s with
        eng := { s.eng with
          dr := v, shift := v, bitcnt := 0, acken := k, trace := s.eng.trace ++ [.rx v k], sclO := false, sdaO := true }
        result := v, ee := e.rested d, spin := 0 })

/-- R161, R163, R165 to R167, R223, R227: when the environment withholds every engine step, a BusLine command that waits ends in
Timeout after SPIN_LIMIT samples, with PHASE Error, nothing on the wire and its activity still pending. One exception: a START in
AddressPhase finds SB still 1 from the START before it, so it ends in Success with its repeated START pending (log 31). (That the working
registers keep their values is the model's choice, log 22.) -/
def Obligations.WithheldTimesOut : Prop :=
  ∀ (s : State) (d : Steady), s.Inv → s.SteadyAs d → d.engine = false → s.busy = false → s.inited = true →
    s.eng.act = .none →
    (s.phase = .idle → s.eng.stopp = false → exec .start s = .next (State.ended .timeout
      { s with
        eng := { s.eng with af := false, act := .start }, ee := s.ee.rested d, phase := .error, spin := s.cfg.spinLimit })) ∧
    (s.phase = .dataPhase → exec .start s = .next (State.ended .timeout
      { s with
        eng := { s.eng with af := false, act := .rstart }, ee := s.ee.rested d, phase := .error
        spin := s.cfg.spinLimit })) ∧
    (s.phase = .addressPhase → 1 ≤ s.cfg.spinLimit → exec .start s = .next (State.ended .success
      { s with eng := { s.eng with af := false, act := .rstart }, ee := s.ee.rested d, spin := 0 })) ∧
    (∀ a, s.phase = .addressPhase → s.eng.af = false → exec (.wraddr a) s = .next (State.ended .timeout
      { s with
        eng := { s.eng with dr := a, sb := false, act := .txAddr }, ee := s.ee.rested d, phase := .error
        spin := s.cfg.spinLimit })) ∧
    (∀ b, s.phase = .dataPhase → s.eng.dir = false → s.eng.af = false → exec (.wrbyte b) s = .next (State.ended .timeout
      { s with
        eng := { s.eng with dr := b, txe := false, act := .txData }, ee := s.ee.rested d, phase := .error
        spin := s.cfg.spinLimit })) ∧
    (∀ k, s.phase = .dataPhase → s.eng.dir = true → exec (.rdbyte k) s = .next (State.ended .timeout
      { s with
        eng := { s.eng with acken := k, act := .rxData }, ee := s.ee.rested d, phase := .error
        spin := s.cfg.spinLimit }))

/-! ### The PagedMemoryDevice commands in an environment that withholds no step -/

/-- R192, R101: PROBE, the device acknowledging and not acknowledging. -/
def Obligations.ProbeCompletes : Prop :=
  ∀ (s : State) (d : Steady) (k : Bool), s.ReadyForPaged → s.Prompt d →
    (k = true → s.DeviceAcks d) → (k = false → s.DeviceNaks d) →
    ∃ t, exec .probe s = .next t ∧ s.Completed t (if k = true then .success else .noAcknowledge) ∧ t.eng.AtRest ∧
      t.phase = .idle ∧ t.eng.trace = s.eng.trace ++ probeShape s.cfg k ∧ t.eng.af = !k ∧ t.eng.dr = devW s.cfg ∧
      t.eng.dir = (s.eng.dir && !k) ∧ t.eng.acken = s.eng.acken ∧ t.result = s.result ∧ t.doneCount = s.doneCount ∧
      t.rbuf = s.rbuf ∧ ∀ x, t.ee.memRead x = s.ee.memRead x

/-- R193, R101: MRD1, the device acknowledging; and the device not acknowledging its first byte (R190, R222, R227). -/
def Obligations.Mrd1Completes : Prop :=
  ∀ (a : MemAddr) (s : State) (d : Steady), s.ReadyForPaged → s.Prompt d → a.toNat ≤ s.cfg.maxAddress →
    (s.DeviceAcks d →
      ∃ t, exec (.mrd1 a) s = .next t ∧ s.Completed t .success ∧ t.eng.AtRest ∧ t.phase = .idle ∧
        t.eng.trace = s.eng.trace ++ readShape s.cfg a [s.deviceByte d a.toNat] ∧ t.result = s.deviceByte d a.toNat ∧
        t.eng.dr = s.deviceByte d a.toNat ∧ t.eng.af = false ∧ t.eng.acken = false ∧ t.eng.dir = true ∧
        t.doneCount = s.doneCount ∧ t.rbuf = s.rbuf ∧ (s.bus = .reference → t.ee.out ≠ .driving) ∧
        ∀ x, t.ee.memRead x = s.ee.memRead x) ∧
    (s.DeviceNaks d → ∃ t, exec (.mrd1 a) s = .next t ∧ s.Refused t s.doneCount)

/-- R194, R101, R76: MWR1, on a device whose write cycle ends before it is probed; on a device that does not acknowledge the first byte
(R190, R222, R227); and on the reference EEPROM in any timely schedule, the busy period ending between any two probes or not in time
(R197, A_SPIN). -/
def Obligations.Mwr1Completes : Prop :=
  ∀ (a : MemAddr) (v : Byte) (s : State), s.ReadyForPaged → s.cfg.Legal → a.toNat ≤ s.cfg.maxAddress →
    (∀ d : Steady, s.Prompt d →
      (s.DeviceWrites d →
        ∃ t, exec (.mwr1 a v) s = .next t ∧ s.Completed t .success ∧ t.eng.AtRest ∧ t.phase = .idle ∧
          t.eng.trace = s.eng.trace ++ writeShape s.cfg a [v] ++ probeShape s.cfg true ∧ t.retry = 1 ∧
          t.eng.af = false ∧ t.eng.acken = s.eng.acken ∧ t.eng.dir = false ∧ t.result = s.result ∧
          t.doneCount = s.doneCount ∧ t.rbuf = s.rbuf ∧ (s.bus = .reference → t.ee.out ≠ .driving) ∧
          ∀ x, t.ee.memRead x = if s.bus = .reference ∧ x = a.toNat then v else s.ee.memRead x) ∧
      (s.DeviceNaks d → ∃ t, exec (.mwr1 a v) s = .next t ∧ s.Refused t s.doneCount)) ∧
    (Timely s.cfg s.sched → s.bus = .reference → s.ee.out ≠ .driving → s.ee.busydev = false →
      ∃ t, exec (.mwr1 a v) s = .next t ∧
        ((t.Freed .success ∧ t.ee.busydev = false ∧ ∃ j, j < s.cfg.readyRetries ∧ t.retry = j + 1 ∧
            t.eng.trace = s.eng.trace ++ writeShape s.cfg a [v] ++ refusedProbes s.cfg j ++ probeShape s.cfg true) ∨
          (t.Freed .timeout ∧ t.retry = s.cfg.readyRetries ∧
            t.eng.trace = s.eng.trace ++ writeShape s.cfg a [v] ++ refusedProbes s.cfg s.cfg.readyRetries)) ∧
        t.result = s.result ∧ t.doneCount = s.doneCount ∧ t.rbuf = s.rbuf ∧
        ∀ x, t.ee.memRead x = if x = a.toNat then v else s.ee.memRead x)

/-- R195, R101: MRDN of one byte or more, the device acknowledging; and the device not acknowledging its first byte (R190, R222, R227). -/
def Obligations.MrdnCompletes : Prop :=
  ∀ (a : MemAddr) (s : State) (d : Steady), s.ReadyForPaged → s.Prompt d → s.cfg.Legal →
    1 ≤ s.len.toNat → s.len.toNat ≤ s.cfg.bufSize → a.toNat + s.len.toNat - 1 ≤ s.cfg.maxAddress →
    (s.DeviceAcks d →
      ∃ t, exec (.mrdn a) s = .next t ∧ s.Completed t .success ∧ t.eng.AtRest ∧ t.phase = .idle ∧
        t.eng.trace = s.eng.trace ++
          readShape s.cfg a ((List.range s.len.toNat).map fun i => s.deviceByte d (a.toNat + i)) ∧
        t.doneCount = s.len ∧ (∀ i, i < s.len.toNat → t.rbufRead i = s.deviceByte d (a.toNat + i)) ∧
        (∀ i, s.len.toNat ≤ i → t.rbufRead i = s.rbufRead i) ∧
        t.result = s.deviceByte d (a.toNat + s.len.toNat - 1) ∧ t.eng.af = false ∧ t.eng.acken = false ∧
        t.eng.dir = true ∧ (s.bus = .reference → t.ee.out ≠ .driving) ∧ ∀ x, t.ee.memRead x = s.ee.memRead x) ∧
    (s.DeviceNaks d → ∃ t, exec (.mrdn a) s = .next t ∧ s.Refused t 0)

/-- R196, R101, R200: MWRN of one byte or more, on a device whose write cycles end before it is probed; and on one that does not acknowledge
the first byte (R190, R222, R227). -/
def Obligations.MwrnCompletes : Prop :=
  ∀ (a : MemAddr) (s : State) (d : Steady), s.ReadyForPaged → s.Prompt d → s.cfg.Legal →
    1 ≤ s.len.toNat → s.len.toNat ≤ s.cfg.bufSize → a.toNat + s.len.toNat - 1 ≤ s.cfg.maxAddress →
    (s.DeviceWrites d →
      ∃ t, exec (.mwrn a) s = .next t ∧ s.Completed t .success ∧ t.eng.AtRest ∧ t.phase = .idle ∧
        t.eng.trace = s.eng.trace ++ s.chunkShapes a s.len.toNat ∧ t.doneCount = s.len ∧ t.eng.af = false ∧
        t.eng.acken = s.eng.acken ∧ t.eng.dir = false ∧ t.result = s.result ∧ t.rbuf = s.rbuf ∧
        (s.bus = .reference → t.ee.out ≠ .driving) ∧
        ∀ x, t.ee.memRead x =
          if s.bus = .reference ∧ a.toNat ≤ x ∧ x < a.toNat + s.len.toNat then s.wbufRead (x - a.toNat)
          else s.ee.memRead x) ∧
    (s.DeviceNaks d → ∃ t, exec (.mwrn a) s = .next t ∧ s.Refused t 0)

/-- R197, R198, R203: WAITRDY. In a steady environment: Success at the first probe of a device that acknowledges; Timeout after exactly
READY_RETRIES probes of a device that never does, when ticks come; and where they never come (U12) the command waits in its first delay and
never finishes. In any timely schedule: Success at the first probe that is acknowledged, `j` refused ones before it, or Timeout after
READY_RETRIES refused ones. -/
def Obligations.WaitrdyCompletes : Prop :=
  ∀ s : State, s.ReadyForPaged → 1 ≤ s.cfg.readyRetries →
    (∀ d : Steady, s.Prompt d →
      (s.DeviceAcks d →
        ∃ t, exec .waitrdy s = .next t ∧ s.Completed t .success ∧ t.eng.AtRest ∧ t.phase = .idle ∧
          t.eng.trace = s.eng.trace ++ probeShape s.cfg true ∧ t.retry = 1 ∧ t.eng.af = false ∧
          t.eng.acken = s.eng.acken ∧ t.result = s.result ∧ t.doneCount = s.doneCount ∧ t.rbuf = s.rbuf ∧
          ∀ x, t.ee.memRead x = s.ee.memRead x) ∧
      (s.DeviceNaks d → d.pulse = true ∨ s.cfg.readyDelayMs = 0 →
        ∃ t, exec .waitrdy s = .next t ∧ s.Completed t .timeout ∧ t.eng.AtRest ∧ t.phase = .idle ∧
          t.eng.trace = s.eng.trace ++ refusedProbes s.cfg s.cfg.readyRetries ∧
          t.retry = s.cfg.readyRetries ∧ t.eng.af = true ∧ t.eng.acken = s.eng.acken ∧ t.result = s.result ∧
          t.doneCount = s.doneCount ∧ t.rbuf = s.rbuf ∧ ∀ x, t.ee.memRead x = s.ee.memRead x) ∧
      (s.DeviceNaks d → d.pulse = false → 1 ≤ s.cfg.readyDelayMs →
        ∃ t, exec .waitrdy s = .next t ∧ t.busy = true ∧ t.cpl = false ∧ t.seq = some ⟨.waitrdy, .delay⟩ ∧
          t.eng.AtRest ∧ t.eng.trace = s.eng.trace ++ probeShape s.cfg false ∧ t.ticks = 0)) ∧
    (Timely s.cfg s.sched → (s.bus = .reference → s.ee.out ≠ .driving) →
      ∃ t, exec .waitrdy s = .next t ∧
        ((t.Freed .success ∧ t.eng.af = false ∧ (s.bus = .reference → t.ee.busydev = false) ∧
            ∃ j, j < s.cfg.readyRetries ∧ t.retry = j + 1 ∧
              t.eng.trace = s.eng.trace ++ refusedProbes s.cfg j ++ probeShape s.cfg true) ∨
          (t.Freed .timeout ∧ t.eng.af = true ∧ t.retry = s.cfg.readyRetries ∧
            t.eng.trace = s.eng.trace ++ refusedProbes s.cfg s.cfg.readyRetries)) ∧
        t.result = s.result ∧ t.doneCount = s.doneCount ∧ t.rbuf = s.rbuf ∧ ∀ x, t.ee.memRead x = s.ee.memRead x)

/-- R203, R76: a reference EEPROM that stays busy after a write: MWR1 ends in Timeout after exactly READY_RETRIES probes, MWRN after its
first chunk and as many, with DONE = 0. R201 leaves open whether the failing chunk is committed; in the reference EEPROM it is, since its
content changes at the STOP (R76, 95_test_vectors P6, log 10): the bytes sent are in its memory, and every other byte is as before. -/
def Obligations.PersistentBusy : Prop :=
  ∀ (a : MemAddr) (v : Byte) (s : State) (d : Steady), s.ReadyForPaged → s.Prompt d → s.cfg.Legal →
    s.bus = .reference → s.ee.out ≠ .driving → s.ee.busydev = false → d.ready = false →
    d.pulse = true ∨ s.cfg.readyDelayMs = 0 →
    (a.toNat ≤ s.cfg.maxAddress →
      ∃ t, exec (.mwr1 a v) s = .next t ∧ s.Completed t .timeout ∧ t.eng.AtRest ∧ t.phase = .idle ∧
        t.eng.trace = s.eng.trace ++ writeShape s.cfg a [v] ++ refusedProbes s.cfg s.cfg.readyRetries ∧
        t.retry = s.cfg.readyRetries ∧ ∀ x, t.ee.memRead x = if x = a.toNat then v else s.ee.memRead x) ∧
    ∀ n, n = min (remaining s.cfg.pageSize a.toNat) s.len.toNat →
      1 ≤ s.len.toNat → s.len.toNat ≤ s.cfg.bufSize → a.toNat + s.len.toNat - 1 ≤ s.cfg.maxAddress →
      ∃ t, exec (.mwrn a) s = .next t ∧ s.Completed t .timeout ∧ t.eng.AtRest ∧ t.phase = .idle ∧
        t.eng.trace = s.eng.trace ++ writeShape s.cfg a (s.chunkData a.toNat a.toNat n) ++
          refusedProbes s.cfg s.cfg.readyRetries ∧
        t.retry = s.cfg.readyRetries ∧ t.doneCount = 0 ∧
        ∀ x, t.ee.memRead x =
          if a.toNat ≤ x ∧ x < a.toNat + n then s.wbufRead (x - a.toNat) else s.ee.memRead x

/-- R88, R84: the round-trip laws, for the block connected to the reference EEPROM alone: in a steady environment whose write cycles end
before the first probe, where they hold as they stand; and in any timely schedule (A_SPIN), where they hold unless some ready wait had
all READY_RETRIES probes refused (A_WRITE_CYCLE: `refusedProbes` do not end the trace), and then the write has ended in Timeout. -/
def Obligations.RoundTrips : Prop :=
  ∀ (a : MemAddr) (s : State), s.ReadyForPaged → s.cfg.Legal → s.bus = .reference → s.ee.out ≠ .driving →
    (∀ d : Steady, s.Prompt d → d.ready = true →
      (∀ v : Byte, a.toNat ≤ s.cfg.maxAddress →
        ∃ t u, exec (.mwr1 a v) s = .next t ∧ t.outcome = .success ∧ exec (.mrd1 a) t = .next u ∧
          u.outcome = .success ∧ u.result = v) ∧
      (1 ≤ s.len.toNat → s.len.toNat ≤ s.cfg.bufSize → a.toNat + s.len.toNat - 1 ≤ s.cfg.maxAddress →
        ∃ t u, exec (.mwrn a) s = .next t ∧ t.outcome = .success ∧ exec (.mrdn a) t = .next u ∧
          u.outcome = .success ∧ ∀ i, i < s.len.toNat → u.rbufRead i = s.wbufRead i)) ∧
    (Timely s.cfg s.sched → s.ee.busydev = false →
      (∀ v : Byte, a.toNat ≤ s.cfg.maxAddress →
        ∃ t, exec (.mwr1 a v) s = .next t ∧ t.cpl = true ∧
          (refusedProbes s.cfg s.cfg.readyRetries <:+ t.eng.trace → t.outcome = .timeout) ∧
          (¬refusedProbes s.cfg s.cfg.readyRetries <:+ t.eng.trace →
            t.outcome = .success ∧ ∃ u, exec (.mrd1 a) t = .next u ∧ u.outcome = .success ∧ u.result = v)) ∧
      (1 ≤ s.len.toNat → s.len.toNat ≤ s.cfg.bufSize → a.toNat + s.len.toNat - 1 ≤ s.cfg.maxAddress →
        ∃ t, exec (.mwrn a) s = .next t ∧ t.cpl = true ∧
          (refusedProbes s.cfg s.cfg.readyRetries <:+ t.eng.trace → t.outcome = .timeout) ∧
          (¬refusedProbes s.cfg s.cfg.readyRetries <:+ t.eng.trace →
            t.outcome = .success ∧ ∃ u, exec (.mrdn a) t = .next u ∧ u.outcome = .success ∧
              ∀ i, i < s.len.toNat → u.rbufRead i = s.wbufRead i)))

end Slice0Obligations
end

