-- ==== Sys2Proof/Laws/State.lean ====
section
/-!
SUPPORT. The fields of the state after each of the shared updates: one lemma per field per update, each true by unfolding the
update once, so that no later proof unfolds it.
-/

namespace Sys2Proof.Machine

/-! ### `refuse` -/

@[simp] theorem refuse_eng (c : IllCause) (s : State) : (refuse c s).eng = s.eng := rfl
@[simp] theorem refuse_phase (c : IllCause) (s : State) : (refuse c s).phase = s.phase := rfl
@[simp] theorem refuse_busy (c : IllCause) (s : State) : (refuse c s).busy = s.busy := rfl
@[simp] theorem refuse_inited (c : IllCause) (s : State) : (refuse c s).inited = s.inited := rfl
@[simp] theorem refuse_mode (c : IllCause) (s : State) : (refuse c s).mode = s.mode := rfl
@[simp] theorem refuse_cpl (c : IllCause) (s : State) : (refuse c s).cpl = s.cpl := rfl
@[simp] theorem refuse_outcome (c : IllCause) (s : State) : (refuse c s).outcome = s.outcome := rfl
@[simp] theorem refuse_ill (c : IllCause) (s : State) : (refuse c s).ill = true := rfl
@[simp] theorem refuse_illcause (c : IllCause) (s : State) : (refuse c s).illcause = c := rfl
@[simp] theorem refuse_result (c : IllCause) (s : State) : (refuse c s).result = s.result := rfl
@[simp] theorem refuse_len (c : IllCause) (s : State) : (refuse c s).len = s.len := rfl
@[simp] theorem refuse_doneCount (c : IllCause) (s : State) : (refuse c s).doneCount = s.doneCount := rfl
@[simp] theorem refuse_wbuf (c : IllCause) (s : State) : (refuse c s).wbuf = s.wbuf := rfl
@[simp] theorem refuse_rbuf (c : IllCause) (s : State) : (refuse c s).rbuf = s.rbuf := rfl
@[simp] theorem refuse_ccr (c : IllCause) (s : State) : (refuse c s).ccr = s.ccr := rfl
@[simp] theorem refuse_trise (c : IllCause) (s : State) : (refuse c s).trise = s.trise := rfl
@[simp] theorem refuse_cur (c : IllCause) (s : State) : (refuse c s).cur = s.cur := rfl
@[simp] theorem refuse_idx (c : IllCause) (s : State) : (refuse c s).idx = s.idx := rfl
@[simp] theorem refuse_chunk (c : IllCause) (s : State) : (refuse c s).chunk = s.chunk := rfl
@[simp] theorem refuse_retry (c : IllCause) (s : State) : (refuse c s).retry = s.retry := rfl
@[simp] theorem refuse_spin (c : IllCause) (s : State) : (refuse c s).spin = s.spin := rfl
@[simp] theorem refuse_ticks (c : IllCause) (s : State) : (refuse c s).ticks = s.ticks := rfl
@[simp] theorem refuse_err (c : IllCause) (s : State) : (refuse c s).err = s.err := rfl
@[simp] theorem refuse_seq (c : IllCause) (s : State) : (refuse c s).seq = s.seq := rfl
@[simp] theorem refuse_ee (c : IllCause) (s : State) : (refuse c s).ee = s.ee := rfl
@[simp] theorem refuse_bus (c : IllCause) (s : State) : (refuse c s).bus = s.bus := rfl
@[simp] theorem refuse_sched (c : IllCause) (s : State) : (refuse c s).sched = s.sched := rfl
@[simp] theorem refuse_draws (c : IllCause) (s : State) : (refuse c s).draws = s.draws := rfl
@[simp] theorem refuse_epoch (c : IllCause) (s : State) : (refuse c s).epoch = s.epoch := rfl
@[simp] theorem refuse_host (c : IllCause) (s : State) : (refuse c s).host = s.host := rfl
@[simp] theorem refuse_rdata (c : IllCause) (s : State) : (refuse c s).rdata = s.rdata := rfl
@[simp] theorem refuse_cfg (c : IllCause) (s : State) : (refuse c s).cfg = s.cfg := rfl

/-! ### `accept` -/

@[simp] theorem accept_eng (i : Instr) (s : State) : (accept i s).eng = s.eng := rfl
@[simp] theorem accept_phase (i : Instr) (s : State) : (accept i s).phase = s.phase := rfl
@[simp] theorem accept_busy (i : Instr) (s : State) : (accept i s).busy = true := rfl
@[simp] theorem accept_inited (i : Instr) (s : State) : (accept i s).inited = s.inited := rfl
@[simp] theorem accept_mode (i : Instr) (s : State) : (accept i s).mode = s.mode := rfl
@[simp] theorem accept_cpl (i : Instr) (s : State) : (accept i s).cpl = false := rfl
@[simp] theorem accept_outcome (i : Instr) (s : State) : (accept i s).outcome = s.outcome := rfl
@[simp] theorem accept_ill (i : Instr) (s : State) : (accept i s).ill = false := rfl
@[simp] theorem accept_illcause (i : Instr) (s : State) : (accept i s).illcause = .none := rfl
@[simp] theorem accept_result (i : Instr) (s : State) : (accept i s).result = s.result := rfl
@[simp] theorem accept_len (i : Instr) (s : State) : (accept i s).len = s.len := rfl
@[simp] theorem accept_doneCount (i : Instr) (s : State) : (accept i s).doneCount = s.doneCount := rfl
@[simp] theorem accept_wbuf (i : Instr) (s : State) : (accept i s).wbuf = s.wbuf := rfl
@[simp] theorem accept_rbuf (i : Instr) (s : State) : (accept i s).rbuf = s.rbuf := rfl
@[simp] theorem accept_ccr (i : Instr) (s : State) : (accept i s).ccr = s.ccr := rfl
@[simp] theorem accept_trise (i : Instr) (s : State) : (accept i s).trise = s.trise := rfl
@[simp] theorem accept_cur (i : Instr) (s : State) : (accept i s).cur = s.cur := rfl
@[simp] theorem accept_idx (i : Instr) (s : State) : (accept i s).idx = s.idx := rfl
@[simp] theorem accept_chunk (i : Instr) (s : State) : (accept i s).chunk = s.chunk := rfl
@[simp] theorem accept_retry (i : Instr) (s : State) : (accept i s).retry = s.retry := rfl
@[simp] theorem accept_spin (i : Instr) (s : State) : (accept i s).spin = s.spin := rfl
@[simp] theorem accept_ticks (i : Instr) (s : State) : (accept i s).ticks = s.ticks := rfl
@[simp] theorem accept_err (i : Instr) (s : State) : (accept i s).err = s.err := rfl
@[simp] theorem accept_seq (i : Instr) (s : State) : (accept i s).seq = some ⟨i, .begun⟩ := rfl
@[simp] theorem accept_ee (i : Instr) (s : State) : (accept i s).ee = s.ee := rfl
@[simp] theorem accept_bus (i : Instr) (s : State) : (accept i s).bus = s.bus := rfl
@[simp] theorem accept_sched (i : Instr) (s : State) : (accept i s).sched = s.sched := rfl
@[simp] theorem accept_draws (i : Instr) (s : State) : (accept i s).draws = s.draws := rfl
@[simp] theorem accept_epoch (i : Instr) (s : State) : (accept i s).epoch = s.epoch := rfl
@[simp] theorem accept_host (i : Instr) (s : State) : (accept i s).host = s.host := rfl
@[simp] theorem accept_rdata (i : Instr) (s : State) : (accept i s).rdata = s.rdata := rfl
@[simp] theorem accept_cfg (i : Instr) (s : State) : (accept i s).cfg = s.cfg := rfl

/-! ### `finish` -/

@[simp] theorem finish_eng (e : TransferOutcome) (s : State) : (finish e s).eng = s.eng := rfl
@[simp] theorem finish_phase (e : TransferOutcome) (s : State) : (finish e s).phase = s.phase := rfl
@[simp] theorem finish_busy (e : TransferOutcome) (s : State) : (finish e s).busy = false := rfl
@[simp] theorem finish_inited (e : TransferOutcome) (s : State) : (finish e s).inited = s.inited := rfl
@[simp] theorem finish_mode (e : TransferOutcome) (s : State) : (finish e s).mode = s.mode := rfl
@[simp] theorem finish_cpl (e : TransferOutcome) (s : State) : (finish e s).cpl = true := rfl
@[simp] theorem finish_outcome (e : TransferOutcome) (s : State) : (finish e s).outcome = e := rfl
@[simp] theorem finish_ill (e : TransferOutcome) (s : State) : (finish e s).ill = s.ill := rfl
@[simp] theorem finish_illcause (e : TransferOutcome) (s : State) : (finish e s).illcause = s.illcause := rfl
@[simp] theorem finish_result (e : TransferOutcome) (s : State) : (finish e s).result = s.result := rfl
@[simp] theorem finish_len (e : TransferOutcome) (s : State) : (finish e s).len = s.len := rfl
@[simp] theorem finish_doneCount (e : TransferOutcome) (s : State) : (finish e s).doneCount = s.doneCount := rfl
@[simp] theorem finish_wbuf (e : TransferOutcome) (s : State) : (finish e s).wbuf = s.wbuf := rfl
@[simp] theorem finish_rbuf (e : TransferOutcome) (s : State) : (finish e s).rbuf = s.rbuf := rfl
@[simp] theorem finish_ccr (e : TransferOutcome) (s : State) : (finish e s).ccr = s.ccr := rfl
@[simp] theorem finish_trise (e : TransferOutcome) (s : State) : (finish e s).trise = s.trise := rfl
@[simp] theorem finish_cur (e : TransferOutcome) (s : State) : (finish e s).cur = s.cur := rfl
@[simp] theorem finish_idx (e : TransferOutcome) (s : State) : (finish e s).idx = s.idx := rfl
@[simp] theorem finish_chunk (e : TransferOutcome) (s : State) : (finish e s).chunk = s.chunk := rfl
@[simp] theorem finish_retry (e : TransferOutcome) (s : State) : (finish e s).retry = s.retry := rfl
@[simp] theorem finish_spin (e : TransferOutcome) (s : State) : (finish e s).spin = s.spin := rfl
@[simp] theorem finish_ticks (e : TransferOutcome) (s : State) : (finish e s).ticks = s.ticks := rfl
@[simp] theorem finish_err (e : TransferOutcome) (s : State) : (finish e s).err = s.err := rfl
@[simp] theorem finish_seq (e : TransferOutcome) (s : State) : (finish e s).seq = none := rfl
@[simp] theorem finish_ee (e : TransferOutcome) (s : State) : (finish e s).ee = s.ee := rfl
@[simp] theorem finish_bus (e : TransferOutcome) (s : State) : (finish e s).bus = s.bus := rfl
@[simp] theorem finish_sched (e : TransferOutcome) (s : State) : (finish e s).sched = s.sched := rfl
@[simp] theorem finish_draws (e : TransferOutcome) (s : State) : (finish e s).draws = s.draws := rfl
@[simp] theorem finish_epoch (e : TransferOutcome) (s : State) : (finish e s).epoch = s.epoch := rfl
@[simp] theorem finish_host (e : TransferOutcome) (s : State) : (finish e s).host = s.host := rfl
@[simp] theorem finish_rdata (e : TransferOutcome) (s : State) : (finish e s).rdata = s.rdata := rfl
@[simp] theorem finish_cfg (e : TransferOutcome) (s : State) : (finish e s).cfg = s.cfg := rfl

/-! ### `seqAt` -/

@[simp] theorem seqAt_eng (p : SeqPoint) (s : State) : (seqAt p s).eng = s.eng := rfl
@[simp] theorem seqAt_phase (p : SeqPoint) (s : State) : (seqAt p s).phase = s.phase := rfl
@[simp] theorem seqAt_busy (p : SeqPoint) (s : State) : (seqAt p s).busy = s.busy := rfl
@[simp] theorem seqAt_inited (p : SeqPoint) (s : State) : (seqAt p s).inited = s.inited := rfl
@[simp] theorem seqAt_mode (p : SeqPoint) (s : State) : (seqAt p s).mode = s.mode := rfl
@[simp] theorem seqAt_cpl (p : SeqPoint) (s : State) : (seqAt p s).cpl = s.cpl := rfl
@[simp] theorem seqAt_outcome (p : SeqPoint) (s : State) : (seqAt p s).outcome = s.outcome := rfl
@[simp] theorem seqAt_ill (p : SeqPoint) (s : State) : (seqAt p s).ill = s.ill := rfl
@[simp] theorem seqAt_illcause (p : SeqPoint) (s : State) : (seqAt p s).illcause = s.illcause := rfl
@[simp] theorem seqAt_result (p : SeqPoint) (s : State) : (seqAt p s).result = s.result := rfl
@[simp] theorem seqAt_len (p : SeqPoint) (s : State) : (seqAt p s).len = s.len := rfl
@[simp] theorem seqAt_doneCount (p : SeqPoint) (s : State) : (seqAt p s).doneCount = s.doneCount := rfl
@[simp] theorem seqAt_wbuf (p : SeqPoint) (s : State) : (seqAt p s).wbuf = s.wbuf := rfl
@[simp] theorem seqAt_rbuf (p : SeqPoint) (s : State) : (seqAt p s).rbuf = s.rbuf := rfl
@[simp] theorem seqAt_ccr (p : SeqPoint) (s : State) : (seqAt p s).ccr = s.ccr := rfl
@[simp] theorem seqAt_trise (p : SeqPoint) (s : State) : (seqAt p s).trise = s.trise := rfl
@[simp] theorem seqAt_cur (p : SeqPoint) (s : State) : (seqAt p s).cur = s.cur := rfl
@[simp] theorem seqAt_idx (p : SeqPoint) (s : State) : (seqAt p s).idx = s.idx := rfl
@[simp] theorem seqAt_chunk (p : SeqPoint) (s : State) : (seqAt p s).chunk = s.chunk := rfl
@[simp] theorem seqAt_retry (p : SeqPoint) (s : State) : (seqAt p s).retry = s.retry := rfl
@[simp] theorem seqAt_spin (p : SeqPoint) (s : State) : (seqAt p s).spin = s.spin := rfl
@[simp] theorem seqAt_ticks (p : SeqPoint) (s : State) : (seqAt p s).ticks = s.ticks := rfl
@[simp] theorem seqAt_err (p : SeqPoint) (s : State) : (seqAt p s).err = s.err := rfl
@[simp] theorem seqAt_seq (p : SeqPoint) (s : State) : (seqAt p s).seq = s.seq.map (fun q => { q with point := p }) := rfl
@[simp] theorem seqAt_ee (p : SeqPoint) (s : State) : (seqAt p s).ee = s.ee := rfl
@[simp] theorem seqAt_bus (p : SeqPoint) (s : State) : (seqAt p s).bus = s.bus := rfl
@[simp] theorem seqAt_sched (p : SeqPoint) (s : State) : (seqAt p s).sched = s.sched := rfl
@[simp] theorem seqAt_draws (p : SeqPoint) (s : State) : (seqAt p s).draws = s.draws := rfl
@[simp] theorem seqAt_epoch (p : SeqPoint) (s : State) : (seqAt p s).epoch = s.epoch := rfl
@[simp] theorem seqAt_host (p : SeqPoint) (s : State) : (seqAt p s).host = s.host := rfl
@[simp] theorem seqAt_rdata (p : SeqPoint) (s : State) : (seqAt p s).rdata = s.rdata := rfl
@[simp] theorem seqAt_cfg (p : SeqPoint) (s : State) : (seqAt p s).cfg = s.cfg := rfl

/-! ### `readSr1` -/

@[simp] theorem readSr1_eng (s : State) : (readSr1 s).eng = s.eng.readSr1 := rfl
@[simp] theorem readSr1_phase (s : State) : (readSr1 s).phase = s.phase := rfl
@[simp] theorem readSr1_busy (s : State) : (readSr1 s).busy = s.busy := rfl
@[simp] theorem readSr1_inited (s : State) : (readSr1 s).inited = s.inited := rfl
@[simp] theorem readSr1_mode (s : State) : (readSr1 s).mode = s.mode := rfl
@[simp] theorem readSr1_cpl (s : State) : (readSr1 s).cpl = s.cpl := rfl
@[simp] theorem readSr1_outcome (s : State) : (readSr1 s).outcome = s.outcome := rfl
@[simp] theorem readSr1_ill (s : State) : (readSr1 s).ill = s.ill := rfl
@[simp] theorem readSr1_illcause (s : State) : (readSr1 s).illcause = s.illcause := rfl
@[simp] theorem readSr1_result (s : State) : (readSr1 s).result = s.result := rfl
@[simp] theorem readSr1_len (s : State) : (readSr1 s).len = s.len := rfl
@[simp] theorem readSr1_doneCount (s : State) : (readSr1 s).doneCount = s.doneCount := rfl
@[simp] theorem readSr1_wbuf (s : State) : (readSr1 s).wbuf = s.wbuf := rfl
@[simp] theorem readSr1_rbuf (s : State) : (readSr1 s).rbuf = s.rbuf := rfl
@[simp] theorem readSr1_ccr (s : State) : (readSr1 s).ccr = s.ccr := rfl
@[simp] theorem readSr1_trise (s : State) : (readSr1 s).trise = s.trise := rfl
@[simp] theorem readSr1_cur (s : State) : (readSr1 s).cur = s.cur := rfl
@[simp] theorem readSr1_idx (s : State) : (readSr1 s).idx = s.idx := rfl
@[simp] theorem readSr1_chunk (s : State) : (readSr1 s).chunk = s.chunk := rfl
@[simp] theorem readSr1_retry (s : State) : (readSr1 s).retry = s.retry := rfl
@[simp] theorem readSr1_spin (s : State) : (readSr1 s).spin = s.spin := rfl
@[simp] theorem readSr1_ticks (s : State) : (readSr1 s).ticks = s.ticks := rfl
@[simp] theorem readSr1_err (s : State) : (readSr1 s).err = s.err := rfl
@[simp] theorem readSr1_seq (s : State) : (readSr1 s).seq = s.seq := rfl
@[simp] theorem readSr1_ee (s : State) : (readSr1 s).ee = s.ee := rfl
@[simp] theorem readSr1_bus (s : State) : (readSr1 s).bus = s.bus := rfl
@[simp] theorem readSr1_sched (s : State) : (readSr1 s).sched = s.sched := rfl
@[simp] theorem readSr1_draws (s : State) : (readSr1 s).draws = s.draws := rfl
@[simp] theorem readSr1_epoch (s : State) : (readSr1 s).epoch = s.epoch := rfl
@[simp] theorem readSr1_host (s : State) : (readSr1 s).host = s.host := rfl
@[simp] theorem readSr1_rdata (s : State) : (readSr1 s).rdata = s.rdata := rfl
@[simp] theorem readSr1_cfg (s : State) : (readSr1 s).cfg = s.cfg := rfl

/-! ### `setPhase` -/

@[simp] theorem setPhase_eng (r : TransferOutcome) (p : Phase) (s : State) : (setPhase r p s).eng = s.eng := rfl
@[simp] theorem setPhase_phase (r : TransferOutcome) (p : Phase) (s : State) : (setPhase r p s).phase = if r = .success then p else .error := rfl
@[simp] theorem setPhase_busy (r : TransferOutcome) (p : Phase) (s : State) : (setPhase r p s).busy = s.busy := rfl
@[simp] theorem setPhase_inited (r : TransferOutcome) (p : Phase) (s : State) : (setPhase r p s).inited = s.inited := rfl
@[simp] theorem setPhase_mode (r : TransferOutcome) (p : Phase) (s : State) : (setPhase r p s).mode = s.mode := rfl
@[simp] theorem setPhase_cpl (r : TransferOutcome) (p : Phase) (s : State) : (setPhase r p s).cpl = s.cpl := rfl
@[simp] theorem setPhase_outcome (r : TransferOutcome) (p : Phase) (s : State) : (setPhase r p s).outcome = s.outcome := rfl
@[simp] theorem setPhase_ill (r : TransferOutcome) (p : Phase) (s : State) : (setPhase r p s).ill = s.ill := rfl
@[simp] theorem setPhase_illcause (r : TransferOutcome) (p : Phase) (s : State) : (setPhase r p s).illcause = s.illcause := rfl
@[simp] theorem setPhase_result (r : TransferOutcome) (p : Phase) (s : State) : (setPhase r p s).result = s.result := rfl
@[simp] theorem setPhase_len (r : TransferOutcome) (p : Phase) (s : State) : (setPhase r p s).len = s.len := rfl
@[simp] theorem setPhase_doneCount (r : TransferOutcome) (p : Phase) (s : State) : (setPhase r p s).doneCount = s.doneCount := rfl
@[simp] theorem setPhase_wbuf (r : TransferOutcome) (p : Phase) (s : State) : (setPhase r p s).wbuf = s.wbuf := rfl
@[simp] theorem setPhase_rbuf (r : TransferOutcome) (p : Phase) (s : State) : (setPhase r p s).rbuf = s.rbuf := rfl
@[simp] theorem setPhase_ccr (r : TransferOutcome) (p : Phase) (s : State) : (setPhase r p s).ccr = s.ccr := rfl
@[simp] theorem setPhase_trise (r : TransferOutcome) (p : Phase) (s : State) : (setPhase r p s).trise = s.trise := rfl
@[simp] theorem setPhase_cur (r : TransferOutcome) (p : Phase) (s : State) : (setPhase r p s).cur = s.cur := rfl
@[simp] theorem setPhase_idx (r : TransferOutcome) (p : Phase) (s : State) : (setPhase r p s).idx = s.idx := rfl
@[simp] theorem setPhase_chunk (r : TransferOutcome) (p : Phase) (s : State) : (setPhase r p s).chunk = s.chunk := rfl
@[simp] theorem setPhase_retry (r : TransferOutcome) (p : Phase) (s : State) : (setPhase r p s).retry = s.retry := rfl
@[simp] theorem setPhase_spin (r : TransferOutcome) (p : Phase) (s : State) : (setPhase r p s).spin = s.spin := rfl
@[simp] theorem setPhase_ticks (r : TransferOutcome) (p : Phase) (s : State) : (setPhase r p s).ticks = s.ticks := rfl
@[simp] theorem setPhase_err (r : TransferOutcome) (p : Phase) (s : State) : (setPhase r p s).err = s.err := rfl
@[simp] theorem setPhase_seq (r : TransferOutcome) (p : Phase) (s : State) : (setPhase r p s).seq = s.seq := rfl
@[simp] theorem setPhase_ee (r : TransferOutcome) (p : Phase) (s : State) : (setPhase r p s).ee = s.ee := rfl
@[simp] theorem setPhase_bus (r : TransferOutcome) (p : Phase) (s : State) : (setPhase r p s).bus = s.bus := rfl
@[simp] theorem setPhase_sched (r : TransferOutcome) (p : Phase) (s : State) : (setPhase r p s).sched = s.sched := rfl
@[simp] theorem setPhase_draws (r : TransferOutcome) (p : Phase) (s : State) : (setPhase r p s).draws = s.draws := rfl
@[simp] theorem setPhase_epoch (r : TransferOutcome) (p : Phase) (s : State) : (setPhase r p s).epoch = s.epoch := rfl
@[simp] theorem setPhase_host (r : TransferOutcome) (p : Phase) (s : State) : (setPhase r p s).host = s.host := rfl
@[simp] theorem setPhase_rdata (r : TransferOutcome) (p : Phase) (s : State) : (setPhase r p s).rdata = s.rdata := rfl
@[simp] theorem setPhase_cfg (r : TransferOutcome) (p : Phase) (s : State) : (setPhase r p s).cfg = s.cfg := rfl

/-! ### `failToError` -/

@[simp] theorem failToError_eng (r : TransferOutcome) (s : State) : (failToError r s).eng = s.eng := rfl
@[simp] theorem failToError_phase (r : TransferOutcome) (s : State) : (failToError r s).phase = if r = .success then s.phase else .error := rfl
@[simp] theorem failToError_busy (r : TransferOutcome) (s : State) : (failToError r s).busy = s.busy := rfl
@[simp] theorem failToError_inited (r : TransferOutcome) (s : State) : (failToError r s).inited = s.inited := rfl
@[simp] theorem failToError_mode (r : TransferOutcome) (s : State) : (failToError r s).mode = s.mode := rfl
@[simp] theorem failToError_cpl (r : TransferOutcome) (s : State) : (failToError r s).cpl = s.cpl := rfl
@[simp] theorem failToError_outcome (r : TransferOutcome) (s : State) : (failToError r s).outcome = s.outcome := rfl
@[simp] theorem failToError_ill (r : TransferOutcome) (s : State) : (failToError r s).ill = s.ill := rfl
@[simp] theorem failToError_illcause (r : TransferOutcome) (s : State) : (failToError r s).illcause = s.illcause := rfl
@[simp] theorem failToError_result (r : TransferOutcome) (s : State) : (failToError r s).result = s.result := rfl
@[simp] theorem failToError_len (r : TransferOutcome) (s : State) : (failToError r s).len = s.len := rfl
@[simp] theorem failToError_doneCount (r : TransferOutcome) (s : State) : (failToError r s).doneCount = s.doneCount := rfl
@[simp] theorem failToError_wbuf (r : TransferOutcome) (s : State) : (failToError r s).wbuf = s.wbuf := rfl
@[simp] theorem failToError_rbuf (r : TransferOutcome) (s : State) : (failToError r s).rbuf = s.rbuf := rfl
@[simp] theorem failToError_ccr (r : TransferOutcome) (s : State) : (failToError r s).ccr = s.ccr := rfl
@[simp] theorem failToError_trise (r : TransferOutcome) (s : State) : (failToError r s).trise = s.trise := rfl
@[simp] theorem failToError_cur (r : TransferOutcome) (s : State) : (failToError r s).cur = s.cur := rfl
@[simp] theorem failToError_idx (r : TransferOutcome) (s : State) : (failToError r s).idx = s.idx := rfl
@[simp] theorem failToError_chunk (r : TransferOutcome) (s : State) : (failToError r s).chunk = s.chunk := rfl
@[simp] theorem failToError_retry (r : TransferOutcome) (s : State) : (failToError r s).retry = s.retry := rfl
@[simp] theorem failToError_spin (r : TransferOutcome) (s : State) : (failToError r s).spin = s.spin := rfl
@[simp] theorem failToError_ticks (r : TransferOutcome) (s : State) : (failToError r s).ticks = s.ticks := rfl
@[simp] theorem failToError_err (r : TransferOutcome) (s : State) : (failToError r s).err = s.err := rfl
@[simp] theorem failToError_seq (r : TransferOutcome) (s : State) : (failToError r s).seq = s.seq := rfl
@[simp] theorem failToError_ee (r : TransferOutcome) (s : State) : (failToError r s).ee = s.ee := rfl
@[simp] theorem failToError_bus (r : TransferOutcome) (s : State) : (failToError r s).bus = s.bus := rfl
@[simp] theorem failToError_sched (r : TransferOutcome) (s : State) : (failToError r s).sched = s.sched := rfl
@[simp] theorem failToError_draws (r : TransferOutcome) (s : State) : (failToError r s).draws = s.draws := rfl
@[simp] theorem failToError_epoch (r : TransferOutcome) (s : State) : (failToError r s).epoch = s.epoch := rfl
@[simp] theorem failToError_host (r : TransferOutcome) (s : State) : (failToError r s).host = s.host := rfl
@[simp] theorem failToError_rdata (r : TransferOutcome) (s : State) : (failToError r s).rdata = s.rdata := rfl
@[simp] theorem failToError_cfg (r : TransferOutcome) (s : State) : (failToError r s).cfg = s.cfg := rfl

/-! ### `storeReceived` -/

@[simp] theorem storeReceived_eng (i : Nat) (s : State) : (storeReceived i s).eng = s.eng := rfl
@[simp] theorem storeReceived_phase (i : Nat) (s : State) : (storeReceived i s).phase = s.phase := rfl
@[simp] theorem storeReceived_busy (i : Nat) (s : State) : (storeReceived i s).busy = s.busy := rfl
@[simp] theorem storeReceived_inited (i : Nat) (s : State) : (storeReceived i s).inited = s.inited := rfl
@[simp] theorem storeReceived_mode (i : Nat) (s : State) : (storeReceived i s).mode = s.mode := rfl
@[simp] theorem storeReceived_cpl (i : Nat) (s : State) : (storeReceived i s).cpl = s.cpl := rfl
@[simp] theorem storeReceived_outcome (i : Nat) (s : State) : (storeReceived i s).outcome = s.outcome := rfl
@[simp] theorem storeReceived_ill (i : Nat) (s : State) : (storeReceived i s).ill = s.ill := rfl
@[simp] theorem storeReceived_illcause (i : Nat) (s : State) : (storeReceived i s).illcause = s.illcause := rfl
@[simp] theorem storeReceived_result (i : Nat) (s : State) : (storeReceived i s).result = s.result := rfl
@[simp] theorem storeReceived_len (i : Nat) (s : State) : (storeReceived i s).len = s.len := rfl
@[simp] theorem storeReceived_doneCount (i : Nat) (s : State) : (storeReceived i s).doneCount = BitVec.ofNat 17 (i + 1) := rfl
@[simp] theorem storeReceived_wbuf (i : Nat) (s : State) : (storeReceived i s).wbuf = s.wbuf := rfl
@[simp] theorem storeReceived_rbuf (i : Nat) (s : State) : (storeReceived i s).rbuf = Memory.write s.rbuf i s.result := rfl
@[simp] theorem storeReceived_ccr (i : Nat) (s : State) : (storeReceived i s).ccr = s.ccr := rfl
@[simp] theorem storeReceived_trise (i : Nat) (s : State) : (storeReceived i s).trise = s.trise := rfl
@[simp] theorem storeReceived_cur (i : Nat) (s : State) : (storeReceived i s).cur = s.cur := rfl
@[simp] theorem storeReceived_idx (i : Nat) (s : State) : (storeReceived i s).idx = BitVec.ofNat 17 (i + 1) := rfl
@[simp] theorem storeReceived_chunk (i : Nat) (s : State) : (storeReceived i s).chunk = s.chunk := rfl
@[simp] theorem storeReceived_retry (i : Nat) (s : State) : (storeReceived i s).retry = s.retry := rfl
@[simp] theorem storeReceived_spin (i : Nat) (s : State) : (storeReceived i s).spin = s.spin := rfl
@[simp] theorem storeReceived_ticks (i : Nat) (s : State) : (storeReceived i s).ticks = s.ticks := rfl
@[simp] theorem storeReceived_err (i : Nat) (s : State) : (storeReceived i s).err = s.err := rfl
@[simp] theorem storeReceived_seq (i : Nat) (s : State) : (storeReceived i s).seq = s.seq := rfl
@[simp] theorem storeReceived_ee (i : Nat) (s : State) : (storeReceived i s).ee = s.ee := rfl
@[simp] theorem storeReceived_bus (i : Nat) (s : State) : (storeReceived i s).bus = s.bus := rfl
@[simp] theorem storeReceived_sched (i : Nat) (s : State) : (storeReceived i s).sched = s.sched := rfl
@[simp] theorem storeReceived_draws (i : Nat) (s : State) : (storeReceived i s).draws = s.draws := rfl
@[simp] theorem storeReceived_epoch (i : Nat) (s : State) : (storeReceived i s).epoch = s.epoch := rfl
@[simp] theorem storeReceived_host (i : Nat) (s : State) : (storeReceived i s).host = s.host := rfl
@[simp] theorem storeReceived_rdata (i : Nat) (s : State) : (storeReceived i s).rdata = s.rdata := rfl
@[simp] theorem storeReceived_cfg (i : Nat) (s : State) : (storeReceived i s).cfg = s.cfg := rfl

/-! ### `hostRead` -/

@[simp] theorem hostRead_eng (off : Nat) (s : State) : (hostRead off s).eng = s.eng := rfl
@[simp] theorem hostRead_phase (off : Nat) (s : State) : (hostRead off s).phase = s.phase := rfl
@[simp] theorem hostRead_busy (off : Nat) (s : State) : (hostRead off s).busy = s.busy := rfl
@[simp] theorem hostRead_inited (off : Nat) (s : State) : (hostRead off s).inited = s.inited := rfl
@[simp] theorem hostRead_mode (off : Nat) (s : State) : (hostRead off s).mode = s.mode := rfl
@[simp] theorem hostRead_cpl (off : Nat) (s : State) : (hostRead off s).cpl = s.cpl := rfl
@[simp] theorem hostRead_outcome (off : Nat) (s : State) : (hostRead off s).outcome = s.outcome := rfl
@[simp] theorem hostRead_ill (off : Nat) (s : State) : (hostRead off s).ill = s.ill := rfl
@[simp] theorem hostRead_illcause (off : Nat) (s : State) : (hostRead off s).illcause = s.illcause := rfl
@[simp] theorem hostRead_result (off : Nat) (s : State) : (hostRead off s).result = s.result := rfl
@[simp] theorem hostRead_len (off : Nat) (s : State) : (hostRead off s).len = s.len := rfl
@[simp] theorem hostRead_doneCount (off : Nat) (s : State) : (hostRead off s).doneCount = s.doneCount := rfl
@[simp] theorem hostRead_wbuf (off : Nat) (s : State) : (hostRead off s).wbuf = s.wbuf := rfl
@[simp] theorem hostRead_rbuf (off : Nat) (s : State) : (hostRead off s).rbuf = s.rbuf := rfl
@[simp] theorem hostRead_ccr (off : Nat) (s : State) : (hostRead off s).ccr = s.ccr := rfl
@[simp] theorem hostRead_trise (off : Nat) (s : State) : (hostRead off s).trise = s.trise := rfl
@[simp] theorem hostRead_cur (off : Nat) (s : State) : (hostRead off s).cur = s.cur := rfl
@[simp] theorem hostRead_idx (off : Nat) (s : State) : (hostRead off s).idx = s.idx := rfl
@[simp] theorem hostRead_chunk (off : Nat) (s : State) : (hostRead off s).chunk = s.chunk := rfl
@[simp] theorem hostRead_retry (off : Nat) (s : State) : (hostRead off s).retry = s.retry := rfl
@[simp] theorem hostRead_spin (off : Nat) (s : State) : (hostRead off s).spin = s.spin := rfl
@[simp] theorem hostRead_ticks (off : Nat) (s : State) : (hostRead off s).ticks = s.ticks := rfl
@[simp] theorem hostRead_err (off : Nat) (s : State) : (hostRead off s).err = s.err := rfl
@[simp] theorem hostRead_seq (off : Nat) (s : State) : (hostRead off s).seq = s.seq := rfl
@[simp] theorem hostRead_ee (off : Nat) (s : State) : (hostRead off s).ee = s.ee := rfl
@[simp] theorem hostRead_bus (off : Nat) (s : State) : (hostRead off s).bus = s.bus := rfl
@[simp] theorem hostRead_sched (off : Nat) (s : State) : (hostRead off s).sched = s.sched := rfl
@[simp] theorem hostRead_draws (off : Nat) (s : State) : (hostRead off s).draws = s.draws := rfl
@[simp] theorem hostRead_epoch (off : Nat) (s : State) : (hostRead off s).epoch = s.epoch := rfl
@[simp] theorem hostRead_host (off : Nat) (s : State) : (hostRead off s).host = s.host := rfl
@[simp] theorem hostRead_rdata (off : Nat) (s : State) : (hostRead off s).rdata = regRead s off := rfl
@[simp] theorem hostRead_cfg (off : Nat) (s : State) : (hostRead off s).cfg = s.cfg := rfl

/-! ### `takeAccess` -/

@[simp] theorem takeAccess_eng (s : State) : (takeAccess s).eng = s.eng := rfl
@[simp] theorem takeAccess_phase (s : State) : (takeAccess s).phase = s.phase := rfl
@[simp] theorem takeAccess_busy (s : State) : (takeAccess s).busy = s.busy := rfl
@[simp] theorem takeAccess_inited (s : State) : (takeAccess s).inited = s.inited := rfl
@[simp] theorem takeAccess_mode (s : State) : (takeAccess s).mode = s.mode := rfl
@[simp] theorem takeAccess_cpl (s : State) : (takeAccess s).cpl = s.cpl := rfl
@[simp] theorem takeAccess_outcome (s : State) : (takeAccess s).outcome = s.outcome := rfl
@[simp] theorem takeAccess_ill (s : State) : (takeAccess s).ill = s.ill := rfl
@[simp] theorem takeAccess_illcause (s : State) : (takeAccess s).illcause = s.illcause := rfl
@[simp] theorem takeAccess_result (s : State) : (takeAccess s).result = s.result := rfl
@[simp] theorem takeAccess_len (s : State) : (takeAccess s).len = s.len := rfl
@[simp] theorem takeAccess_doneCount (s : State) : (takeAccess s).doneCount = s.doneCount := rfl
@[simp] theorem takeAccess_wbuf (s : State) : (takeAccess s).wbuf = s.wbuf := rfl
@[simp] theorem takeAccess_rbuf (s : State) : (takeAccess s).rbuf = s.rbuf := rfl
@[simp] theorem takeAccess_ccr (s : State) : (takeAccess s).ccr = s.ccr := rfl
@[simp] theorem takeAccess_trise (s : State) : (takeAccess s).trise = s.trise := rfl
@[simp] theorem takeAccess_cur (s : State) : (takeAccess s).cur = s.cur := rfl
@[simp] theorem takeAccess_idx (s : State) : (takeAccess s).idx = s.idx := rfl
@[simp] theorem takeAccess_chunk (s : State) : (takeAccess s).chunk = s.chunk := rfl
@[simp] theorem takeAccess_retry (s : State) : (takeAccess s).retry = s.retry := rfl
@[simp] theorem takeAccess_spin (s : State) : (takeAccess s).spin = s.spin := rfl
@[simp] theorem takeAccess_ticks (s : State) : (takeAccess s).ticks = s.ticks := rfl
@[simp] theorem takeAccess_err (s : State) : (takeAccess s).err = s.err := rfl
@[simp] theorem takeAccess_seq (s : State) : (takeAccess s).seq = s.seq := rfl
@[simp] theorem takeAccess_ee (s : State) : (takeAccess s).ee = s.ee := rfl
@[simp] theorem takeAccess_bus (s : State) : (takeAccess s).bus = s.bus := rfl
@[simp] theorem takeAccess_sched (s : State) : (takeAccess s).sched = s.sched := rfl
@[simp] theorem takeAccess_draws (s : State) : (takeAccess s).draws = s.draws := rfl
@[simp] theorem takeAccess_epoch (s : State) : (takeAccess s).epoch = s.epoch := rfl
@[simp] theorem takeAccess_host (s : State) : (takeAccess s).host = s.host.tail := rfl
@[simp] theorem takeAccess_rdata (s : State) : (takeAccess s).rdata = s.rdata := rfl
@[simp] theorem takeAccess_cfg (s : State) : (takeAccess s).cfg = s.cfg := rfl

end Sys2Proof.Machine
end

