-- ==== Sys2Proof/Laws/LineEngine.lean ====
section
/-!
SUPPORT. The line engine: every access of its interface and every step keeps `Engine.Inv` (10_state R39), and the ports and the
trace after each symbol.
-/

namespace Sys2Proof.Machine

/-! ### Symbols on the wire -/

@[simp] theorem linesAfter_start : linesAfter .start = ⟨false, false⟩ := rfl
@[simp] theorem linesAfter_rstart : linesAfter .rstart = ⟨false, false⟩ := rfl
@[simp] theorem linesAfter_stop : linesAfter .stop = ⟨true, true⟩ := rfl
@[simp] theorem linesAfter_tx (b : Byte) (k : Bool) : linesAfter (.tx b k) = ⟨false, true⟩ := rfl
@[simp] theorem linesAfter_rx (b : Byte) (k : Bool) : linesAfter (.rx b k) = ⟨false, true⟩ := rfl

/-- The acknowledge bit read off the line is the answer of the slave that pulls it. -/
@[simp] theorem receivedAck_eq (k : Bool) : receivedAck k = k := by cases k <;> rfl

/-- The byte received bit by bit is the byte the slave put on the line. -/
@[simp] theorem receivedByte_eq (v : Byte) : receivedByte v = v := by revert v; decide

/-- With the clock line released the engine takes its step. -/
@[simp] theorem engineTry_true (a : Answer) (s : State) : engineTry true a s = engineStep a s := rfl

/-- With the clock line held low it does not. -/
@[simp] theorem engineTry_false (a : Answer) (s : State) : engineTry false a s = s := rfl

/-! ### The accesses keep the invariant -/

theorem Engine.Inv.assertStart {e : Engine} (h : e.Inv) : e.assertStart.Inv := by
  obtain ⟨h1, h2, h3, h4, h5, h6, h7, h8, h9, h10, h11, h12, h13, h14, h15, h16, h17⟩ := h
  unfold Engine.assertStart
  split
  · constructor <;> simp_all
  · split
    · constructor <;> simp_all
    · constructor <;> simp_all

theorem Engine.Inv.assertStop {e : Engine} (h : e.Inv) : e.assertStop.Inv := by
  obtain ⟨h1, h2, h3, h4, h5, h6, h7, h8, h9, h10, h11, h12, h13, h14, h15, h16, h17⟩ := h
  unfold Engine.assertStop
  split
  · constructor <;> simp_all
  · split
    · constructor <;> simp_all
    · have : e.es ≠ .idle := by
        intro he
        cases ha : e.act <;> simp_all
      constructor <;> simp_all

theorem Engine.Inv.loadTx {e : Engine} (h : e.Inv) (b : Byte) : (e.loadTx b).Inv := by
  obtain ⟨h1, h2, h3, h4, h5, h6, h7, h8, h9, h10, h11, h12, h13, h14, h15, h16, h17⟩ := h
  unfold Engine.loadTx
  split
  · constructor <;> simp_all
  · split
    · constructor <;> simp_all
    · constructor <;> simp_all

theorem Engine.Inv.setAckMode {e : Engine} (h : e.Inv) (k : Bool) : (e.setAckMode k).Inv := by
  obtain ⟨h1, h2, h3, h4, h5, h6, h7, h8, h9, h10, h11, h12, h13, h14, h15, h16, h17⟩ := h
  unfold Engine.setAckMode
  split <;> constructor <;> simp_all

theorem Engine.Inv.readSr1 {e : Engine} (h : e.Inv) : e.readSr1.Inv := by
  obtain ⟨h1, h2, h3, h4, h5, h6, h7, h8, h9, h10, h11, h12, h13, h14, h15, h16, h17⟩ := h
  unfold Engine.readSr1
  split <;> constructor <;> simp_all

theorem Engine.Inv.readSr2 {e : Engine} (h : e.Inv) : e.readSr2.Inv := by
  obtain ⟨h1, h2, h3, h4, h5, h6, h7, h8, h9, h10, h11, h12, h13, h14, h15, h16, h17⟩ := h
  unfold Engine.readSr2
  split
  · split
    · constructor <;> simp_all
    · constructor <;> simp_all
  · constructor <;> simp_all

theorem Engine.Inv.readDr {e : Engine} (h : e.Inv) : e.readDr.Inv := by
  obtain ⟨h1, h2, h3, h4, h5, h6, h7, h8, h9, h10, h11, h12, h13, h14, h15, h16, h17⟩ := h
  unfold Engine.readDr
  constructor <;> simp_all

/-! ### The steps keep the invariant -/

theorem Engine.Inv.afterStart {e : Engine} (h : e.Inv) (ha : e.act = .start) : e.afterStart.Inv := by
  obtain ⟨h1, h2, h3, h4, h5, h6, h7, h8, h9, h10, h11, h12, h13, h14, h15, h16, h17⟩ := h
  unfold Engine.afterStart Engine.emit
  constructor <;> simp_all

theorem Engine.Inv.afterRstart {e : Engine} : e.afterRstart.Inv := by
  unfold Engine.afterRstart Engine.emit
  constructor <;> simp

theorem Engine.Inv.afterTxAddr {e : Engine} (h : e.Inv) (ha : e.act = .txAddr) (k : Bool) : (e.afterTxAddr k).Inv := by
  obtain ⟨h1, h2, h3, h4, h5, h6, h7, h8, h9, h10, h11, h12, h13, h14, h15, h16, h17⟩ := h
  unfold Engine.afterTxAddr Engine.shiftedOut Engine.emit
  split <;> constructor <;> simp_all

theorem Engine.Inv.afterTxData {e : Engine} (h : e.Inv) (ha : e.act = .txData) (k : Bool) : (e.afterTxData k).Inv := by
  obtain ⟨h1, h2, h3, h4, h5, h6, h7, h8, h9, h10, h11, h12, h13, h14, h15, h16, h17⟩ := h
  unfold Engine.afterTxData Engine.shiftedOut Engine.emit
  split <;> constructor <;> simp_all

theorem Engine.Inv.afterRx {e : Engine} (h : e.Inv) (ha : e.act = .rxData) (v : Byte) : (e.afterRx v).Inv := by
  obtain ⟨h1, h2, h3, h4, h5, h6, h7, h8, h9, h10, h11, h12, h13, h14, h15, h16, h17⟩ := h
  unfold Engine.afterRx Engine.emit
  constructor <;> simp_all

theorem Engine.Inv.afterStop {e : Engine} (ha : e.act = .none) : e.afterStop.Inv := by
  unfold Engine.afterStop Engine.emit
  constructor <;> simp_all

theorem Engine.reset_inv : Engine.reset.Inv := by
  constructor <;> simp [Engine.reset]

theorem engineStep_inv {s : State} (h : s.eng.Inv) (ans : Answer) : (engineStep ans s).eng.Inv := by
  unfold engineStep
  split <;> rename_i ha
  · exact h.afterStart ha
  · exact Engine.Inv.afterRstart
  · exact h.afterTxAddr ha _
  · exact h.afterTxData ha _
  · exact h.afterRx ha _
  · split
    · exact Engine.Inv.afterStop ha
    · exact h

end Sys2Proof.Machine
end

