-- ==== Sys2Proof/Laws/Runs.lean ====
section
/-!
SUPPORT. What a run of the command unit can do, said once: a property that the other agents' moves and the unit's own writes
keep holds at the end of every gap, wait, delay and L1 operation, whatever the schedule; and what the outcome of a wait says of
the flags.
-/

namespace Sys2Proof.Machine

/-- `P` holds of a run's value and state when it came to its end, `Q` of its state when it was cut short. -/
def Ran.All {α : Type} (P : α → State → Prop) (Q : State → Prop) : Ran α → Prop
  | .done a s => P a s
  | .cut s => Q s

@[simp] theorem Ran.all_done {α : Type} (P : α → State → Prop) (Q : State → Prop) (a : α) (s : State) :
    (Ran.done a s).All P Q = P a s := rfl

@[simp] theorem Ran.all_cut {α : Type} (P : α → State → Prop) (Q : State → Prop) (s : State) :
    (Ran.cut (α := α) s).All P Q = Q s := rfl

@[simp] theorem Ran.andThen_done {α β : Type} (a : α) (s : State) (k : α → State → Ran β) :
    (Ran.done a s).andThen k = k a s := rfl

@[simp] theorem Ran.andThen_cut {α β : Type} (s : State) (k : α → State → Ran β) :
    (Ran.cut (α := α) s).andThen k = .cut s := rfl

@[simp] theorem Ran.state_done {α : Type} (a : α) (s : State) : (Ran.done a s).state = s := rfl

@[simp] theorem Ran.state_cut {α : Type} (s : State) : (Ran.cut (α := α) s).state = s := rfl

@[simp] theorem Ran.orFail_success (s : State) (f : TransferOutcome → State → Ran TransferOutcome)
    (k : State → Ran TransferOutcome) : (Ran.done .success s).orFail f k = k s := rfl

@[simp] theorem Ran.orFail_cut (s : State) (f : TransferOutcome → State → Ran TransferOutcome)
    (k : State → Ran TransferOutcome) : (Ran.cut s).orFail f k = .cut s := rfl

theorem Ran.orFail_error {e : TransferOutcome} (h : e ≠ .success) (s : State)
    (f : TransferOutcome → State → Ran TransferOutcome) (k : State → Ran TransferOutcome) :
    (Ran.done e s).orFail f k = f e s := by
  simp [Ran.orFail, h]

theorem Ran.All.mono {α : Type} {P P' : α → State → Prop} {Q Q' : State → Prop} {r : Ran α} (h : r.All P Q)
    (hP : ∀ a s, P a s → P' a s) (hQ : ∀ s, Q s → Q' s) : r.All P' Q' := by
  cases r with
  | done a s => exact hP a s h
  | cut s => exact hQ s h

theorem Ran.All.and {α : Type} {P P' : α → State → Prop} {Q Q' : State → Prop} {r : Ran α} (h : r.All P Q)
    (h' : r.All P' Q') : r.All (fun a s => P a s ∧ P' a s) (fun s => Q s ∧ Q' s) := by
  cases r <;> exact ⟨h, h'⟩

theorem Ran.All.andThen {α β : Type} {P : α → State → Prop} {P' : β → State → Prop} {Q : State → Prop} {r : Ran α}
    {k : α → State → Ran β} (h : r.All P Q) (hk : ∀ a s, P a s → (k a s).All P' Q) : (r.andThen k).All P' Q := by
  cases r with
  | done a s => exact hk a s h
  | cut s => exact h

/-- A run that goes on after Success and fails otherwise. -/
theorem Ran.All.orFail {P P' : TransferOutcome → State → Prop} {Q : State → Prop} {r : Ran TransferOutcome}
    {f : TransferOutcome → State → Ran TransferOutcome} {k : State → Ran TransferOutcome} (h : r.All P Q)
    (hf : ∀ e s, P e s → e ≠ .success → (f e s).All P' Q) (hk : ∀ s, P .success s → (k s).All P' Q) :
    (r.orFail f k).All P' Q := by
  refine h.andThen fun e s he => ?_
  by_cases hs : e = .success
  · subst hs; simpa using hk s he
  · simpa [hs] using hf e s he hs

/-! ### Gaps -/

/-- `P` is kept by every move of the other agents while a command executes, but for a reset; and it says that one executes. -/
structure KeptByAgents (P : State → Prop) : Prop where
  busy : ∀ {s}, P s → s.busy = true
  engine : ∀ {s} (a : Answer), P s → P (engineStep a s)
  ready : ∀ {s}, P s → P { s with ee := { s.ee with busydev := false } }
  sched : ∀ {s} (x : Sched), P s → P { s with sched := x }
  draws : ∀ {s} (n : Nat), P s → P { s with draws := n }
  refused : ∀ {s}, P s → P (refuse .busy s)
  read : ∀ {s} (off : Nat), P s → P (hostRead off s)

theorem KeptByAgents.move {P : State → Prop} (h : KeptByAgents P) {s : State} (hs : P s) (m : Move)
    (hm : isReset m = false) : P (move m s) := by
  have hb := h.busy hs
  match m, hm with
  | .env (.engine a), _ => exact h.engine a hs
  | .env .hold, _ => exact hs
  | .env .ready, _ => exact h.ready hs
  | .host (.write off v), _ =>
    simp only [Machine.move, hostMove, hb, if_true]
    split
    · exact h.refused hs
    · simpa [hostWrite, hb] using hs
  | .host (.read off), _ => simpa [Machine.move, hostMove, hb] using h.read off hs
  | .host .idle, _ => simpa [Machine.move, hostMove, hb] using hs

/-- A reset of the block within a gap, from a state where `P` holds, gives one where `Q` holds. -/
abbrev Resets (P Q : State → Prop) : Prop := ∀ s, P s → Q (resetBlock s)

theorem KeptByAgents.runMoves {P Q : State → Prop} (h : KeptByAgents P) (hQ : Resets P Q) (ms : List Move) :
    ∀ {s : State}, P s → (runMoves ms s).All (fun _ => P) Q := by
  induction ms with
  | nil => intro s hs; exact hs
  | cons m ms ih =>
    intro s hs
    have hb := h.busy hs
    unfold Machine.runMoves
    split
    · rename_i hm
      have hm : isReset m = true := by simpa [hb] using hm
      cases m with
      | env m => simp [isReset] at hm
      | host a =>
        cases a <;> simp [isReset] at hm
        simpa [Machine.move, hostMove, hb] using hQ s hs
    · rename_i hm
      exact ih (h.move hs m (by simpa [hb] using hm))

theorem KeptByAgents.nextGap {P : State → Prop} (h : KeptByAgents P) {s : State} (hs : P s) : P (nextGap s).2 := by
  unfold Machine.nextGap
  split
  · exact h.sched _ hs
  · exact hs
  · exact h.draws _ hs

/-- What a gap can do: the property holds after it, or the block was reset. -/
theorem KeptByAgents.gap {P Q : State → Prop} (h : KeptByAgents P) (hQ : Resets P Q) {s : State} (hs : P s) :
    (gap s).All (fun _ => P) Q :=
  h.runMoves hQ _ (h.nextGap hs)

/-! ### Waits and delays -/

/-- `P` is kept by the other agents and by the unit's samples and counters. -/
structure KeptByWaits (P : State → Prop) : Prop extends KeptByAgents P where
  sampled : ∀ {s}, P s → P (readSr1 s)
  spin : ∀ {s} (n : Nat), P s → P { s with spin := n }

@[simp] theorem sample_readSr1 (e : Engine) : e.readSr1.sample = e.sample := by
  unfold Engine.readSr1 Engine.sample
  split <;> rfl

theorem readSr1_seen (e : Engine) (h : e.readSr1.addr = true) : e.readSr1.addrSeen = true := by
  unfold Engine.readSr1 at *
  split at h <;> simp_all

/-- What a wait's outcome says of its last sample (R161, R226). -/
def WaitSays (ok bad : Sample → Bool) (r : TransferOutcome) (s : State) : Prop :=
  (r = .success ∧ ok s.eng.sample = true ∧ (s.eng.addr = true → s.eng.addrSeen = true)) ∨
    (r = .noAcknowledge ∧ bad s.eng.sample = true) ∨ r = .timeout

theorem KeptByWaits.waitLoop {P Q : State → Prop} (h : KeptByWaits P) (hQ : Resets P Q) (ok bad : Sample → Bool) (n : Nat) :
    ∀ {s : State}, P s → (waitLoop ok bad n s).All (fun r t => P t ∧ WaitSays ok bad r t) Q := by
  induction n with
  | zero => intro s hs; exact ⟨hs, .inr (.inr rfl)⟩
  | succ n ih =>
    intro s hs
    refine (h.gap hQ hs).andThen fun _ t ht => ?_
    split
    · rename_i hok
      refine ⟨h.sampled ht, .inl ⟨rfl, ?_, readSr1_seen t.eng⟩⟩
      simpa using hok
    · split
      · rename_i hbad
        exact ⟨h.sampled ht, .inr (.inl ⟨rfl, by simpa using hbad⟩)⟩
      · exact ih (h.spin _ (h.sampled ht))

/-- What a wait can do (R161). -/
theorem KeptByWaits.wait {P Q : State → Prop} (h : KeptByWaits P) (hQ : Resets P Q) (ok bad : Sample → Bool) {s : State}
    (hs : P s) : (wait ok bad s).All (fun r t => P t ∧ WaitSays ok bad r t) Q :=
  h.waitLoop hQ ok bad _ (h.spin 0 hs)

/-- What a delay can do (R198): the property holds after it, or the delay never ends, or the block was reset. -/
theorem KeptByAgents.delayLoop {P Q : State → Prop} (h : KeptByAgents P) (hQ : Resets P Q) (hPQ : ∀ s, P s → Q s)
    (ht : ∀ {s} (n : Nat), P s → P { s with ticks := n }) (n : Nat) :
    ∀ {s : State}, P s → (delayLoop n s).All (fun _ => P) Q := by
  induction n with
  | zero => intro s hs; exact hs
  | succ n ih =>
    intro s hs
    refine (h.gap hQ hs).andThen fun _ t hp => ?_
    split
    · exact ih (ht _ hp)
    · exact hPQ _ hp

/-! ### The unit's own writes -/

/-- `P` is kept by everything START, STOP, WRADDR and WRBYTE write, in whatever engine state. -/
structure KeptBySend (P : State → Prop) : Prop extends KeptByWaits P where
  assertStart : ∀ {s}, P s → P { s with eng := s.eng.assertStart }
  assertStop : ∀ {s}, P s → P { s with eng := s.eng.assertStop }
  loadTx : ∀ {s} (b : Byte), P s → P { s with eng := s.eng.loadTx b }
  readSr2 : ∀ {s}, P s → P { s with eng := s.eng.readSr2 }
  phase : ∀ {s} (p : Phase), P s → P { s with phase := p }
  seq : ∀ {s} (p : SeqPoint), P s → P (seqAt p s)

theorem KeptBySend.blStart {P Q : State → Prop} (h : KeptBySend P) (hQ : Resets P Q) {s : State} (hs : P s) :
    (blStart s).All (fun r t => P t ∧ WaitSays (fun f => f.sb) never r t) Q := by
  refine (h.gap hQ hs).andThen fun _ t ht => ?_
  refine (h.wait hQ _ _ (h.seq .waitStart (h.assertStart ht))).andThen fun r u hu => ?_
  exact ⟨h.phase _ hu.1, hu.2⟩

theorem KeptBySend.blStop {P Q : State → Prop} (h : KeptBySend P) (hQ : Resets P Q) {s : State} (hs : P s) :
    (blStop s).All (fun r t => P t ∧ r = .success ∧ t.phase = .idle) Q := by
  refine (h.gap hQ hs).andThen fun _ t ht => ?_
  exact ⟨h.phase .idle (h.assertStop ht), rfl, rfl⟩

theorem KeptBySend.settleAddress {P : State → Prop} (h : KeptBySend P) {s : State} (hs : P s) (r : TransferOutcome) :
    P (settleAddress r s) := by
  unfold Machine.settleAddress
  split
  · exact h.phase _ (h.readSr2 hs)
  · exact h.phase _ hs

/-- A wait for an acknowledged byte ends in Success, NoAcknowledge or Timeout (R165, R166, R235). -/
theorem WaitSays.outcome {ok bad : Sample → Bool} {r : TransferOutcome} {s : State} (h : WaitSays ok bad r s) :
    r = .success ∨ r = .noAcknowledge ∨ r = .timeout := by
  rcases h with ⟨rfl, -⟩ | ⟨rfl, -⟩ | rfl <;> simp

/-- A wait with no failing sample ends in Success or Timeout (R163, R167, R190, R235). -/
theorem WaitSays.never_outcome {ok : Sample → Bool} {r : TransferOutcome} {s : State} (h : WaitSays ok never r s) :
    r = .success ∨ r = .timeout := by
  rcases h with ⟨rfl, -⟩ | ⟨rfl, h⟩ | rfl
  · simp
  · simp [never] at h
  · simp

theorem KeptBySend.blWriteAddress {P Q : State → Prop} (h : KeptBySend P) (hQ : Resets P Q) (a : Byte) {s : State}
    (hs : P s) :
    (blWriteAddress a s).All (fun r t => P t ∧ (r = .success ∨ r = .noAcknowledge ∨ r = .timeout)) Q := by
  refine (h.gap hQ hs).andThen fun _ t ht => ?_
  refine (h.wait hQ _ _ (h.seq .waitAddress (h.loadTx a ht))).andThen fun r u hu => ?_
  exact ⟨h.settleAddress hu.1 r, hu.2.outcome⟩

theorem KeptBySend.blWriteByte {P Q : State → Prop} (h : KeptBySend P) (hQ : Resets P Q) (d : Byte) {s : State}
    (hs : P s) :
    (blWriteByte d s).All (fun r t => P t ∧ (r = .success ∨ r = .noAcknowledge ∨ r = .timeout)) Q := by
  refine (h.gap hQ hs).andThen fun _ t ht => ?_
  refine (h.wait hQ _ _ (h.seq .waitTransmit (h.loadTx d ht))).andThen fun r u hu => ?_
  exact ⟨h.phase _ hu.1, hu.2.outcome⟩

theorem KeptBySend.stopWait {P Q : State → Prop} (h : KeptBySend P) (hQ : Resets P Q) {s : State} (hs : P s) :
    (stopWait s).All (fun r t => P t ∧ WaitSays (fun f => !f.stopp) never r t) Q := by
  refine (h.blStop hQ hs).andThen fun _ t ht => ?_
  exact h.wait hQ _ _ (h.seq .waitStop ht.1)

/-- `P` is kept by everything PROBE writes. -/
structure KeptByAbort (P : State → Prop) : Prop extends KeptBySend P where
  err : ∀ {s} (e : TransferOutcome), P s → P { s with err := e }

/-- `P` is kept by everything PROBE, MWR1 and WAITRDY write, and MWRN but for its counters. -/
structure KeptByPaged (P : State → Prop) : Prop extends KeptByAbort P where
  retry : ∀ {s} (n : Nat), P s → P { s with retry := n }
  ticks : ∀ {s} (n : Nat), P s → P { s with ticks := n }

/-- `P` is kept by everything RDBYTE writes. -/
structure KeptByReceives (P : State → Prop) : Prop extends KeptBySend P where
  setAckMode : ∀ {s} (k : Bool), P s → P { s with eng := s.eng.setAckMode k }
  readDr : ∀ {s}, P s → P { s with eng := s.eng.readDr }
  result : ∀ {s} (v : Byte), P s → P { s with result := v }

/-- `P` is kept by everything MRD1 writes, and MRDN but for RBUF, DONE and IDX. -/
structure KeptByTransfers (P : State → Prop) : Prop extends KeptByAbort P, KeptByReceives P

/-- `P` is kept by everything the commands write, INIT and the counters and buffer of MRDN and MWRN apart. -/
structure KeptByReads (P : State → Prop) : Prop extends KeptByPaged P, KeptByTransfers P

theorem KeptByReceives.blReadByte {P Q : State → Prop} (h : KeptByReceives P) (hQ : Resets P Q) (k : Bool) {s : State} (hs : P s) :
    (blReadByte k s).All (fun r t => P t ∧ (r = .success ∨ r = .timeout)) Q := by
  refine (h.gap hQ hs).andThen fun _ t ht => ?_
  refine (h.wait hQ _ _ (h.seq .waitReceive (h.setAckMode k ht))).andThen fun r u hu => ?_
  refine ⟨?_, hu.2.never_outcome⟩
  unfold takeResult
  split
  · exact h.result _ (h.readDr hu.1)
  · exact h.phase _ hu.1

/-- The abort path returns the error it was given (R190, R226). -/
theorem KeptByAbort.abort {P Q : State → Prop} (h : KeptByAbort P) (hQ : Resets P Q) (e : TransferOutcome) {s : State}
    (hs : P s) : (abort e s).All (fun r t => P t ∧ r = e) Q := by
  refine (h.stopWait hQ (h.err e hs)).andThen fun _ t ht => ?_
  exact ⟨ht.1, rfl⟩

/-- What an L1 operation of a sequence can end in, given what follows it. -/
theorem KeptByAbort.orAbort {P Q : State → Prop} (h : KeptByAbort P) (hQ : Resets P Q) {R R' : TransferOutcome → Prop}
    {r : Ran TransferOutcome} {k : State → Ran TransferOutcome} (hr : r.All (fun e t => P t ∧ R e) Q)
    (hRR : ∀ e, R e → e ≠ .success → R' e) (hk : ∀ t, P t → (k t).All (fun e t => P t ∧ R' e) Q) :
    (r.orFail Machine.abort k).All (fun e t => P t ∧ R' e) Q := by
  refine hr.orFail (fun e t ht hne => ?_) fun t ht => hk t ht.1
  exact (h.abort hQ e ht.1).mono (fun a u hu => ⟨hu.1, hu.2 ▸ hRR e ht.2 hne⟩) fun _ hu => hu

/-- The outcomes a sequence of L1 operations can have (R191, R235). -/
abbrev BusOutcome (r : TransferOutcome) : Prop := r = .success ∨ r = .noAcknowledge ∨ r = .timeout

theorem busOutcome_success : BusOutcome .success := .inl rfl
theorem busOutcome_noAcknowledge : BusOutcome .noAcknowledge := .inr (.inl rfl)
theorem busOutcome_timeout : BusOutcome .timeout := .inr (.inr rfl)

theorem KeptByAbort.addrPhaseThen {P Q : State → Prop} (h : KeptByAbort P) (hQ : Resets P Q) (a : MemAddr)
    {k : State → Ran TransferOutcome} (hk : ∀ t, P t → (k t).All (fun e t => P t ∧ BusOutcome e) Q) {s : State} (hs : P s) :
    (addrPhaseThen a k s).All (fun e t => P t ∧ BusOutcome e) Q := by
  refine h.orAbort hQ (R := BusOutcome) ((h.blStart hQ hs).mono (fun _ _ hu => ⟨hu.1, hu.2.outcome⟩) fun _ hu => hu)
    (fun _ he _ => he) fun t ht => ?_
  refine h.orAbort hQ (h.blWriteAddress hQ _ ht) (fun _ he _ => he) fun t ht => ?_
  refine h.orAbort hQ (h.blWriteByte hQ _ ht) (fun _ he _ => he) fun t ht => ?_
  exact h.orAbort hQ (h.blWriteByte hQ _ ht) (fun _ he _ => he) hk

theorem KeptByAbort.turnToRead {P Q : State → Prop} (h : KeptByAbort P) (hQ : Resets P Q)
    {k : State → Ran TransferOutcome} (hk : ∀ t, P t → (k t).All (fun e t => P t ∧ BusOutcome e) Q) {s : State} (hs : P s) :
    (turnToRead k s).All (fun e t => P t ∧ BusOutcome e) Q := by
  refine h.orAbort hQ (R := BusOutcome) ((h.blStart hQ hs).mono (fun _ _ hu => ⟨hu.1, hu.2.outcome⟩) fun _ hu => hu)
    (fun _ he _ => he) fun t ht => ?_
  exact h.orAbort hQ (h.blWriteAddress hQ _ ht) (fun _ he _ => he) hk

theorem KeptByAbort.stopWait_outcome {P Q : State → Prop} (h : KeptByAbort P) (hQ : Resets P Q) {s : State} (hs : P s) :
    (stopWait s).All (fun e t => P t ∧ BusOutcome e) Q :=
  (h.stopWait hQ hs).mono (fun _ _ hu => ⟨hu.1, hu.2.outcome⟩) fun _ hu => hu

theorem KeptByAbort.pmProbe {P Q : State → Prop} (h : KeptByAbort P) (hQ : Resets P Q) {s : State} (hs : P s) :
    (pmProbe s).All (fun e t => P t ∧ BusOutcome e) Q := by
  refine h.orAbort hQ (R := BusOutcome) ((h.blStart hQ hs).mono (fun _ _ hu => ⟨hu.1, hu.2.outcome⟩) fun _ hu => hu)
    (fun _ he _ => he) fun t ht => ?_
  exact h.orAbort hQ (h.blWriteAddress hQ _ ht) (fun _ he _ => he) fun t ht => h.stopWait_outcome hQ ht

/-- The ready wait ends in Success or Timeout, never in NoAcknowledge (R197, R222, R235). -/
theorem KeptByPaged.readyLoop {P Q : State → Prop} (h : KeptByPaged P) (hQ : Resets P Q) (hPQ : ∀ s, P s → Q s) (n : Nat) :
    ∀ {s : State}, P s → (readyLoop n s).All (fun e t => P t ∧ (e = .success ∨ e = .timeout)) Q := by
  induction n with
  | zero => intro s hs; exact ⟨hs, .inr rfl⟩
  | succ n ih =>
    intro s hs
    refine (h.pmProbe hQ hs).andThen fun r t ht => ?_
    have hu : P { t with retry := t.retry + 1 } := h.retry _ ht.1
    simp only
    split
    · refine (h.gap hQ hu).andThen fun _ v hv => ?_
      split
      · exact ⟨hv, .inr rfl⟩
      · exact (h.delayLoop hQ hPQ (fun _ hp => h.ticks _ hp) _ (h.ticks 0 (h.seq .delay hv))).andThen fun _ x hx => ih hx
    · rename_i hne
      refine ⟨hu, ?_⟩
      rcases ht.2 with h | h | h <;> simp_all

theorem KeptByPaged.readyWait {P Q : State → Prop} (h : KeptByPaged P) (hQ : Resets P Q) (hPQ : ∀ s, P s → Q s) {s : State}
    (hs : P s) : (readyWait s).All (fun e t => P t ∧ (e = .success ∨ e = .timeout)) Q :=
  h.readyLoop hQ hPQ _ (h.retry 0 hs)

end Sys2Proof.Machine
end

