-- ==== Sys2Proof/Laws/Bodies.lean ====
section
/-!
SUPPORT. What a whole command can do, said once: a property that the other agents' moves and the command's own writes keep holds
when the body ends, and so in the state the command leaves, whatever the schedule; and which outcomes each body has.
-/

namespace Sys2Proof.Machine

variable {P Q : State → Prop}

/-! ### Bodies -/

/-- The outcomes of a command with an address operand: AddressOutOfRange when its range check fails, one of the bus otherwise. -/
abbrev RangedOutcome (out : Bool) (e : TransferOutcome) : Prop := if out then e = .addressOutOfRange else BusOutcome e

/-- A reception of a sequence has an outcome of the bus (R235). -/
theorem KeptByReceives.blReadByte_outcome (h : KeptByReceives P) (hQ : Resets P Q) (k : Bool) {s : State} (hs : P s) :
    (Machine.blReadByte k s).All (fun e t => P t ∧ BusOutcome e) Q :=
  (h.blReadByte hQ k hs).mono (fun _ _ hu => ⟨hu.1, hu.2.elim .inl fun h => .inr (.inr h)⟩) fun _ hu => hu

/-- What MRD1 can do (R193). -/
theorem KeptByTransfers.pmReadByte (h : KeptByTransfers P) (hQ : Resets P Q) (a : MemAddr) {s : State} (hs : P s) :
    (pmReadByte a s).All (fun e t => P t ∧ RangedOutcome (outOfRange s.cfg a.toNat 1) e) Q := by
  unfold Machine.pmReadByte
  split
  · exact ⟨hs, rfl⟩
  · refine h.addrPhaseThen hQ a (fun t ht => h.turnToRead hQ (fun t ht => ?_) ht) hs
    exact h.orAbort hQ (h.blReadByte_outcome hQ _ ht) (fun _ he _ => he) fun t ht => h.stopWait_outcome hQ ht

/-- A ready wait at the end of a write has an outcome of the bus. -/
theorem KeptByPaged.readyWait_outcome (h : KeptByPaged P) (hQ : Resets P Q) (hPQ : ∀ s, P s → Q s) {s : State} (hs : P s) :
    (Machine.readyWait s).All (fun e t => P t ∧ BusOutcome e) Q :=
  (h.readyWait hQ hPQ hs).mono (fun _ _ hu => ⟨hu.1, hu.2.elim .inl fun h => .inr (.inr h)⟩) fun _ hu => hu

/-- What MWR1 can do (R194). -/
theorem KeptByPaged.pmWriteByte (h : KeptByPaged P) (hQ : Resets P Q) (hPQ : ∀ s, P s → Q s) (a : MemAddr) (d : Byte)
    {s : State} (hs : P s) :
    (pmWriteByte a d s).All (fun e t => P t ∧ RangedOutcome (outOfRange s.cfg a.toNat 1) e) Q := by
  unfold Machine.pmWriteByte
  split
  · exact ⟨hs, rfl⟩
  · refine h.addrPhaseThen hQ a (fun t ht => ?_) hs
    refine h.orAbort hQ (h.blWriteByte hQ _ ht) (fun _ he _ => he) fun t ht => ?_
    exact (h.stopWait_outcome hQ ht).orFail (fun e t he _ => he) fun t ht => h.readyWait_outcome hQ hPQ ht.1

/-- The receptions of MRDN, `N` of them in all: each byte is stored below `N` (R195). -/
theorem KeptByTransfers.receiveLoop (h : KeptByTransfers P) (hQ : Resets P Q) (N : Nat)
    (hst : ∀ {s} (i : Nat), i < N → P s → P (storeReceived i s)) (n : Nat) :
    ∀ i : Nat, i + n = N → ∀ {s : State}, P s → (receiveLoop n i s).All (fun e t => P t ∧ BusOutcome e) Q := by
  induction n with
  | zero => intro i _ s hs; exact h.stopWait_outcome hQ hs
  | succ n ih =>
    intro i hi s hs
    exact h.orAbort hQ (h.blReadByte_outcome hQ _ hs) (fun _ he _ => he)
      fun t ht => ih (i + 1) (by omega) (hst i (by omega) ht)

/-- What MRDN can do (R195). -/
theorem KeptByTransfers.pmReadBytes (h : KeptByTransfers P) (hQ : Resets P Q) (a : MemAddr) {s : State}
    (hst : ∀ {t} (i : Nat), i < s.len.toNat → P t → P (storeReceived i t)) (hd : P { s with doneCount := 0 })
    (hi : P { s with doneCount := 0, idx := 0 }) :
    (pmReadBytes a s).All (fun e t => P t ∧ RangedOutcome (outOfRange s.cfg a.toNat s.len.toNat) e) Q := by
  unfold Machine.pmReadBytes
  simp only
  split
  · exact ⟨hd, rfl⟩
  · split
    · exact ⟨hd, .inl rfl⟩
    · exact h.addrPhaseThen hQ a
        (fun t ht => h.turnToRead hQ (fun t ht => h.receiveLoop hQ _ hst _ 0 (by omega) ht) ht) hi

/-- The data bytes of a chunk, and what follows them (R196). -/
theorem KeptByAbort.sendLoop (h : KeptByAbort P) (hQ : Resets P Q) {k : State → Ran TransferOutcome}
    (hk : ∀ t, P t → (k t).All (fun e t => P t ∧ BusOutcome e) Q) (n : Nat) :
    ∀ (i : Nat) {s : State}, P s → (sendLoop k n i s).All (fun e t => P t ∧ BusOutcome e) Q := by
  induction n with
  | zero => intro i s hs; exact hk s hs
  | succ n ih =>
    intro i s hs
    exact h.orAbort hQ (h.blWriteByte hQ _ hs) (fun _ he _ => he) fun t ht => ih (i + 1) ht

/-- The chunks of MWRN (R196), for a property that its counters do not touch. -/
theorem KeptByPaged.chunkLoop (h : KeptByPaged P) (hQ : Resets P Q) (hPQ : ∀ s, P s → Q s)
    (hc : ∀ {s} (a b c d : Count), P s → P { s with cur := a, idx := b, doneCount := c, chunk := d })
    (cs : List (Nat × Nat)) :
    ∀ (i : Nat) {s : State}, P s → (chunkLoop cs i s).All (fun e t => P t ∧ BusOutcome e) Q := by
  induction cs with
  | nil => intro i s hs; exact ⟨hs, .inl rfl⟩
  | cons c cs ih =>
    obtain ⟨c, m⟩ := c
    intro i s hs
    refine h.addrPhaseThen hQ _ (fun t ht => h.sendLoop hQ (fun t ht => ?_) m i ht)
      (hc s.cur s.idx s.doneCount _ hs)
    refine (h.stopWait_outcome hQ ht).orFail (fun e t he _ => he) fun t ht => ?_
    refine (h.readyWait_outcome hQ hPQ ht.1).orFail (fun e t he _ => he) fun t ht => ?_
    exact ih _ (hc _ _ _ t.chunk ht.1)

/-- What MWRN can do (R196), for a property that its counters do not touch. -/
theorem KeptByPaged.pmWriteBytes (h : KeptByPaged P) (hQ : Resets P Q) (hPQ : ∀ s, P s → Q s)
    (hc : ∀ {s} (a b c d : Count), P s → P { s with cur := a, idx := b, doneCount := c, chunk := d }) (a : MemAddr)
    {s : State} (hs : P s) :
    (pmWriteBytes a s).All (fun e t => P t ∧ RangedOutcome (outOfRange s.cfg a.toNat s.len.toNat) e) Q := by
  unfold Machine.pmWriteBytes
  simp only
  have h0 : P { s with doneCount := 0 } := hc s.cur s.idx 0 s.chunk hs
  split
  · exact ⟨h0, rfl⟩
  · split
    · exact ⟨h0, .inl rfl⟩
    · exact h.chunkLoop hQ hPQ hc _ 0 (hc _ 0 0 s.chunk hs)

/-! ### Commands -/

/-- A command's meaning is its body, from acceptance to the end (R12, R160). -/
theorem exec_eq (i : Instr) (s : State) : exec i s = command i (bodyOf i) s := by cases i <;> rfl

/-- An accepted command (R97). -/
theorem exec_accepted {i : Instr} {s : State} (h : refusalCause i s = none) :
    exec i s = .next (conclude (bodyOf i (accept i s))) := by
  rw [exec_eq, command, h]

/-- A refused command (R97, R224). -/
theorem exec_refused {i : Instr} {s : State} {c : IllCause} (h : refusalCause i s = some c) :
    exec i s = .next (refuse c s) := by
  rw [exec_eq, command, h]

/-- The end of a command (R160): what holds after the last gap holds of the state `finish` leaves, and what holds of a command
cut short holds of the state it stays in. -/
theorem conclude_all {r : Ran TransferOutcome} {R F : TransferOutcome → State → Prop} {G : State → Prop}
    (h : r.All R Q) (hg : ∀ e s, R e s → (gap s).All (fun _ t => F e t) Q) (hG : ∀ e s, F e s → G (finish e s))
    (hQ : ∀ s, Q s → G s) : G (conclude r) := by
  unfold conclude
  cases r with
  | cut s => exact hQ s h
  | done e s =>
    have := hg e s h
    revert this
    simp only
    cases gap s with
    | done a t => exact fun h => hG e t h
    | cut t => exact fun h => hQ t h

/-- What a command can do, refused, finished or cut short: a property its body keeps holds of the state it leaves. -/
theorem exec_all {i : Instr} {s t : State} (hk : KeptByAgents P) (hQ : Resets P Q) (h : exec i s = .next t)
    (hb : refusalCause i s = none → (bodyOf i (accept i s)).All (fun _ => P) Q) {G : State → Prop}
    (hG : ∀ e s, P s → G (finish e s)) (hQG : ∀ s, Q s → G s)
    (href : ∀ c, refusalCause i s = some c → G (refuse c s)) : G t := by
  cases hr : refusalCause i s with
  | some c =>
    rw [exec_refused hr] at h
    injection h with h
    subst h
    exact href c hr
  | none =>
    rw [exec_accepted hr] at h
    injection h with h
    subst h
    exact conclude_all (F := fun _ => P) (hb hr) (fun e s hs => hk.gap hQ hs) hG hQG

end Sys2Proof.Machine
end

