-- ==== Sys2Proof/Laws/Memory.lean ====
section
/-!
SUPPORT. The laws of byte memories: what a read gives after a write, and that a write keeps the canonical form.
-/

namespace Sys2Proof.Machine

theorem Memory.read_write_same (m : Memory) (a : Nat) (v : Byte) : Memory.read (Memory.write m a v) a = some v := by
  induction m with
  | nil => simp [Memory.write, Memory.read]
  | cons c m ih =>
    obtain ⟨b, w⟩ := c
    simp only [Memory.write]
    split
    · simp [Memory.read]
    · split
      · simp [Memory.read]
      · simp [Memory.read, *]

theorem Memory.read_write_other (m : Memory) {a b : Nat} (v : Byte) (h : b ≠ a) :
    Memory.read (Memory.write m a v) b = Memory.read m b := by
  induction m with
  | nil => simp [Memory.write, Memory.read, h]
  | cons c m ih =>
    obtain ⟨x, w⟩ := c
    simp only [Memory.write]
    split
    · simp [Memory.read, h]
    · split
      · rename_i hx
        subst hx
        simp [Memory.read, h]
      · simp [Memory.read, ih]

theorem Memory.read_write (m : Memory) (a b : Nat) (v : Byte) :
    Memory.read (Memory.write m a v) b = if b = a then some v else Memory.read m b := by
  split
  · rename_i h
    rw [h, Memory.read_write_same]
  · rename_i h
    exact Memory.read_write_other m v h

/-- A written memory's cells are the written one and those that stood. -/
theorem Memory.mem_write (m : Memory) (a : Nat) (v : Byte) (c : Host.Cell) (h : c ∈ Memory.write m a v) :
    c.1 = a ∨ c ∈ m := by
  induction m with
  | nil => simp [Memory.write] at h; simp [h]
  | cons x m ih =>
    obtain ⟨b, w⟩ := x
    simp only [Memory.write] at h
    split at h
    · simp at h; rcases h with h | h | h <;> simp [h]
    · split at h
      · simp at h; rcases h with h | h <;> simp [h]
      · simp at h; rcases h with h | h
        · simp [h]
        · rcases ih h with h | h <;> simp [h]

theorem Memory.write_wf (m : Memory) (a : Nat) (v : Byte) (h : Memory.wf m) : Memory.wf (Memory.write m a v) := by
  induction m with
  | nil => simp [Memory.write, Memory.wf]
  | cons x m ih =>
    obtain ⟨b, w⟩ := x
    have hm : Memory.wf m := (List.pairwise_cons.1 h).2
    have hb : ∀ c ∈ m, b < c.1 := (List.pairwise_cons.1 h).1
    simp only [Memory.write]
    split
    · rename_i hab
      refine List.pairwise_cons.2 ⟨?_, h⟩
      intro c hc
      rcases List.mem_cons.1 hc with rfl | hc
      · exact hab
      · exact Nat.lt_trans hab (hb c hc)
    · split
      · rename_i hab
        subst hab
        exact List.pairwise_cons.2 ⟨hb, hm⟩
      · refine List.pairwise_cons.2 ⟨?_, ih hm⟩
        intro c hc
        rcases Memory.mem_write m a v c hc with hc | hc
        · simp only [hc]; omega
        · exact hb c hc

theorem memRead_memWrite (c : Params) (e : Eeprom) (a b : Nat) (v : Byte) :
    (e.memWrite c a v).memRead b = if b = a ∧ a ≤ c.maxAddress then v else e.memRead b := by
  unfold Eeprom.memWrite Eeprom.memRead
  split
  · by_cases h : b = a <;> simp [Memory.read_write, *]
  · simp [*]

theorem memWrite_wf (c : Params) (e : Eeprom) (a : Nat) (v : Byte) (h : Memory.wf e.mem) :
    Memory.wf (e.memWrite c a v).mem := by
  unfold Eeprom.memWrite
  split
  · exact Memory.write_wf _ _ _ h
  · exact h

end Sys2Proof.Machine
end

