-- ==== Sys2Proof/Laws/Eeprom.lean ====
section
/-!
SUPPORT. The reference EEPROM: what each of its reactions does to MEM and to the fields a transaction uses.
-/

namespace Sys2Proof.Machine

@[simp] theorem Eeprom.draw_mem (d : SlaveDraw) (e : Eeprom) : (e.draw d).mem = e.mem := rfl
@[simp] theorem Eeprom.draw_busydev (d : SlaveDraw) (e : Eeprom) : (e.draw d).busydev = e.busydev := rfl
@[simp] theorem Eeprom.begin_mem (e : Eeprom) : e.begin.mem = e.mem := rfl
@[simp] theorem Eeprom.begin_busydev (e : Eeprom) : e.begin.busydev = e.busydev := rfl
@[simp] theorem Eeprom.begin_ptr (e : Eeprom) : e.begin.ptr = e.ptr := rfl
@[simp] theorem Eeprom.deselect_mem (e : Eeprom) : e.deselect.mem = e.mem := rfl
@[simp] theorem Eeprom.deselect_busydev (e : Eeprom) : e.deselect.busydev = e.busydev := rfl
@[simp] theorem Eeprom.deselect_ptr (e : Eeprom) : e.deselect.ptr = e.ptr := rfl
@[simp] theorem Eeprom.onBlockReset_mem (n : Nat) (e : Eeprom) : (e.onBlockReset n).mem = e.mem := rfl

@[simp] theorem Eeprom.onStart_mem (a : Answer) (e : Eeprom) : (e.onStart a).mem = e.mem := by
  unfold Eeprom.onStart; split <;> rfl

@[simp] theorem Eeprom.takeByte_mem (c : Params) (b : Byte) (e : Eeprom) : (e.takeByte c b).mem = e.mem := by
  unfold Eeprom.takeByte; split <;> rfl

@[simp] theorem Eeprom.onAddress_mem (c : Params) (b : Byte) (e : Eeprom) : (e.onAddress c b).2.mem = e.mem := by
  unfold Eeprom.onAddress; split
  · split <;> rfl
  · rfl

@[simp] theorem Eeprom.onByte_mem (c : Params) (a : Answer) (b : Byte) (e : Eeprom) :
    (e.onByte c a b).2.mem = e.mem := by
  unfold Eeprom.onByte; split
  · simp
  · split <;> simp

@[simp] theorem Eeprom.onRead_mem (c : Params) (a : Answer) (k : Bool) (e : Eeprom) : (e.onRead c a k).2.mem = e.mem := by
  unfold Eeprom.onRead; split
  · split <;> rfl
  · rfl

/-- The pointer after a byte that MEM has: no draw (R77). -/
theorem nextReadPtr_mem (c : Params) {p : MemAddr} (d d' : MemAddr) (h : p.toNat ≤ c.maxAddress) :
    nextReadPtr c d p = nextReadPtr c d' p := by
  simp [nextReadPtr, Nat.not_lt.2 h]

/-- A byte received from a device selected for reading that has not released the line (R77). -/
theorem Eeprom.onRead_selected (c : Params) (a : Answer) (k : Bool) {e : Eeprom} (h : e.sel = .read) (ho : e.out ≠ .released) :
    e.onRead c a k = (if e.ptr.toNat ≤ c.maxAddress then e.memRead e.ptr.toNat else a.byte,
      { e with ptr := nextReadPtr c a.slave.ptr e.ptr, out := if k then .driving else .released }) := by
  unfold Eeprom.onRead; rw [if_pos h, if_neg ho]

/-- A property of MEM that every byte written keeps holds after the page buffer is stored. -/
theorem Eeprom.storePairs_keeps {P : Eeprom → Prop} (c : Params) (hP : ∀ e a v, P e → P (e.memWrite c a v))
    (ps : List (Nat × Byte)) : ∀ {e : Eeprom}, P e → P (e.storePairs c ps) := by
  unfold Eeprom.storePairs
  induction ps with
  | nil => intro e h; exact h
  | cons p ps ih => intro e h; exact ih (hP _ _ _ h)

theorem Eeprom.redrawPage_keeps {P : Eeprom → Prop} (c : Params) (hP : ∀ e a v, P e → P (e.memWrite c a v)) (n a : Nat)
    {e : Eeprom} (h : P e) : P (e.redrawPage c n a) := by
  unfold Eeprom.redrawPage
  generalize List.range c.pageSize = l
  simp only
  induction l generalizing e with
  | nil => exact h
  | cons j l ih => exact ih (hP _ _ _ h)

/-- A property of MEM that every byte written keeps holds after a STOP (R76, R79). -/
theorem Eeprom.onStop_keeps {P : Memory → Prop} (c : Params) (hP : ∀ e a v, P (Eeprom.mem e) → P (e.memWrite c a v).mem)
    (n : Nat) (ans : Answer) {e : Eeprom} (h : P e.mem) : P (e.onStop c n ans).mem := by
  unfold Eeprom.onStop Eeprom.commit
  split
  · exact h
  · split
    · split
      · exact h
      · split
        · exact Eeprom.redrawPage_keeps (P := fun e => P e.mem) c hP n _ h
        · exact Eeprom.storePairs_keeps (P := fun e => P e.mem) c hP _ h
    · exact h

/-- MEM changes at a STOP only (R76). -/
theorem engineStep_mem (a : Answer) (s : State) :
    (engineStep a s).ee.mem = if s.eng.act = .none ∧ s.eng.stopp = true then (s.slaveStop a).mem else s.ee.mem := by
  unfold engineStep
  cases h : s.eng.act
  case none => by_cases hs : s.eng.stopp = true <;> simp [hs]
  all_goals simp only [State.slaveStart, State.slaveByte, State.slaveRead]
  all_goals cases s.bus <;> simp

/-- A property of MEM that every byte written keeps holds after an engine step. -/
theorem engineStep_mem_keeps {P : Memory → Prop} (a : Answer) {s : State}
    (hP : ∀ e a v, P (Eeprom.mem e) → P (e.memWrite s.cfg a v).mem) (h : P s.ee.mem) : P (engineStep a s).ee.mem := by
  rw [engineStep_mem]
  split
  · unfold State.slaveStop
    cases s.bus
    · exact Eeprom.onStop_keeps s.cfg hP _ _ h
    · exact h
  · exact h

theorem engineStep_mem_wf (a : Answer) {s : State} (h : Memory.wf s.ee.mem) : Memory.wf (engineStep a s).ee.mem :=
  engineStep_mem_keeps a (fun e b v => memWrite_wf s.cfg e b v) h

end Sys2Proof.Machine
end

