-- ==== Sys2Proof/Laws/Invariant.lean ====
section
/-!
SUPPORT. The invariant of the machine through a command: what holds between two L1 operations, kept by each operation, and so by
the bodies of the commands.
-/

namespace Sys2Proof.Machine

/-! ### Fields an engine step leaves alone -/

/-- An engine step changes the engine, the slaves and the draw counter only. -/
theorem engineStep_eq (a : Answer) (s : State) :
    engineStep a s =
      { s with eng := (engineStep a s).eng, ee := (engineStep a s).ee, draws := (engineStep a s).draws } := by
  unfold engineStep
  cases s.eng.act <;> simp only
  split <;> rfl

@[simp] theorem engineStep_phase (a : Answer) (s : State) : (engineStep a s).phase = s.phase := by rw [engineStep_eq]
@[simp] theorem engineStep_busy (a : Answer) (s : State) : (engineStep a s).busy = s.busy := by rw [engineStep_eq]
@[simp] theorem engineStep_inited (a : Answer) (s : State) : (engineStep a s).inited = s.inited := by rw [engineStep_eq]
@[simp] theorem engineStep_mode (a : Answer) (s : State) : (engineStep a s).mode = s.mode := by rw [engineStep_eq]
@[simp] theorem engineStep_cpl (a : Answer) (s : State) : (engineStep a s).cpl = s.cpl := by rw [engineStep_eq]
@[simp] theorem engineStep_outcome (a : Answer) (s : State) : (engineStep a s).outcome = s.outcome := by rw [engineStep_eq]
@[simp] theorem engineStep_ill (a : Answer) (s : State) : (engineStep a s).ill = s.ill := by rw [engineStep_eq]
@[simp] theorem engineStep_illcause (a : Answer) (s : State) : (engineStep a s).illcause = s.illcause := by
  rw [engineStep_eq]
@[simp] theorem engineStep_result (a : Answer) (s : State) : (engineStep a s).result = s.result := by rw [engineStep_eq]
@[simp] theorem engineStep_len (a : Answer) (s : State) : (engineStep a s).len = s.len := by rw [engineStep_eq]
@[simp] theorem engineStep_doneCount (a : Answer) (s : State) : (engineStep a s).doneCount = s.doneCount := by
  rw [engineStep_eq]
@[simp] theorem engineStep_wbuf (a : Answer) (s : State) : (engineStep a s).wbuf = s.wbuf := by rw [engineStep_eq]
@[simp] theorem engineStep_rbuf (a : Answer) (s : State) : (engineStep a s).rbuf = s.rbuf := by rw [engineStep_eq]
@[simp] theorem engineStep_ccr (a : Answer) (s : State) : (engineStep a s).ccr = s.ccr := by rw [engineStep_eq]
@[simp] theorem engineStep_trise (a : Answer) (s : State) : (engineStep a s).trise = s.trise := by rw [engineStep_eq]
@[simp] theorem engineStep_seq (a : Answer) (s : State) : (engineStep a s).seq = s.seq := by rw [engineStep_eq]
@[simp] theorem engineStep_bus (a : Answer) (s : State) : (engineStep a s).bus = s.bus := by rw [engineStep_eq]
@[simp] theorem engineStep_sched (a : Answer) (s : State) : (engineStep a s).sched = s.sched := by rw [engineStep_eq]
@[simp] theorem engineStep_epoch (a : Answer) (s : State) : (engineStep a s).epoch = s.epoch := by rw [engineStep_eq]
@[simp] theorem engineStep_host (a : Answer) (s : State) : (engineStep a s).host = s.host := by rw [engineStep_eq]
@[simp] theorem engineStep_cfg (a : Answer) (s : State) : (engineStep a s).cfg = s.cfg := by rw [engineStep_eq]
@[simp] theorem engineStep_rdata (a : Answer) (s : State) : (engineStep a s).rdata = s.rdata := by rw [engineStep_eq]

/-! ### What an engine step does to STOPP and ACT -/

/-- No engine step sets STOPP (R143). -/
theorem engineStep_stopp (a : Answer) {s : State} (h : s.eng.stopp = false) : (engineStep a s).eng.stopp = false := by
  unfold engineStep
  cases s.eng.act <;>
    simp [Engine.afterStart, Engine.afterRstart, Engine.afterTxAddr, Engine.afterTxData, Engine.afterRx, Engine.emit,
      Engine.shiftedOut, h]
  all_goals split <;> simp_all

/-- With nothing pending no engine step is enabled (R141). -/
theorem engineStep_none (a : Answer) {s : State} (ha : s.eng.act = .none) (hs : s.eng.stopp = false) :
    engineStep a s = s := by
  simp [engineStep, ha, hs]

/-- A step completes the activity it finds (R141). -/
theorem engineStep_act (a : Answer) (s : State) : (engineStep a s).eng.act = .none := by
  unfold engineStep
  cases h : s.eng.act <;>
    simp [Engine.afterStart, Engine.afterRstart, Engine.afterTxAddr, Engine.afterTxData, Engine.afterRx, Engine.afterStop,
      Engine.emit, Engine.shiftedOut]
  all_goals split <;> simp [h]

/-! ### Between two actions of the unit -/

/-- What holds at every moment of a command. -/
structure State.Mid (s : State) : Prop where
  busy : s.busy = true
  engine : s.eng.Inv
  seq : s.seq.isSome = true
  inited : s.inited = true
  ill_cause : s.ill = false ↔ s.illcause = .none
  mem_wf : Memory.wf s.ee.mem
  wbuf_wf : Memory.wf s.wbuf
  rbuf_wf : Memory.wf s.rbuf

/-- RESULT is no part of what holds at every moment. -/
theorem State.Mid.result {s : State} (h : s.Mid) (v : Byte) : State.Mid { s with result := v } :=
  ⟨h.busy, h.engine, h.seq, h.inited, h.ill_cause, h.mem_wf, h.wbuf_wf, h.rbuf_wf⟩

theorem mid_kept : KeptByReads State.Mid where
  busy h := h.busy
  engine a h := ⟨by simpa using h.busy, engineStep_inv h.engine a, by simpa using h.seq, by simpa using h.inited,
    by simpa using h.ill_cause, engineStep_mem_wf a h.mem_wf, by simpa using h.wbuf_wf, by simpa using h.rbuf_wf⟩
  ready h := ⟨h.busy, h.engine, h.seq, h.inited, h.ill_cause, h.mem_wf, h.wbuf_wf, h.rbuf_wf⟩
  sched _ h := ⟨h.busy, h.engine, h.seq, h.inited, h.ill_cause, h.mem_wf, h.wbuf_wf, h.rbuf_wf⟩
  draws _ h := ⟨h.busy, h.engine, h.seq, h.inited, h.ill_cause, h.mem_wf, h.wbuf_wf, h.rbuf_wf⟩
  refused h := ⟨h.busy, h.engine, h.seq, h.inited, by simp, h.mem_wf, h.wbuf_wf, h.rbuf_wf⟩
  read _ h := ⟨h.busy, h.engine, h.seq, h.inited, h.ill_cause, h.mem_wf, h.wbuf_wf, h.rbuf_wf⟩
  sampled h := ⟨h.busy, h.engine.readSr1, h.seq, h.inited, h.ill_cause, h.mem_wf, h.wbuf_wf, h.rbuf_wf⟩
  spin _ h := ⟨h.busy, h.engine, h.seq, h.inited, h.ill_cause, h.mem_wf, h.wbuf_wf, h.rbuf_wf⟩
  assertStart h := ⟨h.busy, h.engine.assertStart, h.seq, h.inited, h.ill_cause, h.mem_wf, h.wbuf_wf, h.rbuf_wf⟩
  assertStop h := ⟨h.busy, h.engine.assertStop, h.seq, h.inited, h.ill_cause, h.mem_wf, h.wbuf_wf, h.rbuf_wf⟩
  loadTx b h := ⟨h.busy, h.engine.loadTx b, h.seq, h.inited, h.ill_cause, h.mem_wf, h.wbuf_wf, h.rbuf_wf⟩
  setAckMode k h := ⟨h.busy, h.engine.setAckMode k, h.seq, h.inited, h.ill_cause, h.mem_wf, h.wbuf_wf, h.rbuf_wf⟩
  readSr2 h := ⟨h.busy, h.engine.readSr2, h.seq, h.inited, h.ill_cause, h.mem_wf, h.wbuf_wf, h.rbuf_wf⟩
  readDr h := ⟨h.busy, h.engine.readDr, h.seq, h.inited, h.ill_cause, h.mem_wf, h.wbuf_wf, h.rbuf_wf⟩
  phase _ h := ⟨h.busy, h.engine, h.seq, h.inited, h.ill_cause, h.mem_wf, h.wbuf_wf, h.rbuf_wf⟩
  seq _ h := ⟨h.busy, h.engine, by simpa using h.seq, h.inited, h.ill_cause, h.mem_wf, h.wbuf_wf, h.rbuf_wf⟩
  err _ h := ⟨h.busy, h.engine, h.seq, h.inited, h.ill_cause, h.mem_wf, h.wbuf_wf, h.rbuf_wf⟩
  retry _ h := ⟨h.busy, h.engine, h.seq, h.inited, h.ill_cause, h.mem_wf, h.wbuf_wf, h.rbuf_wf⟩
  ticks _ h := ⟨h.busy, h.engine, h.seq, h.inited, h.ill_cause, h.mem_wf, h.wbuf_wf, h.rbuf_wf⟩
  result v h := h.result v

/-- `P` and a property of the engine and PHASE alone that an engine step and a sample keep. -/
theorem KeptByWaits.with {P : State → Prop} (h : KeptByWaits P) {E : Engine → Phase → Prop}
    (hE : ∀ {s} (a : Answer), P s → E s.eng s.phase → E (engineStep a s).eng s.phase)
    (hr : ∀ {e p}, E e p → E e.readSr1 p) : KeptByWaits (fun s => P s ∧ E s.eng s.phase) where
  busy hs := h.busy hs.1
  engine a hs := ⟨h.engine a hs.1, by simpa using hE a hs.1 hs.2⟩
  ready hs := ⟨h.ready hs.1, hs.2⟩
  sched x hs := ⟨h.sched x hs.1, hs.2⟩
  draws n hs := ⟨h.draws n hs.1, hs.2⟩
  refused hs := ⟨h.refused hs.1, hs.2⟩
  read off hs := ⟨h.read off hs.1, hs.2⟩
  sampled hs := ⟨h.sampled hs.1, hr hs.2⟩
  spin n hs := ⟨h.spin n hs.1, hs.2⟩

/-- The block after a reset meets the invariant (R52). -/
theorem resetBlock_inv {s : State} (h : Memory.wf s.ee.mem) : (resetBlock s).Inv where
  engine := Engine.reset_inv
  phaseInv := ⟨by simp [resetBlock, State.reset, Engine.reset], by simp [resetBlock, State.reset, Engine.reset],
    by simp [resetBlock, State.reset], by simp [resetBlock, State.reset]⟩
  seq_busy := rfl
  ill_cause := by simp [resetBlock, State.reset]
  uninited := by simp [resetBlock, State.reset, Engine.reset]
  mem_wf := by
    show Memory.wf s.slaveReset.mem
    unfold State.slaveReset
    split
    · split
      · exact h
      · exact h
    · exact h
  wbuf_wf := List.Pairwise.nil
  rbuf_wf := List.Pairwise.nil

theorem mid_resets : Resets State.Mid State.Inv := fun _ h => resetBlock_inv h.mem_wf

/-! ### PHASE and the engine -/

/-- PHASE and the engine agree and no command is cut: what holds between two L1 operations. -/
structure State.Good (s : State) : Prop where
  mid : s.Mid
  phaseInv : s.PhaseInv

/-- What the helpers of L2 leave (R205): PHASE Idle. -/
structure State.GoodIdle (s : State) : Prop where
  good : s.Good
  idle : s.phase = .idle

theorem State.Good.inv {s : State} (h : s.Good) : s.Inv where
  engine := h.mid.engine
  phaseInv := h.phaseInv
  seq_busy := by rw [h.mid.seq, h.mid.busy]
  ill_cause := h.mid.ill_cause
  uninited := by simp [h.mid.inited]
  mem_wf := h.mid.mem_wf
  wbuf_wf := h.mid.wbuf_wf
  rbuf_wf := h.mid.rbuf_wf

/-- An engine step keeps PHASE and the engine in agreement. -/
theorem engineStep_phaseInv (a : Answer) {s : State} (hi : s.eng.Inv) (h : s.PhaseInv) : (engineStep a s).PhaseInv := by
  cases hst : s.eng.stopp with
  | true =>
    have hp := h.stopp_idle hst
    have hnotidle := hi.stopp_open hst
    refine ⟨fun _ => by simpa using hp, fun _ hst' => ?_, by simp [hp], by simp [hp]⟩
    cases hact : s.eng.act <;> simp [engineStep, hact, hst, Engine.afterStart, Engine.afterRstart, Engine.afterTxAddr,
      Engine.afterTxData, Engine.afterRx, Engine.afterStop, Engine.emit, Engine.shiftedOut] at hst' ⊢
    all_goals split at hst' <;> simp_all
  | false =>
    have hst' := engineStep_stopp a hst
    refine ⟨by simp [hst'], fun hp _ => ?_, fun hp => ?_, fun hp => ?_⟩
    · have := h.idle (by simpa using hp) hst
      rw [engineStep_none a this.2 hst]; exact this
    · have := h.addressPhase (by simpa using hp)
      refine ⟨?_, .inl (engineStep_act a s)⟩
      rcases this.2 with h2 | h2
      · rw [engineStep_none a h2 hst]; exact this.1
      · simp [engineStep, h2, Engine.afterRstart]
    · have := h.dataPhase (by simpa using hp)
      rw [engineStep_none a this.1 hst]; exact this

theorem State.PhaseInv.of_eq {s t : State} (h : s.PhaseInv) (he : t.eng = s.eng) (hp : t.phase = s.phase) : t.PhaseInv :=
  ⟨by rw [he, hp]; exact h.stopp_idle, by rw [he, hp]; exact h.idle, by rw [he, hp]; exact h.addressPhase,
    by rw [he, hp]; exact h.dataPhase⟩

/-- STOPP = 1 implies PHASE Idle (R35). -/
theorem State.PhaseInv.stopp_false {s : State} (h : s.PhaseInv) (hp : s.phase ≠ .idle) : s.eng.stopp = false := by
  cases hst : s.eng.stopp with
  | false => rfl
  | true => exact absurd (h.stopp_idle hst) hp

theorem good_kept : KeptByAgents State.Good where
  busy h := h.mid.busy
  engine a h := ⟨mid_kept.engine a h.mid, engineStep_phaseInv a h.mid.engine h.phaseInv⟩
  ready h := ⟨mid_kept.ready h.mid, h.phaseInv.of_eq rfl rfl⟩
  sched x h := ⟨mid_kept.sched x h.mid, h.phaseInv.of_eq rfl rfl⟩
  draws n h := ⟨mid_kept.draws n h.mid, h.phaseInv.of_eq rfl rfl⟩
  refused h := ⟨mid_kept.refused h.mid, h.phaseInv.of_eq rfl rfl⟩
  read off h := ⟨mid_kept.read off h.mid, h.phaseInv.of_eq rfl rfl⟩

/-- `Good` with a known PHASE. -/
theorem goodPhase_kept (p : Phase → Prop) : KeptByAgents (fun s => s.Good ∧ p s.phase) where
  busy h := h.1.mid.busy
  engine a h := ⟨good_kept.engine a h.1, by simpa using h.2⟩
  ready h := ⟨good_kept.ready h.1, h.2⟩
  sched x h := ⟨good_kept.sched x h.1, h.2⟩
  draws n h := ⟨good_kept.draws n h.1, h.2⟩
  refused h := ⟨good_kept.refused h.1, h.2⟩
  read off h := ⟨good_kept.read off h.1, h.2⟩

theorem good_resets {P : State → Prop} (h : ∀ s, P s → s.Mid) : Resets P State.Inv := fun s hs =>
  resetBlock_inv (h s hs).mem_wf

/-! ### The L1 operations -/

/-- Nothing is pending but what an operation has told the engine: STOPP is 0 and stays 0. -/
theorem mid_noStop_kept : KeptByWaits (fun s => s.Mid ∧ s.eng.stopp = false) :=
  mid_kept.toKeptByWaits.with (E := fun e _ => e.stopp = false) (fun a _ h => engineStep_stopp a h)
    (fun h => by unfold Engine.readSr1; split <;> exact h)

/-- The engine's activity is none or `x`, STOPP is 0 and PHASE is `p`. -/
theorem mid_act_kept (x : Activity) (q : Phase) :
    KeptByWaits (fun s => s.Mid ∧ s.eng.stopp = false ∧ (s.eng.act = .none ∨ s.eng.act = x) ∧ s.phase = q) :=
  mid_kept.toKeptByWaits.with (E := fun e p => e.stopp = false ∧ (e.act = .none ∨ e.act = x) ∧ p = q)
    (fun a _ h => ⟨engineStep_stopp a h.1, .inl (engineStep_act a _), h.2.2⟩)
    (fun h => by unfold Engine.readSr1; split <;> exact h)

/-- START keeps PHASE and the engine in agreement (R163, R168). -/
theorem blStart_good {s : State} (h : s.Good) (hst : s.eng.stopp = false) :
    (blStart s).All
      (fun r t => t.Good ∧ t.eng.stopp = false ∧ t.phase = (if r = .success then .addressPhase else .error)) State.Inv := by
  refine (mid_noStop_kept.gap (good_resets fun _ h => h.1) ⟨h.mid, hst⟩).andThen fun _ t ht => ?_
  have hu := mid_noStop_kept.wait (good_resets fun _ h => h.1) (fun f => f.sb) never
    (s := seqAt .waitStart { t with eng := t.eng.assertStart })
    ⟨mid_kept.seq _ (mid_kept.assertStart ht.1), by
      show t.eng.assertStart.stopp = false
      unfold Engine.assertStart
      split
      · exact ht.2
      · split <;> exact ht.2⟩
  refine hu.andThen fun r u hu => ?_
  refine ⟨⟨mid_kept.phase _ hu.1.1, ?_⟩, hu.1.2, rfl⟩
  have hst : u.eng.stopp = false := hu.1.2
  have hi := hu.1.1.engine
  rcases hu.2 with ⟨rfl, hok, -⟩ | ⟨rfl, hbad⟩ | rfl
  · have hsb : u.eng.sb = true := hok
    have hes := hi.sb_state hsb
    refine ⟨by simp [hst], by simp, fun _ => ⟨hes, ?_⟩, by simp⟩
    show u.eng.act = .none ∨ u.eng.act = .rstart
    cases ha : u.eng.act with
    | none => simp
    | start => simp [hi.act_start ha] at hes
    | rstart => simp
    | txAddr => simp [(hi.act_txAddr ha).2] at hsb
    | txData => simp [(hi.act_txData ha).1] at hes
    | rxData => simp [(hi.act_rxData ha).1] at hes
  · simp [never] at hbad
  · exact ⟨by simp [hst], by simp, by simp, by simp⟩

/-- WRADDR keeps PHASE and the engine in agreement (R165, R168). -/
theorem blWriteAddress_good (a : Byte) {s : State} (h : s.Good) (hst : s.eng.stopp = false) :
    (blWriteAddress a s).All
      (fun r t => t.Good ∧ t.eng.stopp = false ∧ BusOutcome r ∧ t.phase = (if r = .success then .dataPhase else .error))
      State.Inv := by
  refine (mid_noStop_kept.gap (good_resets fun _ h => h.1) ⟨h.mid, hst⟩).andThen fun _ t ht => ?_
  have hu := mid_noStop_kept.wait (good_resets fun _ h => h.1) (fun f => f.addr) (fun f => f.af)
    (s := seqAt .waitAddress { t with eng := t.eng.loadTx a })
    ⟨mid_kept.seq _ (mid_kept.loadTx a ht.1), by
      show (t.eng.loadTx a).stopp = false
      unfold Engine.loadTx
      split
      · exact ht.2
      · split <;> exact ht.2⟩
  refine hu.andThen fun r u hu => ?_
  have hst : u.eng.stopp = false := hu.1.2
  have hi := hu.1.1.engine
  have herr : ∀ r : TransferOutcome, r ≠ .success → (settleAddress r u).Good ∧ (settleAddress r u).eng.stopp = false ∧
      (settleAddress r u).phase = .error := by
    intro r hr
    simp only [settleAddress, hr, if_false]
    refine ⟨⟨mid_kept.phase _ hu.1.1, by simp [hst], ?_, ?_, ?_⟩, hst, by simp [hr]⟩ <;> simp [hr]
  rcases hu.2 with ⟨rfl, hok, hseen⟩ | ⟨rfl, -⟩ | rfl
  · have haddr : u.eng.addr = true := hok
    have hes := hi.addr_state.1 haddr
    have hrx : u.eng.rxne = false := by
      cases hr : u.eng.rxne with
      | false => rfl
      | true => simp [hi.rxne_state hr] at hes
    have hact : u.eng.act = .none := by
      cases ha : u.eng.act with
      | none => rfl
      | start => simp [hi.act_start ha] at hes
      | rstart => have := hi.act_rstart ha; simp [hes] at this
      | txAddr => simp [(hi.act_txAddr ha).1] at hes
      | txData => simp [(hi.act_txData ha).1] at hes
      | rxData => simp [(hi.act_rxData ha).1] at hes
    simp only [settleAddress, if_true]
    have hmid := mid_kept.phase .dataPhase (mid_kept.readSr2 hu.1.1)
    have hsr : u.eng.readSr2.stopp = false ∧ u.eng.readSr2.act = .none ∧
        ((u.eng.readSr2.es = .tx ∧ u.eng.readSr2.dir = false) ∨
          (u.eng.readSr2.es = .rx ∧ u.eng.readSr2.dir = true ∧ u.eng.readSr2.rxne = false)) := by
      unfold Engine.readSr2
      simp only [hseen haddr, if_true]
      cases hd : u.eng.dir <;> simp [hst, hact, hrx]
    exact ⟨⟨hmid, by simp [hsr.1], by simp, by simp, fun _ => hsr.2⟩, hsr.1, busOutcome_success, by simp [setPhase]⟩
  · obtain ⟨h1, h2, h3⟩ := herr .noAcknowledge (by simp)
    exact ⟨h1, h2, busOutcome_noAcknowledge, by simpa using h3⟩
  · obtain ⟨h1, h2, h3⟩ := herr .timeout (by simp)
    exact ⟨h1, h2, busOutcome_timeout, by simpa using h3⟩

/-- PHASE Error with no STOP pending agrees with every engine state. -/
theorem failToError_good {s : State} (h : s.Mid) (hst : s.eng.stopp = false) {r : TransferOutcome} (hr : r ≠ .success) :
    (failToError r s).Good := by
  refine ⟨mid_kept.phase _ h, ?_, ?_, ?_, ?_⟩ <;> simp [hst, hr]

/-- WRBYTE keeps PHASE and the engine in agreement (R166, R168). -/
theorem blWriteByte_good (d : Byte) {s : State} (h : s.Good) (hp : s.phase = .dataPhase) :
    (blWriteByte d s).All
      (fun r t => t.Good ∧ t.eng.stopp = false ∧ BusOutcome r ∧ t.phase = (if r = .success then .dataPhase else .error))
      State.Inv := by
  refine ((goodPhase_kept (· = .dataPhase)).gap (good_resets fun _ h => h.1.mid) ⟨h, hp⟩).andThen fun _ t ht => ?_
  obtain ⟨hg, hp⟩ := ht
  have hst := hg.phaseInv.stopp_false (by simp [hp])
  obtain ⟨hact, hes⟩ := hg.phaseInv.dataPhase hp
  have hl : (t.eng.loadTx d).stopp = false ∧ ((t.eng.loadTx d).act = .none ∨ (t.eng.loadTx d).act = .txData) := by
    unfold Engine.loadTx
    split
    · rename_i hc
      rcases hes with h1 | h1 <;> simp [h1.1] at hc
    · split
      · exact ⟨hst, .inr rfl⟩
      · exact ⟨hst, .inl hact⟩
  refine ((mid_act_kept .txData .dataPhase).wait (good_resets fun _ h => h.1) (fun f => f.txe) (fun f => f.af)
    (s := seqAt .waitTransmit { t with eng := t.eng.loadTx d })
    ⟨mid_kept.seq _ (mid_kept.loadTx d hg.mid), hl.1, hl.2, hp⟩).andThen fun r u hu => ?_
  obtain ⟨⟨hm, hst, hact, hp⟩, hw⟩ := hu
  rcases hw with ⟨rfl, hok, -⟩ | ⟨rfl, -⟩ | rfl
  · have htxe : u.eng.txe = true := hok
    have hes := hm.engine.txe_state htxe
    have hact : u.eng.act = .none := hact.resolve_right fun h => by simp [(hm.engine.act_txData h).2] at htxe
    have : failToError .success u = u := by simp [failToError]
    rw [this]
    exact ⟨⟨hm, by simp [hst], by simp [hp], by simp [hp], fun _ => ⟨hact, .inl ⟨hes, hm.engine.tx_dir hes⟩⟩⟩, hst,
      busOutcome_success, by simp [hp]⟩
  · exact ⟨failToError_good hm hst (by simp), hst, busOutcome_noAcknowledge, by simp⟩
  · exact ⟨failToError_good hm hst (by simp), hst, busOutcome_timeout, by simp⟩

/-- RDBYTE keeps PHASE and the engine in agreement (R167, R168). -/
theorem blReadByte_good (k : Bool) {s : State} (h : s.Good) (hp : s.phase = .dataPhase) :
    (blReadByte k s).All
      (fun r t => t.Good ∧ t.eng.stopp = false ∧ BusOutcome r ∧ t.phase = (if r = .success then .dataPhase else .error))
      State.Inv := by
  refine ((goodPhase_kept (· = .dataPhase)).gap (good_resets fun _ h => h.1.mid) ⟨h, hp⟩).andThen fun _ t ht => ?_
  obtain ⟨hg, hp⟩ := ht
  have hst := hg.phaseInv.stopp_false (by simp [hp])
  obtain ⟨hact, hes⟩ := hg.phaseInv.dataPhase hp
  have hl : (t.eng.setAckMode k).stopp = false ∧
      ((t.eng.setAckMode k).act = .none ∨ (t.eng.setAckMode k).act = .rxData) := by
    unfold Engine.setAckMode
    split
    · exact ⟨hst, .inr rfl⟩
    · exact ⟨hst, .inl hact⟩
  refine ((mid_act_kept .rxData .dataPhase).wait (good_resets fun _ h => h.1) (fun f => f.rxne) never
    (s := seqAt .waitReceive { t with eng := t.eng.setAckMode k })
    ⟨mid_kept.seq _ (mid_kept.setAckMode k hg.mid), hl.1, hl.2, hp⟩).andThen fun r u hu => ?_
  obtain ⟨⟨hm, hst, hact, hp⟩, hw⟩ := hu
  rcases hw with ⟨rfl, hok, -⟩ | ⟨rfl, hbad⟩ | rfl
  · have hrx : u.eng.rxne = true := hok
    have hes := hm.engine.rxne_state hrx
    have hact : u.eng.act = .none := hact.resolve_right fun h => by simp [(hm.engine.act_rxData h).2] at hrx
    simp only [takeResult, if_true]
    exact ⟨⟨(mid_kept.readDr hm).result _, by simp [Engine.readDr, hst], by simp [hp], by simp [hp],
      fun _ => ⟨hact, .inr ⟨hes, hm.engine.rx_dir hes, rfl⟩⟩⟩, hst, busOutcome_success, by simp [hp]⟩
  · simp [never] at hbad
  · exact ⟨failToError_good hm hst (by simp), hst, busOutcome_timeout, by simp [takeResult]⟩

/-- STOP leaves PHASE Idle, and the engine idle or a STOP pending (R164, R168). -/
theorem blStop_good {s : State} (h : s.Mid) :
    (blStop s).All (fun r t => t.GoodIdle ∧ r = .success) State.Inv := by
  refine (mid_kept.gap (good_resets fun _ h => h) h).andThen fun _ t ht => ?_
  refine ⟨⟨⟨mid_kept.phase .idle (mid_kept.assertStop ht), fun _ => rfl, fun _ hst => ?_, by simp, by simp⟩, rfl⟩, rfl⟩
  revert hst
  show t.eng.assertStop.stopp = false → t.eng.assertStop.es = .idle ∧ t.eng.assertStop.act = .none
  unfold Engine.assertStop
  split
  · rename_i hc; exact fun _ => hc
  · split
    · rename_i hc; exact fun _ => ⟨hc.1, rfl⟩
    · simp

theorem goodIdle_kept : KeptByWaits State.GoodIdle where
  busy h := h.good.mid.busy
  engine a h := ⟨good_kept.engine a h.good, by simpa using h.idle⟩
  ready h := ⟨good_kept.ready h.good, h.idle⟩
  sched x h := ⟨good_kept.sched x h.good, h.idle⟩
  draws n h := ⟨good_kept.draws n h.good, h.idle⟩
  refused h := ⟨good_kept.refused h.good, h.idle⟩
  read off h := ⟨good_kept.read off h.good, h.idle⟩
  sampled {s} h := by
    refine ⟨⟨mid_kept.sampled h.good.mid, fun _ => h.idle, ?_, by simp [h.idle], by simp [h.idle]⟩, h.idle⟩
    have := h.good.phaseInv.idle h.idle
    show _ → s.eng.readSr1.stopp = false → s.eng.readSr1.es = .idle ∧ s.eng.readSr1.act = .none
    unfold Engine.readSr1
    split <;> exact fun _ => this
  spin n h := ⟨⟨mid_kept.spin n h.good.mid, h.good.phaseInv.of_eq rfl rfl⟩, h.idle⟩

/-- `GoodIdle` is about the engine, PHASE and the fields `Mid` names, so writing a working register keeps it. -/
theorem State.GoodIdle.of_eq {s t : State} (h : s.GoodIdle) (hm : t.Mid) (he : t.eng = s.eng) (hp : t.phase = s.phase) :
    t.GoodIdle := ⟨⟨hm, h.good.phaseInv.of_eq he hp⟩, hp.trans h.idle⟩

/-! ### The helpers and bodies of L2 -/

/-- What a body of L2 leaves: PHASE Idle, an outcome of the bus, and after Success no STOP pending. -/
abbrev LeavesIdle (r : TransferOutcome) (t : State) : Prop :=
  t.GoodIdle ∧ BusOutcome r ∧ (r = .success → t.eng.stopp = false)

/-- A stop and its wait leave PHASE Idle; on Success no STOP is pending (R190). -/
theorem stopWait_good {s : State} (h : s.Mid) :
    (stopWait s).All LeavesIdle State.Inv := by
  refine (blStop_good h).andThen fun _ t ht => ?_
  have hs : (seqAt .waitStop t).GoodIdle := ht.1.of_eq (mid_kept.seq _ ht.1.good.mid) rfl rfl
  refine (goodIdle_kept.wait (good_resets fun _ h => h.good.mid) _ _ hs).mono (fun r u hu => ⟨hu.1, hu.2.outcome, ?_⟩)
    fun _ h => h
  rintro rfl
  rcases hu.2 with ⟨-, hok, -⟩ | ⟨h, -⟩ | h
  · simpa [Engine.sample] using hok
  · simp at h
  · simp at h

/-- The abort path leaves PHASE Idle (R190, R205). -/
theorem abort_good (e : TransferOutcome) {s : State} (h : s.Mid) :
    (abort e s).All (fun r t => t.GoodIdle ∧ r = e) State.Inv :=
  (stopWait_good (mid_kept.err e h)).andThen fun _ _ ht => ⟨ht.1, rfl⟩

/-- An L1 operation of a sequence, its abort path, and what follows it. -/
theorem orAbort_good {E : TransferOutcome → State → Prop} {r : Ran TransferOutcome} {k : State → Ran TransferOutcome}
    (hr : r.All E State.Inv) (hE : ∀ e t, E e t → t.Mid ∧ BusOutcome e)
    (hk : ∀ t, E .success t → (k t).All LeavesIdle State.Inv) : (r.orFail abort k).All LeavesIdle State.Inv :=
  hr.orFail
    (fun e _ ht hne => (abort_good e (hE e _ ht).1).mono
      (fun _ _ hu => ⟨hu.1, hu.2 ▸ (hE e _ ht).2, fun hs => absurd (hu.2 ▸ hs) hne⟩) fun _ h => h) hk

/-- What follows an address phase is run in DataPhase. -/
abbrev FromDataPhase (k : State → Ran TransferOutcome) : Prop :=
  ∀ t : State, t.Good → t.phase = .dataPhase → (k t).All LeavesIdle State.Inv

theorem start_orAbort {k : State → Ran TransferOutcome} {s : State} (h : s.Good) (hst : s.eng.stopp = false)
    (hk : ∀ t : State, t.Good → t.eng.stopp = false → t.phase = .addressPhase → (k t).All LeavesIdle State.Inv) :
    ((blStart s).orFail abort k).All LeavesIdle State.Inv := by
  have hout := mid_kept.blStart (good_resets fun _ h => h) h.mid
  have hgood := blStart_good h hst
  revert hout hgood
  cases blStart s with
  | cut t => exact fun _ h => h
  | done r t =>
    intro hout hgood
    exact orAbort_good (E := fun r t => t.Mid ∧ BusOutcome r ∧ (r = .success → t.Good ∧ t.eng.stopp = false ∧
      t.phase = .addressPhase)) (r := .done r t)
      ⟨hout.1, hout.2.outcome, fun hr => by subst hr; exact ⟨hgood.1, hgood.2.1, by simpa using hgood.2.2⟩⟩
      (fun _ _ h => ⟨h.1, h.2.1⟩) fun t h => hk t (h.2.2 rfl).1 (h.2.2 rfl).2.1 (h.2.2 rfl).2.2

theorem address_orAbort {k : State → Ran TransferOutcome} (hk : FromDataPhase k) (a : Byte) {s : State} (h : s.Good)
    (hst : s.eng.stopp = false) : ((blWriteAddress a s).orFail abort k).All LeavesIdle State.Inv :=
  orAbort_good (blWriteAddress_good a h hst) (fun _ _ h => ⟨h.1.mid, h.2.2.1⟩) fun t h => hk t h.1 (by simpa using h.2.2.2)

theorem byte_orAbort {k : State → Ran TransferOutcome} (hk : FromDataPhase k) (d : Byte) {s : State} (h : s.Good)
    (hp : s.phase = .dataPhase) : ((blWriteByte d s).orFail abort k).All LeavesIdle State.Inv :=
  orAbort_good (blWriteByte_good d h hp) (fun _ _ h => ⟨h.1.mid, h.2.2.1⟩) fun t h => hk t h.1 (by simpa using h.2.2.2)

theorem read_orAbort {k : State → Ran TransferOutcome} (hk : FromDataPhase k) (b : Bool) {s : State} (h : s.Good)
    (hp : s.phase = .dataPhase) : ((blReadByte b s).orFail abort k).All LeavesIdle State.Inv :=
  orAbort_good (blReadByte_good b h hp) (fun _ _ h => ⟨h.1.mid, h.2.2.1⟩) fun t h => hk t h.1 (by simpa using h.2.2.2)

theorem stopWait_leaves : FromDataPhase stopWait := fun _ h _ => stopWait_good h.mid

/-- What follows a write address phase may rely on DataPhase. -/
theorem addrPhaseThen_good (a : MemAddr) {k : State → Ran TransferOutcome} (hk : FromDataPhase k) {s : State}
    (h : s.GoodIdle) (hst : s.eng.stopp = false) : (addrPhaseThen a k s).All LeavesIdle State.Inv :=
  start_orAbort h.good hst fun _ h hst _ =>
    address_orAbort (fun _ h hp => byte_orAbort (fun _ h hp => byte_orAbort hk _ h hp) _ h hp) _ h hst

theorem turnToRead_good {k : State → Ran TransferOutcome} (hk : FromDataPhase k) : FromDataPhase (turnToRead k) :=
  fun _ h hp => start_orAbort h (h.phaseInv.stopp_false (by simp [hp])) fun _ h hst _ => address_orAbort hk _ h hst

theorem pmProbe_good {s : State} (h : s.GoodIdle) (hst : s.eng.stopp = false) :
    (pmProbe s).All LeavesIdle State.Inv :=
  start_orAbort h.good hst fun _ h hst _ => address_orAbort stopWait_leaves _ h hst

theorem pmReadByte_good (a : MemAddr) {s : State} (h : s.GoodIdle) (hst : s.eng.stopp = false) :
    (pmReadByte a s).All (fun _ t => t.GoodIdle) State.Inv := by
  unfold pmReadByte
  split
  · exact h
  · exact (addrPhaseThen_good a (turnToRead_good fun _ h hp => read_orAbort stopWait_leaves false h hp) h hst).mono
      (fun _ _ h => h.1) fun _ h => h

theorem readyLoop_good (n : Nat) : ∀ {s : State}, s.GoodIdle → s.eng.stopp = false →
    (readyLoop n s).All LeavesIdle State.Inv := by
  induction n with
  | zero => intro s h _; exact ⟨h, busOutcome_timeout, by simp⟩
  | succ n ih =>
    intro s h hst
    refine (pmProbe_good h hst).andThen fun r t ht => ?_
    have hu : State.GoodIdle { t with retry := t.retry + 1 } := ht.1.of_eq (mid_kept.retry _ ht.1.good.mid) rfl rfl
    simp only
    split
    · refine (goodIdle_kept.toKeptByAgents.gap (Q := State.Inv) (good_resets fun _ h => h.good.mid) hu).andThen fun _ v hv => ?_
      split
      · exact ⟨hv, busOutcome_timeout, by simp⟩
      · rename_i hst
        have hk : KeptByAgents (fun s => s.GoodIdle ∧ s.eng.stopp = false) := by
          have := goodIdle_kept.with (E := fun e _ => e.stopp = false) (fun a _ h => engineStep_stopp a h)
            (fun h => by unfold Engine.readSr1; split <;> exact h)
          exact this.toKeptByAgents
        refine (hk.delayLoop (Q := State.Inv) (good_resets fun _ h => h.1.good.mid) (fun _ h => h.1.good.inv)
          (fun n h => ⟨h.1.of_eq (mid_kept.ticks n h.1.good.mid) rfl rfl, h.2⟩) _ ⟨?_, ?_⟩).andThen
          fun _ x hx => ih hx.1 hx.2
        · exact hv.of_eq (mid_kept.ticks _ (mid_kept.seq _ hv.good.mid)) rfl rfl
        · simpa using hst
    · exact ⟨hu, ht.2⟩

theorem readyWait_good {s : State} (h : s.GoodIdle) (hst : s.eng.stopp = false) :
    (readyWait s).All LeavesIdle State.Inv :=
  readyLoop_good _ (h.of_eq (mid_kept.retry _ h.good.mid) rfl rfl) hst

/-- A stop that completes, then what follows it with the bus free. -/
theorem stop_then {k : State → Ran TransferOutcome}
    (hk : ∀ t : State, t.GoodIdle → t.eng.stopp = false → (k t).All LeavesIdle State.Inv) :
    FromDataPhase (fun s => (stopWait s).orFail giveBack k) := fun _ h _ =>
  (stopWait_good h.mid).orFail (fun _ _ h _ => h) fun t h => hk t h.1 (h.2.2 rfl)

theorem pmWriteByte_good (a : MemAddr) (d : Byte) {s : State} (h : s.GoodIdle) (hst : s.eng.stopp = false) :
    (pmWriteByte a d s).All (fun _ t => t.GoodIdle) State.Inv := by
  unfold pmWriteByte
  split
  · exact h
  · exact (addrPhaseThen_good a (fun _ h hp => byte_orAbort (stop_then fun _ h hst => readyWait_good h hst) d h hp) h
      hst).mono (fun _ _ h => h.1) fun _ h => h

theorem storeReceived_good (i : Nat) {s : State} (h : s.Good) : (storeReceived i s).Good :=
  ⟨⟨h.mid.busy, h.mid.engine, h.mid.seq, h.mid.inited, h.mid.ill_cause, h.mid.mem_wf, h.mid.wbuf_wf,
    Memory.write_wf _ _ _ h.mid.rbuf_wf⟩, h.phaseInv.of_eq rfl rfl⟩

theorem receiveLoop_good (n : Nat) : ∀ i, FromDataPhase (receiveLoop n i) := by
  induction n with
  | zero => exact fun _ => stopWait_leaves
  | succ n ih =>
    exact fun i t h hp => read_orAbort (fun u hu hp => ih (i + 1) _ (storeReceived_good i hu) hp) _ h hp

/-- DONE, CUR, IDX and CHUNK are no part of what holds at every moment. -/
theorem State.Mid.counters {s : State} (h : s.Mid) (a b c d : Count) :
    State.Mid { s with doneCount := a, cur := b, idx := c, chunk := d } :=
  ⟨h.busy, h.engine, h.seq, h.inited, h.ill_cause, h.mem_wf, h.wbuf_wf, h.rbuf_wf⟩

theorem pmReadBytes_good (a : MemAddr) {s : State} (h : s.GoodIdle) (hst : s.eng.stopp = false) :
    (pmReadBytes a s).All (fun _ t => t.GoodIdle) State.Inv := by
  have h0 : State.GoodIdle { s with doneCount := 0 } := h.of_eq (h.good.mid.counters _ _ _ _) rfl rfl
  unfold pmReadBytes
  simp only
  split
  · exact h0
  · split
    · exact h0
    · exact (addrPhaseThen_good a (turnToRead_good (receiveLoop_good _ 0))
        (h0.of_eq (h.good.mid.counters 0 s.cur 0 s.chunk) rfl rfl) hst).mono (fun _ _ h => h.1) fun _ h => h

theorem sendLoop_good {k : State → Ran TransferOutcome} (hk : FromDataPhase k) (n : Nat) :
    ∀ i, FromDataPhase (sendLoop k n i) := by
  induction n with
  | zero => exact fun _ => hk
  | succ n ih => exact fun i t h hp => byte_orAbort (fun u hu hp => ih (i + 1) u hu hp) _ h hp

/-- A stop and a ready wait that succeed leave the bus free for the next chunk. -/
theorem readyWait_free {k : State → Ran TransferOutcome}
    (hk : ∀ t : State, t.GoodIdle → t.eng.stopp = false → (k t).All LeavesIdle State.Inv) {s : State} (h : s.GoodIdle)
    (hst : s.eng.stopp = false) : ((readyWait s).orFail giveBack k).All LeavesIdle State.Inv :=
  (readyWait_good h hst).orFail (fun _ _ h _ => h) fun t h => hk t h.1 (h.2.2 rfl)

theorem chunkLoop_good (cs : List (Nat × Nat)) : ∀ (i : Nat) {s : State}, s.GoodIdle → s.eng.stopp = false →
    (chunkLoop cs i s).All LeavesIdle State.Inv := by
  induction cs with
  | nil => intro i s h hst; exact ⟨h, busOutcome_success, fun _ => hst⟩
  | cons c cs ih =>
    obtain ⟨c, m⟩ := c
    intro i s h hst
    refine addrPhaseThen_good _ (sendLoop_good (stop_then fun _ h hst => readyWait_free (fun t h hst => ?_) h hst) m i)
      (h.of_eq (h.good.mid.counters _ _ _ _) rfl rfl) hst
    exact ih _ (h.of_eq (h.good.mid.counters _ _ _ _) rfl rfl) hst

theorem pmWriteBytes_good (a : MemAddr) {s : State} (h : s.GoodIdle) (hst : s.eng.stopp = false) :
    (pmWriteBytes a s).All (fun _ t => t.GoodIdle) State.Inv := by
  have h0 : State.GoodIdle { s with doneCount := 0 } := h.of_eq (h.good.mid.counters _ _ _ _) rfl rfl
  unfold pmWriteBytes
  simp only
  split
  · exact h0
  · split
    · exact h0
    · exact (chunkLoop_good _ 0 (h0.of_eq (h.good.mid.counters 0 (a.setWidth 17) 0 s.chunk) rfl rfl) hst).mono (fun _ _ h => h.1) fun _ h => h

end Sys2Proof.Machine
end

