-- ==== Sys2Proof/Laws/Frames.lean ====
section
/-!
SUPPORT. What commands leave alone: the fields that no agent's move and no write of a command's body touches,
    in any schedule.
-/

namespace Sys2Proof.Machine

/-! ### Properties together -/

theorem KeptByAgents.and {P P' : State → Prop} (h : KeptByAgents P) (h' : KeptByAgents P') :
    KeptByAgents (fun s => P s ∧ P' s) where
  busy hs := h.busy hs.1
  engine a hs := ⟨h.engine a hs.1, h'.engine a hs.2⟩
  ready hs := ⟨h.ready hs.1, h'.ready hs.2⟩
  sched x hs := ⟨h.sched x hs.1, h'.sched x hs.2⟩
  draws n hs := ⟨h.draws n hs.1, h'.draws n hs.2⟩
  refused hs := ⟨h.refused hs.1, h'.refused hs.2⟩
  read off hs := ⟨h.read off hs.1, h'.read off hs.2⟩

theorem KeptBySend.and {P P' : State → Prop} (h : KeptBySend P) (h' : KeptBySend P') :
    KeptBySend (fun s => P s ∧ P' s) where
  toKeptByAgents := h.toKeptByAgents.and h'.toKeptByAgents
  sampled hs := ⟨h.sampled hs.1, h'.sampled hs.2⟩
  spin n hs := ⟨h.spin n hs.1, h'.spin n hs.2⟩
  assertStart hs := ⟨h.assertStart hs.1, h'.assertStart hs.2⟩
  assertStop hs := ⟨h.assertStop hs.1, h'.assertStop hs.2⟩
  loadTx b hs := ⟨h.loadTx b hs.1, h'.loadTx b hs.2⟩
  readSr2 hs := ⟨h.readSr2 hs.1, h'.readSr2 hs.2⟩
  phase p hs := ⟨h.phase p hs.1, h'.phase p hs.2⟩
  seq p hs := ⟨h.seq p hs.1, h'.seq p hs.2⟩

theorem KeptByAbort.and {P P' : State → Prop} (h : KeptByAbort P) (h' : KeptByAbort P') :
    KeptByAbort (fun s => P s ∧ P' s) where
  toKeptBySend := h.toKeptBySend.and h'.toKeptBySend
  err e hs := ⟨h.err e hs.1, h'.err e hs.2⟩

theorem KeptByPaged.and {P P' : State → Prop} (h : KeptByPaged P) (h' : KeptByPaged P') :
    KeptByPaged (fun s => P s ∧ P' s) where
  toKeptByAbort := h.toKeptByAbort.and h'.toKeptByAbort
  retry n hs := ⟨h.retry n hs.1, h'.retry n hs.2⟩
  ticks n hs := ⟨h.ticks n hs.1, h'.ticks n hs.2⟩

theorem KeptByReceives.and {P P' : State → Prop} (h : KeptByReceives P) (h' : KeptByReceives P') :
    KeptByReceives (fun s => P s ∧ P' s) where
  toKeptBySend := h.toKeptBySend.and h'.toKeptBySend
  setAckMode k hs := ⟨h.setAckMode k hs.1, h'.setAckMode k hs.2⟩
  readDr hs := ⟨h.readDr hs.1, h'.readDr hs.2⟩
  result v hs := ⟨h.result v hs.1, h'.result v hs.2⟩

theorem KeptByTransfers.and {P P' : State → Prop} (h : KeptByTransfers P) (h' : KeptByTransfers P') :
    KeptByTransfers (fun s => P s ∧ P' s) where
  toKeptByAbort := h.toKeptByAbort.and h'.toKeptByAbort
  setAckMode k hs := ⟨h.setAckMode k hs.1, h'.setAckMode k hs.2⟩
  readDr hs := ⟨h.readDr hs.1, h'.readDr hs.2⟩
  result v hs := ⟨h.result v hs.1, h'.result v hs.2⟩

theorem KeptByReads.and {P P' : State → Prop} (h : KeptByReads P) (h' : KeptByReads P') :
    KeptByReads (fun s => P s ∧ P' s) where
  toKeptByPaged := h.toKeptByPaged.and h'.toKeptByPaged
  setAckMode k hs := ⟨h.setAckMode k hs.1, h'.setAckMode k hs.2⟩
  readDr hs := ⟨h.readDr hs.1, h'.readDr hs.2⟩
  result v hs := ⟨h.result v hs.1, h'.result v hs.2⟩

/-! ### Fields nothing writes -/

/-- `f` reads nothing that the other agents, START, STOP, WRADDR or WRBYTE write. -/
def Untouched {α : Type} (f : State → α) : Prop :=
  ∀ (s : State) (eng : Engine) (ee : Eeprom) (draws : Nat) (sched : Sched) (ill : Bool) (illcause : IllCause) (rdata : Word)
    (spin : Nat) (phase : Phase) (seq : Option Seq),
    f { s with
      eng := eng, ee := ee, draws := draws, sched := sched, ill := ill, illcause := illcause, rdata := rdata, spin := spin
      phase := phase, seq := seq } = f s

variable {α : Type} {f : State → α}

/-- A field nothing writes keeps its value through START, STOP, WRADDR and WRBYTE. -/
theorem Untouched.kept_send (h : Untouched f) (v : α) : KeptBySend (fun t => t.busy = true ∧ f t = v) where
  busy hs := hs.1
  engine {s} a hs := by
    refine ⟨by simpa using hs.1, ?_⟩
    rw [engineStep_eq]
    exact (h s _ _ _ s.sched s.ill s.illcause s.rdata s.spin s.phase s.seq).trans hs.2
  ready {s} hs := ⟨hs.1, (h s s.eng _ s.draws s.sched s.ill s.illcause s.rdata s.spin s.phase s.seq).trans hs.2⟩
  sched {s} x hs := ⟨hs.1, (h s s.eng s.ee s.draws x s.ill s.illcause s.rdata s.spin s.phase s.seq).trans hs.2⟩
  draws {s} n hs := ⟨hs.1, (h s s.eng s.ee n s.sched s.ill s.illcause s.rdata s.spin s.phase s.seq).trans hs.2⟩
  refused {s} hs := ⟨hs.1, (h s s.eng s.ee s.draws s.sched true .busy s.rdata s.spin s.phase s.seq).trans hs.2⟩
  read {s} off hs :=
    ⟨hs.1, (h s s.eng s.ee s.draws s.sched s.ill s.illcause (regRead s off) s.spin s.phase s.seq).trans hs.2⟩
  sampled {s} hs := ⟨hs.1, (h s _ s.ee s.draws s.sched s.ill s.illcause s.rdata s.spin s.phase s.seq).trans hs.2⟩
  spin {s} n hs := ⟨hs.1, (h s s.eng s.ee s.draws s.sched s.ill s.illcause s.rdata n s.phase s.seq).trans hs.2⟩
  assertStart {s} hs := ⟨hs.1, (h s _ s.ee s.draws s.sched s.ill s.illcause s.rdata s.spin s.phase s.seq).trans hs.2⟩
  assertStop {s} hs := ⟨hs.1, (h s _ s.ee s.draws s.sched s.ill s.illcause s.rdata s.spin s.phase s.seq).trans hs.2⟩
  loadTx {s} b hs := ⟨hs.1, (h s _ s.ee s.draws s.sched s.ill s.illcause s.rdata s.spin s.phase s.seq).trans hs.2⟩
  readSr2 {s} hs := ⟨hs.1, (h s _ s.ee s.draws s.sched s.ill s.illcause s.rdata s.spin s.phase s.seq).trans hs.2⟩
  phase {s} p hs := ⟨hs.1, (h s s.eng s.ee s.draws s.sched s.ill s.illcause s.rdata s.spin p s.seq).trans hs.2⟩
  seq {s} p hs := ⟨hs.1, (h s s.eng s.ee s.draws s.sched s.ill s.illcause s.rdata s.spin s.phase _).trans hs.2⟩

/-- And through PROBE, when it does not read ERR. -/
theorem Untouched.kept_abort (h : Untouched f) (he : ∀ s e, f { s with err := e } = f s) (v : α) :
    KeptByAbort (fun t => t.busy = true ∧ f t = v) where
  toKeptBySend := h.kept_send v
  err {s} e hs := ⟨hs.1, (he s e).trans hs.2⟩

/-- And through MWR1 and WAITRDY, when it does not read RETRY and TICKS. -/
theorem Untouched.kept_paged (h : Untouched f)
    (he : ∀ s e n m, f { s with err := e, retry := n, ticks := m } = f s) (v : α) :
    KeptByPaged (fun t => t.busy = true ∧ f t = v) where
  toKeptByAbort := h.kept_abort (fun s e => he s e s.retry s.ticks) v
  retry {s} n hs := ⟨hs.1, (he s s.err n s.ticks).trans hs.2⟩
  ticks {s} n hs := ⟨hs.1, (he s s.err s.retry n).trans hs.2⟩

/-- And through RDBYTE, when it does not read RESULT. -/
theorem Untouched.kept_receives (h : Untouched f) (he : ∀ s x, f { s with result := x } = f s) (v : α) :
    KeptByReceives (fun t => t.busy = true ∧ f t = v) where
  toKeptBySend := h.kept_send v
  setAckMode {s} k hs :=
    ⟨hs.1, (h s (s.eng.setAckMode k) s.ee s.draws s.sched s.ill s.illcause s.rdata s.spin s.phase s.seq).trans hs.2⟩
  readDr {s} hs := ⟨hs.1, (h s _ s.ee s.draws s.sched s.ill s.illcause s.rdata s.spin s.phase s.seq).trans hs.2⟩
  result {s} x hs := ⟨hs.1, (he s x).trans hs.2⟩

/-- And through MRD1 and MRDN, when it does not read ERR and RESULT. -/
theorem Untouched.kept_transfers (h : Untouched f) (he : ∀ s e x, f { s with err := e, result := x } = f s) (v : α) :
    KeptByTransfers (fun t => t.busy = true ∧ f t = v) where
  toKeptByAbort := h.kept_abort (fun s e => he s e s.result) v
  setAckMode k hs := (h.kept_receives (fun s x => he s s.err x) v).setAckMode k hs
  readDr hs := (h.kept_receives (fun s x => he s s.err x) v).readDr hs
  result x hs := (h.kept_receives (fun s x => he s s.err x) v).result x hs

/-- And through every command's body, when it reads none of these. -/
theorem Untouched.kept_reads (h : Untouched f)
    (he : ∀ s e n m x, f { s with err := e, retry := n, ticks := m, result := x } = f s) (v : α) :
    KeptByReads (fun t => t.busy = true ∧ f t = v) where
  toKeptByPaged := h.kept_paged (fun s e n m => he s e n m s.result) v
  setAckMode k hs := (h.kept_receives (fun s x => he s s.err s.retry s.ticks x) v).setAckMode k hs
  readDr hs := (h.kept_receives (fun s x => he s s.err s.retry s.ticks x) v).readDr hs
  result x hs := (h.kept_receives (fun s x => he s s.err s.retry s.ticks x) v).result x hs

/-! ### ACKEN -/

@[simp] theorem engineStep_acken (a : Answer) (s : State) : (engineStep a s).eng.acken = s.eng.acken := by
  unfold engineStep
  cases s.eng.act <;>
    simp [Engine.afterStart, Engine.afterRstart, Engine.afterTxAddr, Engine.afterTxData, Engine.afterRx, Engine.afterStop,
      Engine.emit, Engine.shiftedOut]
  all_goals split <;> simp

@[simp] theorem assertStart_acken (e : Engine) : e.assertStart.acken = e.acken := by
  unfold Engine.assertStart; split <;> [rfl; split <;> rfl]

@[simp] theorem assertStop_acken (e : Engine) : e.assertStop.acken = e.acken := by
  unfold Engine.assertStop; split <;> [rfl; split <;> rfl]

@[simp] theorem loadTx_acken (b : Byte) (e : Engine) : (e.loadTx b).acken = e.acken := by
  unfold Engine.loadTx; split <;> [rfl; split <;> rfl]

@[simp] theorem readSr1_acken (e : Engine) : e.readSr1.acken = e.acken := by unfold Engine.readSr1; split <;> rfl

@[simp] theorem readSr2_acken (e : Engine) : e.readSr2.acken = e.acken := by
  unfold Engine.readSr2; split <;> [split <;> rfl; rfl]

/-- Only `set_ack_mode` writes ACKEN (R37, R143). -/
theorem acken_kept (k : Bool) : KeptByPaged (fun t => t.busy = true ∧ t.eng.acken = k) where
  busy h := h.1
  engine a h := by simpa using h
  ready h := h
  sched _ h := h
  draws _ h := h
  refused h := h
  read _ h := h
  sampled h := by simpa [readSr1] using h
  spin _ h := h
  assertStart h := by simpa using h
  assertStop h := by simpa using h
  loadTx _ h := by simpa using h
  readSr2 h := by simpa using h
  phase _ h := h
  seq _ h := h
  err _ h := h
  retry _ h := h
  ticks _ h := h

end Sys2Proof.Machine
end

