-- ==== Sys2Proof/Laws/Commands.lean ====
section
/-!
SUPPORT. The invariant through a whole command and through every move of the host and the environment,
    and PHASE after every body.
-/

namespace Sys2Proof.Machine

/-- A refusal keeps the invariant (R97). -/
theorem refuse_inv {s : State} (h : s.Inv) {c : IllCause} (hc : c ≠ .none) : (refuse c s).Inv where
  engine := h.engine
  phaseInv := h.phaseInv.of_eq rfl rfl
  seq_busy := h.seq_busy
  ill_cause := by simp [hc]
  uninited := h.uninited
  mem_wf := h.mem_wf
  wbuf_wf := h.wbuf_wf
  rbuf_wf := h.rbuf_wf

/-- A refusal has a cause (R103). -/
theorem refusal_ne {i : Instr} {s : State} {c : IllCause} (h : refusalCause i s = some c) : c ≠ .none := by
  unfold refusalCause at h
  split at h; (injection h with h; subst h; simp)
  split at h; (injection h with h; subst h; simp)
  split at h; (injection h with h; subst h; simp)
  split at h; (injection h with h; subst h; simp)
  split at h; (injection h with h; subst h; simp)
  simp at h

/-- What an accepted command was checked for (R97). -/
theorem accepted {i : Instr} {s : State} (h : refusalCause i s = none) :
    s.busy = false ∧ s.inited = !isInit i ∧ phaseAllows i s = true ∧ (reusesBus i s = true → s.eng.stopp = false) := by
  unfold refusalCause at h
  cases hb : s.busy <;> cases hi : s.inited <;> cases hii : isInit i <;> cases hp : phaseAllows i s <;> cases hst :
      s.eng.stopp <;>
   cases hr : reusesBus i s <;> simp_all

/-- An accepted MRDN or MWRN fits the buffer (R97). -/
theorem accepted_len {i : Instr} {s : State} (h : refusalCause i s = none) : lenTooLong i s = false := by
  unfold refusalCause at h
  split at h; (simp at h)
  split at h; (simp at h)
  split at h; (simp at h)
  split at h; (simp at h)
  split at h; (simp at h)
  simp_all

/-- Acceptance of a command other than INIT. -/
theorem accept_mid {s : State} {i : Instr} (h : s.Inv) (hi : s.inited = true) : (accept i s).Mid where
  busy := rfl
  engine := h.engine
  seq := rfl
  inited := hi
  ill_cause := by simp [accept]
  mem_wf := h.mem_wf
  wbuf_wf := h.wbuf_wf
  rbuf_wf := h.rbuf_wf

/-- Acceptance leaves PHASE and the engine as they were. -/
theorem accept_good {s : State} {i : Instr} (h : s.Inv) (hi : s.inited = true) : (accept i s).Good :=
  ⟨accept_mid h hi, h.phaseInv.of_eq rfl rfl⟩

/-- The end of a command keeps the invariant (R160). -/
theorem finish_inv {e : TransferOutcome} {s : State} (h : s.Good) : (finish e s).Inv where
  engine := h.mid.engine
  phaseInv := h.phaseInv.of_eq rfl rfl
  seq_busy := rfl
  ill_cause := h.mid.ill_cause
  uninited := by simp [finish, h.mid.inited]
  mem_wf := h.mid.mem_wf
  wbuf_wf := h.mid.wbuf_wf
  rbuf_wf := h.mid.rbuf_wf

/-- What the body of a command other than INIT leaves: the invariant, and PHASE as the table of R168 has it. -/
theorem body_good {i : Instr} {s : State} (h : s.Inv) (hr : refusalCause i s = none) (hne : isInit i = false) :
    (bodyOf i (accept i s)).All (fun e t => t.Good ∧ t.phase = phaseAfter i s.phase (e == .success)) State.Inv := by
  obtain ⟨hb, hin, hp, hs⟩ := accepted hr
  have hg := accept_good (i := i) h (by simpa [hne] using hin)
  have hstop : s.phase ≠ .idle → s.eng.stopp = false := fun h' => h.phaseInv.stopp_false h'
  have hit : ∀ (e : TransferOutcome) (p : Phase), (if e = TransferOutcome.success then p else Phase.error) = if
      (e == TransferOutcome.success) = true then p else Phase.error := by
    intro e p; cases e <;> rfl
  cases i with
  | init m => simp [isInit] at hne
  | start =>
    have hst : s.eng.stopp = false := by
      cases hq : s.phase
      · exact hs (by simp [reusesBus, hq])
      all_goals exact hstop (by simp [hq])
    exact (blStart_good hg hst).mono (fun e t ht => ⟨ht.1, by rw [ht.2.2, hit]; rfl⟩) fun _ h => h
  | stop => exact (blStop_good hg.mid).mono (fun e t ht => ⟨ht.1.good, by simp [ht.1.idle, phaseAfter]⟩) fun _ h => h
  | wraddr a =>
    have hq : s.phase = .addressPhase := by simpa [phaseAllows] using hp
    exact (blWriteAddress_good a hg (hstop (by simp [hq]))).mono (fun e t ht => ⟨ht.1, by rw [ht.2.2.2, hit]; rfl⟩) fun _
        h => h
  | wrbyte a =>
    have hq : s.phase = .dataPhase := by simp [phaseAllows] at hp; exact hp.1
    exact (blWriteByte_good a hg hq).mono (fun e t ht => ⟨ht.1, by rw [ht.2.2.2, hit]; rfl⟩) fun _ h => h
  | rdbyte a =>
    have hq : s.phase = .dataPhase := by simp [phaseAllows] at hp; exact hp.1
    exact (blReadByte_good a hg hq).mono (fun e t ht => ⟨ht.1, by rw [ht.2.2.2, hit]; rfl⟩) fun _ h => h
  | probe =>
    have hq : s.phase = .idle := by simpa [phaseAllows] using hp
    exact (pmProbe_good ⟨hg, hq⟩ (hs rfl)).mono (fun e t ht => ⟨ht.1.good, by simp [ht.1.idle, phaseAfter]⟩) fun _ h => h
  | mrd1 a =>
    have hq : s.phase = .idle := by simpa [phaseAllows] using hp
    exact (pmReadByte_good a ⟨hg, hq⟩ (hs rfl)).mono (fun e t ht => ⟨ht.good, by simp [ht.idle, phaseAfter]⟩) fun _ h => h
  | mwr1 a d =>
    have hq : s.phase = .idle := by simpa [phaseAllows] using hp
    exact (pmWriteByte_good a d ⟨hg, hq⟩ (hs rfl)).mono (fun e t ht => ⟨ht.good, by simp [ht.idle, phaseAfter]⟩) fun _
        h => h
  | mrdn a =>
    have hq : s.phase = .idle := by simpa [phaseAllows] using hp
    exact (pmReadBytes_good a ⟨hg, hq⟩ (hs rfl)).mono (fun e t ht => ⟨ht.good, by simp [ht.idle, phaseAfter]⟩) fun _ h =>
        h
  | mwrn a =>
    have hq : s.phase = .idle := by simpa [phaseAllows] using hp
    exact (pmWriteBytes_good a ⟨hg, hq⟩ (hs rfl)).mono (fun e t ht => ⟨ht.good, by simp [ht.idle, phaseAfter]⟩) fun _ h =>
        h
  | waitrdy =>
    have hq : s.phase = .idle := by simpa [phaseAllows] using hp
    exact (readyWait_good ⟨hg, hq⟩ (hs rfl)).mono (fun e t ht => ⟨ht.1.good, by simp [ht.1.idle, phaseAfter]⟩) fun _ h =>
        h

/-- A byte stored by MRDN keeps what holds at every moment. -/
theorem State.Mid.store {s : State} (h : s.Mid) (j : Nat) : (storeReceived j s).Mid :=
  ⟨h.busy, h.engine, h.seq, h.inited, h.ill_cause, h.mem_wf, h.wbuf_wf, Memory.write_wf _ _ _ h.rbuf_wf⟩

/-- Where INIT is accepted nothing is on the wire, so that its writing of the lines changes nothing (R54, R162). -/
theorem init_idle {s : State} (h : s.Inv) {m : BusMode} (hr : refusalCause (.init m) s = none) :
    s.eng.act = .none ∧ s.eng.stopp = false ∧ ({ s.eng with sclO := true, sdaO := true } : Engine) = s.eng := by
  obtain ⟨-, hin, -, -⟩ := accepted hr
  obtain ⟨-, hes, hact⟩ := h.uninited (by simpa [isInit] using hin)
  refine ⟨hact, ?_, ?_⟩
  · by_contra hc; exact h.engine.stopp_open (by simpa using hc) hes
  · have h1 := h.engine.scl_idle.2 hes
    have h2 : s.eng.sdaO = true := by
      by_contra hc; have := h.engine.sda_sb.1 (by simpa using hc); simp_all
    revert h1 h2
    cases s.eng; simp_all

/-- What holds at every moment of INIT: the engine and PHASE as they were (R162). -/
structure InitMid (s0 s : State) : Prop where
  busy : s.busy = true
  eng : s.eng = s0.eng
  phase : s.phase = s0.phase
  seq : s.seq.isSome = true
  ill_cause : s.ill = false ↔ s.illcause = .none
  mem_wf : Memory.wf s.ee.mem
  wbuf_wf : Memory.wf s.wbuf
  rbuf_wf : Memory.wf s.rbuf

/-- The other agents do nothing to an idle engine. -/
theorem initMid_kept {s0 : State} (hact : s0.eng.act = .none) (hst : s0.eng.stopp = false) :
    KeptByAgents (InitMid s0) where
  busy h := h.busy
  engine {s} a h := by
    have he := h.eng
    rw [engineStep_none a (by rw [he]; exact hact) (by rw [he]; exact hst)]
    exact h
  ready h := ⟨h.busy, h.eng, h.phase, h.seq, h.ill_cause, h.mem_wf, h.wbuf_wf, h.rbuf_wf⟩
  sched _ h := ⟨h.busy, h.eng, h.phase, h.seq, h.ill_cause, h.mem_wf, h.wbuf_wf, h.rbuf_wf⟩
  draws _ h := ⟨h.busy, h.eng, h.phase, h.seq, h.ill_cause, h.mem_wf, h.wbuf_wf, h.rbuf_wf⟩
  refused h := ⟨h.busy, h.eng, h.phase, h.seq, by simp, h.mem_wf, h.wbuf_wf, h.rbuf_wf⟩
  read _ h := ⟨h.busy, h.eng, h.phase, h.seq, h.ill_cause, h.mem_wf, h.wbuf_wf, h.rbuf_wf⟩

theorem initMid_resets {s0 : State} : Resets (InitMid s0) State.Inv := fun _ h => resetBlock_inv h.mem_wf

/-- Every command keeps the invariant, however it ends. -/
theorem exec_inv {i : Instr} {s t : State} (h : s.Inv) (hx : exec i s = .next t) : t.Inv := by
  cases hr : refusalCause i s with
  | some c => rw [exec_refused hr] at hx; injection hx with hx; subst hx; exact refuse_inv h (refusal_ne hr)
  | none =>
    rw [exec_accepted hr] at hx; injection hx with hx; subst hx
    cases hi : isInit i with
    | false =>
      exact conclude_all (R := fun e t => t.Good ∧ t.phase = phaseAfter i s.phase (e == .success)) (F := fun _ t =>
          t.Good) (body_good h hr hi)
        (fun e u hu => good_kept.gap (good_resets fun _ h => h.mid) hu.1) (fun _ _ h => finish_inv h) fun _ h => h
    | true =>
      obtain ⟨hact, hst, hlines⟩ : _ ∧ _ ∧ _ := by
        cases i <;> simp [isInit] at hi
        exact init_idle h hr
      have hk := initMid_kept hact hst
      refine conclude_all (R := fun _ t => InitMid s t ∧ t.inited = true) (F := fun _ t => InitMid s t ∧ t.inited = true)
          (Q := State.Inv) ?_ ?_ ?_ fun _ h => h
      · cases i <;> simp [isInit] at hi
        rename_i m
        have h0 : InitMid s (accept (.init m) s) := ⟨rfl, rfl, rfl, rfl, by simp [accept], h.mem_wf, h.wbuf_wf, h.rbuf_wf⟩
        refine (hk.gap initMid_resets h0).andThen fun _ u hu => ?_
        refine ⟨⟨hu.busy, ?_, hu.phase, hu.seq, hu.ill_cause, hu.mem_wf, hu.wbuf_wf, hu.rbuf_wf⟩, rfl⟩
        have := hu.eng
        simp only [initRegisters]
        rw [hu.eng]; exact hlines
      · intro e u hu
        have hk2 : KeptByAgents (fun t => InitMid s t ∧ t.inited = true) := ⟨fun h => h.1.busy, fun a h =>
            ⟨hk.engine a h.1, by simpa using h.2⟩, fun h => ⟨hk.ready h.1, h.2⟩,
          fun x h => ⟨hk.sched x h.1, h.2⟩, fun x h => ⟨hk.draws x h.1, h.2⟩, fun h => ⟨hk.refused h.1, h.2⟩, fun x h =>
              ⟨hk.read x h.1, h.2⟩⟩
        exact hk2.gap (fun _ h => initMid_resets _ h.1) hu
      · intro e u hu
        exact { engine := by have := hu.1.eng; simpa [finish, this] using h.engine
                phaseInv := h.phaseInv.of_eq (by simpa using hu.1.eng) (by simpa using hu.1.phase)
                seq_busy := rfl
                ill_cause := hu.1.ill_cause
                uninited := by simp [finish, hu.2]
                mem_wf := hu.1.mem_wf
                wbuf_wf := hu.1.wbuf_wf
                rbuf_wf := hu.1.rbuf_wf }

/-- The host's pending accesses are no part of the invariant. -/
theorem host_inv {s : State} (h : s.Inv) (x : List HostAction) : State.Inv { s with host := x } := ⟨h.engine,
    h.phaseInv.of_eq rfl rfl, h.seq_busy, h.ill_cause, h.uninited, h.mem_wf, h.wbuf_wf, h.rbuf_wf⟩

/-- A host write keeps the invariant (R44, R45). -/
theorem hostWrite_inv {s : State} (h : s.Inv) (off : Nat) (v : Word) : (hostWrite off v s).Inv := by
  unfold hostWrite
  split; exact h
  split; exact ⟨h.engine, h.phaseInv.of_eq rfl rfl, h.seq_busy, h.ill_cause, h.uninited, h.mem_wf, h.wbuf_wf, h.rbuf_wf⟩
  split
  · exact ⟨h.engine, h.phaseInv.of_eq rfl rfl, h.seq_busy, h.ill_cause, h.uninited, h.mem_wf,
      Memory.write_wf _ _ _ h.wbuf_wf, h.rbuf_wf⟩
  · exact h

/-- An engine step keeps the invariant (R141). -/
theorem engine_inv {s : State} (h : s.Inv) (a : Answer) : (engineStep a s).Inv where
  engine := engineStep_inv h.engine a
  phaseInv := engineStep_phaseInv a h.engine h.phaseInv
  seq_busy := by simpa using h.seq_busy
  ill_cause := by simpa using h.ill_cause
  uninited := by
    intro hi
    obtain ⟨h1, h2, h3⟩ := h.uninited (by simpa using hi)
    have hst : s.eng.stopp = false := by
      by_contra hc; exact h.engine.stopp_open (by simpa using hc) h2
    rw [engineStep_none a h3 hst]; exact ⟨h1, h2, h3⟩
  mem_wf := engineStep_mem_wf a h.mem_wf
  wbuf_wf := by simpa using h.wbuf_wf
  rbuf_wf := by simpa using h.rbuf_wf

/-! ### Steps -/

/-- `R` is kept by every move of the host and the environment, whether or not a command executes, and by every refusal. -/
structure KeptByMoves (R : State → Prop) : Prop where
  engine : ∀ {s} (a : Answer), R s → R (engineStep a s)
  ready : ∀ {s}, R s → R { s with ee := { s.ee with busydev := false } }
  sched : ∀ {s} (x : Sched), R s → R { s with sched := x }
  draws : ∀ {s} (n : Nat), R s → R { s with draws := n }
  refused : ∀ {s} (c : IllCause), c ≠ .none → R s → R (refuse c s)
  read : ∀ {s} (off : Nat), R s → R (hostRead off s)
  write : ∀ {s} (off : Nat) (v : Word), R s → R (hostWrite off v s)
  reset : ∀ {s}, R s → R (resetBlock s)
  host : ∀ {s} (x : List HostAction), R s → R { s with host := x }

theorem KeptByMoves.move {R : State → Prop} (h : KeptByMoves R) {s : State} (hs : R s) (m : Move) : R (move m s) := by
  match m with
  | .env (.engine a) => exact h.engine a hs
  | .env .hold => exact hs
  | .env .ready => exact h.ready hs
  | .host a =>
    simp only [Machine.move, hostMove]
    split
    · cases a with
      | write off v =>
        simp only
        split
        · exact h.refused .busy (by simp) hs
        · exact h.write off v hs
      | read off => exact h.read off hs
      | reset => exact h.reset hs
      | idle => exact hs
    · exact h.host _ hs

theorem KeptByMoves.runMoves {R : State → Prop} (h : KeptByMoves R) (ms : List Move) :
    ∀ {s : State}, R s → R (runMoves ms s).state := by
  induction ms with
  | nil => intro s hs; exact hs
  | cons m ms ih =>
    intro s hs
    unfold Machine.runMoves
    split
    · exact h.move hs m
    · exact ih (h.move hs m)

/-- What a step can do: a property that moves, refusals and whole commands keep. -/
theorem KeptByMoves.step {R : State → Prop} (h : KeptByMoves R) (hx : ∀ {i s t}, R s → exec i s = .next t → R t)
    {s t : State}
    (hs : R s) (ht : step s = .next t) : R t := by
  have h0 : R (takeAccess s) := h.host _ hs
  unfold Machine.step at ht
  split at ht
  · split at ht
    · unfold present at ht
      split at ht
      · exact hx h0 ht
      · injection ht with ht; subst ht
        exact h.refused _ (by unfold illegalCause; split <;> simp) h0
    · injection ht with ht; subst ht; exact h.write _ _ h0
  · injection ht with ht; subst ht; exact h.read _ h0
  · injection ht with ht; subst ht; exact h.reset h0
  · injection ht with ht; subst ht
    unfold pause gap
    refine h.runMoves _ ?_
    unfold nextGap
    split
    · exact h.sched _ h0
    · exact h0
    · exact h.draws _ h0

/-- Every move keeps the invariant. -/
theorem inv_moves : KeptByMoves State.Inv where
  engine a h := engine_inv h a
  ready h := ⟨h.engine, h.phaseInv.of_eq rfl rfl, h.seq_busy, h.ill_cause, h.uninited, h.mem_wf, h.wbuf_wf, h.rbuf_wf⟩
  sched _ h := ⟨h.engine, h.phaseInv.of_eq rfl rfl, h.seq_busy, h.ill_cause, h.uninited, h.mem_wf, h.wbuf_wf, h.rbuf_wf⟩
  draws _ h := ⟨h.engine, h.phaseInv.of_eq rfl rfl, h.seq_busy, h.ill_cause, h.uninited, h.mem_wf, h.wbuf_wf, h.rbuf_wf⟩
  refused _ hc h := refuse_inv h hc
  read _ h := ⟨h.engine, h.phaseInv.of_eq rfl rfl, h.seq_busy, h.ill_cause, h.uninited, h.mem_wf, h.wbuf_wf, h.rbuf_wf⟩
  write off v h := hostWrite_inv h off v
  reset h := resetBlock_inv h.mem_wf
  host x h := host_inv h x

/-! ### Commands as wholes -/

/-- A command that receives bytes: RDBYTE, MRD1, MRDN. -/
def receives : Instr → Bool
  | .rdbyte _ | .mrd1 _ | .mrdn _ => true
  | .init _ | .start | .stop | .wraddr _ | .wrbyte _ | .probe | .mwr1 _ _ | .mwrn _ | .waitrdy => false

/-- What a command that receives no bytes, INIT apart, can do, refused, finished or cut short: `R` holds of the state it leaves,
`P` being what its body keeps. -/
theorem exec_keeps_send {P R : State → Prop} {i : Instr} {s t : State} (h : KeptByPaged P) (hQ : Resets P R)
    (hPR : ∀ s, P s → R s)
    (hw : ∀ a, i = .mwrn a → ∀ {u} (a b c d : Count), P u → P { u with cur := a, idx := b, doneCount := c, chunk := d })
    (hi : isInit i = false) (hr : receives i = false) (ha : refusalCause i s = none → P (accept i s))
    (hf : ∀ e u, P u → R (finish e u)) (href : ∀ c, refusalCause i s = some c → R (refuse c s))
    (hx : exec i s = .next t) : R t := by
  refine exec_all h.toKeptByAgents hQ hx (fun hok => ?_) hf (fun _ h => h) href
  have h0 := ha hok
  cases i with
  | init m => simp [isInit] at hi
  | start => exact (h.blStart hQ h0).mono (fun _ _ h => h.1) fun _ h => h
  | stop => exact (h.blStop hQ h0).mono (fun _ _ h => h.1) fun _ h => h
  | wraddr a => exact (h.blWriteAddress hQ a h0).mono (fun _ _ h => h.1) fun _ h => h
  | wrbyte d => exact (h.blWriteByte hQ d h0).mono (fun _ _ h => h.1) fun _ h => h
  | rdbyte k => simp [receives] at hr
  | probe => exact (h.pmProbe hQ h0).mono (fun _ _ h => h.1) fun _ h => h
  | mrd1 a => simp [receives] at hr
  | mwr1 a d => exact (h.pmWriteByte hQ hPR a d h0).mono (fun _ _ h => h.1) fun _ h => h
  | mrdn a => simp [receives] at hr
  | mwrn a => exact (h.pmWriteBytes hQ hPR (hw a rfl) a h0).mono (fun _ _ h => h.1) fun _ h => h
  | waitrdy => exact (h.readyWait hQ hPR h0).mono (fun _ _ h => h.1) fun _ h => h

/-- What a command other than INIT can do: as `exec_keeps_send`, MRDN storing below LEN only. -/
theorem exec_keeps {P R : State → Prop} {i : Instr} {s t : State} (h : KeptByReads P) (hQ : Resets P R)
    (hPR : ∀ s, P s → R s)
    (hw : ∀ a, i = .mwrn a → ∀ {u} (a b c d : Count), P u → P { u with cur := a, idx := b, doneCount := c, chunk := d })
    (hd : ∀ a, i = .mrdn a → ∀ {u} (b c : Count), P u → P { u with doneCount := c, idx := b })
    (hst : refusalCause i s = none → ∀ a, i = .mrdn a → ∀ {u} (j : Nat), j < s.len.toNat → P u → P (storeReceived j u))
    (hi : isInit i = false) (ha : refusalCause i s = none → P (accept i s)) (hf : ∀ e u, P u → R (finish e u))
    (href : ∀ c, refusalCause i s = some c → R (refuse c s)) (hx : exec i s = .next t) : R t := by
  cases hr : receives i with
  | false => exact exec_keeps_send h.toKeptByPaged hQ hPR hw hi hr ha hf href hx
  | true =>
    refine exec_all h.toKeptByAgents hQ hx (fun hok => ?_) hf (fun _ h => h) href
    have h0 := ha hok
    cases i with
    | rdbyte k => exact (h.blReadByte hQ k h0).mono (fun _ _ h => h.1) fun _ h => h
    | mrd1 a => exact (h.pmReadByte hQ a h0).mono (fun _ _ h => h.1) fun _ h => h
    | mrdn a =>
      have h1 := hd a rfl (accept (.mrdn a) s).idx 0 h0
      exact (h.pmReadBytes (s := accept (.mrdn a) s) hQ a (hst hok a rfl) h1 (hd a rfl 0 0 h0)).mono (fun _ _ h => h.1)
        fun _ h => h
    | init m => simp [isInit] at hi
    | start | stop | wraddr a | wrbyte d | probe | mwr1 a d | mwrn a | waitrdy => simp [receives] at hr

/-- A field that no reset of the block in the meantime disturbs, with the number of resets. -/
abbrev Since {α : Type} (f : State → α) (s t : State) : Prop := t.epoch = s.epoch → f t = f s

/-- No command but by a reset changes the number of resets. -/
theorem epoch_kept (s : State) : KeptByReads (fun t => t.busy = true ∧ t.epoch = s.epoch) :=
  Untouched.kept_reads (f := fun t : State => t.epoch) (fun _ => by intros; rfl) (fun _ _ _ _ _ => rfl) s.epoch

/-- A reset in the meantime shows in the number of resets. -/
theorem since_reset {α : Type} {f : State → α} {P : State → Prop} {s : State} :
    Resets (fun t => P t ∧ t.busy = true ∧ t.epoch = s.epoch) (Since f s) := by
  intro u hu he
  have := hu.2.2
  simp [resetBlock] at he
  omega

/-- What INIT can do (R162). -/
theorem exec_init_keeps {P R : State → Prop} {m : BusMode} {s t : State} (h : KeptByAgents P) (hQ : Resets P R)
    (hm : ∀ u, P u → P (initRegisters m u)) (ha : refusalCause (.init m) s = none → P (accept (.init m) s))
    (hf : ∀ e u, P u → R (finish e u)) (href : ∀ c, refusalCause (.init m) s = some c → R (refuse c s))
    (hx : exec (.init m) s = .next t) : R t := by
  refine exec_all h hQ hx (fun hr => ?_) hf (fun _ h => h) href
  exact (h.gap hQ (ha hr)).andThen fun _ u hu => hm u hu

/-- A field the commands do not write keeps its value through every command but INIT, unless the block is reset meanwhile. -/
theorem exec_since {α : Type} {f : State → α} {i : Instr} {s t : State}
    (hk : KeptByReads (fun t => t.busy = true ∧ f t = f s))
    (hw : ∀ a, i = .mwrn a → ∀ u (a b c d : Count), f { u with cur := a, idx := b, doneCount := c, chunk := d } = f u)
    (hd : ∀ a, i = .mrdn a → ∀ u (b c : Count), f { u with doneCount := c, idx := b } = f u)
    (hst : ∀ a, i = .mrdn a → ∀ u j, f (storeReceived j u) = f u) (hi : isInit i = false) (ha : f (accept i s) = f s)
    (hf : ∀ e u, f (finish e u) = f u) (href : ∀ c, f (refuse c s) = f s) (hx : exec i s = .next t) : Since f s t :=
  exec_keeps (R := Since f s) (hk.and (epoch_kept s)) since_reset (fun u h _ => h.1.2)
    (fun a ha u b c d e h => ⟨⟨h.1.1, by rw [hw a ha]; exact h.1.2⟩, h.2⟩)
    (fun a ha u b c h => ⟨⟨h.1.1, by rw [hd a ha]; exact h.1.2⟩, h.2⟩)
    (fun _ a ha u j _ h => ⟨⟨h.1.1, by rw [hst a ha]; exact h.1.2⟩, h.2⟩) hi (fun _ => ⟨⟨rfl, ha⟩, rfl, rfl⟩)
    (fun e u h _ => by rw [hf]; exact h.1.2) (fun c _ _ => href c) hx

/-- As `exec_since`, for the commands that receive nothing. -/
theorem exec_since_send {α : Type} {f : State → α} {i : Instr} {s t : State}
    (hk : KeptByPaged (fun t => t.busy = true ∧ f t = f s))
    (hw : ∀ a, i = .mwrn a → ∀ u (a b c d : Count), f { u with cur := a, idx := b, doneCount := c, chunk := d } = f u)
    (hi : isInit i = false) (hr : receives i = false) (ha : f (accept i s) = f s) (hf : ∀ e u, f (finish e u) = f u)
    (href : ∀ c, f (refuse c s) = f s) (hx : exec i s = .next t) : Since f s t :=
  exec_keeps_send (R := Since f s) (hk.and (epoch_kept s).toKeptByPaged) since_reset (fun u h _ => h.1.2)
    (fun a ha u b c d e h => ⟨⟨h.1.1, by rw [hw a ha]; exact h.1.2⟩, h.2⟩) hi hr (fun _ => ⟨⟨rfl, ha⟩, rfl, rfl⟩)
    (fun e u h _ => by rw [hf]; exact h.1.2) (fun c _ _ => href c) hx

/-- As `exec_since`, for INIT. -/
theorem exec_since_init {α : Type} {f : State → α} {m : BusMode} {s t : State}
    (hk : KeptByAgents (fun t => t.busy = true ∧ f t = f s)) (hm : ∀ u, f (initRegisters m u) = f u)
    (ha : f (accept (.init m) s) = f s) (hf : ∀ e u, f (finish e u) = f u) (href : ∀ c, f (refuse c s) = f s)
    (hx : exec (.init m) s = .next t) : Since f s t :=
  exec_init_keeps (R := Since f s) (hk.and (epoch_kept s).toKeptByAgents) since_reset
    (fun u h => ⟨⟨h.1.1, by rw [hm]; exact h.1.2⟩, h.2⟩) (fun _ => ⟨⟨rfl, ha⟩, rfl, rfl⟩)
    (fun e u h _ => by rw [hf]; exact h.1.2) (fun c _ _ => href c) hx

/-- A command executes and has not finished (R41). -/
abbrev Doing : State → Prop := fun s => s.busy = true ∧ s.cpl = false
/-- No move or write of a command but `finish` ends it. -/
theorem doing_kept : KeptByReads Doing where
  busy h := h.1
  engine a h := by simpa [Doing] using h
  ready h := h
  sched _ h := h
  draws _ h := h
  refused h := h
  read _ h := h
  sampled h := h
  spin _ h := h
  assertStart h := h
  assertStop h := h
  loadTx _ h := h
  setAckMode _ h := h
  readSr2 h := h
  readDr h := h
  phase _ h := h
  seq _ h := h
  err _ h := h
  retry _ h := h
  ticks _ h := h
  result _ h := h

end Sys2Proof.Machine
end

