-- ==== Sys2Proof/Laws/Prompt.lean ====
section
/-!
SUPPORT. What the L1 operations do in an environment that withholds no engine step (A_SPIN):
    each ends at its first sample, in a
state written out.
-/

namespace Sys2Proof.Machine

@[simp] theorem rested_eng (d : Steady) (s : State) : (s.rested d).eng = s.eng := rfl
@[simp] theorem rested_bus (d : Steady) (s : State) : (s.rested d).bus = s.bus := rfl
@[simp] theorem rested_sched (d : Steady) (s : State) : (s.rested d).sched = s.sched := rfl
@[simp] theorem rested_cfg (d : Steady) (s : State) : (s.rested d).cfg = s.cfg := rfl
@[simp] theorem rested_draws (d : Steady) (s : State) : (s.rested d).draws = s.draws := rfl
@[simp] theorem rested_ee (d : Steady) (s : State) : (s.rested d).ee = s.ee.rested d := rfl
@[simp] theorem eeprom_rested_mem (d : Steady) (e : Eeprom) : (e.rested d).mem = e.mem := rfl

@[simp] theorem rested_rested (d : Steady) (s : State) : (s.rested d).rested d = s.rested d := by
  unfold State.rested Eeprom.rested; cases d.ready <;> simp

/-- A steady environment's gap (R141): the busy period ends, then the engine takes its steps,
    as far as the environment lets
it. -/
theorem gap_steady {s : State} {d : Steady} (h : s.SteadyAs d) :
    gap s = .done ()
      (if d.engine then engineStep d.answer (engineStep d.answer (s.rested d)) else s.rested d) := by
  unfold gap nextGap
  rw [h]
  simp only [steadyGap]
  unfold State.rested Eeprom.rested
  cases d.ready <;> cases d.engine <;> simp [runMoves, isReset, move, envMove]

/-- With nothing pending, a gap of a steady environment only ends the busy period. -/
theorem gap_steady_quiet {s : State} {d : Steady} (h : s.SteadyAs d) (ha : s.eng.act = .none) (hs : s.eng.stopp = false) :
    gap s = .done () (s.rested d) := by
  rw [gap_steady h]
  have h1 := engineStep_none d.answer (s := s.rested d) (by simpa using ha) (by simpa using hs)
  simp [h1]

/-- With an activity pending and no STOP, a gap of a prompt environment is one engine step. -/
theorem gap_prompt {s : State} {d : Steady} (h : s.SteadyAs d) (he : d.engine = true) (hs : s.eng.stopp = false) :
    gap s = .done () (engineStep d.answer (s.rested d)) := by
  rw [gap_steady h, he, if_pos rfl]
  rw [engineStep_none d.answer (engineStep_act _ _) (engineStep_stopp _ (by simpa using hs))]

/-- A wait whose flag is there after the first gap ends in Success (R161). -/
theorem wait_first {s t : State} {ok bad : Sample → Bool} (hl : 1 ≤ s.cfg.spinLimit)
    (hg : gap { s with spin := 0 } = .done () t) (hok : ok t.eng.sample = true) :
    wait ok bad s = .done .success (readSr1 t) := by
  unfold wait
  obtain ⟨n, hn⟩ : ∃ n, s.cfg.spinLimit = n + 1 := ⟨s.cfg.spinLimit - 1, by omega⟩
  rw [hn]
  simp [waitLoop, hg, hok]

/-- A wait that sees the failing flag after the first gap ends in NoAcknowledge (R161, R222). -/
theorem wait_first_bad {s t : State} {ok bad : Sample → Bool} (hl : 1 ≤ s.cfg.spinLimit)
    (hg : gap { s with spin := 0 } = .done () t) (hok : ok t.eng.sample = false) (hbad : bad t.eng.sample = true) :
    wait ok bad s = .done .noAcknowledge (readSr1 t) := by
  unfold wait
  obtain ⟨n, hn⟩ : ∃ n, s.cfg.spinLimit = n + 1 := ⟨s.cfg.spinLimit - 1, by omega⟩
  rw [hn]
  simp [waitLoop, hg, hok, hbad]

/-- START from an idle bus, in a prompt environment (R163). -/
theorem blStart_idle {s : State} {d : Steady} (h : s.Prompt d) (haddr : s.eng.addr = false) (hes : s.eng.es = .idle)
    (ha : s.eng.act = .none) (hs : s.eng.stopp = false) :
    blStart s = .done .success
      { s with
        eng := { s.eng with
          af := false, sb := true, es := .sb, act := .none, trace := s.eng.trace ++ [.start], sclO := false,
              sdaO := false }
        ee := (s.rested d).slaveStart d.answer
        phase := .addressPhase
        spin := 0
        seq := s.seq.map (fun q => { q with point := .waitStart }) } := by
  obtain ⟨hst, he, hl⟩ := h
  obtain ⟨n, hn⟩ : ∃ n, s.cfg.spinLimit = n + 1 := ⟨s.cfg.spinLimit - 1, by omega⟩
  unfold blStart
  rw [gap_steady_quiet hst ha hs]
  simp only [Ran.andThen_done]
  unfold wait
  simp only [rested_cfg, seqAt_cfg, hn, waitLoop]
  rw [gap_prompt (d := d) (by simpa using hst) he (by simp [Engine.assertStart, hes, ha, hs])]
  unfold State.rested Eeprom.rested
  cases d.ready <;>
  simp [engineStep, Engine.assertStart, hes, ha, hs, seqAt, Engine.sample, Engine.afterStart, Engine.emit, readSr1,
      Engine.readSr1, haddr, setPhase, State.slaveStart]

/-- A repeated START, in a prompt environment (R163). -/
theorem blStart_repeated {s : State} {d : Steady} (h : s.Prompt d) (hes : s.eng.es = .sb ∨ s.eng.es = .tx ∨
    s.eng.es = .rx)
    (ha : s.eng.act = .none) (hs : s.eng.stopp = false) :
    blStart s = .done .success
      { s with
        eng := { s.eng with
          af := false, sb := true, addr := false, txe := false, rxne := false, addrSeen := false, es := .sb, act := .none
          trace := s.eng.trace ++ [.rstart], sclO := false, sdaO := false }
        ee := (s.rested d).slaveStart d.answer
        phase := .addressPhase
        spin := 0
        seq := s.seq.map (fun q => { q with point := .waitStart }) } := by
  obtain ⟨hst, he, hl⟩ := h
  have hne : s.eng.es ≠ .idle := by rcases hes with h | h | h <;> simp [h]
  obtain ⟨n, hn⟩ : ∃ n, s.cfg.spinLimit = n + 1 := ⟨s.cfg.spinLimit - 1, by omega⟩
  unfold blStart
  rw [gap_steady_quiet hst ha hs]
  simp only [Ran.andThen_done]
  unfold wait
  simp only [rested_cfg, seqAt_cfg, hn, waitLoop]
  rw [gap_prompt (d := d) (by simpa using hst) he (by simp [Engine.assertStart, hne, hes, ha, hs])]
  unfold State.rested Eeprom.rested
  cases d.ready <;>
  simp [engineStep, Engine.assertStart, hne, hes, ha, seqAt, Engine.sample, Engine.afterRstart, Engine.emit, readSr1,
    Engine.readSr1, setPhase, State.slaveStart]

/-- An address byte that is acknowledged, in a prompt environment (R165). -/
theorem blWriteAddress_ack (a : Byte) {s : State} {d : Steady} (h : s.Prompt d) (hes : s.eng.es = .sb)
    (ha : s.eng.act = .none) (hs : s.eng.stopp = false) (hk : ((s.rested d).slaveByte d.answer a).1 = true) :
    blWriteAddress a s = .done .success
      { s with
        eng := { s.eng with
          dr := a, shift := 0, bitcnt := 0, sb := false, addr := false, addrSeen := false
          txe := if directionBit a then s.eng.txe else true
          dir := directionBit a, es := if directionBit a then .rx else .tx, act := .none
          trace := s.eng.trace ++ [.tx a true], sclO := false, sdaO := true }
        ee := ((s.rested d).slaveByte d.answer a).2
        phase := .dataPhase
        spin := 0
        seq := s.seq.map (fun q => { q with point := .waitAddress }) } := by
  obtain ⟨hst, he, hl⟩ := h
  obtain ⟨n, hn⟩ : ∃ n, s.cfg.spinLimit = n + 1 := ⟨s.cfg.spinLimit - 1, by omega⟩
  unfold blWriteAddress
  rw [gap_steady_quiet hst ha hs]
  simp only [Ran.andThen_done]
  unfold wait
  simp only [rested_cfg, seqAt_cfg, hn, waitLoop]
  rw [gap_prompt (d := d) (by simpa using hst) he (by simp [Engine.loadTx, hes, ha, hs])]
  unfold State.rested Eeprom.rested at *
  cases hr : d.ready <;> rw [hr] at hk <;>
  · simp [engineStep, Engine.loadTx, hes, ha, seqAt, Engine.sample, readSr1, State.slaveByte] at hk ⊢
    simp [Engine.afterTxAddr, Engine.emit, Engine.shiftedOut, Engine.readSr1, settleAddress, setPhase, hk]
    cases directionBit a <;> simp [Engine.readSr2]

/-- An address byte that is not acknowledged, in a prompt environment (R165, R222). -/
theorem blWriteAddress_nak (a : Byte) {s : State} {d : Steady} (h : s.Prompt d) (haddr : s.eng.addr = false)
    (hes : s.eng.es = .sb)
    (ha : s.eng.act = .none) (hs : s.eng.stopp = false) (hk : ((s.rested d).slaveByte d.answer a).1 = false) :
    blWriteAddress a s = .done .noAcknowledge
      { s with
        eng := { s.eng with
          dr := a, shift := 0, bitcnt := 0, sb := false, af := true, es := .nak, act := .none
          trace := s.eng.trace ++ [.tx a false], sclO := false, sdaO := true }
        ee := ((s.rested d).slaveByte d.answer a).2
        phase := .error
        spin := 0
        seq := s.seq.map (fun q => { q with point := .waitAddress }) } := by
  obtain ⟨hst, he, hl⟩ := h
  obtain ⟨n, hn⟩ : ∃ n, s.cfg.spinLimit = n + 1 := ⟨s.cfg.spinLimit - 1, by omega⟩
  unfold blWriteAddress
  rw [gap_steady_quiet hst ha hs]
  simp only [Ran.andThen_done]
  unfold wait
  simp only [rested_cfg, seqAt_cfg, hn, waitLoop]
  rw [gap_prompt (d := d) (by simpa using hst) he (by simp [Engine.loadTx, hes, ha, hs])]
  unfold State.rested Eeprom.rested at *
  cases hr : d.ready <;> rw [hr] at hk <;>
  · simp [engineStep, Engine.loadTx, hes, ha, seqAt, Engine.sample, readSr1, State.slaveByte] at hk ⊢
    simp [Engine.afterTxAddr, Engine.emit, Engine.shiftedOut, Engine.readSr1, settleAddress, setPhase, hk, haddr]

/-- A data byte that is acknowledged, in a prompt environment (R166). -/
theorem blWriteByte_ack (b : Byte) {s : State} {d : Steady} (h : s.Prompt d) (haddr : s.eng.addr = false)
    (htxe : s.eng.txe = true) (hes : s.eng.es = .tx)
    (ha : s.eng.act = .none) (hs : s.eng.stopp = false) (hk : ((s.rested d).slaveByte d.answer b).1 = true) :
    blWriteByte b s = .done .success
      { s with
        eng := { s.eng with
          dr := b, shift := 0, bitcnt := 0, trace := s.eng.trace ++ [.tx b true], sclO := false, sdaO := true }
        ee := ((s.rested d).slaveByte d.answer b).2
        spin := 0
        seq := s.seq.map (fun q => { q with point := .waitTransmit }) } := by
  obtain ⟨hst, he, hl⟩ := h
  obtain ⟨n, hn⟩ : ∃ n, s.cfg.spinLimit = n + 1 := ⟨s.cfg.spinLimit - 1, by omega⟩
  unfold blWriteByte
  rw [gap_steady_quiet hst ha hs]
  simp only [Ran.andThen_done]
  unfold wait
  simp only [rested_cfg, seqAt_cfg, hn, waitLoop]
  rw [gap_prompt (d := d) (by simpa using hst) he (by simp [Engine.loadTx, hes, ha, hs, htxe])]
  unfold State.rested Eeprom.rested at *
  cases hr : d.ready <;> rw [hr] at hk <;>
  · simp [engineStep, Engine.loadTx, hes, ha, htxe, seqAt, Engine.sample, readSr1, State.slaveByte] at hk ⊢
    simp [Engine.afterTxData, Engine.emit, Engine.shiftedOut, Engine.readSr1, failToError, hk, haddr]

/-- A data byte that is not acknowledged, in a prompt environment (R166, R222). -/
theorem blWriteByte_nak (b : Byte) {s : State} {d : Steady} (h : s.Prompt d) (haddr : s.eng.addr = false)
    (htxe : s.eng.txe = true) (hes : s.eng.es = .tx)
    (ha : s.eng.act = .none) (hs : s.eng.stopp = false) (hk : ((s.rested d).slaveByte d.answer b).1 = false) :
    blWriteByte b s = .done .noAcknowledge
      { s with
        eng := { s.eng with
          dr := b, shift := 0, bitcnt := 0, txe := false, af := true, es := .nak
          trace := s.eng.trace ++ [.tx b false], sclO := false, sdaO := true }
        ee := ((s.rested d).slaveByte d.answer b).2
        phase := .error
        spin := 0
        seq := s.seq.map (fun q => { q with point := .waitTransmit }) } := by
  obtain ⟨hst, he, hl⟩ := h
  obtain ⟨n, hn⟩ : ∃ n, s.cfg.spinLimit = n + 1 := ⟨s.cfg.spinLimit - 1, by omega⟩
  unfold blWriteByte
  rw [gap_steady_quiet hst ha hs]
  simp only [Ran.andThen_done]
  unfold wait
  simp only [rested_cfg, seqAt_cfg, hn, waitLoop]
  rw [gap_prompt (d := d) (by simpa using hst) he (by simp [Engine.loadTx, hes, ha, hs, htxe])]
  unfold State.rested Eeprom.rested at *
  cases hr : d.ready <;> rw [hr] at hk <;>
  · simp [engineStep, Engine.loadTx, hes, ha, htxe, seqAt, Engine.sample, readSr1, State.slaveByte] at hk ⊢
    simp [Engine.afterTxData, Engine.emit, Engine.shiftedOut, Engine.readSr1, failToError, hk, haddr]

/-- A reception, in a prompt environment (R167). -/
theorem blReadByte_prompt (k : Bool) {s : State} {d : Steady} (h : s.Prompt d) (haddr : s.eng.addr = false)
    (hes : s.eng.es = .rx)
    (ha : s.eng.act = .none) (hrx : s.eng.rxne = false) (hs : s.eng.stopp = false) :
    blReadByte k s = .done .success
      { s with
        eng := { s.eng with
          dr := ((s.rested d).slaveRead d.answer k).1, shift := ((s.rested d).slaveRead d.answer k).1, bitcnt := 0,
              acken := k
          trace := s.eng.trace ++ [.rx ((s.rested d).slaveRead d.answer k).1 k], sclO := false, sdaO := true }
        result := ((s.rested d).slaveRead d.answer k).1
        ee := ((s.rested d).slaveRead d.answer k).2
        spin := 0
        seq := s.seq.map (fun q => { q with point := .waitReceive }) } := by
  obtain ⟨hst, he, hl⟩ := h
  obtain ⟨n, hn⟩ : ∃ n, s.cfg.spinLimit = n + 1 := ⟨s.cfg.spinLimit - 1, by omega⟩
  unfold blReadByte
  rw [gap_steady_quiet hst ha hs]
  simp only [Ran.andThen_done]
  unfold wait
  simp only [rested_cfg, seqAt_cfg, hn, waitLoop]
  rw [gap_prompt (d := d) (by simpa using hst) he (by simp [Engine.setAckMode, hes, ha, hs, hrx])]
  unfold State.rested Eeprom.rested
  cases d.ready <;>
  simp [engineStep, Engine.setAckMode, hes, ha, hrx, seqAt, Engine.sample, Engine.afterRx, Engine.emit, readSr1,
    Engine.readSr1, haddr, takeResult, Engine.readDr, State.slaveRead]

/-- A stop and its wait with a transaction open, in a prompt environment (R164, R190). -/
theorem stopWait_prompt {s : State} {d : Steady} (h : s.Prompt d) (hes : s.eng.es ≠ .idle) (ha : s.eng.act = .none)
    (hs : s.eng.stopp = false) :
    stopWait s = .done .success
      { s with
        eng := { s.eng with
          sb := false, addr := false, txe := false, rxne := false, addrSeen := false, es := .idle
          trace := s.eng.trace ++ [.stop], sclO := true, sdaO := true }
        ee := (s.rested d).slaveStop d.answer
        draws := s.draws + 1
        phase := .idle
        spin := 0
        seq := s.seq.map (fun q => { q with point := .waitStop }) } := by
  obtain ⟨hst, he, hl⟩ := h
  obtain ⟨n, hn⟩ : ∃ n, s.cfg.spinLimit = n + 1 := ⟨s.cfg.spinLimit - 1, by omega⟩
  unfold stopWait blStop
  rw [gap_steady_quiet hst ha hs]
  simp only [Ran.andThen_done]
  unfold wait
  simp only [rested_cfg, seqAt_cfg, hn, waitLoop]
  rw [gap_steady (d := d) (by simpa using hst), he, if_pos rfl]
  unfold State.rested Eeprom.rested
  cases d.ready <;>
  simp [engineStep, Engine.assertStop, hes, ha, hs, seqAt, Engine.sample, Engine.afterStop, Engine.emit, readSr1,
    Engine.readSr1, State.slaveStop]

end Sys2Proof.Machine
end

