-- ==== Sys2Proof/Laws/Environment.lean ====
section
/-!
SUPPORT. Environments in which every wait of a command ends: what their gaps can do (`Env`), the two the statements speak of (the
steady environment that withholds no step, and a timely schedule), and one lemma for all L1 operations, `Env.act`.
-/

namespace Sys2Proof.Machine

/-- The device with another busy state. -/
abbrev Eeprom.withBusy (b : Bool) (e : Eeprom) : Eeprom := { e with busydev := b }

/-- What the agents may change between two actions of a command while no symbol goes on the wire: the schedule, the count of
draws, the mark of a refused CMD write, the read data; the device's busy state as `r` says; and SPIN, which a wait counts. -/
def Calm (r : Bool → Bool → Prop) (s t : State) : Prop :=
  r s.ee.busydev t.ee.busydev ∧
  t = { s with
    sched := t.sched, draws := t.draws, ill := t.ill, illcause := t.illcause, rdata := t.rdata, spin := t.spin
    ee := s.ee.withBusy t.ee.busydev }

theorem Calm.trans {r : Bool → Bool → Prop} (hr : ∀ a b c, r a b → r b c → r a c) {s t u : State} (h : Calm r s t)
    (h' : Calm r t u) : Calm r s u := by
  obtain ⟨h1, h2⟩ := h
  obtain ⟨h3, h4⟩ := h'
  refine ⟨hr _ _ _ h1 h3, ?_⟩
  rw [h2] at h4
  exact h4

theorem Calm.refl {r : Bool → Bool → Prop} (hr : ∀ a, r a a) (s : State) : Calm r s s := ⟨hr _, rfl⟩

/-- An environment that lets every wait of a command end. `holds` says that the schedule is of its kind from here on, `same` what
its gaps leave, `rests` and `lulls` how the device's busy state may change in a gap (up to the engine's step in it, and after
that), `answers` what an unknown bus answers, `ticks` whether the ticks come. -/
structure Env where
  holds : State → Prop
  same : State → State → Prop
  rests : Bool → Bool → Prop
  lulls : Bool → Bool → Prop
  answers : Answer → Prop
  ticks : Prop
  /-- `holds` speaks of the schedule and the parameters, while a command executes. -/
  holds_congr : ∀ s t : State, holds s → t.sched = s.sched → t.busy = s.busy → t.cfg = s.cfg → holds t
  /-- `same` speaks of what no command writes. -/
  same_congr : ∀ s s' t t' : State, same s t → s'.rdata = s.rdata → s'.ill = s.ill → s'.illcause = s.illcause →
    t'.rdata = t.rdata → t'.ill = t.ill → t'.illcause = t.illcause → same s' t'
  same_refl : ∀ s, same s s
  same_trans : ∀ s t u, same s t → same t u → same s u
  rests_trans : ∀ a b c, rests a b → rests b c → rests a c
  rests_false : ∀ b, rests false b → b = false
  lulls_false : ∀ b, lulls false b → b = false
  /-- A gap with nothing pending. -/
  quiet : ∀ s : State, holds s → s.eng.act = .none → s.eng.stopp = false →
    ∃ t, gap s = .done () t ∧ Calm rests s t ∧ holds t ∧ same s t ∧ (ticks → (nextGap s).1.pulse = true)
  /-- A wait for the one symbol that is pending: the engine takes its step in a gap of the wait, in state `a`, and the sample
  after that gap ends the wait as its flags say. -/
  step : ∀ (s : State) (ok bad : Sample → Bool), holds s → s.eng.stopp = false ∨ s.eng.act = .none →
    ok s.eng.sample = false → bad s.eng.sample = false → s.eng.addr = false →
    ∃ ans a t, answers ans ∧ Calm rests s a ∧ Calm lulls (engineStep ans a) t ∧ holds t ∧ same s t ∧
      (ok t.eng.sample = true → wait ok bad s = .done .success (readSr1 t)) ∧
      (ok t.eng.sample = false → bad t.eng.sample = true → wait ok bad s = .done .noAcknowledge (readSr1 t))

/-! ### The steady environment that withholds no step -/

/-- After its one step the engine has nothing pending. -/
theorem engineStep_settles (ans ans' : Answer) {s : State} (h : s.eng.stopp = false ∨ s.eng.act = .none) :
    engineStep ans' (engineStep ans s) = engineStep ans s := by
  refine engineStep_none ans' (engineStep_act _ _) ?_
  rcases h with h | h
  · exact engineStep_stopp _ h
  · unfold engineStep; simp only [h]; split
    · rfl
    · next hs => simpa using hs

/-- The steady environment `d`, which withholds no step. -/
def steadyEnv (d : Steady) : Env where
  holds s := s.Prompt d
  same s t := (t.rdata, t.ill, t.illcause) = (s.rdata, s.ill, s.illcause)
  rests b b' := b' = (b && !d.ready)
  lulls b b' := b' = b
  answers a := a = d.answer
  ticks := d.pulse = true
  holds_congr s t h h1 _ h3 := by unfold State.Prompt State.SteadyAs at *; rw [h1, h3]; exact h
  same_congr := by intros; simp_all
  same_refl _ := rfl
  same_trans := by intros; simp_all
  rests_trans := by intro a b c h h'; subst h h'; cases a <;> cases d.ready <;> rfl
  rests_false := by simp
  lulls_false := by simp
  quiet s h ha hs := by
    refine ⟨_, gap_steady_quiet h.1 ha hs, ⟨rfl, rfl⟩, h, rfl, fun hp => ?_⟩
    have : s.sched = ⟨[], .steady d⟩ := h.1
    simp [nextGap, this, steadyGap, hp]
  step s ok bad h hp hok hbad haddr := by
    have hg : gap { s with spin := 0 } = .done () (engineStep d.answer (State.rested d { s with spin := 0 })) := by
      rw [gap_steady (s := { s with spin := 0 }) h.1, h.2.1, if_pos rfl, engineStep_settles]
      simpa using hp
    refine ⟨d.answer, State.rested d { s with spin := 0 }, engineStep d.answer (State.rested d { s with spin := 0 }), rfl,
      ⟨rfl, rfl⟩, ⟨rfl, rfl⟩, ?_, ?_, ?_, ?_⟩
    rotate_left 2
    · exact fun h1 => wait_first h.2.2 hg h1
    · exact fun h1 h2 => wait_first_bad h.2.2 hg h1 h2
    · obtain ⟨h1, h2, h3⟩ := h; exact ⟨by simpa [State.SteadyAs] using h1, h2, by simpa using h3⟩
    · simp [State.rested]

/-- A sample in which ADDR is 0 changes nothing (R135). -/
theorem readSr1_clear {s : State} (h : s.eng.addr = false) : readSr1 s = s := by
  simp [readSr1, Engine.readSr1, h]

/-! ### A timely schedule -/

/-- The device's busy state may end, and does not begin. -/
abbrev MayEnd (b b' : Bool) : Prop := b' = true → b = true

/-- Nothing is pending but perhaps one symbol. -/
abbrev Engine.OnePending (e : Engine) : Prop := e.stopp = false ∨ e.act = .none

/-- A move that puts no symbol on the wire and does not reset the block. -/
theorem calm_move {m : Move} {s : State} (hb : s.busy = true) (hr : m ≠ .host .reset)
    (hq : (∀ a, m ≠ .env (.engine a)) ∨ (s.eng.act = .none ∧ s.eng.stopp = false)) :
    Calm MayEnd s (move m s) ∧ (move m s).sched = s.sched := by
  rcases m with (a | _ | _) | (⟨off, v⟩ | off | _ | _)
  · obtain ⟨ha, hs⟩ : s.eng.act = .none ∧ s.eng.stopp = false := by
      rcases hq with h | h
      · exact absurd rfl (h a)
      · exact h
    have : move (.env (.engine a)) s = s := by simp [move, envMove, engineStep_none a ha hs]
    rw [this]; exact ⟨⟨id, rfl⟩, rfl⟩
  · exact ⟨⟨id, rfl⟩, rfl⟩
  · exact ⟨⟨by simp [move, envMove], rfl⟩, rfl⟩
  · simp only [move, hostMove, hb, if_true]
    split
    · exact ⟨⟨id, rfl⟩, rfl⟩
    · simp only [hostWrite, hb, if_true]; exact ⟨⟨id, rfl⟩, trivial⟩
  · simp only [move, hostMove, hb, if_true]; exact ⟨⟨id, rfl⟩, rfl⟩
  · exact absurd rfl hr
  · simp only [move, hostMove, hb, if_true]; exact ⟨⟨id, rfl⟩, trivial⟩

/-- What a calm stretch leaves. -/
theorem Calm.eng_eq {r : Bool → Bool → Prop} {s t : State} (h : Calm r s t) : t.eng = s.eng := by rw [h.2]

theorem Calm.busy_eq {r : Bool → Bool → Prop} {s t : State} (h : Calm r s t) : t.busy = s.busy := by rw [h.2]

theorem Calm.cfg_eq {r : Bool → Bool → Prop} {s t : State} (h : Calm r s t) : t.cfg = s.cfg := by rw [h.2]

theorem mayEnd_trans (a b c : Bool) (h : MayEnd a b) (h' : MayEnd b c) : MayEnd a c := fun hc => h (h' hc)

/-- Moves that put no symbol on the wire. -/
theorem calm_moves (ms : List Move) : ∀ {s : State}, s.busy = true → .host .reset ∉ ms →
    ((∀ a, .env (.engine a) ∉ ms) ∨ (s.eng.act = .none ∧ s.eng.stopp = false)) →
    ∃ t, runMoves ms s = .done () t ∧ Calm MayEnd s t ∧ t.sched = s.sched := by
  induction ms with
  | nil => intro s _ _ _; exact ⟨s, rfl, ⟨id, rfl⟩, rfl⟩
  | cons m ms ih =>
    intro s hb hr hq
    have hm : m ≠ .host .reset := fun h => hr (by simp [h])
    obtain ⟨h1, h2⟩ := calm_move hb hm (hq.imp_left fun h a hc => h a (by simp [hc]))
    obtain ⟨t, e, h3, h4⟩ := ih (s := move m s) (by rw [h1.busy_eq, hb]) (fun h => hr (by simp [h]))
      (hq.imp (fun h a hc => h a (by simp [hc])) (fun h => by rw [h1.eng_eq]; exact h))
    refine ⟨t, ?_, h1.trans mayEnd_trans h3, h4.trans h2⟩
    have : isReset m = false := by rcases m with _ | (⟨off, v⟩ | off | _ | _) <;> simp_all [isReset]
    simp only [runMoves, this, Bool.false_and, Bool.false_eq_true, if_false, e]

/-- Moves among which the engine is let step, one symbol being pending. -/
theorem step_moves (ms : List Move) : ∀ {s : State}, s.busy = true → .host .reset ∉ ms → (∃ a, .env (.engine a) ∈ ms) →
    s.eng.OnePending →
    ∃ ans a t, runMoves ms s = .done () t ∧ Calm MayEnd s a ∧ Calm MayEnd (engineStep ans a) t ∧ t.sched = s.sched := by
  induction ms with
  | nil => intro s _ _ h; simp at h
  | cons m ms ih =>
    intro s hb hr hl hp
    have hm : m ≠ .host .reset := fun h => hr (by simp [h])
    have hr' : .host .reset ∉ ms := fun h => hr (by simp [h])
    have hi : isReset m = false := by rcases m with _ | (⟨off, v⟩ | off | _ | _) <;> simp_all [isReset]
    by_cases hm' : ∃ a, m = .env (.engine a)
    · obtain ⟨ans, rfl⟩ := hm'
      have hset := engineStep_settles ans ans hp
      have hq : (engineStep ans s).eng.act = .none ∧ (engineStep ans s).eng.stopp = false := by
        refine ⟨engineStep_act _ _, ?_⟩
        rcases hp with h | h
        · exact engineStep_stopp _ h
        · unfold engineStep; simp only [h]; split
          · rfl
          · next hs => simpa using hs
      obtain ⟨t, e, h3, h4⟩ := calm_moves ms (s := engineStep ans s) (by simpa using hb) hr' (.inr hq)
      refine ⟨ans, s, t, ?_, ⟨id, rfl⟩, h3, by simpa using h4⟩
      simp only [runMoves, hi, Bool.false_and, Bool.false_eq_true, if_false]
      exact e
    · obtain ⟨h1, h2⟩ := calm_move hb hm (.inl fun a h => hm' ⟨a, h⟩)
      have hl' : ∃ a, .env (.engine a) ∈ ms := by
        obtain ⟨a, ha⟩ := hl
        rcases List.mem_cons.1 ha with h | h
        · exact absurd ⟨a, h.symm⟩ hm'
        · exact ⟨a, h⟩
      obtain ⟨ans, a, t, e, h3, h4, h5⟩ := ih (s := move m s) (by rw [h1.busy_eq, hb]) hr' hl' (by rw [h1.eng_eq]; exact hp)
      refine ⟨ans, a, t, ?_, h1.trans mayEnd_trans h3, h4, h5.trans h2⟩
      simp only [runMoves, hi, Bool.false_and, Bool.false_eq_true, if_false]
      exact e

/-- A gap that lets the engine step holds such a move. -/
theorem lets_mem {g : Gap} (h : letsEngine g = true) : ∃ a, .env (.engine a) ∈ g.moves := by
  unfold letsEngine at h
  obtain ⟨m, hm, h⟩ := List.any_eq_true.1 h
  rcases m with (a | _ | _) | _ <;> simp at h
  exact ⟨a, hm⟩

theorem not_lets {g : Gap} (h : letsEngine g ≠ true) (a : Answer) : .env (.engine a) ∉ g.moves := fun hm =>
  h (List.any_eq_true.2 ⟨_, hm, rfl⟩)

/-- A gap of a timely schedule among the next `n` lets the engine step. -/
abbrev LetsWithin (n : Nat) (k : Sched) : Prop := ∃ j, j < n ∧ ∀ g, k.gaps[j]? = some g → letsEngine g = true

/-- The next SPIN_LIMIT gaps of a timely schedule. -/
theorem Timely.letsWithin {c : Params} {k : Sched} (h : Timely c k) : LetsWithin c.spinLimit k := by
  have hpos : 1 ≤ c.spinLimit := by
    by_contra h0
    obtain ⟨g, hg, -⟩ := h.flags [] (List.nil_infix) (by simp; omega)
    simp at hg
  by_cases hl : k.gaps.length < c.spinLimit
  · exact ⟨k.gaps.length, hl, by simp⟩
  · obtain ⟨g, hg, h1⟩ := h.flags (k.gaps.take c.spinLimit) (List.take_prefix _ _).isInfix (by simp; omega)
    obtain ⟨j, hj, rfl⟩ := List.getElem_of_mem hg
    simp only [List.length_take] at hj
    refine ⟨j, by omega, fun g hg => ?_⟩
    simp only [List.getElem_take] at h1
    rw [List.getElem?_eq_getElem (by omega)] at hg
    injection hg with hg
    rwa [← hg]

/-- The next gap of a timely schedule, and the schedule after it. -/
theorem Timely.next {s : State} (h : Timely s.cfg s.sched) : ∃ k, (nextGap s).2 = { s with sched := k } ∧
    Timely s.cfg k ∧ (nextGap s).1.pulse = true ∧ .host .reset ∉ (nextGap s).1.moves ∧
    (∀ n, LetsWithin (n + 1) s.sched → letsEngine (nextGap s).1 ≠ true → LetsWithin n k) := by
  obtain ⟨hf, ht, hr, d, hd, he, hp⟩ := h
  cases hg : s.sched.gaps with
  | nil =>
    have hn : nextGap s = (steadyGap d, s) := by simp [nextGap, hg, hd]
    have hs : { s with sched := s.sched } = s := rfl
    refine ⟨s.sched, by rw [hn], ⟨hf, ht, hr, d, hd, he, hp⟩, by rw [hn]; exact hp, ?_, ?_⟩
    · rw [hn]; simp only [steadyGap]; cases d.ready <;> simp [he]
    · intro n _ hc
      refine absurd ?_ hc
      rw [hn]; unfold letsEngine steadyGap; simp [he]
  | cons g gs =>
    have hn : nextGap s = (g, { s with sched := { s.sched with gaps := gs } }) := by simp [nextGap, hg]
    refine ⟨{ s.sched with gaps := gs }, by rw [hn], ⟨fun w hw => hf w ?_, fun g hg' => ht g (by simp [hg, hg']),
      fun g hg' => hr g (by simp [hg, hg']), d, hd, he, hp⟩, by rw [hn]; exact ht g (by simp [hg]),
      by rw [hn]; exact hr g (by simp [hg]), ?_⟩
    · rw [hg]; exact hw.trans (List.suffix_cons g gs).isInfix
    · rintro n ⟨j, hj, hl⟩ hc
      rw [hn] at hc
      cases j with
      | zero => exact absurd (hl g (by simp [hg])) hc
      | succ j => exact ⟨j, by omega, fun g' hg' => hl g' (by simpa [hg] using hg')⟩

/-- A wait for the one symbol that is pending, in a timely schedule: a gap among its samples lets the engine step. -/
theorem timely_wait (ok bad : Sample → Bool) (n : Nat) : ∀ {s : State}, s.busy = true → Timely s.cfg s.sched →
    LetsWithin n s.sched → s.eng.OnePending → ok s.eng.sample = false → bad s.eng.sample = false → s.eng.addr = false →
    ∃ ans a t, Calm MayEnd s a ∧ Calm MayEnd (engineStep ans a) t ∧ Timely t.cfg t.sched ∧
      (ok t.eng.sample = true → waitLoop ok bad n s = .done .success (readSr1 t)) ∧
      (ok t.eng.sample = false → bad t.eng.sample = true → waitLoop ok bad n s = .done .noAcknowledge (readSr1 t)) := by
  induction n with
  | zero => rintro s _ _ ⟨j, hj, -⟩; omega
  | succ n ih =>
    intro s hb ht hw hp hok hbad haddr
    obtain ⟨k, hn, hk, -, hr, hl⟩ := ht.next
    have hgap : gap s = runMoves (nextGap s).1.moves { s with sched := k } := by
      unfold gap; rw [hn]
    by_cases hlet : letsEngine (nextGap s).1 = true
    · obtain ⟨ans, a, t, e, h1, h2, h3⟩ := step_moves _ (s := { s with sched := k }) hb hr (lets_mem hlet) hp
      have hca : a.cfg = s.cfg := h1.cfg_eq
      have hct : t.cfg = s.cfg := by rw [h2.cfg_eq]; simpa using hca
      refine ⟨ans, a, t, ⟨h1.1, h1.2⟩, h2, by rw [hct, h3]; exact hk, fun h => ?_, fun h h' => ?_⟩
      · simp [waitLoop, hgap, e, h]
      · simp [waitLoop, hgap, e, h, h']
    · obtain ⟨t, e, h1, h2⟩ := calm_moves _ (s := { s with sched := k }) hb hr (.inl (not_lets hlet))
      have he : t.eng = s.eng := h1.eng_eq
      have hr1 : readSr1 t = t := readSr1_clear (by rw [he]; exact haddr)
      have hct : t.cfg = s.cfg := h1.cfg_eq
      obtain ⟨ans, a, u, h3, h4, h5, h6, h7⟩ := ih (s := { t with spin := t.spin + 1 })
        (h1.busy_eq.trans hb) (by simpa [hct, h2] using hk) (by simpa [h2] using hl n hw hlet)
        (by simpa [he] using hp) (by simpa [he] using hok) (by simpa [he] using hbad) (by simpa [he] using haddr)
      have hca : Calm MayEnd s { t with spin := t.spin + 1 } := ⟨h1.1, by rw [h1.2]⟩
      have hok' : ok t.eng.sample = false := by rw [he]; exact hok
      have hbad' : bad t.eng.sample = false := by rw [he]; exact hbad
      have hx : waitLoop ok bad (n + 1) s = waitLoop ok bad n { t with spin := t.spin + 1 } := by
        simp only [waitLoop, hgap, e, Ran.andThen_done, hok', hbad', hr1, Bool.false_eq_true, if_false]
      exact ⟨ans, a, u, hca.trans mayEnd_trans h3, h4, h5, fun h => hx.trans (h6 h), fun h h' => hx.trans (h7 h h')⟩

/-- A timely schedule (A_SPIN, R88). -/
def timelyEnv : Env where
  holds s := s.busy = true ∧ Timely s.cfg s.sched
  same _ _ := True
  rests := MayEnd
  lulls := MayEnd
  answers _ := True
  ticks := True
  holds_congr s t h h1 h2 h3 := by rw [h1, h2, h3]; exact h
  same_congr := by intros; trivial
  same_refl _ := trivial
  same_trans _ _ _ _ _ := trivial
  rests_trans := mayEnd_trans
  rests_false := by simp
  lulls_false := by simp
  quiet s h ha hs := by
    obtain ⟨k, hn, hk, hp, hr, -⟩ := h.2.next
    obtain ⟨t, e, h1, h2⟩ := calm_moves _ (s := { s with sched := k }) h.1 hr (.inr ⟨ha, hs⟩)
    have hct : t.cfg = s.cfg := h1.cfg_eq
    refine ⟨t, by unfold gap; rw [hn]; exact e, ⟨h1.1, h1.2⟩, ⟨h1.busy_eq.trans h.1, ?_⟩, trivial, fun _ => hp⟩
    rw [hct, h2]; exact hk
  step s ok bad h hp hok hbad haddr := by
    obtain ⟨ans, a, t, h1, h2, h3, h4, h5⟩ := timely_wait ok bad s.cfg.spinLimit (s := { s with spin := 0 }) h.1 h.2
      h.2.letsWithin hp hok hbad haddr
    refine ⟨ans, a, t, trivial, ⟨h1.1, h1.2⟩, h2, ⟨?_, h3⟩, trivial, h4, h5⟩
    rw [h2.busy_eq, engineStep_busy, h1.busy_eq]; exact h.1

/-! ### An L1 operation -/

/-- What every L1 operation does in such an environment: after a gap it tells the engine its symbol (`f`) and waits; the engine puts
the symbol on the wire in some state `g`, and the wait ends in `u` as the flags then say. -/
theorem Env.act (v : Env) {t : State} (h : v.holds t) (ha : t.eng.act = .none) (hs : t.eng.stopp = false)
    (f : Engine → Engine) (ph : Phase → Phase) (p : SeqPoint) {ok bad : Sample → Bool}
    (hp : (f t.eng).OnePending) (hok : ok (f t.eng).sample = false) (hbad : bad (f t.eng).sample = false)
    (haddr : (f t.eng).addr = false) :
    ∃ t' ans g u b, gap t = .done () t' ∧ v.answers ans ∧ g.eng = f t.eng ∧ g.ee = t.ee.withBusy b ∧ g.bus = t.bus ∧
      g.cfg = t.cfg ∧ v.rests t.ee.busydev b ∧ v.holds u ∧ v.same t u ∧
      v.lulls (engineStep ans g).ee.busydev u.ee.busydev ∧
      u = { t with
        eng := (engineStep ans g).eng, ee := (engineStep ans g).ee.withBusy u.ee.busydev, phase := ph t.phase
        seq := t.seq.map (fun q => { q with point := p }), sched := u.sched, draws := u.draws, ill := u.ill
        illcause := u.illcause, rdata := u.rdata, spin := u.spin } ∧
      (ok u.eng.sample = true →
        wait ok bad (seqAt p { t' with eng := f t'.eng, phase := ph t'.phase }) = .done .success (readSr1 u)) ∧
      (ok u.eng.sample = false → bad u.eng.sample = true →
        wait ok bad (seqAt p { t' with eng := f t'.eng, phase := ph t'.phase }) = .done .noAcknowledge (readSr1 u)) := by
  obtain ⟨t', e, ⟨c1, c2⟩, h1, s1, -⟩ := v.quiet t h ha hs
  have he : t'.eng = t.eng := by rw [c2]
  obtain ⟨ans, g, u, h2, ⟨c3, c4⟩, ⟨c5, c6⟩, h3, s2, w1, w2⟩ :=
    v.step (seqAt p { t' with eng := f t'.eng, phase := ph t'.phase }) ok bad
      (v.holds_congr _ _ h1 rfl rfl rfl) (by simpa [seqAt, he] using hp) (by simpa [seqAt, he] using hok)
      (by simpa [seqAt, he] using hbad) (by simpa [seqAt, he] using haddr)
  refine ⟨t', ans, g, u, g.ee.busydev, e, h2, ?_, ?_, ?_, ?_, v.rests_trans _ _ _ c1 c3, h3, ?_, c5, ?_, w1, w2⟩
  · rw [c4]; simp [seqAt, he]
  · rw [c4, c2]; rfl
  · rw [c4, c2]; rfl
  · rw [c4, c2]; rfl
  · exact v.same_trans _ _ _ s1 (v.same_congr _ _ _ _ s2 rfl rfl rfl rfl rfl rfl)
  · rw [c6, engineStep_eq, c4, c2]; rfl

end Sys2Proof.Machine
end

