-- ==== Sys2Proof/Laws/Sequence.lean ====
section
/-!
SUPPORT. Sequences of L1 operations in an environment that lets every wait end (`Env`): `At` says where a command of L2 has come to,
and one lemma for each operation says where it goes from there. A proof about a command chains them.
-/

namespace Sys2Proof.Machine

/-- The fields a sequence of L1 operations leaves as they were, or sets to a value the lemmas name. -/
abbrev State.sequenceKept (t : State) :=
  (t.busy, t.inited, t.mode, t.ccr, t.trise, t.len, t.wbuf, t.host, t.cfg, t.bus, t.epoch, t.doneCount, t.rbuf, t.cpl,
    t.result, t.retry, t.eng.acken, t.seq.map (fun q => q.cmd))

/-- The engine waits in `es` with nothing pending, its flags settled, and has put the symbols `tr` on the wire. -/
structure Engine.Waits (q : EngineState) (tr : List Symbol) (e : Engine) : Prop where
  es : e.es = q
  act : e.act = .none
  stopp : e.stopp = false
  addr : e.addr = false
  addrSeen : e.addrSeen = false
  rxne : e.rxne = false
  sb : q ≠ .sb → e.sb = false
  txe : q = .tx → e.txe = true
  af : q = .sb ∨ q = .tx ∨ q = .rx → e.af = false
  dir_tx : q = .tx → e.dir = false
  dir_rx : q = .rx → e.dir = true
  trace : e.trace = tr

/-- In the environment `v`: the engine waits in `es`, `w` has gone on the wire since `s0`, the fields of `sequenceKept` are those of
`s0`, and the reference EEPROM, if it is the slave, satisfies `E`. -/
structure At (v : Env) (s0 : State) (es : EngineState) (w : List Symbol) (E : Eeprom → Prop) (t : State) : Prop where
  holds : v.holds t
  same : v.same s0 t
  eng : t.eng.Waits es (s0.eng.trace ++ w)
  kept : State.sequenceKept t = State.sequenceKept s0
  ee : t.bus = .reference → E t.ee
  eeU : t.bus = .unknown → t.ee.mem = s0.ee.mem

variable {v : Env} {s0 : State} {es : EngineState} {w : List Symbol} {E E' : Eeprom → Prop} {t : State}

/-- Another wait of the same command. -/
theorem Seq.map_cmd (q : Option Seq) (p : SeqPoint) : (q.map (fun q => ({ q with point := p } : Seq))).map
    (fun q => q.cmd) = q.map (fun q => q.cmd) := by cases q <;> rfl

/-- What `At` says of single fields. -/
theorem At.facts (h : At v s0 es w E t) : t.result = s0.result ∧ t.doneCount = s0.doneCount ∧ t.rbuf = s0.rbuf ∧
    t.eng.acken = s0.eng.acken ∧ t.retry = s0.retry ∧ t.wbuf = s0.wbuf ∧ t.epoch = s0.epoch ∧ t.len = s0.len ∧
    t.busy = s0.busy ∧ t.cpl = s0.cpl ∧ t.seq.map (fun q => q.cmd) = s0.seq.map (fun q => q.cmd) := by
  have := h.kept; simp only [State.sequenceKept, Prod.mk.injEq] at this; tauto

/-- The parameters stay. -/
theorem At.cfg_eq (h : At v s0 es w E t) : t.cfg = s0.cfg := by have := h.kept; simp [State.sequenceKept] at this; tauto

/-- The bus stays. -/
theorem At.bus_eq (h : At v s0 es w E t) : t.bus = s0.bus := by have := h.kept; simp [State.sequenceKept] at this; tauto

/-- Less said of the device. -/
theorem At.weaken (h : At v s0 es w E t) (hE : s0.bus = .reference → ∀ e, E e → E' e) : At v s0 es w E' t :=
  { h with ee := fun hb => hE (by rw [← h.bus_eq]; exact hb) _ (h.ee hb) }

/-- Other fields written, the origin chosen anew. -/
theorem At.write {s1 t' : State} (h : At v s0 es w E t) (he : t'.eng = t.eng) (hee : t'.ee = t.ee)
    (ht : (t'.sched, t'.rdata, t'.ill, t'.illcause) = (t.sched, t.rdata, t.ill, t.illcause))
    (hs : (s1.rdata, s1.ill, s1.illcause, s1.eng.trace, s1.ee.mem) =
      (s0.rdata, s0.ill, s0.illcause, s0.eng.trace, s0.ee.mem))
    (h1 : (s1.busy, s1.cfg, s1.bus) = (s0.busy, s0.cfg, s0.bus))
    (hk : State.sequenceKept t' = State.sequenceKept s1) : At v s1 es w E t' := by
  simp only [Prod.mk.injEq] at ht hs h1
  have hc := h.cfg_eq
  have hb := h.bus_eq
  obtain ⟨-, -, -, -, -, -, -, -, hbu, -⟩ := h.facts
  have hk' := hk
  simp only [State.sequenceKept, Prod.mk.injEq] at hk'
  have hbus : t'.bus = t.bus := by rw [hb, hk'.2.2.2.2.2.2.2.2.2.1, h1.2.2]
  refine ⟨v.holds_congr _ _ h.holds ht.1 ?_ ?_, v.same_congr _ _ _ _ h.same hs.1 hs.2.1 hs.2.2.1 ht.2.1 ht.2.2.1 ht.2.2.2,
    ?_, hk, ?_, ?_⟩
  · rw [hk'.1, hbu, h1.1]
  · rw [hk'.2.2.2.2.2.2.2.2.1, hc, h1.2.1]
  · rw [he, hs.2.2.2.1]; exact h.eng
  · intro hb'; rw [hee]; exact h.ee (by rw [← hbus]; exact hb')
  · intro hb'; rw [hee, hs.2.2.2.2]; exact h.eeU (by rw [← hbus]; exact hb')

/-- On an unknown bus the EEPROM is no slave. -/
theorem engineStep_unknown (ans : Answer) {s : State} (h : s.bus = .unknown) : (engineStep ans s).ee = s.ee := by
  unfold engineStep State.slaveStart State.slaveByte State.slaveRead State.slaveStop
  rw [h]; cases s.eng.act <;> simp
  split <;> rfl

/-- Where an operation goes whose symbol went on the wire in state `g`. -/
theorem At.stepped {s1 g u u' : State} {ans : Answer} {b : Bool} {es' : EngineState} {w' : List Symbol}
    (h : At v s0 es w E t) (hee : g.ee = t.ee.withBusy b) (hbus : g.bus = t.bus) (hh : v.holds u) (hs : v.same t u)
    (hl : v.lulls (engineStep ans g).ee.busydev u.ee.busydev)
    (hu : u.ee = (engineStep ans g).ee.withBusy u.ee.busydev)
    (ht : (u'.sched, u'.busy, u'.cfg, u'.bus, u'.rdata, u'.ill, u'.illcause, u'.ee) =
      (u.sched, u.busy, u.cfg, t.bus, u.rdata, u.ill, u.illcause, u.ee))
    (h1 : (s1.rdata, s1.ill, s1.illcause, s1.eng.trace, s1.ee.mem) =
      (s0.rdata, s0.ill, s0.illcause, s0.eng.trace, s0.ee.mem))
    (he : u'.eng.Waits es' (s0.eng.trace ++ w'))
    (hk : State.sequenceKept u' = State.sequenceKept s1)
    (hE : t.bus = .reference → ∀ b', v.lulls (engineStep ans g).ee.busydev b' → E' ((engineStep ans g).ee.withBusy b')) :
    At v s1 es' w' E' u' := by
  simp only [Prod.mk.injEq] at ht h1
  obtain ⟨t1, t2, t3, t4, t5, t6, t7, t8⟩ := ht
  refine ⟨v.holds_congr _ _ hh t1 t2 t3,
    v.same_congr _ _ _ _ (v.same_trans _ _ _ h.same hs) h1.1 h1.2.1 h1.2.2.1 t5 t6 t7, ?_, hk, ?_, ?_⟩
  · rw [h1.2.2.2.1]; exact he
  · intro hb; rw [t8, hu]; exact hE (by rw [← t4]; exact hb) _ hl
  · intro hb
    have hb' : t.bus = .unknown := by rw [← t4]; exact hb
    rw [t8, hu, engineStep_unknown ans (by rw [hbus]; exact hb'), hee, h1.2.2.2.2]
    exact h.eeU hb'

/-! ### The L1 operations -/

/-- `bl_start()` from an idle bus. -/
theorem At.start (h : At v s0 .idle w E t) (hout : ∀ e, E e → e.out ≠ .driving)
    (hE : ∀ e b b', E e → v.rests e.busydev b → v.lulls b b' → E' (e.begin.withBusy b')) :
    ∃ u, blStart t = .done .success u ∧ At v s0 .sb (w ++ [.start]) E' u ∧ u.eng.dir = t.eng.dir := by
  obtain ⟨e1, e2, e3, e4, e5, e6, e7, e8, e9, e10, e11, e12⟩ := h.eng
  have e7 := e7 (by simp)
  obtain ⟨t', ans, g, u, b, hg, -, he, hee, hbus, hcfg, hr, hh, hs, hl, hu, w1, -⟩ :=
    v.act h.holds e2 e3 Engine.assertStart id .waitStart (ok := fun f => f.sb) (bad := never)
      (by simp [Engine.OnePending, Engine.assertStart, e1, e2, e3])
      (by simp [Engine.assertStart, e1, e2, e3, Engine.sample, e7]) rfl (by simp [Engine.assertStart, e1, e2, e3, e4])
  have hg' : g.eng = { t.eng with af := false, act := .start } := by rw [he]; simp [Engine.assertStart, e1, e2, e3]
  have hact : g.eng.act = .start := by rw [hg']
  have hx : engineStep ans g = { g with eng := g.eng.afterStart, ee := g.slaveStart ans } := by simp [engineStep, hact]
  have hue : u.eng = g.eng.afterStart := by rw [hu, hx]
  have hsb : u.eng.sb = true := by rw [hue]; rfl
  have w1' : wait (fun f => f.sb) never (seqAt .waitStart { t' with eng := t'.eng.assertStart }) = _ := w1 hsb
  refine ⟨setPhase .success .addressPhase (readSr1 u), ?_, ?_, ?_⟩
  · unfold blStart; rw [hg, Ran.andThen_done, w1', Ran.andThen_done]
  · have hr1 : readSr1 u = u := readSr1_clear (by rw [hue, hg']; exact e4)
    rw [hr1]
    refine h.stepped hee hbus hh hs hl (by rw [hu]) ?_ rfl ?_ ?_ ?_
    · rw [hu]; rfl
    · simp only [setPhase, hue, hg']
      constructor <;> simp [Engine.afterStart, Engine.emit, e1, e3, e4, e5, e6, e12]
    · rw [← h.kept, hu, hx]; simp only [State.sequenceKept, setPhase, hg', Engine.afterStart, Engine.emit, Seq.map_cmd]
    · intro hb b' hb'
      have hb2 : g.bus = .reference := by rw [hbus]; exact hb
      have ho := hout _ (h.ee hb)
      have : (engineStep ans g).ee = (t.ee.withBusy b).begin := by
        rw [hx]; simp only [State.slaveStart, hb2, hee, Eeprom.onStart]; exact if_neg ho
      rw [this] at hb' ⊢
      exact hE t.ee b b' (h.ee hb) hr hb'
  · simp [setPhase, readSr1, Engine.readSr1, hue, hg', Engine.afterStart, Engine.emit, e4]

/-- `bl_start()` inside a transaction: a repeated START. -/
theorem At.restart (h : At v s0 .tx w E t) (hout : ∀ e, E e → e.out ≠ .driving)
    (hE : ∀ e b b', E e → v.rests e.busydev b → v.lulls b b' → E' (e.begin.withBusy b')) :
    ∃ u, blStart t = .done .success u ∧ At v s0 .sb (w ++ [.rstart]) E' u := by
  obtain ⟨e1, e2, e3, e4, e5, e6, e7, e8, e9, e10, e11, e12⟩ := h.eng
  have e7 := e7 (by simp)
  obtain ⟨t', ans, g, u, b, hg, -, he, hee, hbus, hcfg, hr, hh, hs, hl, hu, w1, -⟩ :=
    v.act h.holds e2 e3 Engine.assertStart id .waitStart (ok := fun f => f.sb) (bad := never)
      (by simp [Engine.OnePending, Engine.assertStart, e1, e2, e3])
      (by simp [Engine.assertStart, e1, e2, Engine.sample, e7]) rfl (by simp [Engine.assertStart, e1, e2, e4])
  have hg' : g.eng = { t.eng with af := false, act := .rstart } := by rw [he]; simp [Engine.assertStart, e1, e2]
  have hact : g.eng.act = .rstart := by rw [hg']
  have hx : engineStep ans g = { g with eng := g.eng.afterRstart, ee := g.slaveStart ans } := by simp [engineStep, hact]
  have hue : u.eng = g.eng.afterRstart := by rw [hu, hx]
  have hsb : u.eng.sb = true := by rw [hue]; rfl
  have w1' : wait (fun f => f.sb) never (seqAt .waitStart { t' with eng := t'.eng.assertStart }) = _ := w1 hsb
  refine ⟨setPhase .success .addressPhase (readSr1 u), ?_, ?_⟩
  · unfold blStart; rw [hg, Ran.andThen_done, w1', Ran.andThen_done]
  · have hr1 : readSr1 u = u := readSr1_clear (by rw [hue]; rfl)
    rw [hr1]
    refine h.stepped hee hbus hh hs hl (by rw [hu]) ?_ rfl ?_ ?_ ?_
    · rw [hu]; rfl
    · simp only [setPhase, hue, hg']
      constructor <;> simp [Engine.afterRstart, Engine.emit, e3, e12]
    · rw [← h.kept, hu, hx]; simp only [State.sequenceKept, setPhase, hg', Engine.afterRstart, Engine.emit, Seq.map_cmd]
    · intro hb b' hb'
      have hb2 : g.bus = .reference := by rw [hbus]; exact hb
      have ho := hout _ (h.ee hb)
      have : (engineStep ans g).ee = (t.ee.withBusy b).begin := by
        rw [hx]; simp only [State.slaveStart, hb2, hee, Eeprom.onStart]; exact if_neg ho
      rw [this] at hb' ⊢
      exact hE t.ee b b' (h.ee hb) hr hb'

/-- The slaves' answer to a transmitted byte. -/
theorem slaveByte_reference (ans : Answer) (a : Byte) {s : State} (h : s.bus = .reference) :
    s.slaveByte ans a = s.ee.onByte s.cfg ans a := by simp [State.slaveByte, h]

theorem slaveByte_unknown (ans : Answer) (a : Byte) {s : State} (h : s.bus = .unknown) :
    s.slaveByte ans a = (ans.ack, s.ee) := by simp [State.slaveByte, h]

/-- `bl_write_address()`, acknowledged (`k = true`) or not. -/
theorem At.address (a : Byte) {E' : Bool → Eeprom → Prop} (h : At v s0 .sb w E t)
    (hE : t.bus = .reference → ∀ e b b' ans, E e → v.rests e.busydev b →
      v.lulls ((e.withBusy b).onByte t.cfg ans a).2.busydev b' →
      E' ((e.withBusy b).onByte t.cfg ans a).1 (((e.withBusy b).onByte t.cfg ans a).2.withBusy b')) :
    ∃ k u, blWriteAddress a t = .done (if k = true then .success else .noAcknowledge) u ∧
      At v s0 (if k = true then if directionBit a then .rx else .tx else .nak) (w ++ [.tx a k]) (E' k) u ∧
      (t.bus = .unknown → ∃ ans, v.answers ans ∧ ans.ack = k) ∧ u.eng.dr = a ∧
      (k = false → u.eng.af = true ∧ u.eng.dir = t.eng.dir) := by
  obtain ⟨e1, e2, e3, e4, e5, e6, e7, e8, e9, e10, e11, e12⟩ := h.eng
  have e9 := e9 (.inl rfl)
  obtain ⟨t', ans, g, u, b, hg, ha, he, hee, hbus, hcfg, hr, hh, hs, hl, hu, w1, w2⟩ :=
    v.act h.holds e2 e3 (Engine.loadTx a) id .waitAddress (ok := fun f => f.addr) (bad := fun f => f.af)
      (by simp [Engine.OnePending, Engine.loadTx, e1, e2, e3]) (by simp [Engine.loadTx, e1, e2, Engine.sample, e4])
      (by simp [Engine.loadTx, e1, e2, Engine.sample, e9]) (by simp [Engine.loadTx, e1, e2, e4])
  have hg' : g.eng = { t.eng with dr := a, sb := false, act := .txAddr } := by rw [he]; simp [Engine.loadTx, e1, e2]
  have hact : g.eng.act = .txAddr := by rw [hg']
  have hdr : g.eng.dr = a := by rw [hg']
  have hx : engineStep ans g =
      { g with eng := g.eng.afterTxAddr (g.slaveByte ans a).1, ee := (g.slaveByte ans a).2 } := by
    simp [engineStep, hact, hdr]
  have hue : u.eng = g.eng.afterTxAddr (g.slaveByte ans a).1 := by rw [hu, hx]
  have hEE : t.bus = .reference → ∀ b', v.lulls (engineStep ans g).ee.busydev b' →
      E' (g.slaveByte ans a).1 ((engineStep ans g).ee.withBusy b') := by
    intro hb b' hb'
    rw [hx] at hb' ⊢
    rw [slaveByte_reference ans a (hbus.trans hb), hee, hcfg] at hb' ⊢
    exact hE hb t.ee b b' ans (h.ee hb) hr hb'
  have hU : t.bus = .unknown → ans.ack = (g.slaveByte ans a).1 := fun hb => by
    rw [slaveByte_unknown ans a (hbus.trans hb)]
  cases hk : (g.slaveByte ans a).1
  · rw [hk] at hue hEE hU
    have w2' : wait (fun f => f.addr) (fun f => f.af) (seqAt .waitAddress { t' with eng := t'.eng.loadTx a }) = _ :=
      w2 (by rw [hue, hg']; simp [Engine.sample, Engine.afterTxAddr, Engine.emit, Engine.shiftedOut, e4])
        (by rw [hue]; rfl)
    have hr1 : readSr1 u = u := readSr1_clear (by rw [hue, hg']; exact e4)
    rw [hr1] at w2'
    refine ⟨false, settleAddress .noAcknowledge u, ?_, ?_, fun hb => ⟨ans, ha, hU hb⟩, ?_, fun _ => ⟨?_, ?_⟩⟩
    · unfold blWriteAddress; rw [hg, Ran.andThen_done, w2', Ran.andThen_done]; rfl
    · refine h.stepped hee hbus hh hs hl (by rw [hu]) ?_ rfl ?_ ?_ hEE
      · rw [hu]; rfl
      · simp only [settleAddress, setPhase, hue, hg']
        constructor <;> simp [Engine.afterTxAddr, Engine.shiftedOut, Engine.emit, e3, e4, e5, e6, e12]
      · rw [← h.kept, hu, hx, hk]
        simp only [State.sequenceKept, settleAddress, setPhase, hg', Engine.afterTxAddr, Engine.shiftedOut, Engine.emit,
          Seq.map_cmd, reduceCtorEq, if_false, Bool.false_eq_true]
    · simp [settleAddress, setPhase, hue, hg', Engine.afterTxAddr, Engine.shiftedOut, Engine.emit]
    · simp [settleAddress, setPhase, hue, Engine.afterTxAddr]
    · simp [settleAddress, setPhase, hue, hg', Engine.afterTxAddr, Engine.shiftedOut, Engine.emit]
  · rw [hk] at hue hEE hU
    have w1' : wait (fun f => f.addr) (fun f => f.af) (seqAt .waitAddress { t' with eng := t'.eng.loadTx a }) = _ :=
      w1 (by rw [hue]; rfl)
    refine ⟨true, settleAddress .success (readSr1 u), ?_, ?_, fun hb => ⟨ans, ha, hU hb⟩, ?_, fun h => by simp at h⟩
    · unfold blWriteAddress; rw [hg, Ran.andThen_done, w1', Ran.andThen_done]; rfl
    · refine h.stepped hee hbus hh hs hl (by rw [hu]) ?_ rfl ?_ ?_ hEE
      · rw [hu]; rfl
      · simp only [settleAddress, setPhase, readSr1, hue, hg']
        cases hd : directionBit a <;> constructor <;>
          simp [hd, Engine.readSr1, Engine.readSr2, Engine.afterTxAddr, Engine.shiftedOut, Engine.emit, e3, e4, e5, e6, e9, e12]
      · rw [← h.kept, hu, hx, hk]
        simp only [State.sequenceKept, settleAddress, setPhase, readSr1, hg', Engine.readSr1, Engine.readSr2,
          Engine.afterTxAddr, Engine.shiftedOut, Engine.emit, Seq.map_cmd, if_true]
        cases hd : directionBit a <;> simp
    · simp only [settleAddress, setPhase, readSr1, hue, hg', Engine.readSr1, Engine.readSr2, Engine.afterTxAddr,
        Engine.shiftedOut, Engine.emit, if_true]
      cases hd : directionBit a <;> simp

/-- `bl_write_byte()` acknowledged. -/
theorem At.byteAck (a : Byte) (h : At v s0 .tx w E t) (hu : t.bus = .unknown → ∀ ans, v.answers ans → ans.ack = true)
    (hE : ∀ e b b' ans, E e → v.rests e.busydev b → v.lulls ((e.withBusy b).onByte t.cfg ans a).2.busydev b' →
      ((e.withBusy b).onByte t.cfg ans a).1 = true ∧ E' (((e.withBusy b).onByte t.cfg ans a).2.withBusy b')) :
    ∃ u, blWriteByte a t = .done .success u ∧ At v s0 .tx (w ++ [.tx a true]) E' u := by
  obtain ⟨e1, e2, e3, e4, e5, e6, e7, e8, e9, e10, e11, e12⟩ := h.eng
  have e9 := e9 (.inr (.inl rfl))
  have e8 := e8 rfl
  obtain ⟨t', ans, g, u, b, hg, ha, he, hee, hbus, hcfg, hr, hh, hs, hl, hu', w1, -⟩ :=
    v.act h.holds e2 e3 (Engine.loadTx a) id .waitTransmit (ok := fun f => f.txe) (bad := fun f => f.af)
      (by simp [Engine.OnePending, Engine.loadTx, e1, e2, e3, e8]) (by simp [Engine.loadTx, e1, e2, Engine.sample, e8])
      (by simp [Engine.loadTx, e1, e2, Engine.sample, e9, e8]) (by simp [Engine.loadTx, e1, e2, e4, e8])
  have hg' : g.eng = { t.eng with dr := a, txe := false, act := .txData } := by
    rw [he]; simp [Engine.loadTx, e1, e2, e8]
  have hact : g.eng.act = .txData := by rw [hg']
  have hdr : g.eng.dr = a := by rw [hg']
  have hx : engineStep ans g =
      { g with eng := g.eng.afterTxData (g.slaveByte ans a).1, ee := (g.slaveByte ans a).2 } := by
    simp [engineStep, hact, hdr]
  have hk : (g.slaveByte ans a).1 = true := by
    cases hb : t.bus
    · rw [slaveByte_reference ans a (hbus.trans hb), hee, hcfg]
      rw [hx, slaveByte_reference ans a (hbus.trans hb), hee, hcfg] at hl
      exact (hE t.ee b _ ans (h.ee hb) hr hl).1
    · rw [slaveByte_unknown ans a (hbus.trans hb)]; exact hu hb ans ha
  have hue : u.eng = g.eng.afterTxData true := by rw [hu', hx, hk]
  have w1' : wait (fun f => f.txe) (fun f => f.af) (seqAt .waitTransmit { t' with eng := t'.eng.loadTx a }) = _ :=
    w1 (by rw [hue]; rfl)
  have hr1 : readSr1 u = u := readSr1_clear (by rw [hue, hg']; exact e4)
  rw [hr1] at w1'
  refine ⟨failToError .success u, ?_, ?_⟩
  · unfold blWriteByte; rw [hg, Ran.andThen_done, w1', Ran.andThen_done]
  · refine h.stepped hee hbus hh hs hl (by rw [hu']) ?_ rfl ?_ ?_ ?_
    · rw [hu']; rfl
    · simp only [failToError, hue, hg']
      constructor <;> simp [Engine.afterTxData, Engine.shiftedOut, Engine.emit, e1, e3, e4, e5, e6, e7, e9, e10, e12]
    · rw [← h.kept, hu', hx, hk]
      simp only [State.sequenceKept, failToError, hg', Engine.afterTxData, Engine.shiftedOut, Engine.emit, Seq.map_cmd,
        if_true]
    · intro hb b' hb'
      rw [hx] at hb' ⊢
      rw [slaveByte_reference ans a (hbus.trans hb), hee, hcfg] at hb' ⊢
      exact (hE t.ee b b' ans (h.ee hb) hr hb').2

/-- The byte the slaves give. -/
theorem slaveRead_reference (ans : Answer) (k : Bool) {s : State} (h : s.bus = .reference) :
    s.slaveRead ans k = s.ee.onRead s.cfg ans k := by simp [State.slaveRead, h]

theorem slaveRead_unknown (ans : Answer) (k : Bool) {s : State} (h : s.bus = .unknown) :
    s.slaveRead ans k = (ans.byte, s.ee) := by simp [State.slaveRead, h]

/-- `bl_read_byte()`. -/
theorem At.read (k : Bool) (x : Byte) (h : At v s0 .rx w E t)
    (hu : t.bus = .unknown → ∀ ans, v.answers ans → ans.byte = x)
    (hE : t.bus = .reference → ∀ e b b' ans, E e → v.rests e.busydev b →
      v.lulls ((e.withBusy b).onRead t.cfg ans k).2.busydev b' →
      ((e.withBusy b).onRead t.cfg ans k).1 = x ∧ E' (((e.withBusy b).onRead t.cfg ans k).2.withBusy b')) :
    ∃ u, blReadByte k t = .done .success u ∧ At v { s0 with result := x, eng := { s0.eng with acken := k } } .rx
        (w ++ [.rx x k]) E' u ∧ u.eng.dr = x := by
  obtain ⟨e1, e2, e3, e4, e5, e6, e7, e8, e9, e10, e11, e12⟩ := h.eng
  obtain ⟨t', ans, g, u, b, hg, ha, he, hee, hbus, hcfg, hr, hh, hs, hl, hu', w1, -⟩ :=
    v.act h.holds e2 e3 (Engine.setAckMode k) id .waitReceive (ok := fun f => f.rxne) (bad := never)
      (by simp [Engine.OnePending, Engine.setAckMode, e1, e2, e3, e6])
      (by simp [Engine.setAckMode, e1, e2, Engine.sample, e6]) rfl (by simp [Engine.setAckMode, e1, e2, e4, e6])
  have hg' : g.eng = { t.eng with acken := k, act := .rxData } := by rw [he]; simp [Engine.setAckMode, e1, e2, e6]
  have hact : g.eng.act = .rxData := by rw [hg']
  have hak : g.eng.acken = k := by rw [hg']
  have hx : engineStep ans g =
      { g with eng := g.eng.afterRx (g.slaveRead ans k).1, ee := (g.slaveRead ans k).2 } := by
    simp [engineStep, hact, hak]
  have hk : (g.slaveRead ans k).1 = x := by
    cases hb : t.bus
    · rw [slaveRead_reference ans k (hbus.trans hb), hee, hcfg]
      rw [hx, slaveRead_reference ans k (hbus.trans hb), hee, hcfg] at hl
      exact (hE hb t.ee b _ ans (h.ee hb) hr hl).1
    · rw [slaveRead_unknown ans k (hbus.trans hb)]; exact hu hb ans ha
  have hue : u.eng = g.eng.afterRx x := by rw [hu', hx, hk]
  have w1' : wait (fun f => f.rxne) never (seqAt .waitReceive { t' with eng := t'.eng.setAckMode k }) = _ :=
    w1 (by rw [hue]; rfl)
  have hr1 : readSr1 u = u := readSr1_clear (by rw [hue, hg']; exact e4)
  rw [hr1] at w1'
  have hres : u.eng.dr = x := by rw [hue]; rfl
  refine ⟨takeResult .success u, ?_, ?_, ?_⟩
  · unfold blReadByte; rw [hg, Ran.andThen_done, w1', Ran.andThen_done]
  · refine h.stepped hee hbus hh hs hl (by rw [hu']) ?_ rfl ?_ ?_ ?_
    · rw [hu']; rfl
    · simp only [takeResult, if_true, hue, hg']
      constructor <;> simp [Engine.afterRx, Engine.readDr, Engine.emit, e1, e3, e4, e5, e7, e9, e11, e12]
    · have := congrArg (fun (a1, a2, a3, a4, a5, a6, a7, a8, a9, a10, a11, a12, a13, a14, _, a16, _, a18) =>
        (a1, a2, a3, a4, a5, a6, a7, a8, a9, a10, a11, a12, a13, a14, x, a16, k, a18)) h.kept
      simp only at this
      refine Eq.trans ?_ this
      rw [hu', hx, hk]
      simp only [State.sequenceKept, takeResult, hg', Engine.afterRx, Engine.readDr, Engine.emit, Seq.map_cmd, if_true]
    · intro hb b' hb'
      rw [hx] at hb' ⊢
      rw [slaveRead_reference ans k (hbus.trans hb), hee, hcfg] at hb' ⊢
      exact (hE hb t.ee b b' ans (h.ee hb) hr hb').2
  · simp [takeResult, Engine.readDr, hres]

/-- `stop_wait()`. -/
theorem At.stop (h : At v s0 es w E t) (hes : es ≠ .idle)
    (hE : ∀ e b b' n ans, E e → v.rests e.busydev b → v.lulls ((e.withBusy b).onStop t.cfg n ans).busydev b' →
      E' (((e.withBusy b).onStop t.cfg n ans).withBusy b')) :
    ∃ u, stopWait t = .done .success u ∧ At v s0 .idle (w ++ [.stop]) E' u ∧ u.eng.AtRest ∧ u.phase = .idle ∧
        u.eng.af = t.eng.af ∧ u.eng.dir = t.eng.dir ∧ u.eng.dr = t.eng.dr := by
  obtain ⟨e1, e2, e3, e4, e5, e6, e7, e8, e9, e10, e11, e12⟩ := h.eng
  have e1' : t.eng.es ≠ .idle := by rw [e1]; exact hes
  obtain ⟨t', ans, g, u, b, hg, -, he, hee, hbus, hcfg, hr, hh, hs, hl, hu, w1, -⟩ :=
    v.act h.holds e2 e3 Engine.assertStop (fun _ => .idle) .waitStop (ok := fun f => !f.stopp) (bad := never)
      (by simp [Engine.OnePending, Engine.assertStop, e1', e2]) (by simp [Engine.assertStop, e1', Engine.sample])
      rfl (by simp [Engine.assertStop, e1', e4])
  have hg' : g.eng = { t.eng with stopp := true } := by rw [he]; simp [Engine.assertStop, e1']
  have hact : g.eng.act = .none := by rw [hg']; exact e2
  have hst : g.eng.stopp = true := by rw [hg']
  have hx : engineStep ans g = { g with eng := g.eng.afterStop, ee := g.slaveStop ans, draws := g.draws + 1 } := by
    simp [engineStep, hact, hst]
  have hue : u.eng = g.eng.afterStop := by rw [hu, hx]
  have w1' : wait (fun f => !f.stopp) never (seqAt .waitStop { t' with eng := t'.eng.assertStop, phase := .idle }) = _ :=
    w1 (by rw [hue]; rfl)
  have hr1 : readSr1 u = u := readSr1_clear (by rw [hue]; rfl)
  rw [hr1] at w1'
  refine ⟨u, ?_, ?_, ?_, by rw [hu], by rw [hue, hg']; rfl, by rw [hue, hg']; rfl, by rw [hue, hg']; rfl⟩
  · unfold stopWait blStop; rw [hg, Ran.andThen_done, Ran.andThen_done, w1']
  · refine h.stepped hee hbus hh hs hl (by rw [hu]) ?_ rfl ?_ ?_ ?_
    · rw [hu]
    · rw [hue, hg']
      constructor <;> simp [Engine.afterStop, Engine.emit, e2, e12]
    · rw [← h.kept, hu, hx]; simp only [State.sequenceKept, hg', Engine.afterStop, Engine.emit, Seq.map_cmd]
    · intro hb b' hb'
      have : (engineStep ans g).ee = (t.ee.withBusy b).onStop t.cfg g.draws ans := by
        rw [hx]; simp only [State.slaveStop, hbus, hb, hee, hcfg]
      rw [this] at hb' ⊢
      exact hE t.ee b b' _ ans (h.ee hb) hr hb'
  · rw [hue, hg']
    constructor <;> simp [Engine.afterStop, Engine.emit, e2]

/-- A quiet gap. -/
theorem At.gap (h : At v s0 es w E t) (hE : ∀ e b, E e → v.rests e.busydev b → E (e.withBusy b)) :
    ∃ u, gap t = .done () u ∧ At v s0 es w E u ∧ Calm v.rests t u ∧ (v.ticks → (nextGap t).1.pulse = true) := by
  obtain ⟨u, e, hc, hh, hs, hp⟩ := v.quiet t h.holds h.eng.act h.eng.stopp
  refine ⟨u, e, ⟨hh, v.same_trans _ _ _ h.same hs, ?_, ?_, ?_, ?_⟩, hc, hp⟩
  · rw [hc.2]; exact h.eng
  · rw [hc.2]; exact h.kept
  · intro hb
    have : u.ee = t.ee.withBusy u.ee.busydev := congrArg State.ee hc.2
    rw [this]
    exact hE _ _ (h.ee (by rw [hc.2] at hb; exact hb)) hc.1
  · intro hb
    have : u.ee = t.ee.withBusy u.ee.busydev := congrArg State.ee hc.2
    rw [this]
    exact h.eeU (by rw [hc.2] at hb; exact hb)

/-! ### The reference EEPROM during a sequence -/

/-- A device whose busy state satisfies `P` satisfies `P'` once a gap has begun, and from then on. -/
structure Env.Settles (v : Env) (P P' : Bool → Prop) : Prop where
  rests : ∀ b b', P b → v.rests b b' → P' b'
  keeps : ∀ b b', P' b → v.rests b b' → P' b'
  lulls : ∀ b b', P' b → v.lulls b b' → P' b'

/-- Not busy. -/
abbrev Off : Bool → Prop := fun b => b = false

/-- A device that is not busy stays so. -/
theorem Env.settles_off (v : Env) : v.Settles Off Off :=
  ⟨fun b b' h h' => v.rests_false b' (by rw [← (h : b = false)]; exact h'),
    fun b b' h h' => v.rests_false b' (by rw [← (h : b = false)]; exact h'),
    fun b b' h h' => v.lulls_false b' (by rw [← (h : b = false)]; exact h')⟩

theorem Env.Settles.again {P P' : Bool → Prop} (h : v.Settles P P') : v.Settles P' P' := ⟨h.keeps, h.keeps, h.lulls⟩

/-- The device can give the acknowledge bit `k`, its busy state satisfying `P`. -/
structure Env.Hears (v : Env) (P : Bool → Prop) (bus : BusKind) (k : Bool) : Prop where
  reference : bus = .reference → P (!k)
  unknown : bus = .unknown → ∃ a, v.answers a ∧ a.ack = k

/-- The delay after a probe that is not acknowledged ends, if there is such a probe. -/
abbrev Env.Delays (v : Env) (P : Bool → Prop) (s : State) : Prop := v.Hears P s.bus false → v.ticks ∨ s.cfg.readyDelayMs = 0

/-- An unknown bus answers every byte alike. -/
abbrev Env.Alike (v : Env) (bus : BusKind) : Prop :=
  bus = .unknown → ∀ a a', v.answers a → v.answers a' → a.ack = a'.ack

/-- Not driving the data line, its busy state as `P` says, with content `m`. -/
abbrev SlaveFree (P : Bool → Prop) (m : Memory) (e : Eeprom) : Prop := e.out ≠ .driving ∧ P e.busydev ∧ e.mem = m

/-- After a START. -/
abbrev SlaveBegun (P : Bool → Prop) (m : Memory) (e : Eeprom) : Prop :=
  e.first = true ∧ e.out = .released ∧ P e.busydev ∧ e.mem = m ∧ e.pagebuf = []

/-- Write-selected, `k` bytes of the memory address `a` received. -/
abbrev SlaveTakes (m : Memory) (a : MemAddr) (k : Fin 3) (e : Eeprom) : Prop :=
  e.first = false ∧ e.sel = .write ∧ e.out = .released ∧ e.busydev = false ∧ e.mem = m ∧ e.pagebuf = [] ∧ e.naddr = k ∧
    (k = 1 → e.hi = addrHigh a) ∧ (k = 2 → e.ptr = a)

/-- Write-selected, the pairs `ps` in the page buffer, the next byte for address `p`. -/
abbrev SlaveHolds (m : Memory) (ps : List (Nat × Byte)) (p : MemAddr) (e : Eeprom) : Prop :=
  e.first = false ∧ e.sel = .write ∧ e.out = .released ∧ e.busydev = false ∧ e.mem = m ∧ e.naddr = 2 ∧ e.pagebuf = ps ∧
    e.ptr = p

/-- Read-selected at address `p`, about to give a byte. -/
abbrev SlaveReads (m : Memory) (p : Nat) (e : Eeprom) : Prop :=
  e.sel = .read ∧ e.out ≠ .released ∧ e.ptr.toNat = p ∧ e.mem = m ∧ e.pagebuf = [] ∧ e.busydev = false

/-- Not selected after a START. -/
abbrev SlaveNaks (P : Bool → Prop) (m : Memory) (e : Eeprom) : Prop :=
  e.sel = .none ∧ e.out = .released ∧ P e.busydev ∧ e.mem = m ∧ e.pagebuf = []

/-- Nothing said of the busy state. -/
abbrev Any : Bool → Prop := fun _ => True

theorem Env.settles_any (v : Env) : v.Settles Any Any := ⟨fun _ _ _ _ => trivial, fun _ _ _ _ => trivial, fun _ _ _ _ => trivial⟩

/-- In a steady environment that ends busy periods the device is not busy after a gap. -/
theorem steady_settles (d : Steady) : (steadyEnv d).Settles Any (fun b => d.ready = true → b = false) :=
  ⟨fun b b' _ (h : b' = (b && !d.ready)) hr => by simp [h, hr],
    fun b b' h (h' : b' = (b && !d.ready)) hr => by simp [h', hr],
    fun b b' h (h' : b' = b) hr => by rw [h', h hr]⟩

/-- A device that is not busy, or whose busy period the steady environment ends. -/
theorem steady_settles_acks (d : Steady) : (steadyEnv d).Settles (fun b => b = false ∨ d.ready = true) Off :=
  ⟨fun b b' h (h' : b' = (b && !d.ready)) => by rcases h with h | h <;> simp [h', h],
    ((steadyEnv d).settles_off).keeps, ((steadyEnv d).settles_off).lulls⟩

/-- A busy period that the steady environment does not end. -/
theorem steady_settles_busy {d : Steady} (h : d.ready = false) : (steadyEnv d).Settles (fun b => b = true) (fun b => b = true) :=
  ⟨fun b b' h1 (h2 : b' = (b && !d.ready)) => by rw [h2, h, h1]; rfl,
    fun b b' h1 (h2 : b' = (b && !d.ready)) => by rw [h2, h, h1]; rfl, fun b b' h1 (h2 : b' = b) => by rw [h2, h1]⟩

/-- An unknown bus of a steady environment answers alike. -/
theorem steady_alike (d : Steady) (b : BusKind) : (steadyEnv d).Alike b := fun _ a a' (h : a = d.answer) (h' : a' = d.answer) => by
  rw [h, h']

/-- The identifier of an address byte. -/
theorem slaveId_bus (i : BitVec 7) (b : Bool) : slaveId (busAddress i b) = i := by
  revert i b; decide

/-- The direction bit of an address byte. -/
theorem dir_bus (i : BitVec 7) (b : Bool) : directionBit (busAddress i b) = b := by
  revert i b; decide

/-- The two memory-address bytes make the address. -/
theorem high_low (a : MemAddr) : addrHigh a ++ addrLow a = a := by
  apply BitVec.eq_of_getLsbD_eq
  intro i hi
  unfold addrHigh addrLow
  rw [BitVec.getLsbD_append]
  split
  · simp_all
  · have : 8 + (i - 8) = i := by omega
    simp only [BitVec.getLsbD_extractLsb', this]; simp; omega

/-- The state `u` an operation begun in `t` ends in when the device did not acknowledge DEVW: the bus is freed (R190, R227). -/
structure Env.NakFreed (v : Env) (P : Bool → Prop) (m : Memory) (s0 : State) (w : List Symbol) (t u : State) : Prop where
  ends : At v s0 .idle (w ++ probeShape s0.cfg false) (SlaveFree P m) u
  rest : u.eng.AtRest
  phase : u.phase = .idle
  af : u.eng.af = true
  dir : u.eng.dir = t.eng.dir
  dr : u.eng.dr = devW s0.cfg
  hears : v.Hears P s0.bus false

/-- START and DEVW: the device acknowledges and `k` goes on, or it does not and the bus is freed (R190, R192). -/
theorem At.call {P P' : Bool → Prop} {m : Memory} (hS : v.Settles P P') (a : MemAddr)
    (h : At v s0 .idle w (SlaveFree P m) t) (k : State → Ran TransferOutcome) :
    (∃ u, ((blStart t).orFail abort fun s => (blWriteAddress (devW s.cfg) s).orFail abort k) = k u ∧
      At v s0 .tx (w ++ [.start, .tx (devW s0.cfg) true]) (SlaveTakes m a 0) u ∧ u.eng.dr = devW s0.cfg ∧
      v.Hears P' s0.bus true) ∨
    (∃ u, ((blStart t).orFail abort fun s => (blWriteAddress (devW s.cfg) s).orFail abort k) = .done .noAcknowledge u ∧
      v.NakFreed P' m s0 w t u) := by
  obtain ⟨u1, e1, h1, d1⟩ := h.start (E' := SlaveBegun P' m) (fun e he => he.1) (fun e b b' he hr hl => by
    obtain ⟨g1, g2, g3⟩ := he
    exact ⟨rfl, rfl, hS.lulls _ _ (hS.rests _ _ g2 hr) hl, g3, rfl⟩)
  obtain ⟨c, u2, e2, h2, hU, k2, n2⟩ := h1.address (devW u1.cfg)
    (E' := fun c e => P' (!c) ∧ (c = true → SlaveTakes m a 0 e) ∧ (c = false → SlaveNaks P' m e))
    (fun _ e b b' ans he hr hl => by
      obtain ⟨g1, g2, g3, g4, g5⟩ := he
      have hb := hS.keeps _ _ g3 hr
      cases b
      · have : (e.withBusy false).onByte u1.cfg ans (devW u1.cfg) = (true, { e.withBusy false with
            first := false, sel := .write, naddr := 0, pagebuf := [], out := .released }) := by
          simp [Eeprom.onByte, g1, Eeprom.onAddress, devW, slaveId_bus, dir_bus]
        rw [this] at hl ⊢
        have hb' : b' = false := v.lulls_false _ hl
        exact ⟨hb, fun _ => ⟨rfl, rfl, rfl, hb', g4, rfl, rfl, fun h => absurd h (by simp), fun h => absurd h (by simp)⟩,
          fun h => by simp at h⟩
      · have : (e.withBusy true).onByte u1.cfg ans (devW u1.cfg) =
            (false, { e.withBusy true with first := false, sel := .none }) := by
          simp [Eeprom.onByte, g1, Eeprom.onAddress]
        rw [this] at hl ⊢
        exact ⟨hb, fun h => by simp at h, fun _ => ⟨rfl, g2, hS.lulls _ _ hb hl, g4, g5⟩⟩)
  have hH : v.Hears P' s0.bus c :=
    ⟨fun hb => (h2.ee (by rw [h2.bus_eq]; exact hb)).1, fun hb => hU (by rw [h1.bus_eq]; exact hb)⟩
  have hcfg : devW u1.cfg = devW s0.cfg := by rw [h1.cfg_eq]
  have hd : directionBit (devW u1.cfg) = false := dir_bus _ _
  cases c
  · right
    obtain ⟨u3, e3, h3, r3, p3, f3, g3, k3⟩ := (At.write (s1 := s0) (t' := { u2 with err := .noAcknowledge }) h2 rfl rfl
      rfl rfl rfl h2.kept).stop (E' := SlaveFree P' m) (by simp) (fun e b b' n ans he hr hl => by
        obtain ⟨g1, g2, g3, g4, g5⟩ := he.2.2 rfl
        have : (e.withBusy b).onStop u2.cfg n ans = (e.withBusy b).deselect := by
          simp [Eeprom.onStop, g1, g2]
        replace hl : v.lulls b b' := by have := hl; simp only [Eeprom.onStop, g1, g2] at this; exact this
        have hx : (e.withBusy b).onStop ({ u2 with err := .noAcknowledge } : State).cfg n ans = (e.withBusy b).deselect :=
          this
        rw [hx]
        exact ⟨by simp [Eeprom.deselect], hS.lulls _ _ (hS.keeps _ _ g3 hr) hl, g4⟩)
    refine ⟨u3, ?_, by simpa [probeShape, hcfg] using h3, r3, p3, by rw [f3]; exact (n2 rfl).1,
      by rw [g3]; exact (n2 rfl).2.trans d1, by rw [k3]; exact k2.trans hcfg, hH⟩
    simp only [Bool.false_eq_true, if_false] at e2
    simp only [e1, Ran.orFail_success, e2]
    rw [Ran.orFail_error (by simp)]
    simp [abort, e3]
  · left
    simp only [if_true] at e2
    refine ⟨u2, by simp only [e1, Ran.orFail_success, e2], ?_, k2.trans hcfg, hH⟩
    simp only [if_true, hd, Bool.false_eq_true, if_false] at h2
    have h3 := h2.weaken (E' := SlaveTakes m a 0) (fun _ e he => he.2.1 trivial)
    simpa [hcfg] using h3

/-- A probe (R192). -/
theorem At.probe {P P' : Bool → Prop} {m : Memory} (hS : v.Settles P P') (h : At v s0 .idle w (SlaveFree P m) t) :
    ∃ k u, pmProbe t = .done (if k = true then .success else .noAcknowledge) u ∧
      At v s0 .idle (w ++ probeShape s0.cfg k) (SlaveFree (if k = true then Off else P') m) u ∧ u.eng.AtRest ∧
      u.phase = .idle ∧ u.eng.af = !k ∧ u.eng.dir = (t.eng.dir && !k) ∧ u.eng.dr = devW s0.cfg ∧
      v.Hears P' s0.bus k := by
  rcases h.call hS 0 stopWait with ⟨u, e, h1, k1, hH⟩ | ⟨u, e, ⟨h1, r1, p1, f1, d1, k1, hH⟩⟩
  · obtain ⟨u2, e2, h2, r2, p2, f2, d2, k2⟩ := h1.stop (E' := SlaveFree Off m) (by simp) (fun e b b' n ans he hr hl => by
      obtain ⟨g1, g2, g3, g4, g5, g6, -⟩ := he
      have hb : b = false := v.rests_false _ (by rw [← g4]; exact hr)
      have hx : (e.withBusy b).onStop t.cfg n ans = (e.withBusy b).deselect := by
        simp [Eeprom.onStop, g2, g3, Eeprom.commit, g6]
      have hx : (e.withBusy b).onStop u.cfg n ans = (e.withBusy b).deselect := by
        simp [Eeprom.onStop, g2, g3, Eeprom.commit, g6]
      rw [hx] at hl ⊢
      exact ⟨by simp [Eeprom.deselect], v.lulls_false _ (by subst hb; exact hl), g5⟩)
    refine ⟨true, u2, e.trans e2, by simpa [probeShape] using h2, r2, p2, ?_, ?_, k2.trans k1, hH⟩
    · rw [f2]; exact h1.eng.af (.inr (.inl rfl))
    · rw [d2, h1.eng.dir_tx rfl]; simp
  · exact ⟨false, u, e, by simpa using h1, r1, p1, by simpa using f1, by simpa using d1, k1, hH⟩

/-- A delay whose ticks come (R198). -/
theorem At.delay (hp : v.ticks) (hE : ∀ e b, E e → v.rests e.busydev b → E (e.withBusy b)) (n : Nat) : ∀ {t : State},
    At v s0 es w E t → ∃ u, delayLoop n t = .done () u ∧ At v s0 es w E u ∧ u.eng = t.eng ∧ u.phase = t.phase := by
  induction n with
  | zero => intro t h; exact ⟨t, rfl, h, rfl, rfl⟩
  | succ n ih =>
    intro t h
    obtain ⟨t1, e1, h1, hc, hpulse⟩ := h.gap hE
    obtain ⟨u, e, h2, f2, p2⟩ := ih (h1.write (s1 := s0) (t' := { t1 with ticks := t1.ticks + 1 }) rfl rfl rfl rfl rfl
      h1.kept)
    refine ⟨u, ?_, h2, f2.trans (by rw [hc.2]), p2.trans (by rw [hc.2])⟩
    simp only [delayLoop, e1, Ran.andThen_done, hpulse hp, if_true]
    exact e

/-- One probe of the ready wait (R197): acknowledged, which ends it, or refused and followed by the delay. -/
theorem At.readyProbe {P P' : Bool → Prop} {m : Memory} (ht : v.Delays P' s0) (hS : v.Settles P P')
    (h : At v s0 .idle w (SlaveFree P m) t) :
    (∃ u, (∀ n, readyLoop (n + 1) t = .done .success u) ∧ At v { s0 with retry := s0.retry + 1 } .idle
        (w ++ probeShape s0.cfg true) (SlaveFree Off m) u ∧ u.eng.AtRest ∧ u.phase = .idle ∧ u.eng.af = false ∧
      u.eng.dir = false ∧ u.eng.dr = devW s0.cfg ∧ v.Hears P' s0.bus true) ∨
    (∃ u, (∀ n, readyLoop (n + 1) t = readyLoop n u) ∧ At v { s0 with retry := s0.retry + 1 } .idle
        (w ++ probeShape s0.cfg false) (SlaveFree P' m) u ∧ u.eng.AtRest ∧ u.phase = .idle ∧ u.eng.af = true ∧
      u.eng.dir = t.eng.dir ∧ u.eng.dr = devW s0.cfg ∧ v.Hears P' s0.bus false) := by
  obtain ⟨k, u1, e1, h1, r1, p1, f1, d1, k1, hH⟩ := h.probe hS
  have hret : u1.retry = s0.retry := h1.facts.2.2.2.2.1
  have hk1 : State.sequenceKept { u1 with retry := u1.retry + 1 } =
      State.sequenceKept { s0 with retry := s0.retry + 1 } := by
    have := congrArg (fun (a1, a2, a3, a4, a5, a6, a7, a8, a9, a10, a11, a12, a13, a14, a15, a16, a17, a18) =>
      (a1, a2, a3, a4, a5, a6, a7, a8, a9, a10, a11, a12, a13, a14, a15, a16 + 1, a17, a18)) h1.kept
    exact this
  have h2 := h1.write (s1 := { s0 with retry := s0.retry + 1 }) (t' := { u1 with retry := u1.retry + 1 }) rfl rfl rfl rfl
    rfl hk1
  cases k
  · right
    simp only [Bool.false_eq_true, if_false] at e1 h2 f1 d1
    obtain ⟨u3, e3, h3, hc3, -⟩ := h2.gap (fun e b he hr => ⟨he.1, hS.keeps _ _ he.2.1 hr, he.2.2⟩)
    have h4 := h3.write (s1 := { s0 with retry := s0.retry + 1 }) (t' := { seqAt .delay u3 with ticks := 0 }) rfl rfl rfl rfl
      rfl (by rw [← h3.kept]; simp only [State.sequenceKept, seqAt, Seq.map_cmd])
    obtain ⟨u2, e2, h5, g5, p5⟩ : ∃ u, delayMs u3.cfg.readyDelayMs u3 = .done () u ∧
        At v { s0 with retry := s0.retry + 1 } .idle (w ++ probeShape s0.cfg false) (SlaveFree P' m) u ∧
        u.eng = u3.eng ∧ u.phase = u3.phase := by
      rcases ht hH with ht | ht
      · exact At.delay (E := SlaveFree P' m) ht (fun e b he hr => ⟨he.1, hS.keeps _ _ he.2.1 hr, he.2.2⟩) _ h4
      · have hz : u3.cfg.readyDelayMs = 0 := by rw [h3.cfg_eq]; exact ht
        rw [hz]; exact ⟨_, rfl, h4, rfl, rfl⟩
    have he : u2.eng = u1.eng := by rw [g5, hc3.eng_eq]
    have hp3 : u3.phase = u1.phase := by rw [hc3.2]
    refine ⟨u2, fun n => ?_, h5, by rw [he]; exact r1, (p5.trans hp3).trans p1, by rw [he]; simpa using f1,
      by rw [he]; simpa using d1, by rw [he]; exact k1, hH⟩
    have hst : u3.eng.stopp = false := h3.eng.stopp
    simp only [Machine.readyLoop, e1, Ran.andThen_done, if_true, e3, hst, Bool.false_eq_true, if_false, e2]
  · left
    simp only [if_true] at e1 h2 f1 d1
    refine ⟨_, fun n => ?_, h2, r1, p1, by simpa using f1, by simpa using d1, k1, hH⟩
    simp only [Machine.readyLoop, e1, Ran.andThen_done, reduceCtorEq, if_false]

/-- The probes of the ready wait (R197): `j` refused ones and one that is acknowledged, or as many refused ones as are left. -/
theorem At.readyLoop {m : Memory} (n : Nat) : ∀ {P P' : Bool → Prop} {s0 t : State} {w : List Symbol},
    v.Delays P' s0 → v.Settles P P' → At v s0 .idle w (SlaveFree P m) t →
    (∃ j u, j < n + 1 ∧ readyLoop (n + 1) t = .done .success u ∧ At v { s0 with retry := s0.retry + j + 1 } .idle
        (w ++ refusedProbes s0.cfg j ++ probeShape s0.cfg true) (SlaveFree Off m) u ∧
      u.eng.AtRest ∧ u.phase = .idle ∧ u.eng.af = false ∧ u.eng.dir = false ∧ u.eng.dr = devW s0.cfg ∧
      v.Hears P' s0.bus true ∧ (0 < j → v.Hears P' s0.bus false)) ∨
    (∃ u, readyLoop (n + 1) t = .done .timeout u ∧ At v { s0 with retry := s0.retry + n + 1 } .idle
        (w ++ refusedProbes s0.cfg (n + 1)) (SlaveFree P' m) u ∧
      u.eng.AtRest ∧ u.phase = .idle ∧ u.eng.af = true ∧ u.eng.dir = t.eng.dir ∧ u.eng.dr = devW s0.cfg ∧
      v.Hears P' s0.bus false) := by
  induction n with
  | zero =>
    intro P P' s0 t w ht hS h
    rcases h.readyProbe ht hS with ⟨u, e, h1, r1, p1, f1, d1, k1, hH⟩ | ⟨u, e, h1, r1, p1, f1, d1, k1, hH⟩
    · exact .inl ⟨0, u, by omega, e 0, by simpa [refusedProbes] using h1, r1, p1, f1, d1, k1, hH, fun h => by omega⟩
    · exact .inr ⟨u, e 0, by simpa [refusedProbes] using h1, r1, p1, f1, d1, k1, hH⟩
  | succ n ih =>
    intro P P' s0 t w ht hS h
    rcases h.readyProbe ht hS with ⟨u, e, h1, r1, p1, f1, d1, k1, hH⟩ | ⟨u, e, h1, r1, p1, f1, d1, k1, hH⟩
    · exact .inl ⟨0, u, by omega, e _, by simpa [refusedProbes] using h1, r1, p1, f1, d1, k1, hH, fun h => by omega⟩
    · rcases ih (s0 := { s0 with retry := s0.retry + 1 }) ht hS.again h1 with
        ⟨j, u2, hj, e2, h2, r2, p2, f2, d2, k2, hT, -⟩ | ⟨u2, e2, h2, r2, p2, f2, d2, k2, -⟩
      · refine .inl ⟨j + 1, u2, by omega, (e _).trans e2, ?_, r2, p2, f2, d2, k2, hT, fun _ => hH⟩
        have : s0.retry + (j + 1) + 1 = s0.retry + 1 + j + 1 := by omega
        rw [this]
        simpa [refusedProbes, List.replicate_succ] using h2
      · refine .inr ⟨u2, (e _).trans e2, ?_, r2, p2, f2, d2.trans d1, k2, hH⟩
        have : s0.retry + (n + 1) + 1 = s0.retry + 1 + n + 1 := by omega
        rw [this]
        simpa [refusedProbes, List.replicate_succ] using h2

/-- RETRY written. -/
theorem At.setRetry (h : At v s0 es w E t) (n : Nat) : At v { s0 with retry := n } es w E { t with retry := n } :=
  h.write rfl rfl rfl rfl rfl
    (congrArg (fun (a1, a2, a3, a4, a5, a6, a7, a8, a9, a10, a11, a12, a13, a14, a15, _, a17, a18) =>
      (a1, a2, a3, a4, a5, a6, a7, a8, a9, a10, a11, a12, a13, a14, a15, n, a17, a18)) h.kept)

/-- The ready wait (R197): `j` refused probes and one that is acknowledged, or READY_RETRIES refused ones. -/
theorem At.readyWait {P P' : Bool → Prop} {m : Memory} (ht : v.Delays P' s0) (hS : v.Settles P P')
    (hn : 1 ≤ s0.cfg.readyRetries) (h : At v s0 .idle w (SlaveFree P m) t) :
    (∃ j u, j < s0.cfg.readyRetries ∧ readyWait t = .done .success u ∧ At v { s0 with retry := j + 1 } .idle
        (w ++ refusedProbes s0.cfg j ++ probeShape s0.cfg true) (SlaveFree Off m) u ∧
      u.eng.AtRest ∧ u.phase = .idle ∧ u.eng.af = false ∧ u.eng.dir = false ∧ u.eng.dr = devW s0.cfg ∧
      v.Hears P' s0.bus true ∧ (0 < j → v.Hears P' s0.bus false)) ∨
    (∃ u, readyWait t = .done .timeout u ∧ At v { s0 with retry := s0.cfg.readyRetries } .idle
        (w ++ refusedProbes s0.cfg s0.cfg.readyRetries) (SlaveFree P' m) u ∧
      u.eng.AtRest ∧ u.phase = .idle ∧ u.eng.af = true ∧ u.eng.dir = t.eng.dir ∧ u.eng.dr = devW s0.cfg ∧
      v.Hears P' s0.bus false) := by
  obtain ⟨n, hn'⟩ : ∃ n, s0.cfg.readyRetries = n + 1 := ⟨s0.cfg.readyRetries - 1, by omega⟩
  have hw : Machine.readyWait t = Machine.readyLoop (n + 1) { t with retry := 0 } := by
    unfold Machine.readyWait; rw [h.cfg_eq, hn']
  rw [hw, hn']
  have := At.readyLoop n (s0 := { s0 with retry := 0 }) ht hS (h.setRetry 0)
  simpa only [Nat.zero_add] using this

/-- A data byte of an address or a write, to a device that holds still: what it does with the byte. -/
theorem At.sendByte (a : Byte) (h : At v s0 .tx w E t) (hu : s0.bus = .unknown → ∀ ans, v.answers ans → ans.ack = true)
    (hE : ∀ e, E e → e.first = false ∧ e.sel = .write ∧ e.busydev = false ∧ E' (e.takeByte s0.cfg a)) :
    ∃ u, blWriteByte a t = .done .success u ∧ At v s0 .tx (w ++ [.tx a true]) E' u :=
  h.byteAck a (by rw [h.bus_eq]; exact hu) (fun e b b' ans he hr hl => by
    obtain ⟨g1, g2, g3, g4⟩ := hE e he
    have hb : b = false := v.rests_false _ (by rw [← g3]; exact hr)
    subst hb
    have he0 : e.withBusy false = e := by rw [← g3]
    have hx : e.onByte t.cfg ans a = (true, e.takeByte t.cfg a) := by simp [Eeprom.onByte, g1, g2]
    have hbz : (e.takeByte t.cfg a).busydev = false := by
      unfold Eeprom.takeByte; split <;> exact g3
    rw [he0, hx] at hl ⊢
    rw [hbz] at hl
    have hb' : b' = false := v.lulls_false _ hl
    have : (e.takeByte t.cfg a).withBusy b' = e.takeByte t.cfg a := by rw [hb', ← hbz]
    rw [this, h.cfg_eq]
    exact ⟨rfl, g4⟩)

/-- The address phase (R190): all acknowledged, or the device does not acknowledge and the bus is freed. -/
theorem At.addrPhase {P P' : Bool → Prop} {m : Memory} (hS : v.Settles P P') (hu : v.Alike s0.bus) (a : MemAddr)
    (h : At v s0 .idle w (SlaveFree P m) t) (k : State → Ran TransferOutcome) :
    (∃ u, addrPhaseThen a k t = k u ∧ At v s0 .tx (w ++ addressShape s0.cfg a) (SlaveTakes m a 2) u ∧
      v.Hears P' s0.bus true ∧ (s0.bus = .unknown → ∀ ans, v.answers ans → ans.ack = true)) ∨
    (∃ u, addrPhaseThen a k t = .done .noAcknowledge u ∧ v.NakFreed P' m s0 w t u) := by
  rcases h.call hS a (fun s => (blWriteByte (addrHigh a) s).orFail abort fun s =>
      (blWriteByte (addrLow a) s).orFail abort k) with ⟨u, e, h1, k1, hH⟩ | h'
  · left
    have hu' : s0.bus = .unknown → ∀ ans, v.answers ans → ans.ack = true := fun hb ans ha => by
      obtain ⟨a', h1, h2⟩ := hH.unknown hb
      rw [← h2]; exact hu hb _ _ ha h1
    obtain ⟨u2, e2, h2⟩ := h1.sendByte (addrHigh a) (E' := SlaveTakes m a 1) hu' (fun e he => by
      obtain ⟨g1, g2, g3, g4, g5, g6, g7, -⟩ := he
      simp [SlaveTakes, Eeprom.takeByte, g1, g2, g3, g4, g5, g6, g7])
    obtain ⟨u3, e3, h3⟩ := h2.sendByte (addrLow a) (E' := SlaveTakes m a 2) hu' (fun e he => by
      obtain ⟨g1, g2, g3, g4, g5, g6, g7, g8, -⟩ := he
      have g8 := g8 rfl
      simp [SlaveTakes, Eeprom.takeByte, g1, g2, g3, g4, g5, g6, g7, g8, high_low])
    refine ⟨u3, e.trans ?_, by simpa [addressShape] using h3, hH, hu'⟩
    simp [e2, e3]
  · exact .inr h'

/-- `bl_write_address()` acknowledged. -/
theorem At.addressAck (a : Byte) (h : At v s0 .sb w E t) (hu : s0.bus = .unknown → ∀ ans, v.answers ans → ans.ack = true)
    (hE : ∀ e b b' ans, E e → v.rests e.busydev b → v.lulls ((e.withBusy b).onByte t.cfg ans a).2.busydev b' →
      ((e.withBusy b).onByte t.cfg ans a).1 = true ∧ E' (((e.withBusy b).onByte t.cfg ans a).2.withBusy b')) :
    ∃ u, blWriteAddress a t = .done .success u ∧ At v s0 (if directionBit a then .rx else .tx) (w ++ [.tx a true]) E' u ∧
      u.eng.dr = a := by
  obtain ⟨k, u, e, h1, hU, k1, -⟩ := h.address a (E' := fun k e => k = true ∧ E' e)
    (fun _ e b b' ans he hr hl => hE e b b' ans he hr hl)
  have hk : k = true := by
    cases hb : s0.bus
    · exact (h1.ee (by rw [h1.bus_eq]; exact hb)).1
    · obtain ⟨ans, ha, rfl⟩ := hU (by rw [h.bus_eq]; exact hb)
      exact hu hb ans ha
  subst hk
  simp only [if_true] at e h1
  exact ⟨u, e, h1.weaken (fun _ e he => he.2), k1⟩

/-- The repeated START and DEVR of a read (R193). -/
theorem At.turn {m : Memory} (a : MemAddr) (h : At v s0 .tx w (SlaveTakes m a 2) t)
    (hu : s0.bus = .unknown → ∀ ans, v.answers ans → ans.ack = true) (k : State → Ran TransferOutcome) :
    ∃ u, turnToRead k t = k u ∧ At v s0 .rx (w ++ [.rstart, .tx (devR s0.cfg) true]) (SlaveReads m a.toNat) u := by
  obtain ⟨u1, e1, h1⟩ := h.restart (E' := fun e => SlaveBegun Off m e ∧ e.ptr = a) (fun e he => by simp [he.2.2.1])
    (fun e b b' he hr hl => by
      obtain ⟨g1, g2, g3, g4, g5, g6, g7, g8, g9⟩ := he
      rw [g4] at hr
      have hb := v.rests_false _ hr
      subst hb
      exact ⟨⟨rfl, rfl, v.lulls_false _ hl, g5, rfl⟩, g9 rfl⟩)
  obtain ⟨u2, e2, h2, -⟩ := h1.addressAck (devR u1.cfg) (E' := SlaveReads m a.toNat) hu (fun e b b' ans he hr hl => by
    obtain ⟨⟨g1, g2, g3, g4, g5⟩, g6⟩ := he
    rw [g3] at hr
    have hb := v.rests_false _ hr
    subst hb
    have hx : (e.withBusy false).onByte u1.cfg ans (devR u1.cfg) = (true, { e.withBusy false with
        first := false, sel := .read, out := .fresh }) := by
      simp [Eeprom.onByte, g1, Eeprom.onAddress, devR, slaveId_bus, dir_bus]
    rw [hx] at hl ⊢
    exact ⟨rfl, rfl, by simp, by rw [← g6], g4, g5, v.lulls_false _ hl⟩)
  have hd : directionBit (devR u1.cfg) = true := dir_bus _ _
  rw [hd, if_pos rfl] at h2
  exact ⟨u2, by simp [turnToRead, e1, e2], by simpa [h1.cfg_eq] using h2⟩

/-- One byte of a read (R77). -/
theorem At.nextByte {m : Memory} {p : Nat} (k : Bool) (h : At v s0 .rx w (SlaveReads m p) t) (hp : p ≤ s0.cfg.maxAddress)
    (x : Byte) (hu : s0.bus = .unknown → ∀ ans, v.answers ans → ans.byte = x)
    (hv : s0.bus = .reference → (Memory.read m p).getD (Config.eepromInit p) = x) :
    ∃ u, blReadByte k t = .done .success u ∧ At v { s0 with result := x, eng := { s0.eng with acken := k } } .rx
        (w ++ [.rx x k])
      (fun e => e.sel = .read ∧ e.out = (if k then .driving else .released) ∧
          e.ptr = nextReadPtr s0.cfg 0 (BitVec.ofNat 16 p) ∧ e.mem = m ∧ e.pagebuf = [] ∧ e.busydev = false) u ∧
      u.eng.dr = x :=
  h.read k x (by rw [h.bus_eq]; exact hu) (fun hb e b b' ans he hr hl => by
    obtain ⟨g1, g2, g3, g4, g5, g6⟩ := he
    have hb0 : s0.bus = .reference := by rw [← h.bus_eq]; exact hb
    rw [g6] at hr
    have hbf := v.rests_false _ hr
    subst hbf
    have e1 : e.ptr = BitVec.ofNat 16 p := by rw [← g3]; simp
    have hx : (e.withBusy false).onRead t.cfg ans k = (x, { e.withBusy false with
        ptr := nextReadPtr s0.cfg 0 (BitVec.ofNat 16 p), out := if k then .driving else .released }) := by
      rw [Eeprom.onRead_selected _ _ _ (e := e.withBusy false) g1 g2, h.cfg_eq, if_pos (by rw [g3]; exact hp),
        nextReadPtr_mem _ _ 0 (by rw [g3]; exact hp)]
      rw [show (e.withBusy false).memRead (e.withBusy false).ptr.toNat = x by
        rw [← hv hb0]; simp [Eeprom.memRead, g4, g3]]
      simp [e1]
    rw [hx] at hl ⊢
    exact ⟨rfl, g1, rfl, rfl, g4, g5, v.lulls_false _ hl⟩)

/-- The STOP of a read. -/
theorem At.stopRead {m : Memory} (h : At v s0 .rx w E t) (hE : ∀ e, E e → e.sel = .read ∧ e.out = .released ∧ e.mem = m ∧
    e.busydev = false) :
    ∃ u, stopWait t = .done .success u ∧ At v s0 .idle (w ++ [.stop]) (SlaveFree Off m) u ∧ u.eng.AtRest ∧
      u.phase = .idle ∧ u.eng.af = false ∧ u.eng.dir = true ∧ u.eng.dr = t.eng.dr := by
  obtain ⟨u, e, h1, r1, p1, f1, d1, k1⟩ := h.stop (E' := SlaveFree Off m) (by simp) (fun e b b' n ans he hr hl => by
    obtain ⟨g1, g2, g3, g4⟩ := hE e he
    rw [g4] at hr
    have hb := v.rests_false _ hr
    subst hb
    have hx : (e.withBusy false).onStop t.cfg n ans = (e.withBusy false).deselect := by simp [Eeprom.onStop, g1, g2]
    rw [hx] at hl ⊢
    exact ⟨by simp [Eeprom.deselect], v.lulls_false _ hl, g3⟩)
  exact ⟨u, e, h1, r1, p1, f1.trans (h.eng.af (.inr (.inr rfl))), d1.trans (h.eng.dir_rx rfl), k1⟩

/-- The content after the pairs are stored (R76). -/
def committed (c : Params) (ps : List (Nat × Byte)) (m : Memory) : Memory := ps.foldl (fun m p =>
    if p.1 ≤ c.maxAddress then Memory.write m p.1 p.2 else m) m

/-- Storing pairs. -/
theorem storePairs_mem (c : Params) (ps : List (Nat × Byte)) : ∀ e : Eeprom,
    (e.storePairs c ps).mem = committed c ps e.mem ∧ (e.storePairs c ps).out = e.out := by
  induction ps with
  | nil => intro e; exact ⟨rfl, rfl⟩
  | cons p ps ih =>
    intro e
    simp only [Eeprom.storePairs, List.foldl_cons, committed] at ih ⊢
    rw [(ih _).1, (ih _).2]
    unfold Eeprom.memWrite
    split <;> simp

/-- The STOP of a write: the bytes are stored and the device is busy (R76). -/
theorem At.stopData {Q : Bool → Prop} {m : Memory} {ps : List (Nat × Byte)} {p : MemAddr}
    (hQ : ∀ b, v.lulls true b → Q b) (h : At v s0 .tx w (SlaveHolds m ps p) t)
    (hne : ps ≠ []) (hc : crossesPage s0.cfg ps = false) :
    ∃ u, stopWait t = .done .success u ∧ At v s0 .idle (w ++ [.stop]) (SlaveFree Q (committed s0.cfg ps m)) u ∧
      u.eng.AtRest ∧ u.phase = .idle ∧ u.eng.af = false ∧ u.eng.dir = false := by
  obtain ⟨q, qs, rfl⟩ : ∃ q qs, ps = q :: qs := by cases ps; simp at hne; exact ⟨_, _, rfl⟩
  obtain ⟨u, e, h1, r1, p1, f1, d1, -⟩ := h.stop (E' := SlaveFree Q (committed s0.cfg (q :: qs) m)) (by simp)
    (fun e b b' n ans he hr hl => by
      obtain ⟨g1, g2, g3, g4, g5, g6, g7, g8⟩ := he
      have hx : (e.withBusy b).onStop t.cfg n ans =
          ({ (e.withBusy b).storePairs t.cfg (q :: qs) with busydev := true } : Eeprom).deselect := by
        simp only [Eeprom.onStop, g3, g2, reduceCtorEq, if_false, if_true, Eeprom.commit, g7, h.cfg_eq, hc,
          Bool.false_eq_true]
      have hm := (storePairs_mem t.cfg (q :: qs) (e.withBusy b)).1
      rw [hx] at hl ⊢
      exact ⟨by simp [Eeprom.deselect], hQ _ hl, by rw [← h.cfg_eq]; rw [← g5]; exact hm⟩)
  exact ⟨u, e, h1, r1, p1, f1.trans (h.eng.af (.inr (.inl rfl))), d1.trans (h.eng.dir_tx rfl)⟩

/-- A page has a byte. -/
theorem Params.Legal.page_pos {c : Params} (h : c.Legal) : 1 ≤ c.pageSize := by
  obtain ⟨⟨k, -, hk⟩, -⟩ := h; rw [hk]; exact Nat.one_le_two_pow

/-- A page boundary is at least one byte away. -/
theorem Params.Legal.remaining_pos {c : Params} (h : c.Legal) (a : MemAddr) : 1 ≤ remaining c.pageSize a.toNat := by
  have := Params.Legal.page_pos h
  have := Nat.mod_lt a.toNat (show 0 < c.pageSize by omega)
  unfold remaining; omega

/-- One byte stored. -/
theorem read_committed_one (c : Params) (m : Memory) (a : Nat) (v : Byte) (ha : a ≤ c.maxAddress) (x : Nat) :
    (Memory.read (committed c [(a, v)] m) x) = if x = a then some v else Memory.read m x := by
  simp [committed, ha, Memory.read_write]

/-- The shape of received bytes, from the front. -/
theorem receivedShape_cons (v : Byte) (vs : List Byte) : receivedShape (v :: vs) = .rx v (decide (vs ≠ [])) ::
    receivedShape vs := by
  cases vs <;> simp [receivedShape]

/-- PTR after a byte below MAX_ADDRESS. -/
theorem nextPtr (c : Params) (hc : c.maxAddress ≤ 0xFFFF) (p : Nat) (hp : p < c.maxAddress) :
    nextReadPtr c 0 (BitVec.ofNat 16 p) = BitVec.ofNat 16 (p + 1) := by
  unfold nextReadPtr
  have : (BitVec.ofNat 16 p).toNat = p := by simp; omega
  rw [this, if_neg (by omega), if_neg (fun hc => absurd hc.1 (by omega))]
  apply BitVec.eq_of_toNat_eq; simp

/-- The receptions of MRDN and its STOP (R195). -/
theorem At.receive {m : Memory} (val : Nat → Byte) (n : Nat) :
    ∀ {s0 t : State} {w : List Symbol} (i p : Nat), s0.cfg.maxAddress ≤ 0xFFFF → i + n < 2^17 →
    p + n ≤ s0.cfg.maxAddress + 1 →
    (s0.bus = .unknown → ∀ ans, v.answers ans → ∀ j, ans.byte = val j) → (s0.bus = .reference → ∀ j, j < n →
        (Memory.read m (p + j)).getD (Config.eepromInit (p + j)) = val (i + j)) →
    1 ≤ n → At v s0 .rx w (SlaveReads m p) t →
    ∃ u s1, receiveLoop n i t = .done .success u ∧ At v s1 .idle
        (w ++ receivedShape ((List.range n).map fun j => val (i + j)) ++ [.stop]) (SlaveFree Off m) u ∧
      s1 = { s0 with
        result := val (i + n - 1), eng := { s0.eng with acken := false }, doneCount := BitVec.ofNat 17 (i + n)
        rbuf := s1.rbuf } ∧
      (∀ x, Memory.read s1.rbuf x = if i ≤ x ∧ x < i + n then some (val x) else Memory.read s0.rbuf x) ∧
      u.eng.AtRest ∧ u.phase = .idle ∧ u.eng.af = false ∧ u.eng.dir = true := by
  induction n with
  | zero => intro s0 t w i p _ _ _ _ _ h; omega
  | succ n ih =>
    intro s0 t w i p hmax hi hp hu hv _ h
    obtain ⟨u1, e1, h1, k1⟩ := h.nextByte (decide (0 < n)) (by omega) (val i) (fun hb ans ha => hu hb ans ha i)
      (fun hb => by simpa using hv hb 0 (by omega))
    have hres : u1.result = val i := h1.facts.1
    have hrb : u1.rbuf = s0.rbuf := h1.facts.2.2.1
    let s1 : State := { s0 with
      result := val i, eng := { s0.eng with acken := decide (0 < n) }, rbuf := Memory.write s0.rbuf i (val i)
      doneCount := BitVec.ofNat 17 (i + 1) }
    have h2 := h1.write (s1 := s1) (t' := storeReceived i u1) rfl rfl rfl rfl rfl (by
      have hk := congrArg (fun (a1, a2, a3, a4, a5, a6, a7, a8, a9, a10, a11, _, a13, a14, a15, a16, a17, a18) =>
        (a1, a2, a3, a4, a5, a6, a7, a8, a9, a10, a11, BitVec.ofNat 17 (i + 1), Memory.write a13 i a15, a14, a15, a16, a17,
          a18)) h1.kept
      exact hk)
    by_cases hn : n = 0
    · subst hn
      obtain ⟨u, e2, h3, r3, p3, f3, g3, -⟩ := h2.stopRead (m := m) (fun e he =>
          ⟨he.1, by simpa using he.2.1, he.2.2.2.1, he.2.2.2.2.2⟩)
      refine ⟨u, s1, ?_, ?_, ?_, ?_, r3, p3, f3, g3⟩
      · simp only [receiveLoop, e1, Ran.orFail_success]; exact e2
      · simpa [receivedShape] using h3
      · simp [s1]
      · intro x; simp only [s1, Memory.read_write]
        by_cases hx : x = i
        · rw [if_pos hx, if_pos (by omega), hx]
        · rw [if_neg hx, if_neg (by omega)]
    · have h3 : At v s1 .rx (w ++ [.rx (val i) true]) (SlaveReads m (p + 1)) (storeReceived i u1) := by
        have hd : decide (0 < n) = true := by simp; omega
        rw [hd] at h2
        refine h2.weaken (fun _ e he => ⟨he.1, ?_, ?_, he.2.2.2.1, he.2.2.2.2.1, he.2.2.2.2.2⟩)
        · rw [he.2.1]; simp
        · rw [he.2.2.1, nextPtr _ hmax _ (by omega)]; simp; omega
      obtain ⟨u, s2, e2, h4, hs2, hr2, r4, p4, f4, g4⟩ := ih (s0 := s1) (i + 1) (p + 1) hmax (by omega)
          (show p + 1 + n ≤ s0.cfg.maxAddress + 1 by omega) hu (fun hb j hj => by
          have := hv hb (j + 1) (by omega); rw [show p + 1 + j = p + (j+1) by omega,
              show i + 1 + j = i + (j + 1) by omega]; exact this) (by omega) h3
      refine ⟨u, s2, ?_, ?_, ?_, ?_, r4, p4, f4, g4⟩
      · have hd : decide (0 < n) = true := by simp; omega
        rw [hd] at e1
        simp only [receiveLoop, hd, e1, Ran.orFail_success]; exact e2
      · have : (List.range (n+1)).map (fun j => val (i + j)) = val i ::
          (List.range n).map (fun j => val (i + 1 + j)) := by
          rw [List.range_succ_eq_map]; simp [Function.comp_def, Nat.add_assoc, Nat.add_comm 1]
        rw [this, receivedShape_cons]
        have hne : decide ((List.range n).map (fun j => val (i + 1 + j)) ≠ []) = true := by simp [hn]
        rw [hne]; simpa using h4
      · rw [hs2]; simp only [s1]; rw [show i + 1 + n - 1 = i + (n + 1) - 1 by omega,
          show i + 1 + n = i + (n + 1) by omega]
      · intro x; rw [hr2]; simp only [s1, Memory.read_write]
        by_cases hx : x = i
        · rw [if_neg (by omega), if_pos hx, if_pos (by omega), hx]
        · by_cases hxx : i + 1 ≤ x ∧ x < i + 1 + n
          · rw [if_pos hxx, if_pos (by omega)]
          · rw [if_neg hxx, if_neg hx, if_neg (by omega)]

/-- The pairs of `n` bytes from index `i` for the addresses from `p`. -/
def pairsOf (val : Nat → Byte) (i p n : Nat) : List (Nat × Byte) := (List.range n).map fun j => (p + j, val (i + j))

/-- WBUF stays. -/
theorem At.wbufRead (h : At v s0 es w E t) (i : Nat) : t.wbufRead i = s0.wbufRead i := by
  obtain ⟨-, -, -, -, -, h6, h7, -⟩ := h.facts
  simp only [State.wbufRead, h6, h7]

/-- PTR inside a page (R75). -/
theorem advance_next {k : Nat} (p : Nat) (hp : p % 2 ^ k + 1 < 2 ^ k) (hp' : p < 2 ^ 16) :
    advanceInPage (2 ^ k) (BitVec.ofNat 16 p) = BitVec.ofNat 16 (p + 1) := by
  unfold advanceInPage
  have : (BitVec.ofNat 16 p).toNat = p := by simp; omega
  rw [this]
  congr 1
  have h1 := Nat.div_add_mod p (2 ^ k)
  have : (p + 1) % 2 ^ k = p % 2 ^ k + 1 := by
    rw [Nat.add_mod, Nat.mod_eq_of_lt (show 1 < 2 ^ k by omega), Nat.mod_eq_of_lt hp]
  rw [this, Nat.mul_comm]; omega

/-- The pairs of a chunk, from the front. -/
theorem pairsOf_succ (val : Nat → Byte) (i p n : Nat) : pairsOf val i p (n + 1) = (p, val i) :: pairsOf val (i + 1) (p + 1) n := by
  unfold pairsOf; rw [List.range_succ_eq_map]; simp [Function.comp_def, Nat.add_assoc, Nat.add_comm 1]

/-- The data bytes of a chunk (R196). -/
theorem At.sendData {m : Memory} {k : Nat} (hk : k < 17) (q : State → Ran TransferOutcome)
    (hu : s0.bus = .unknown → ∀ ans, v.answers ans → ans.ack = true) (n : Nat) :
    ∀ {t : State} {w : List Symbol} (i p : Nat) (ps : List (Nat × Byte)),
    s0.cfg.pageSize = 2 ^ k → p < 2 ^ 16 → p % 2 ^ k + n ≤ 2 ^ k →
    At v s0 .tx w (SlaveHolds m ps (BitVec.ofNat 16 p)) t →
    ∃ u p', sendLoop q n i t = q u ∧ At v s0 .tx (w ++ (List.range n).map fun j => .tx (s0.wbufRead (i + j)) true)
        (SlaveHolds m (ps ++ pairsOf s0.wbufRead i p n) p') u := by
  induction n with
  | zero => intro t w i p ps _ _ _ h; exact ⟨t, _, rfl, by simpa [pairsOf] using h⟩
  | succ n ih =>
    intro t w i p ps hps hp hn h
    have hpn : (BitVec.ofNat 16 p).toNat = p := by simp; omega
    obtain ⟨u1, e1, h1⟩ := h.sendByte (t.wbufRead i) (E' := SlaveHolds m (ps ++ [(p, t.wbufRead i)])
      (advanceInPage s0.cfg.pageSize (BitVec.ofNat 16 p))) hu (fun e he => by
        obtain ⟨g1, g2, g3, g4, g5, g6, g7, g8⟩ := he
        have hx : e.takeByte s0.cfg (t.wbufRead i) = { e with
            pagebuf := ps ++ [(p, t.wbufRead i)], ptr := advanceInPage s0.cfg.pageSize (BitVec.ofNat 16 p) } := by
          unfold Eeprom.takeByte; rw [g6, g7, g8, hpn]
        rw [hx]
        exact ⟨g1, g2, g4, g1, g2, g3, g4, g5, g6, rfl, rfl⟩)
    rw [h.wbufRead] at h1
    by_cases hn0 : n = 0
    · subst hn0
      exact ⟨u1, _, by simp [sendLoop, e1], by simpa [pairsOf] using h1⟩
    · have hlt : p + 1 < 2 ^ 16 := by
        have := Nat.div_add_mod p (2 ^ k)
        obtain ⟨j, hj⟩ : (2 ^ k : Nat) ∣ 2 ^ 16 := Nat.pow_dvd_pow 2 (by omega)
        have hlt : p / 2 ^ k < j := by
          apply Nat.div_lt_of_lt_mul; rw [← hj]; exact hp
        have : 2 ^ k * (p / 2 ^ k + 1) ≤ 2 ^ k * j := Nat.mul_le_mul_left _ hlt
        rw [← hj, Nat.mul_add, Nat.mul_one] at this
        omega
      have hm : (p + 1) % 2 ^ k = p % 2 ^ k + 1 := by
        rw [Nat.add_mod, Nat.mod_eq_of_lt (show 1 < 2 ^ k by omega), Nat.mod_eq_of_lt (by omega)]
      rw [hps, advance_next p (by omega) hp] at h1
      obtain ⟨u2, p', e2, h2⟩ := ih (i + 1) (p + 1) _ hps hlt (by omega) h1
      refine ⟨u2, p', by simp [sendLoop, e1, e2], ?_⟩
      have ea : (List.range (n+1)).map (fun j => (Symbol.tx (s0.wbufRead (i + j)) true)) = .tx (s0.wbufRead i) true ::
          (List.range n).map (fun j => .tx (s0.wbufRead (i + 1 + j)) true) := by
        rw [List.range_succ_eq_map]; simp [Function.comp_def, Nat.add_assoc, Nat.add_comm 1]
      rw [ea, pairsOf_succ]; simpa using h2

/-- A chunk stored. -/
theorem read_committed (c : Params) (val : Nat → Byte) (n : Nat) : ∀ (m : Memory) (i p : Nat), p + n ≤ c.maxAddress + 1 →
    ∀ x,
    Memory.read (committed c (pairsOf val i p n) m) x = if p ≤ x ∧ x < p + n then some (val (i + x - p)) else Memory.read
        m x := by
  induction n with
  | zero => intro m i p _ x; rw [if_neg (by omega)]; rfl
  | succ n ih =>
    intro m i p hp x
    have : committed c (pairsOf val i p (n + 1)) m = committed c (pairsOf val (i + 1) (p + 1) n)
        (Memory.write m p (val i)) := by
      rw [pairsOf_succ]; simp [committed, show p ≤ c.maxAddress by omega]
    rw [this, ih _ _ _ (by omega), Memory.read_write]
    by_cases hx : p + 1 ≤ x ∧ x < p + 1 + n
    · rw [if_pos hx, if_pos (by omega)]; congr 2; omega
    · rw [if_neg hx]
      by_cases hxp : x = p
      · rw [if_pos hxp, if_pos (by omega), hxp]; congr 2; omega
      · rw [if_neg hxp, if_neg (by omega)]

/-- A chunk stays in its page. -/
theorem crosses_pairs (c : Params) (val : Nat → Byte) (i p n : Nat) (h : n ≤ remaining c.pageSize p) :
    crossesPage c (pairsOf val i p n) = false := by
  cases n with
  | zero => rfl
  | succ n =>
    rw [pairsOf_succ]; simp [crossesPage, pairsOf]; omega

/-- CHUNK written. -/
theorem At.setChunk (h : At v s0 es w E t) (x : Count) : At v s0 es w E { t with chunk := x } :=
  h.write rfl rfl rfl rfl rfl h.kept

/-- CUR, IDX and DONE written. -/
theorem At.setProgress (h : At v s0 es w E t) (a b c : Count) :
    At v { s0 with doneCount := c } es w E { t with cur := a, idx := b, doneCount := c } :=
  h.write rfl rfl rfl rfl rfl
    (congrArg (fun (a1, a2, a3, a4, a5, a6, a7, a8, a9, a10, a11, _, a13, a14, a15, a16, a17, a18) =>
      (a1, a2, a3, a4, a5, a6, a7, a8, a9, a10, a11, c, a13, a14, a15, a16, a17, a18)) h.kept)

/-- A chunk's write transaction (R196), or its address byte refused. -/
theorem At.chunk {P P' Q : Bool → Prop} {m : Memory} (hS : v.Settles P P') (hu : v.Alike s0.bus)
    (hQ : ∀ b, v.lulls true b → Q b) (hleg : s0.cfg.Legal) (i c n : Nat) (hc : c < 2 ^ 16) (hn : 1 ≤ n)
    (hr : n ≤ remaining s0.cfg.pageSize c) (q : State → Ran TransferOutcome) (h : At v s0 .idle w (SlaveFree P m) t) :
    (∃ u, addrPhaseThen (BitVec.ofNat 16 c) (sendLoop (fun s => (stopWait s).orFail giveBack q) n i) t = q u ∧
      At v s0 .idle (w ++ writeShape s0.cfg (BitVec.ofNat 16 c) ((List.range n).map fun j => s0.wbufRead (i + j)))
        (SlaveFree Q (committed s0.cfg (pairsOf s0.wbufRead i c n) m)) u ∧ u.eng.AtRest ∧ u.phase = .idle ∧
      u.eng.af = false ∧ u.eng.dir = false ∧ v.Hears P' s0.bus true) ∨
    (∃ u, addrPhaseThen (BitVec.ofNat 16 c) (sendLoop (fun s => (stopWait s).orFail giveBack q) n i) t =
        .done .noAcknowledge u ∧ v.NakFreed P' m s0 w t u) := by
  rcases h.addrPhase hS hu (BitVec.ofNat 16 c) (sendLoop (fun s => (stopWait s).orFail giveBack q) n i) with
    ⟨u1, e1, h1, hH, hu'⟩ | h'
  · left
    obtain ⟨⟨k, hk, hps⟩, -⟩ := id hleg
    have hcm : c % 2 ^ k + n ≤ 2 ^ k := by
      unfold remaining at hr; rw [hps] at hr; have := Nat.mod_lt c (show 0 < 2 ^ k from Nat.two_pow_pos k); omega
    obtain ⟨u2, p', e2, h2⟩ := At.sendData hk (fun s => (stopWait s).orFail giveBack q) hu' n i c [] hps hc hcm
      (h1.weaken (E' := SlaveHolds m [] (BitVec.ofNat 16 c)) (fun _ e he =>
        ⟨he.1, he.2.1, he.2.2.1, he.2.2.2.1, he.2.2.2.2.1, he.2.2.2.2.2.2.1, he.2.2.2.2.2.1, he.2.2.2.2.2.2.2.2 rfl⟩))
    obtain ⟨u3, e3, h3, r3, p3, f3, g3⟩ := h2.stopData hQ (by cases n; omega; simp [pairsOf, List.range_succ_eq_map])
      (crosses_pairs _ _ _ _ _ hr)
    exact ⟨u3, by rw [e1, e2]; simp [e3], by simpa [writeShape, Function.comp_def] using h3, r3, p3, f3, g3, hH⟩
  · exact .inr h'

/-- The chunks of a write, each with the probes of its ready wait: `js` says how many were refused before the one that was
acknowledged. -/
abbrev State.probedShapes (s : State) (i c : Nat) (cs : List (Nat × Nat)) (js : List Nat) : List Symbol :=
  (List.zipWith (fun x j => writeShape s.cfg (BitVec.ofNat 16 x.1)
    ((List.range x.2).map fun k => s.wbufRead (i + x.1 - c + k)) ++ refusedProbes s.cfg j ++ probeShape s.cfg true) cs js).flatten

/-- All chunks of a write (R196, R200), or a Timeout after READY_RETRIES refused probes. -/
theorem At.chunks {Q Q' : Bool → Prop} (hQ : ∀ b, v.lulls true b → Q b) (hSQ : v.Settles Q Q') (fuel : Nat) :
    ∀ {P P' : Bool → Prop} {s0 t : State} {w : List Symbol} {m : Memory} (i c n : Nat), v.Settles P P' → s0.cfg.Legal →
    c + n ≤ s0.cfg.maxAddress + 1 → 1 ≤ n → n ≤ fuel → v.Delays Q' s0 →
    (s0.bus = .reference → ¬P' true) → (s0.bus = .unknown → ∀ ans, v.answers ans → ans.ack = true) →
    At v s0 .idle w (SlaveFree P m) t →
    (∃ u m' js, chunkLoop (chunksFrom s0.cfg.pageSize fuel c n) i t = .done .success u ∧
      js.length = (chunksFrom s0.cfg.pageSize fuel c n).length ∧
      (∀ j ∈ js, j < s0.cfg.readyRetries ∧ (0 < j → v.Hears Q' s0.bus false)) ∧
      (∃ r, At v { s0 with retry := r, doneCount := BitVec.ofNat 17 (i + n) } .idle
        (w ++ s0.probedShapes i c (chunksFrom s0.cfg.pageSize fuel c n) js) (SlaveFree Off m') u) ∧
      (∀ x, Memory.read m' x = if c ≤ x ∧ x < c + n then some (s0.wbufRead (i + x - c)) else Memory.read m x) ∧
      u.eng.AtRest ∧ u.phase = .idle ∧ u.eng.af = false ∧ u.eng.dir = false) ∨
    (∃ u w' m' s1, chunkLoop (chunksFrom s0.cfg.pageSize fuel c n) i t = .done .timeout u ∧
      At v s1 .idle (w ++ w') (SlaveFree Q' m') u ∧ s1 = { s0 with retry := s1.retry, doneCount := s1.doneCount } ∧
      u.eng.AtRest ∧ u.phase = .idle ∧ v.Hears Q' s0.bus false ∧ refusedProbes s0.cfg s0.cfg.readyRetries <:+ w') := by
  induction fuel with
  | zero => intros; omega
  | succ fuel ih =>
    intro P P' s0 t w m i c n hS hleg hmax hn hf ht hP hu h
    have hmx : s0.cfg.maxAddress ≤ 0xFFFF := hleg.2.1
    have hpg : 1 ≤ remaining s0.cfg.pageSize c := by
      have h1 := Params.Legal.page_pos hleg
      have := Nat.mod_lt c (show 0 < s0.cfg.pageSize by omega)
      unfold remaining; omega
    set r := min (remaining s0.cfg.pageSize c) n with hrdef
    have hr1 : 1 ≤ r := by omega
    have hrn : r ≤ n := by omega
    have hch : chunksFrom s0.cfg.pageSize (fuel + 1) c n = (c, r) :: chunksFrom s0.cfg.pageSize fuel (c + r) (n - r) := by
      simp only [chunksFrom, if_neg (show ¬ n = 0 by omega)]; rfl
    rw [hch]
    have e0 : i + c - c = i := by omega
    have hnak : ¬v.Hears P' s0.bus false := fun hH => by
      cases hb : s0.bus
      · exact hP hb (hH.reference hb)
      · obtain ⟨a, h1, h2⟩ := hH.unknown hb
        rw [hu hb a h1] at h2; exact absurd h2 (by simp)
    rcases At.chunk hS (fun hb a a' h1 h2 => by rw [hu hb a h1, hu hb a' h2]) hQ hleg i c r (by omega) hr1 (by omega)
      (fun s => (Machine.readyWait s).orFail giveBack fun s =>
        chunkLoop (chunksFrom s0.cfg.pageSize fuel (c + r) (n - r)) (i + r)
          { s with cur := BitVec.ofNat 17 (c + r), idx := BitVec.ofNat 17 (i + r), doneCount := BitVec.ofNat 17 (i + r) })
      (h.setChunk (BitVec.ofNat 17 r)) with ⟨u1, e1, h1, r1, p1, f1, g1, -⟩ | ⟨u1, -, hN⟩
    · rcases h1.readyWait ht hSQ hleg.2.2.2.1 with
        ⟨j, u2, hj, e2, h2, r2, p2, f2, g2, -, -, hj'⟩ | ⟨u2, e2, h2, r2, p2, f2, g2, -, hH⟩
      · have h3 := h2.setProgress (BitVec.ofNat 17 (c + r)) (BitVec.ofNat 17 (i + r)) (BitVec.ofNat 17 (i + r))
        have hmem := read_committed s0.cfg s0.wbufRead r m i c (by omega)
        by_cases hlast : n - r = 0
        · left
          have hnil : chunksFrom s0.cfg.pageSize fuel (c + r) (n - r) = [] := by
            cases fuel <;> simp [chunksFrom, hlast]
          have hrn' : r = n := by omega
          rw [hnil] at e1 ⊢
          refine ⟨{ u2 with
              cur := BitVec.ofNat 17 (c + r), idx := BitVec.ofNat 17 (i + r), doneCount := BitVec.ofNat 17 (i + r) },
            committed s0.cfg (pairsOf s0.wbufRead i c r) m, [j], ?_, rfl, ?_, ⟨j + 1, ?_⟩, ?_, r2, p2, f2, g2⟩
          · refine e1.trans ?_
            simp only [e2, Ran.orFail_success, chunkLoop]
          · intro j2 hj2; rw [List.mem_singleton.1 hj2]; exact ⟨hj, hj'⟩
          · rw [← hrn']; simpa [State.probedShapes, e0] using h3
          · rw [← hrn']; exact hmem
        · rcases ih (s0 := { s0 with retry := j + 1, doneCount := BitVec.ofNat 17 (i + r) }) (i + r) (c + r) (n - r)
            v.settles_off hleg (show c + r + (n - r) ≤ s0.cfg.maxAddress + 1 by omega) (by omega) (by omega) ht
            (fun _ => by simp) hu h3 with
            ⟨u4, m', js, e4, l4, j4, ⟨r', h4⟩, m4, r4, p4, f4, g4⟩ | ⟨u4, w', m', s1, e4, h4, s4, r4, p4, hH, sf⟩
          · left
            refine ⟨u4, m', j :: js, ?_, by simpa using l4, ?_, ⟨r', ?_⟩, ?_, r4, p4, f4, g4⟩
            · refine e1.trans ?_
              simp only [e2, Ran.orFail_success]; exact e4
            · intro j2 hj2
              rcases List.mem_cons.1 hj2 with rfl | hj2
              · exact ⟨hj, hj'⟩
              · exact j4 j2 hj2
            · have e5 : ∀ x : Nat × Nat, i + r + x.1 - (c + r) = i + x.1 - c := by intro x; omega
              have e6 : i + r + (n - r) = i + n := by omega
              have hw : ∀ k, State.wbufRead { s0 with retry := j + 1, doneCount := BitVec.ofNat 17 (i + r) } k =
                  s0.wbufRead k := fun _ => rfl
              simp only [State.probedShapes, e5, e6, hw] at h4
              simp only [State.probedShapes, List.zipWith_cons_cons, List.flatten_cons, e0]
              have := h4
              simp only [← List.append_assoc] at this ⊢
              exact this
            · intro x
              have hw : ∀ k, State.wbufRead { s0 with retry := j + 1, doneCount := BitVec.ofNat 17 (i + r) } k =
                  s0.wbufRead k := fun _ => rfl
              rw [m4 x, hmem x]; simp only [hw]
              by_cases hx : c + r ≤ x ∧ x < c + r + (n - r)
              · rw [if_pos hx, if_pos (by omega)]; congr 2; omega
              · rw [if_neg hx]
                by_cases hx2 : c ≤ x ∧ x < c + r
                · rw [if_pos hx2, if_pos (by omega)]
                · rw [if_neg hx2, if_neg (by omega)]
          · right
            refine ⟨u4, writeShape s0.cfg (BitVec.ofNat 16 c) ((List.range r).map fun j => s0.wbufRead (i + j)) ++
              refusedProbes s0.cfg j ++ probeShape s0.cfg true ++ w', m', s1, ?_, ?_, ?_, r4, p4, hH,
              sf.trans (List.suffix_append _ _)⟩
            · refine e1.trans ?_
              simp only [e2, Ran.orFail_success]; exact e4
            · simpa only [List.append_assoc] using h4
            · rw [s4]
      · right
        refine ⟨u2, writeShape s0.cfg (BitVec.ofNat 16 c) ((List.range r).map fun j => s0.wbufRead (i + j)) ++
          refusedProbes s0.cfg s0.cfg.readyRetries, committed s0.cfg (pairsOf s0.wbufRead i c r) m,
          { s0 with retry := s0.cfg.readyRetries }, ?_, ?_, rfl, r2, p2, hH, List.suffix_append _ _⟩
        · refine e1.trans ?_
          simp only [e2]
          rw [Ran.orFail_error (by simp)]; rfl
        · rw [← List.append_assoc]; exact h2
    · exact absurd hN.hears hnak

/-! ### A command of L2 -/

/-- An accepted command of L2 begins so. -/
theorem At.init {s : State} {i : Instr} (h : s.ReadyForPaged) (hv : v.holds (accept i s)) (hE : s.bus = .reference → E s.ee) :
    At v (accept i s) .idle [] E (accept i s) := by
  obtain ⟨h1, h2, h3, h4, h5, h6⟩ := h
  obtain ⟨hes, hact⟩ := h6.idle h3 h4
  have haddr : s.eng.addr = false := by
    by_contra hc; have := h5.addr_state.1 (by simpa using hc); simp_all
  have hseen : s.eng.addrSeen = false := by
    by_contra hc; have := h5.seen_addr (by simpa using hc); simp_all
  have hrx : s.eng.rxne = false := by
    by_contra hc; have := h5.rxne_state (by simpa using hc); simp_all
  have hsb : s.eng.sb = false := by
    by_contra hc; have := h5.sb_state (by simpa using hc); simp_all
  exact ⟨hv, v.same_refl _, ⟨hes, hact, h4, haddr, hseen, hrx, fun _ => hsb, by simp, by simp, by simp, by simp, by simp⟩,
    rfl, hE, fun _ => rfl⟩

/-- The block accepts. -/
theorem accepted_paged {s : State} {i : Instr} (h : s.ReadyForPaged) (hi : isPaged i = true) (hl : lenTooLong i s = false)
    : refusalCause i s = none := by
  obtain ⟨h1, h2, h3, h4, h5, h6⟩ := h
  have hii : isInit i = false := by cases i <;> simp_all [isPaged, isInit]
  have : phaseAllows i s = true := by cases i <;> simp_all [isPaged, phaseAllows]
  simp [refusalCause, h1, hii, h2, this, h4, hl]

/-- A command of L2 whose body is known: it ends after a last quiet gap, in `g`. -/
theorem exec_paged {s u s1 : State} {i : Instr} {e : TransferOutcome} (hr : s.ReadyForPaged) (hi : isPaged i = true)
    (hl : lenTooLong i s = false) (hb : bodyOf i (accept i s) = .done e u) (h : At v s1 .idle w E u)
    (hE : ∀ e b, E e → v.rests e.busydev b → E (e.withBusy b)) :
    ∃ g, exec i s = .next (finish e g) ∧ At v s1 .idle w E g ∧ Calm v.rests u g := by
  obtain ⟨g, e1, h1, hc, -⟩ := h.gap hE
  refine ⟨g, ?_, h1, hc⟩
  rw [exec_accepted (accepted_paged hr hi hl), hb]
  simp [conclude, e1]

/-- A command of L2 that ends with the bus freed. -/
theorem freed_of {u g : State} {r : Bool → Bool → Prop} (e : TransferOutcome) (hc : Calm r u g) (hr : u.eng.AtRest)
    (hp : u.phase = .idle) : (finish e g).Freed e :=
  ⟨rfl, rfl, rfl, rfl, by rw [← hp]; simp only [finish]; rw [hc.2], by simp only [finish]; rw [hc.eng_eq]; exact hr⟩

/-- A device busy or not stays so as `P'` says. -/
theorem SlaveFree.rests {P P' : Bool → Prop} (hS : v.Settles P P') {m : Memory} (e : Eeprom) (b : Bool)
    (h : SlaveFree P' m e) (hr : v.rests e.busydev b) : SlaveFree P' m (e.withBusy b) :=
  ⟨h.1, hS.keeps _ _ h.2.1 hr, h.2.2⟩

/-- What a command of L2 leaves in the steady environment. -/
theorem completed_steady {d : Steady} {s s1 g : State} {e : TransferOutcome} (hp : s.Prompt d) (h : At (steadyEnv d) s1 es w E g)
    (hs1 : (s1.inited, s1.mode, s1.ccr, s1.trise, s1.len, s1.wbuf, s1.host, s1.rdata, s1.cfg, s1.bus, s1.epoch, s1.ill,
      s1.illcause) = (s.inited, s.mode, s.ccr, s.trise, s.len, s.wbuf, s.host, s.rdata, s.cfg, s.bus, s.epoch, false,
      .none)) : s.Completed (finish e g) e := by
  have h1 := h.kept
  have h2 : (g.rdata, g.ill, g.illcause) = (s1.rdata, s1.ill, s1.illcause) := h.same
  have h3 : g.sched = ⟨[], .steady d⟩ := h.holds.1
  have h4 : s.sched = ⟨[], .steady d⟩ := hp.1
  simp only [State.sequenceKept, Prod.mk.injEq] at h1 h2 hs1
  constructor <;> simp only [finish] <;> simp_all

/-- The content decides what is read. -/
theorem memRead_congr {e e' : Eeprom} (h : e.mem = e'.mem) (x : Nat) :
    e.memRead x = e'.memRead x := by simp [Eeprom.memRead, h]

/-- The content stays. -/
theorem At.mem_of {P : Bool → Prop} {m : Memory} (h : At v s0 es w (SlaveFree P m) t) (hm : s0.ee.mem = m) :
    t.ee.mem = m := by
  cases hb : t.bus
  · exact (h.ee hb).2.2
  · rw [h.eeU hb, hm]

end Sys2Proof.Machine
end

