-- ==== Sys2Proof/Laws/Paged.lean ====
section
/-!
SUPPORT. What the bodies of the L2 commands do in an environment that lets every wait end (42_paged_memory_ops R192 to R197): one lemma per
body, for each of its ends.
-/

namespace Sys2Proof.Machine

variable {v : Env} {s0 : State} {w : List Symbol} {t : State} {P P' Q Q' : Bool → Prop} {m : Memory}

/-- A range that lies in the device. -/
theorem outOfRange_false {c : Params} {a n : Nat} (h : 1 ≤ n) (hle : a + n - 1 ≤ c.maxAddress) : outOfRange c a n = false := by
  unfold outOfRange; rw [if_neg (by omega)]; simpa using hle

/-- `pm_read_byte(a)` (R193). -/
theorem At.readByte (hS : v.Settles P P') (hu : v.Alike s0.bus) (a : MemAddr) (x : Byte) (ha : a.toNat ≤ s0.cfg.maxAddress)
    (hx : s0.bus = .unknown → ∀ ans, v.answers ans → ans.byte = x)
    (hv : s0.bus = .reference → (Memory.read m a.toNat).getD (Config.eepromInit a.toNat) = x)
    (h : At v s0 .idle w (SlaveFree P m) t) :
    (∃ u, pmReadByte a t = .done .success u ∧ At v { s0 with result := x, eng := { s0.eng with acken := false } } .idle
        (w ++ readShape s0.cfg a [x]) (SlaveFree Off m) u ∧ u.eng.AtRest ∧ u.phase = .idle ∧ u.eng.af = false ∧
      u.eng.dir = true ∧ u.eng.dr = x ∧ v.Hears P' s0.bus true) ∨
    (∃ u, pmReadByte a t = .done .noAcknowledge u ∧ v.NakFreed P' m s0 w t u) := by
  have ho : pmReadByte a t = addrPhaseThen a (turnToRead fun s => (blReadByte false s).orFail abort stopWait) t := by
    unfold pmReadByte
    rw [outOfRange_false le_rfl (by rw [h.cfg_eq]; omega)]; rfl
  rw [ho]
  rcases h.addrPhase hS hu a (turnToRead fun s => (blReadByte false s).orFail abort stopWait) with
    ⟨u1, e1, h1, hH, hu'⟩ | h'
  · obtain ⟨u2, e2, h2⟩ := h1.turn a hu' (fun s => (blReadByte false s).orFail abort stopWait)
    obtain ⟨u3, e3, h3, k3⟩ := h2.nextByte false ha x hx hv
    obtain ⟨u4, e4, h4, r4, p4, f4, g4, k4⟩ := h3.stopRead (m := m) (fun e he =>
      ⟨he.1, by simpa using he.2.1, he.2.2.2.1, he.2.2.2.2.2⟩)
    refine .inl ⟨u4, ?_, by simpa [readShape, receivedShape] using h4, r4, p4, f4, g4, k4.trans k3, hH⟩
    rw [e1, e2, e3, Ran.orFail_success, e4]
  · exact .inr h'

/-- `pm_read_bytes(a)` of `n = LEN` bytes, at least one (R195). -/
theorem At.readBytes (hS : v.Settles P P') (hu : v.Alike s0.bus) (hc : s0.cfg.maxAddress ≤ 0xFFFF) (a : MemAddr)
    (val : Nat → Byte) (h1 : 1 ≤ s0.len.toNat) (ha : a.toNat + s0.len.toNat - 1 ≤ s0.cfg.maxAddress)
    (hx : s0.bus = .unknown → ∀ ans, v.answers ans → ∀ j, ans.byte = val j)
    (hv : s0.bus = .reference → ∀ j, j < s0.len.toNat →
      (Memory.read m (a.toNat + j)).getD (Config.eepromInit (a.toNat + j)) = val j)
    (h : At v s0 .idle w (SlaveFree P m) t) :
    (∃ u s1, pmReadBytes a t = .done .success u ∧ At v s1 .idle
        (w ++ readShape s0.cfg a ((List.range s0.len.toNat).map val)) (SlaveFree Off m) u ∧
      s1 = { s0 with
        result := val (s0.len.toNat - 1), eng := { s0.eng with acken := false }, doneCount := s0.len, rbuf := s1.rbuf } ∧
      (∀ x, Memory.read s1.rbuf x = if x < s0.len.toNat then some (val x) else Memory.read s0.rbuf x) ∧
      u.eng.AtRest ∧ u.phase = .idle ∧ u.eng.af = false ∧ u.eng.dir = true ∧ v.Hears P' s0.bus true) ∨
    (∃ u, pmReadBytes a t = .done .noAcknowledge u ∧ v.NakFreed P' m { s0 with doneCount := 0 } w t u) := by
  have hlen : t.len = s0.len := h.facts.2.2.2.2.2.2.2.1
  have ho : pmReadBytes a t = addrPhaseThen a (turnToRead (receiveLoop s0.len.toNat 0)) { t with doneCount := 0, idx := 0 } := by
    unfold pmReadBytes
    simp only [hlen, h.cfg_eq]
    rw [outOfRange_false h1 ha, if_neg (by simp), if_neg (by omega)]
  have h0 : At v { s0 with doneCount := 0 } .idle w (SlaveFree P m) { t with doneCount := 0, idx := 0 } :=
    (h.setProgress t.cur 0 0)
  rw [ho]
  rcases At.addrPhase (s0 := { s0 with doneCount := 0 }) hS hu a h0 (turnToRead (receiveLoop s0.len.toNat 0)) with
    ⟨u1, e1, g1, hH, hu'⟩ | ⟨u, e, hN⟩
  · obtain ⟨u2, e2, g2⟩ := g1.turn a hu' (receiveLoop s0.len.toNat 0)
    have hl : s0.len.toNat < 2 ^ 17 := s0.len.isLt
    obtain ⟨u3, s1, e3, g3, hs1, hrb, r3, p3, f3, d3⟩ := At.receive (m := m) val s0.len.toNat
      (s0 := { s0 with doneCount := 0 }) 0 a.toNat hc (by omega) (show a.toNat + s0.len.toNat ≤ s0.cfg.maxAddress + 1 by omega)
      hx (fun hb j hj => by rw [Nat.zero_add]; exact hv hb j hj) h1 g2
    refine .inl ⟨u3, s1, (e1.trans e2).trans e3, ?_, ?_, fun x => ?_, r3, p3, f3, d3, hH⟩
    · simpa [readShape] using g3
    · rw [hs1]; simp
    · rw [hrb]; simp
  · exact .inr ⟨u, e, hN.ends, hN.rest, hN.phase, hN.af, hN.dir, hN.dr, hN.hears⟩

/-- `pm_write_byte(a, d)` (R194): its address byte refused, or `j` refused probes before one that is acknowledged, or READY_RETRIES
refused ones. -/
theorem At.writeByte (hS : v.Settles P P') (hu : v.Alike s0.bus) (hQ : ∀ b, v.lulls true b → Q b) (hSQ : v.Settles Q Q')
    (ht : v.Hears P' s0.bus true → v.Delays Q' s0) (hleg : s0.cfg.Legal) (a : MemAddr) (x : Byte)
    (ha : a.toNat ≤ s0.cfg.maxAddress) (h : At v s0 .idle w (SlaveFree P m) t) :
    (∃ j u, j < s0.cfg.readyRetries ∧ pmWriteByte a x t = .done .success u ∧ At v { s0 with retry := j + 1 } .idle
        (w ++ writeShape s0.cfg a [x] ++ refusedProbes s0.cfg j ++ probeShape s0.cfg true)
        (SlaveFree Off (Memory.write m a.toNat x)) u ∧
      u.eng.AtRest ∧ u.phase = .idle ∧ u.eng.af = false ∧ u.eng.dir = false ∧ v.Hears P' s0.bus true ∧
      v.Hears Q' s0.bus true ∧ (0 < j → v.Hears Q' s0.bus false)) ∨
    (∃ u, pmWriteByte a x t = .done .timeout u ∧ At v { s0 with retry := s0.cfg.readyRetries } .idle
        (w ++ writeShape s0.cfg a [x] ++ refusedProbes s0.cfg s0.cfg.readyRetries)
        (SlaveFree Q' (Memory.write m a.toNat x)) u ∧
      u.eng.AtRest ∧ u.phase = .idle ∧ u.eng.af = true ∧ v.Hears P' s0.bus true ∧ v.Hears Q' s0.bus false) ∨
    (∃ u, pmWriteByte a x t = .done .noAcknowledge u ∧ v.NakFreed P' m s0 w t u) := by
  have ho : pmWriteByte a x t = addrPhaseThen a (fun s => (blWriteByte x s).orFail abort fun s =>
      (stopWait s).orFail giveBack Machine.readyWait) t := by
    unfold pmWriteByte
    rw [outOfRange_false le_rfl (by rw [h.cfg_eq]; omega)]; rfl
  rw [ho]
  rcases h.addrPhase hS hu a (fun s => (blWriteByte x s).orFail abort fun s => (stopWait s).orFail giveBack Machine.readyWait) with
    ⟨u1, e1, h1, hH, hu'⟩ | h'
  · have hps : 1 ≤ remaining s0.cfg.pageSize a.toNat := Params.Legal.remaining_pos hleg a
    obtain ⟨u2, e2, h2⟩ := h1.sendByte x (E' := SlaveHolds m [(a.toNat, x)] (advanceInPage s0.cfg.pageSize a)) hu'
      (fun e he => by
        obtain ⟨g1, g2, g3, g4, g5, g6, g7, -, g9⟩ := he
        have g9 := g9 rfl
        simp [SlaveHolds, Eeprom.takeByte, g1, g2, g3, g4, g5, g6, g7, g9])
    obtain ⟨u3, e3, h3, r3, p3, f3, d3⟩ := h2.stopData hQ (by simp) (by simp [crossesPage]; omega)
    have hm : committed s0.cfg [(a.toNat, x)] m = Memory.write m a.toNat x := by simp [committed, ha]
    rw [hm] at h3
    have e123 : addrPhaseThen a (fun s => (blWriteByte x s).orFail abort fun s => (stopWait s).orFail giveBack Machine.readyWait) t =
        Machine.readyWait u3 := by rw [e1, e2, Ran.orFail_success, e3, Ran.orFail_success]
    have hw : w ++ addressShape s0.cfg a ++ [.tx x true] ++ [.stop] = w ++ writeShape s0.cfg a [x] := by
      simp [writeShape]
    rw [hw] at h3
    rw [e123]
    rcases h3.readyWait (ht hH) hSQ hleg.2.2.2.1 with
      ⟨j, u4, hj, e4, h4, r4, p4, f4, d4, -, hT, hj'⟩ | ⟨u4, e4, h4, r4, p4, f4, -, -, hH'⟩
    · exact .inl ⟨j, u4, hj, e4, h4, r4, p4, f4, d4, hH, hT, hj'⟩
    · exact .inr (.inl ⟨u4, e4, h4, r4, p4, f4, hH, hH'⟩)
  · exact .inr (.inr h')

/-- `pm_write_bytes(a)` of `n = LEN` bytes, at least one, to a device that acknowledges its address byte (R196). -/
theorem At.writeBytes (hS : v.Settles P P') (hQ : ∀ b, v.lulls true b → Q b) (hSQ : v.Settles Q Q')
    (ht : v.Delays Q' s0) (hleg : s0.cfg.Legal) (a : MemAddr) (h1 : 1 ≤ s0.len.toNat)
    (ha : a.toNat + s0.len.toNat - 1 ≤ s0.cfg.maxAddress) (hP : s0.bus = .reference → ¬P' true)
    (hu : s0.bus = .unknown → ∀ ans, v.answers ans → ans.ack = true) (h : At v s0 .idle w (SlaveFree P m) t) :
    (∃ u m' js r, pmWriteBytes a t = .done .success u ∧
      js.length = (Machine.chunks s0.cfg.pageSize a.toNat s0.len.toNat).length ∧
      (∀ j ∈ js, j < s0.cfg.readyRetries ∧ (0 < j → v.Hears Q' s0.bus false)) ∧
      At v { s0 with retry := r, doneCount := s0.len } .idle
        (w ++ s0.probedShapes 0 a.toNat (Machine.chunks s0.cfg.pageSize a.toNat s0.len.toNat) js) (SlaveFree Off m') u ∧
      (∀ x, Memory.read m' x =
        if a.toNat ≤ x ∧ x < a.toNat + s0.len.toNat then some (s0.wbufRead (x - a.toNat)) else Memory.read m x) ∧
      u.eng.AtRest ∧ u.phase = .idle ∧ u.eng.af = false ∧ u.eng.dir = false) ∨
    (∃ u w' m' s1, pmWriteBytes a t = .done .timeout u ∧ At v s1 .idle (w ++ w') (SlaveFree Q' m') u ∧
      s1 = { s0 with retry := s1.retry, doneCount := s1.doneCount } ∧ u.eng.AtRest ∧ u.phase = .idle ∧
      v.Hears Q' s0.bus false ∧ refusedProbes s0.cfg s0.cfg.readyRetries <:+ w') := by
  have hlen : t.len = s0.len := h.facts.2.2.2.2.2.2.2.1
  have ho : pmWriteBytes a t = chunkLoop (Machine.chunks s0.cfg.pageSize a.toNat s0.len.toNat) 0
      { t with doneCount := 0, cur := a.setWidth 17, idx := 0 } := by
    unfold pmWriteBytes
    simp only [hlen, h.cfg_eq]
    rw [outOfRange_false h1 ha, if_neg (by simp), if_neg (by omega)]
  have h0 : At v { s0 with doneCount := 0 } .idle w (SlaveFree P m) { t with doneCount := 0, cur := a.setWidth 17, idx := 0 } :=
    h.setProgress (a.setWidth 17) 0 0
  rw [ho]
  rcases At.chunks hQ hSQ s0.len.toNat (s0 := { s0 with doneCount := 0 }) 0 a.toNat s0.len.toNat hS hleg
    (show a.toNat + s0.len.toNat ≤ s0.cfg.maxAddress + 1 by omega) h1 le_rfl ht hP hu h0 with
    ⟨u, m', js, e, l, hj, ⟨r, h2⟩, hm, r2, p2, f2, d2⟩ | ⟨u, w', m', s1, e, h2, hs, r2, p2, hH, sf⟩
  · refine .inl ⟨u, m', js, r, e, l, hj, ?_, fun x => ?_, r2, p2, f2, d2⟩
    · have hd : BitVec.ofNat 17 (0 + s0.len.toNat) = s0.len := by simp
      rw [hd] at h2
      exact h2
    · rw [hm]; simp only [Nat.zero_add]; rfl
  · exact .inr ⟨u, w', m', s1, e, h2, by rw [hs], r2, p2, hH, sf⟩

/-- `pm_write_bytes(a)` of `n = LEN` bytes, at least one, to a device that does not acknowledge (R190). -/
theorem At.writeBytesRefused (hS : v.Settles P P') (hu : v.Alike s0.bus) (hleg : s0.cfg.Legal) (a : MemAddr)
    (h1 : 1 ≤ s0.len.toNat) (ha : a.toNat + s0.len.toNat - 1 ≤ s0.cfg.maxAddress) (hN : ¬v.Hears P' s0.bus true)
    (h : At v s0 .idle w (SlaveFree P m) t) :
    ∃ u, pmWriteBytes a t = .done .noAcknowledge u ∧ v.NakFreed P' m { s0 with doneCount := 0 } w t u := by
  have hlen : t.len = s0.len := h.facts.2.2.2.2.2.2.2.1
  obtain ⟨n, hn⟩ : ∃ n, s0.len.toNat = n + 1 := ⟨s0.len.toNat - 1, by omega⟩
  set r := min (remaining s0.cfg.pageSize a.toNat) (n + 1) with hrdef
  have hpos := Params.Legal.remaining_pos hleg a
  have ho : pmWriteBytes a t = chunkLoop ((a.toNat, r) :: chunksFrom s0.cfg.pageSize n (a.toNat + r) (n + 1 - r)) 0
      { t with doneCount := 0, cur := a.setWidth 17, idx := 0 } := by
    unfold pmWriteBytes
    simp only [hlen, h.cfg_eq]
    rw [outOfRange_false h1 ha, if_neg (by simp), if_neg (by omega), hn]
    rfl
  have h0 : At v { s0 with doneCount := 0 } .idle w (SlaveFree P m)
      { t with doneCount := 0, cur := a.setWidth 17, idx := 0, chunk := BitVec.ofNat 17 r } :=
    (h.setProgress (a.setWidth 17) 0 0).setChunk _
  rw [ho]
  rcases At.chunk (Q := Any) (s0 := { s0 with doneCount := 0 }) hS hu (fun _ _ => trivial) hleg 0 a.toNat r a.isLt (by omega)
    (show r ≤ remaining s0.cfg.pageSize a.toNat by omega)
    (fun s => (Machine.readyWait s).orFail giveBack fun s =>
      chunkLoop (chunksFrom s0.cfg.pageSize n (a.toNat + r) (n + 1 - r)) (0 + r)
        { s with
          cur := BitVec.ofNat 17 (a.toNat + r), idx := BitVec.ofNat 17 (0 + r), doneCount := BitVec.ofNat 17 (0 + r) }) h0 with
    ⟨u, -, -, -, -, -, -, hH⟩ | ⟨u, e, hN'⟩
  · exact absurd hH hN
  · exact ⟨u, e, hN'.ends, hN'.rest, hN'.phase, hN'.af, hN'.dir, hN'.dr, hN'.hears⟩

/-! ### The devices of the statements -/

variable {d : Steady}

/-- A device that acknowledges, as a premise on the device's state. -/
theorem acks_free {s : State} (h : s.DeviceAcks d) (hb : s.bus = .reference) :
    SlaveFree (fun b => b = false ∨ d.ready = true) s.ee.mem s.ee := by
  unfold State.DeviceAcks at h; simp only [hb] at h; exact ⟨h.1, h.2, rfl⟩

/-- A device that acknowledges is not heard to refuse. -/
theorem acks_not_false {s : State} (h : s.DeviceAcks d) (hH : (steadyEnv d).Hears Off s.bus false) : False := by
  unfold State.DeviceAcks at h
  cases hb : s.bus
  · have := hH.reference hb; simp at this
  · simp only [hb] at h
    obtain ⟨a, ha, h2⟩ := hH.unknown hb
    have ha : a = d.answer := ha
    rw [ha, h] at h2; simp at h2

/-- A device that does not acknowledge, as a premise on the device's state. -/
theorem naks_free {s : State} (h : s.DeviceNaks d) (hb : s.bus = .reference) :
    SlaveFree (fun b => b = true) s.ee.mem s.ee ∧ d.ready = false := by
  unfold State.DeviceNaks at h; simp only [hb] at h; exact ⟨⟨h.1, h.2.1, rfl⟩, h.2.2⟩

/-- A device that does not acknowledge is not heard to acknowledge. -/
theorem naks_settle {s : State} (h : s.DeviceNaks d) :
    ∃ P, (steadyEnv d).Settles P P ∧ (s.bus = .reference → SlaveFree P s.ee.mem s.ee) ∧
      ¬(steadyEnv d).Hears P s.bus true := by
  cases hb : s.bus
  · obtain ⟨h1, h2⟩ := naks_free h hb
    exact ⟨_, steady_settles_busy h2, fun _ => h1, fun hH => by have := hH.reference rfl; simp at this⟩
  · refine ⟨Any, (steadyEnv d).settles_any, fun h => by simp at h, fun hH => ?_⟩
    unfold State.DeviceNaks at h; simp only [hb] at h
    obtain ⟨a, ha, h2⟩ := hH.unknown rfl
    have ha : a = d.answer := ha
    rw [ha, h] at h2; simp at h2

/-- The premise of a steady environment that withholds no step. -/
theorem prompt_holds {s : State} (i : Instr) (h : s.Prompt d) : (steadyEnv d).holds (accept i s) := h

/-- What a memory command leaves whose body ended with its first byte refused. -/
theorem refused_of {s u s1 : State} {i : Instr} {P : Bool → Prop} (hr : s.ReadyForPaged) (hi : isPaged i = true)
    (hp : s.Prompt d) (hl : lenTooLong i s = false) (hS : (steadyEnv d).Settles P P) {t : State} (ht : t.eng = s.eng)
    (hb : bodyOf i (accept i s) = .done .noAcknowledge u) (hN : (steadyEnv d).NakFreed P s.ee.mem s1 [] t u)
    (hs1 : s1 = { accept i s with doneCount := s1.doneCount }) :
    ∃ t, exec i s = .next t ∧ s.Refused t s1.doneCount := by
  obtain ⟨h1, r1, p1, f1, d1, k1, hH⟩ := hN
  obtain ⟨g, e, hg, hc⟩ := exec_paged hr hi hl hb h1 (SlaveFree.rests hS)
  obtain ⟨a1, a2, a3, a4, a5, a6, a7, a8, a9, a10, a11⟩ := hg.facts
  have he : g.eng = u.eng := hc.eng_eq
  refine ⟨_, e, completed_steady hp hg (by rw [hs1]; rfl), ?_, ?_, ?_, ?_, ?_, ?_, ?_, ?_, ?_, ?_, ?_⟩
  · exact (freed_of .noAcknowledge hc r1 p1).rest
  · exact (freed_of .noAcknowledge hc r1 p1).phase
  · have := hg.eng.trace; rw [hs1] at this; simpa [accept] using this
  · show g.eng.af = true; rw [he]; exact f1
  · show g.eng.acken = _; rw [a4, hs1]; rfl
  · show g.eng.dir = _; rw [he, d1, ht]
  · show g.eng.dr = _; rw [he, k1, hs1]; rfl
  · show g.result = _; rw [a1, hs1]; rfl
  · show g.rbuf = _; rw [a3, hs1]; rfl
  · exact a2
  · exact fun x => memRead_congr (hg.mem_of (by rw [hs1]; rfl)) x

/-- A device that takes a write, as a premise on the device's state. -/
theorem writes_free {s : State} (h : s.DeviceWrites d) (hb : s.bus = .reference) :
    SlaveFree (fun b => b = false ∨ d.ready = true) s.ee.mem s.ee ∧ d.ready = true := by
  unfold State.DeviceWrites at h; simp only [hb] at h; exact ⟨⟨h.1, .inr h.2, rfl⟩, h.2⟩

/-- A device that takes a write is not heard to refuse. -/
theorem writes_not_false {s : State} (h : s.DeviceWrites d) {P : Bool → Prop}
    (hP : P true → d.ready = true → False) (hH : (steadyEnv d).Hears P s.bus false) : False := by
  unfold State.DeviceWrites at h
  cases hb : s.bus
  · have := hH.reference hb; simp only [hb] at h; exact hP this h.2
  · simp only [hb] at h
    obtain ⟨a, ha, h2⟩ := hH.unknown hb
    have ha : a = d.answer := ha
    rw [ha, h] at h2; simp at h2

/-- The registers a command of L2 that reads nothing leaves. -/
theorem freed_facts {s1 g s : State} {es : EngineState} {E : Eeprom → Prop} {i : Instr} {e : TransferOutcome}
    (h : At v s1 es w E g) (hs : s1 = { accept i s with retry := s1.retry }) :
    (finish e g).result = s.result ∧ (finish e g).doneCount = s.doneCount ∧ (finish e g).rbuf = s.rbuf ∧
      (finish e g).eng.acken = s.eng.acken ∧ (finish e g).retry = s1.retry := by
  obtain ⟨a1, a2, a3, a4, a5, a6, a7, a8, a9, a10, a11⟩ := h.facts
  refine ⟨a1.trans ?_, a2.trans ?_, a3.trans ?_, a4.trans ?_, a5⟩ <;> rw [hs] <;> rfl

/-- An unknown bus that takes a write acknowledges. -/
theorem writes_unknown {s : State} (h : s.DeviceWrites d) (hb : s.bus = .unknown) :
    ∀ ans, (steadyEnv d).answers ans → ans.ack = true := by
  unfold State.DeviceWrites at h; simp only [hb] at h
  intro ans (ha : ans = d.answer); rw [ha]; exact h

/-- A write no probe of which was refused. -/
theorem probedShapes_zero (s : State) (a : MemAddr) (js : List Nat) (h0 : ∀ j ∈ js, j = 0) (n : Nat)
    (hl : js.length = (Machine.chunks s.cfg.pageSize a.toNat n).length) :
    s.probedShapes 0 a.toNat (Machine.chunks s.cfg.pageSize a.toNat n) js = s.chunkShapes a n := by
  unfold State.probedShapes State.chunkShapes
  generalize Machine.chunks s.cfg.pageSize a.toNat n = cs at hl
  induction cs generalizing js with
  | nil => simp
  | cons x cs ih =>
    cases js with
    | nil => simp at hl
    | cons j js =>
      obtain rfl : j = 0 := h0 _ (by simp)
      simp only [List.zipWith_cons_cons, List.flatten_cons, List.flatMap_cons]
      rw [ih js (fun j hj => h0 j (by simp [hj])) (by simpa using hl)]
      simp [refusedProbes, State.chunkData]

/-- The last probe of a write is one that was acknowledged. -/
theorem chunks_last (s : State) (i c : Nat) (cs : List (Nat × Nat)) : ∀ js, js.length = cs.length → cs ≠ [] →
    ∃ w, s.probedShapes i c cs js = w ++ probeShape s.cfg true := by
  induction cs with
  | nil => intro js _ h; simp at h
  | cons x cs ih =>
    intro js hl _
    cases js with
    | nil => simp at hl
    | cons j js =>
      by_cases hc : cs = []
      · subst hc
        obtain rfl : js = [] := by simpa using hl
        exact ⟨writeShape s.cfg (BitVec.ofNat 16 x.1) ((List.range x.2).map fun k => s.wbufRead (i + x.1 - c + k)) ++
          refusedProbes s.cfg j, by simp [State.probedShapes]⟩
      · obtain ⟨w, hw⟩ := ih js (by simpa using hl) hc
        refine ⟨writeShape s.cfg (BitVec.ofNat 16 x.1) ((List.range x.2).map fun k => s.wbufRead (i + x.1 - c + k)) ++
          refusedProbes s.cfg j ++ probeShape s.cfg true ++ w, ?_⟩
        rw [List.append_assoc _ w, ← hw]; simp only [State.probedShapes, List.zipWith_cons_cons, List.flatten_cons]

/-- A wire whose last probe was acknowledged does not end in refused probes. -/
theorem probe_suffix (c : Params) (hn : 1 ≤ c.readyRetries) (w : List Symbol) :
    ¬refusedProbes c c.readyRetries <:+ w ++ probeShape c true := by
  intro h
  obtain ⟨n, hn⟩ : ∃ n, c.readyRetries = n + 1 := ⟨c.readyRetries - 1, by omega⟩
  have h1 : probeShape c false <:+ refusedProbes c c.readyRetries := by
    rw [hn]; unfold refusedProbes; rw [List.replicate_succ']; simp
  have h2 : probeShape c false <:+ w ++ probeShape c true := h1.trans h
  have := List.suffix_of_suffix_length_le h2 (List.suffix_append w (probeShape c true)) (by simp [probeShape])
  have := this.eq_of_length (by simp [probeShape])
  simp [probeShape] at this

/-- A command of L2 that has ended leaves the block ready for the next. -/
theorem ready_of_rest {t : State} (hb : t.busy = false) (hi : t.inited = true) (hr : t.eng.AtRest) (hp : t.phase = .idle) :
    t.ReadyForPaged := by
  obtain ⟨h1, h2, h3, h4, h5, h6, h7, h8, h9, h10⟩ := hr
  refine ⟨hb, hi, hp, h7, ?_, ?_⟩
  · constructor <;> simp_all
  · constructor <;> simp_all

end Sys2Proof.Machine
end

