-- ==== Sys2Proof/Laws/PerInstr.lean ====
section
/-!
SUPPORT. The statement made per instruction: the word the encoder gives an instruction is legal by the opcode table, in the
row of the instruction's own mnemonic (R92, R95, R96).
-/

namespace Sys2Proof.Laws.Legal

open Sys2Proof

/-- The encoding of `i` matches a row of the opcode table that carries the mnemonic of `i`. -/
def Statement (i : Instr) : Prop := ∃ r ∈ opcodeRows, r.mnemonic = i.mnemonic ∧ r.matchesWord (encode i) = true

/-- A word matches a row when the fixed bits of its opcode and of its operand field do. -/
theorem matches_wordOf (name : String) (op : Byte) (v m arg : BitVec 24) (h : arg &&& m = v) :
    (⟨name, wordOf op v, wordOf 0xFF m⟩ : OpcodeRow).matchesWord (wordOf op arg) = true := by
  simp only [OpcodeRow.matchesWord, wordOf, beq_iff_eq, ← h]
  rw [BitVec.and_append, show op &&& 0xFF = op from BitVec.and_allOnes]

/-- An operand narrower than the operand field leaves the bits above it 0. -/
theorem setWidth_and {n : Nat} (m : BitVec 24) (h : ∀ i, i < n → m.getLsbD i = false) (x : BitVec n) :
    x.setWidth 24 &&& m = 0 := by
  ext i hi
  by_cases hn : i < n
  · simp [← BitVec.getLsbD_eq_getElem, h i hn]
  · simp [BitVec.getLsbD_of_ge x i (by omega)]

theorem init (mode : BusMode) : Statement (.init mode) := by cases mode <;> exact ⟨opcodeRows[0], by decide⟩
theorem start : Statement .start := ⟨opcodeRows[1], by decide⟩
theorem stop : Statement .stop := ⟨opcodeRows[2], by decide⟩
theorem wraddr (a : Byte) : Statement (.wraddr a) :=
  ⟨opcodeRows[3], by decide, rfl, matches_wordOf _ 0x04 0 0xFFFF00 _ (setWidth_and _ (by decide) a)⟩
theorem wrbyte (d : Byte) : Statement (.wrbyte d) :=
  ⟨opcodeRows[4], by decide, rfl, matches_wordOf _ 0x05 0 0xFFFF00 _ (setWidth_and _ (by decide) d)⟩
theorem rdbyte (ack : Bool) : Statement (.rdbyte ack) := by cases ack <;> exact ⟨opcodeRows[5], by decide⟩
theorem probe : Statement .probe := ⟨opcodeRows[6], by decide⟩
theorem mrd1 (a : MemAddr) : Statement (.mrd1 a) :=
  ⟨opcodeRows[7], by decide, rfl, matches_wordOf _ 0x11 0 0xFF0000 _ (setWidth_and _ (by decide) a)⟩
theorem mwr1 (a : MemAddr) (d : Byte) : Statement (.mwr1 a d) :=
  ⟨opcodeRows[8], by decide, rfl, matches_wordOf _ 0x12 0 0 _ (by simp)⟩
theorem mrdn (a : MemAddr) : Statement (.mrdn a) :=
  ⟨opcodeRows[9], by decide, rfl, matches_wordOf _ 0x13 0 0xFF0000 _ (setWidth_and _ (by decide) a)⟩
theorem mwrn (a : MemAddr) : Statement (.mwrn a) :=
  ⟨opcodeRows[10], by decide, rfl, matches_wordOf _ 0x14 0 0xFF0000 _ (setWidth_and _ (by decide) a)⟩
theorem waitrdy : Statement .waitrdy := ⟨opcodeRows[11], by decide⟩

end Sys2Proof.Laws.Legal
end

