-- ==== Sys2Proof/Tests/Slice0.lean ====
section
/-!
SUPPORT. The model's own tests. Expected results are those of spec/95_test_vectors.md (V1 to V43, P1 to P7); parameters as there,
but for short limits. Then, for every obligation with hypotheses, a witness: states and operands that meet them, each clause
once and at the boundary values of its ranges.
-/

namespace Sys2Proof.Tests

open Sys2Proof Sys2Proof.Machine

/-! ### Helpers -/

/-- The parameters of the vectors (95_test_vectors, header), with three samples, three probes and a delay of one tick. -/
def cfg : Params where
  pageSize := 128
  maxAddress := 0xFFFF
  devBase := 0x50
  spinLimit := 3
  readyRetries := 3
  readyDelayMs := 1
  bufSize := 65536
  ccrStd := 0x0050
  triseStd := 0x11
  ccrFast := 0x000E
  triseFast := 0x06
  fRefHz := 16000000
  fSclStdHz := 100000
  fSclFastHz := 400000

/-- An environment's answers. -/
def answer (k : Bool) (v : Byte) : Answer := ⟨k, v, default⟩

/-- Nothing withheld, the device ready (A_SPIN, A_WRITE_CYCLE). -/
def prompt : Steady := ⟨true, true, true, answer true 0⟩

/-- Every engine step withheld. -/
def hold : Steady := ⟨false, true, true, answer true 0⟩

/-- Nothing withheld, a write cycle that never ends. -/
def neverReady : Steady := ⟨true, false, true, answer true 0⟩

/-- No device on the bus. -/
def absent : Steady := ⟨true, true, true, answer false 0⟩

/-- No device on the bus, and no ticks (U12). -/
def noTicks : Steady := ⟨true, true, false, answer false 0⟩

/-- Just after reset, the reference EEPROM with content `m` on the bus. -/
def fresh (m : Memory) : State :=
  { State.reset with
    cfg := cfg, ee := { Eeprom.atReset with mem := m, ptr := 0 }, bus := .reference, sched := ⟨[], .steady prompt⟩ }

/-- After INIT std: STATUS 0x22. -/
def idle (m : Memory) : State := { fresh m with inited := true, cpl := true, ccr := 0x0050, trise := 0x11 }

/-- After START (V21): STATUS 0x2A, FLAGS 0x01. -/
def addressed : State :=
  { idle [] with
    phase := .addressPhase
    eng := { Engine.reset with sb := true, es := .sb, sclO := false, sdaO := false, trace := [.start] }
    ee := (idle []).ee.begin }

/-- After WRADDR 0xA0 (V21): STATUS 0x32, FLAGS 0x04. -/
def sending : State :=
  { idle [] with
    phase := .dataPhase
    eng := { Engine.reset with dr := 0xA0, txe := true, es := .tx, sclO := false, trace := [.start, .tx 0xA0 true] }
    ee := { (idle []).ee with sel := .write } }

/-- In a read (P2 row 7), the device at `p` with content `m`: STATUS 0x32, FLAGS 0x80. -/
def receiving (m : Memory) (p : MemAddr) : State :=
  { idle m with
    phase := .dataPhase
    eng := { Engine.reset with dr := 0xA1, dir := true, es := .rx, sclO := false, trace := [.start, .tx 0xA1 true] }
    ee := { (idle m).ee with sel := .read, out := .fresh, ptr := p } }

/-- The same state in another environment. -/
def within (d : Steady) (s : State) : State := { s with sched := ⟨[], .steady d⟩ }

/-- The same state with a bus whose slaves are unknown. -/
def strange (d : Steady) (s : State) : State := { within d s with bus := .unknown }

/-- A timely schedule: the clock held and let go by turns, `n` times, the device not ready before the end. -/
def late (n : Nat) : Sched :=
  ⟨(List.replicate n [⟨[.env (.engine (answer true 0))], true⟩, ⟨[.env .hold], true⟩]).flatten, .steady prompt⟩

/-- The reference EEPROM in its busy period, in such a schedule. -/
def busyLate (n : Nat) : State := { idle [] with ee := { (idle []).ee with busydev := true }, sched := late n }

/-- The reference EEPROM in a busy period that does not end, `n` in LEN. -/
def busyDevice (n : Count) : State :=
  { within neverReady (idle []) with ee := { (idle []).ee with busydev := true }, len := n }

/-- In Error, nothing withheld: a START pending on an idle bus (V22), a byte pending in a transaction (V23). -/
def pendingStart : State := { idle [] with phase := .error, eng := { Engine.reset with act := .start } }
def pendingByte : State :=
  { addressed with phase := .error, eng := { addressed.eng with dr := 0xA0, sb := false, act := .txAddr } }

/-- AddressPhase with the repeated START of a second START still pending (log 31). -/
def pendingAgain : State := { addressed with eng := { addressed.eng with act := .rstart } }

/-- A STOP pending in a transaction (V28), and behind a pending byte (V23). -/
def pendingStop : State := { sending with phase := .idle, eng := { sending.eng with stopp := true } }
def pendingBoth : State := { pendingByte with phase := .idle, eng := { pendingByte.eng with stopp := true } }

/-- A state as the one outcome of a command. -/
def after (o : Host.Outcome State Fault Refusal) : State :=
  match o with
  | .next t => t
  | .fault f => nomatch f
  | .refused _ => State.reset

/-- What a host polls after a write of `w` to CMD, with the trace. -/
def seen (w : Word) (s : State) : Word × Word × List Symbol :=
  (statusWord (after (present w s)), flagsWord (after (present w s)).eng, (after (present w s)).eng.trace)

theorem cfg_legal : cfg.Legal := ⟨⟨7, by decide, rfl⟩, by decide⟩

/-! ### Encodings (V1, V2): each word is written out from the formats of R92, the opcode in bits 31:24 -/

theorem test_decode_init : decode (0x01#8 ++ 0#23 ++ 1#1) = some (.init .fast) := by decide
theorem test_decode_start : decode (0x02#8 ++ 0#24) = some .start := by decide
theorem test_decode_stop : decode (0x03#8 ++ 0#24) = some .stop := by decide
theorem test_decode_wraddr : decode (0x04#8 ++ 0#16 ++ 0xA1#8) = some (.wraddr 0xA1) := by decide
theorem test_decode_wrbyte : decode (0x05#8 ++ 0#16 ++ 0x12#8) = some (.wrbyte 0x12) := by decide
theorem test_decode_rdbyte : decode (0x06#8 ++ 0#23 ++ 1#1) = some (.rdbyte true) := by decide
theorem test_decode_probe : decode (0x10#8 ++ 0#24) = some .probe := by decide
theorem test_decode_mrd1 : decode (0x11#8 ++ 0#8 ++ 0x0123#16) = some (.mrd1 0x0123) := by decide
theorem test_decode_mwr1 : decode (0x12#8 ++ 0xAB#8 ++ 0x0123#16) = some (.mwr1 0x0123 0xAB) := by decide
theorem test_decode_mrdn : decode (0x13#8 ++ 0#8 ++ 0x0064#16) = some (.mrdn 0x0064) := by decide
theorem test_decode_mwrn : decode (0x14#8 ++ 0#8 ++ 0x0064#16) = some (.mwrn 0x0064) := by decide
theorem test_decode_waitrdy : decode (0x15#8 ++ 0#24) = some .waitrdy := by decide

/-- V1: the words encode as the spec writes them. -/
theorem test_encode :
    encode (.init .fast) = 0x01000001 ∧ encode (.wraddr 0xA0) = 0x040000A0 ∧ encode (.rdbyte true) = 0x06000001 ∧
    encode (.mwr1 0xFFFF 0xFF) = 0x12FFFFFF ∧ encode (.mrdn 0x0064) = 0x13000064 ∧ encode .waitrdy = 0x15000000 := by decide

/-- V2: ill-formed words, refused by the legality check of `WellFormed.lean`. -/
theorem test_illegal_words :
    ([0x00000000, 0x07000000, 0x0F000000, 0x16000000, 0xFF000000, 0x02000001, 0x01000002, 0x040001A0, 0x06000003,
      0x13010064, 0x10800000] : List Word).all (fun w => !legalWord w && (decode w).isNone) = true := by decide

/-- V2: one ill-formed word for each check of a format's reserved bits, and the legal word beside it. -/
theorem test_reserved_bits :
    ([0x01000002, 0x02000001, 0x03800000, 0x04000100, 0x05800000, 0x06000002, 0x10000001, 0x11010000, 0x13800000, 0x14010000,
      0x15000001] : List Word).all (fun w => !legalWord w && (decode w).isNone) = true ∧
    ([0x01000001, 0x02000000, 0x03000000, 0x040000FF, 0x050000FF, 0x06000001, 0x10000000, 0x1100FFFF, 0x12FFFFFF, 0x1300FFFF,
      0x1400FFFF, 0x15000000] : List Word).all (fun w => legalWord w && (decode w).isSome) = true := by decide

/-- Every command is well formed; a mnemonic no row of the table has is not one. -/
theorem test_wellFormed :
    ([.init .std, .start, .stop, .wraddr 0, .wrbyte 0, .rdbyte false, .probe, .mrd1 0, .mwr1 0 0, .mrdn 0, .mwrn 0,
      .waitrdy] : List Instr).all Instr.wellFormed = true ∧
    opcodeRows.any (fun r => r.mnemonic == "NOP") = false := by decide

/-! ### Commands, one step each -/

/-- V29. -/
theorem test_init_fast : seen 0x01000001 (fresh []) = (0x26, 0x00, []) ∧
    (after (present 0x01000001 (fresh []))).ccr = 0x000E := by decide
/-- V3 row 4: the second INIT is refused, MODE stays. -/
theorem test_init_twice : seen 0x01000001 (idle []) = (0x722, 0x00, []) := by decide
/-- V26: a repeated START from AddressPhase. -/
theorem test_start_repeated : seen 0x02000000 addressed = (0x2A, 0x01, [.start, .rstart]) := by decide
/-- V22: a START that times out. R133, R161, R163: in AddressPhase the first sample shows SB = 1, though the engine is withheld. -/
theorem test_start_timeout : seen 0x02000000 (within hold (idle [])) = (0xFA, 0x00, []) ∧
    (after (present 0x02000000 (within hold (idle [])))).eng.act = .start ∧
    seen 0x02000000 (within hold addressed) = (0x2A, 0x01, [.start]) := by decide
/-- V28: in DataPhase, the clock held low, and the second STOP; V28 and V23, once the environment lets go: the pending byte, then
the one STOP. -/
theorem test_stop_pending :
    seen 0x03000000 (within hold sending) = (0x22, 0x14, [.start, .tx 0xA0 true]) ∧
    seen 0x03000000 (within hold pendingStop) = (0x22, 0x14, [.start, .tx 0xA0 true]) ∧
    seen 0x03000000 pendingStop = (0x22, 0x00, [.start, .tx 0xA0 true, .stop]) ∧
    seen 0x03000000 pendingByte = (0x22, 0x00, [.start, .tx 0xA0 true, .stop]) ∧
    seen 0x03000000 pendingBoth = (0x22, 0x00, [.start, .tx 0xA0 true, .stop]) := by decide
/-- V22: STOP cancels a START that is not on the wire. -/
theorem test_stop_cancels :
    seen 0x03000000 { within hold (idle []) with phase := .error, eng := { Engine.reset with act := .start } } =
      (0x22, 0x00, []) := by decide
/-- V21 row 2. -/
theorem test_wraddr_ack : seen 0x040000A0 addressed = (0x32, 0x04, [.start, .tx 0xA0 true]) := by decide
/-- V24. -/
theorem test_wraddr_nak : seen 0x040000A0 (strange absent addressed) = (0xBA, 0x20, [.start, .tx 0xA0 false]) := by decide
/-- V21 row 3: the device takes 0x12 as the high address byte. -/
theorem test_wrbyte_ack : seen 0x05000012 sending = (0x32, 0x04, [.start, .tx 0xA0 true, .tx 0x12 true]) ∧
    (after (present 0x05000012 sending)).ee.naddr = 1 := by decide
/-- V25. -/
theorem test_wrbyte_nak :
    seen 0x05000012 (strange absent sending) = (0xBA, 0x20, [.start, .tx 0xA0 true, .tx 0x12 false]) := by decide
/-- P2 row 8. -/
theorem test_rdbyte_ack :
    seen 0x06000001 (receiving [(0x10, 0x11), (0x11, 0x22)] 0x10) = (0x32, 0xC0, [.start, .tx 0xA1 true, .rx 0x11 true]) ∧
    (after (present 0x06000001 (receiving [(0x10, 0x11), (0x11, 0x22)] 0x10))).result = 0x11 := by decide
/-- P2 row 9. -/
theorem test_rdbyte_nak :
    seen 0x06000000 (receiving [(0x11, 0x22)] 0x11) = (0x32, 0x80, [.start, .tx 0xA1 true, .rx 0x22 false]) := by decide
/-- V30, device ready. -/
theorem test_probe_ack : seen 0x10000000 (idle []) = (0x22, 0x00, [.start, .tx 0xA0 true, .stop]) := by decide
/-- V30, device absent. -/
theorem test_probe_nak :
    seen 0x10000000 (strange absent (idle [])) = (0xA2, 0x20, [.start, .tx 0xA0 false, .stop]) := by decide
/-- V31. -/
theorem test_mrd1 :
    seen 0x11000123 (idle [(0x123, 0xAB)]) =
      (0x22, 0x80, [.start, .tx 0xA0 true, .tx 0x01 true, .tx 0x23 true, .rstart, .tx 0xA1 true, .rx 0xAB false, .stop]) ∧
    (after (present 0x11000123 (idle [(0x123, 0xAB)]))).result = 0xAB ∧
    (after (present 0x11000123 (idle [(0x123, 0xAB)]))).ee.ptr = 0x0124 := by decide
/-- V35, MAX_ADDRESS 0x7FFF. -/
theorem test_mrd1_range : seen 0x11008000 { idle [] with cfg := { cfg with maxAddress := 0x7FFF } } = (0x62, 0x00, []) := by
  decide
/-- V31, V32, the device ready at the first probe. -/
theorem test_mwr1 :
    seen 0x12AB0123 (idle []) =
      (0x22, 0x00, [.start, .tx 0xA0 true, .tx 0x01 true, .tx 0x23 true, .tx 0xAB true, .stop, .start, .tx 0xA0 true, .stop]) ∧
    (after (present 0x12AB0123 (idle []))).ee.memRead 0x123 = 0xAB := by decide
/-- V37, three probes; V32, two refused ones. -/
theorem test_mwr1_busy :
    seen 0x12000000 (within neverReady (idle [])) =
      (0xE2, 0x20, [.start, .tx 0xA0 true, .tx 0x00 true, .tx 0x00 true, .tx 0x00 true, .stop] ++
        (List.replicate 3 [.start, .tx 0xA0 false, .stop]).flatten) ∧
    seen 0x12AB0123 { idle [] with sched := late 15 } =
      (0x22, 0x00, [.start, .tx 0xA0 true, .tx 0x01 true, .tx 0x23 true, .tx 0xAB true, .stop, .start, .tx 0xA0 false, .stop,
        .start, .tx 0xA0 false, .stop, .start, .tx 0xA0 true, .stop]) := by decide
/-- V33. -/
theorem test_mrdn :
    seen 0x13000010 { idle [(0x10, 0x11), (0x11, 0x22), (0x12, 0x33)] with len := 3 } =
      (0x22, 0x80, [.start, .tx 0xA0 true, .tx 0x00 true, .tx 0x10 true, .rstart, .tx 0xA1 true, .rx 0x11 true, .rx 0x22 true,
        .rx 0x33 false, .stop]) ∧
    (after (present 0x13000010 { idle [(0x10, 0x11), (0x11, 0x22), (0x12, 0x33)] with len := 3 })).rbuf =
      [(0, 0x11), (1, 0x22), (2, 0x33)] := by decide
/-- V34, V35: LEN 0 in range, and two bytes from 0xFFFF. -/
theorem test_mrdn_range : seen 0x13000005 (idle []) = (0x22, 0x00, []) ∧
    seen 0x1300FFFF { idle [] with len := 2 } = (0x62, 0x00, []) := by decide
/-- V41 row 3: two bytes from 127, in two chunks. -/
theorem test_mwrn :
    seen 0x1400007F { idle [] with len := 2, wbuf := [(0, 0x55), (1, 0x66)] } =
      (0x22, 0x00, [.start, .tx 0xA0 true, .tx 0x00 true, .tx 0x7F true, .tx 0x55 true, .stop, .start, .tx 0xA0 true, .stop,
        .start, .tx 0xA0 true, .tx 0x00 true, .tx 0x80 true, .tx 0x66 true, .stop, .start, .tx 0xA0 true, .stop]) ∧
    (after (present 0x1400007F { idle [] with len := 2, wbuf := [(0, 0x55), (1, 0x66)] })).ee.mem = [(127, 0x55), (128, 0x66)] ∧
    (after (present 0x1400007F { idle [] with len := 2, wbuf := [(0, 0x55), (1, 0x66)] })).doneCount = 2 := by decide
/-- V34, MAX_ADDRESS 0x7FFF: LEN 0 out of range. -/
theorem test_mwrn_range : seen 0x14008000 { idle [] with cfg := { cfg with maxAddress := 0x7FFF } } = (0x62, 0x00, []) := by
  decide
/-- V36, j = 0, and j = 2 with the flags late too. -/
theorem test_waitrdy :
    seen 0x15000000 (idle []) = (0x22, 0x00, [.start, .tx 0xA0 true, .stop]) ∧
    (after (present 0x15000000 (idle []))).retry = 1 ∧
    seen 0x15000000 (busyLate 9) =
      (0x22, 0x00, [.start, .tx 0xA0 false, .stop, .start, .tx 0xA0 false, .stop, .start, .tx 0xA0 true, .stop]) ∧
    (after (present 0x15000000 (busyLate 9))).retry = 3 := by decide
/-- V36: as many probes as READY_RETRIES, each followed by its delay. R197, R223: the stop of a refused probe is withheld for all its
samples; it completes before FLAGS.STOPP is read, and the probes go on, or after it, and the wait is over. -/
theorem test_waitrdy_timeout :
    seen 0x15000000 (strange absent (idle [])) = (0xE2, 0x20, (List.replicate 3 [.start, .tx 0xA0 false, .stop]).flatten) ∧
    (after (present 0x15000000 (strange absent (idle [])))).ticks = 1 ∧
    (let lets : Gap := ⟨[.env (.engine absent.answer)], true⟩
     let holds : Gap := ⟨[.env .hold], true⟩
     let run (g : Gap) := { strange absent (idle []) with
       sched := ⟨[lets, lets, lets, lets, holds, holds, holds, holds, g], .steady absent⟩ }
     seen 0x15000000 (run lets) = (0xE2, 0x20, (List.replicate 3 [.start, .tx 0xA0 false, .stop]).flatten) ∧
     seen 0x15000000 (run holds) = (0xE2, 0x20, [.start, .tx 0xA0 false, .stop]) ∧
     (after (present 0x15000000 (run holds))).retry = 1) := by decide

/-- V3 rows 1, 2, 5, 6, 7, 8 and V28: the checks of R97 in their order. -/
theorem test_refusals :
    seen 0x02000000 (fresh []) = (0x700, 0x00, []) ∧ seen 0x00000000 (fresh []) = (0x500, 0x00, []) ∧
    (seen 0x05000012 (idle [])).1 = 0x922 ∧ (seen 0x040000A0 (idle [])).1 = 0x922 ∧ (seen 0x06000000 (idle [])).1 = 0x922 ∧
    (seen 0x13000000 { idle [] with len := 0x10001 }).1 = 0xD22 ∧
    (seen 0x10000000 { idle [] with eng := { sending.eng with stopp := true } }).1 = 0xB22 := by decide
/-- V4. -/
theorem test_direction : (seen 0x06000000 sending).1 = 0x932 ∧ (seen 0x05000000 (receiving [] 0)).1 = 0x932 := by decide

/-- V40, V41 rows 4, 6, 9, and V42. -/
theorem test_chunks :
    remaining 128 100 = 28 ∧ remaining 128 0xFF80 = 128 ∧ chunks 128 100 50 = [(100, 28), (128, 22)] ∧
    chunks 128 130 300 = [(130, 126), (256, 128), (384, 46)] ∧ chunks 128 5 0 = [] ∧
    chunks 16 100 50 = [(100, 12), (112, 16), (128, 16), (144, 6)] := by decide

/-- V13: the levels of `S B(A0,A) P`. -/
theorem test_levels :
    traceLevels [.start, .tx 0xA0 true, .stop] =
      [⟨true, true⟩, ⟨true, false⟩, ⟨false, false⟩] ++
      [⟨false, true⟩, ⟨true, true⟩, ⟨false, true⟩, ⟨false, false⟩, ⟨true, false⟩, ⟨false, false⟩,
        ⟨false, true⟩, ⟨true, true⟩, ⟨false, true⟩] ++
      (List.replicate 5 [⟨false, false⟩, ⟨true, false⟩, ⟨false, false⟩]).flatten ++
      [⟨false, true⟩, ⟨true, true⟩, ⟨false, true⟩] ++ [⟨false, false⟩, ⟨true, false⟩, ⟨true, true⟩] := by decide

/-- R49, R121, R126, R129: a slave's low wins on a line, the bits of 0xA5 from the first to the last, and a clock held low lets no
engine step happen. -/
theorem test_lines :
    onLines ⟨true, true⟩ [⟨true, false⟩, ⟨true, true⟩] = ⟨true, false⟩ ∧ onLines ⟨true, true⟩ [] = ⟨true, true⟩ ∧
    byteOfBits [true, false, true, false, false, true, false, true] = 0xA5 ∧
    byteOfBits [true, false, false, false, false, false, false, false] = 0x80 ∧ receivedByte 0x12 = 0x12 ∧
    receivedAck false = false ∧ clockRises false = false ∧
    envMove .hold (idle []) = idle [] ∧ envMove .hold pendingByte = pendingByte ∧
    (envMove (.engine (answer true 0)) pendingByte).eng.trace = [.start, .tx 0xA0 true] := by decide

/-- V10 steps 6 to 10: outside their preconditions the accesses do nothing, and the clear of ADDR takes two steps. -/
theorem test_two_step :
    let e : Engine := { Engine.reset with dr := 0xA0, addr := true, es := .addrHold, sclO := false }
    e.readSr2 = e ∧ e.loadTx 0x12 = e ∧ e.readSr1.readSr2.addr = false ∧ e.readSr1.readSr2.es = .tx ∧
      e.readSr1.readSr2.txe = true := by decide

/-- The table words of the host reach the decoder and the next step (log 17). -/
theorem test_table_word : decodeTableWord 32 0x12AB0123 = some (.mwr1 0x0123 0xAB) ∧ decodeTableWord 32 0x12FF0000 ≠ none ∧
    (after (step ((idle []).withFetchWord 32 0x10000000))).eng.trace = [.start, .tx 0xA0 true, .stop] := by decide

/-! ### Witnesses: encoding, step and host -/

theorem witness_EncodeDecode : decode 0x12FFFFFF = some (.mwr1 0xFFFF 0xFF) := by decide

theorem witness_DecodesLegalWords :
    decode 0x10000000 = some .probe ∧ (⟨"PROBE", 0x10000000, 0xFFFFFFFF⟩ : OpcodeRow) ∈ opcodeRows ∧
    (⟨"WAITRDY", 0x15000000, 0xFFFFFFFF⟩ : OpcodeRow) ∈ opcodeRows := by decide

/-- The five clauses, each at the edge of its range. -/
theorem witness_IllegalWordRefused :
    (idle []).busy = false ∧
    (0x07000000#32).toNat / 2 ^ 24 ∉ [0x01, 0x02, 0x03, 0x04, 0x05, 0x06, 0x10, 0x11, 0x12, 0x13, 0x14, 0x15] ∧
    ((0x02000001#32).toNat / 2 ^ 24 ∈ [0x02, 0x03, 0x10, 0x15] ∧ (0x02000001#32).toNat % 2 ^ 24 ≠ 0) ∧
    ((0x01000002#32).toNat / 2 ^ 24 ∈ [0x01, 0x06] ∧ (0x01000002#32).toNat % 2 ^ 24 / 2 ≠ 0) ∧
    ((0x04000100#32).toNat / 2 ^ 24 ∈ [0x04, 0x05] ∧ (0x04000100#32).toNat % 2 ^ 24 / 2 ^ 8 ≠ 0) ∧
    ((0x13010000#32).toNat / 2 ^ 24 ∈ [0x11, 0x13, 0x14] ∧ (0x13010000#32).toNat % 2 ^ 24 / 2 ^ 16 ≠ 0) := by decide

/-- Each next access of the host; the word beside 0x00000000 that decodes, and the offset beside CMD. -/
theorem witness_StepRunsDecodedCommand :
    ({ idle [] with host := [.write cmdOffset 0x01000000] } : State).host = .write cmdOffset 0x01000000 :: [] ∧
    decode 0x01000000 = some (.init .std) ∧ decode 0x00000000 = none ∧ (0x00001 : Nat) ≠ cmdOffset ∧
    ({ idle [] with host := [.write 0x00001 0] } : State).host = .write 0x00001 0 :: [] ∧
    ({ idle [] with host := [.read 0x00004] } : State).host = .read 0x00004 :: [] ∧
    ({ idle [] with host := [.reset] } : State).host = .reset :: [] ∧
    ({ idle [] with host := [.idle] } : State).host = .idle :: [] ∧ (idle []).host = [] := by decide

/-- Offsets at the edges of the map. -/
theorem witness_RegisterMap :
    (idle []).cfg.bufSize ≤ 65536 ∧ 0 < (idle []).cfg.bufSize ∧ 65535 < (idle []).cfg.bufSize ∧
    (0x00000 : Nat) ∉ [0x00004, 0x00008, 0x0000C, 0x00010, 0x00014, 0x00018, 0x0001C] ∧ (0x0FFFF : Nat) < 0x10000 ∧
    0x20000 + (idle []).cfg.bufSize ≤ 0x30000 ∧ (0x00014 : Nat) ≠ 0x00010 ∧ 0x10000 + (idle []).cfg.bufSize ≤ 0x20000 := by
  decide

theorem witness_HostWrites : (idle []).busy = false ∧ 0 < (idle []).cfg.bufSize ∧ 65535 < (idle []).cfg.bufSize := by decide

theorem witness_HostAccessWhileBusy : (accept .probe (idle [])).busy = true ∧ (0x00010 : Nat) ≠ cmdOffset := by decide

theorem witness_ResetValues :
    State.reset = State.reset ∧ resetBlock sending = resetBlock sending ∧ (idle []).eng.inTransaction = false :=
  ⟨rfl, rfl, by decide⟩

/-! ### Witnesses: invariants -/

theorem idle_inv : (idle []).Inv where
  engine := by constructor <;> decide
  phaseInv := by constructor <;> decide
  seq_busy := by decide
  ill_cause := by decide
  uninited := by decide
  mem_wf := by decide
  wbuf_wf := by decide
  rbuf_wf := by decide

theorem fresh_inv : (fresh []).Inv where
  engine := by constructor <;> decide
  phaseInv := by constructor <;> decide
  seq_busy := by decide
  ill_cause := by decide
  uninited := by decide
  mem_wf := by decide
  wbuf_wf := by decide
  rbuf_wf := by decide

theorem addressed_inv : addressed.Inv where
  engine := by constructor <;> decide
  phaseInv := by constructor <;> decide
  seq_busy := by decide
  ill_cause := by decide
  uninited := by decide
  mem_wf := by decide
  wbuf_wf := by decide
  rbuf_wf := by decide

theorem sending_inv : sending.Inv where
  engine := by constructor <;> decide
  phaseInv := by constructor <;> decide
  seq_busy := by decide
  ill_cause := by decide
  uninited := by decide
  mem_wf := by decide
  wbuf_wf := by decide
  rbuf_wf := by decide

theorem receiving_inv : (receiving [] 0).Inv where
  engine := by constructor <;> decide
  phaseInv := by constructor <;> decide
  seq_busy := by decide
  ill_cause := by decide
  uninited := by decide
  mem_wf := by decide
  wbuf_wf := by decide
  rbuf_wf := by decide

theorem pendingStart_inv : pendingStart.Inv where
  engine := by constructor <;> decide
  phaseInv := by constructor <;> decide
  seq_busy := by decide
  ill_cause := by decide
  uninited := by decide
  mem_wf := by decide
  wbuf_wf := by decide
  rbuf_wf := by decide

theorem pendingByte_inv : pendingByte.Inv where
  engine := by constructor <;> decide
  phaseInv := by constructor <;> decide
  seq_busy := by decide
  ill_cause := by decide
  uninited := by decide
  mem_wf := by decide
  wbuf_wf := by decide
  rbuf_wf := by decide

theorem pendingBoth_inv : pendingBoth.Inv where
  engine := by constructor <;> decide
  phaseInv := by constructor <;> decide
  seq_busy := by decide
  ill_cause := by decide
  uninited := by decide
  mem_wf := by decide
  wbuf_wf := by decide
  rbuf_wf := by decide

theorem pendingAgain_inv : pendingAgain.Inv where
  engine := by constructor <;> decide
  phaseInv := by constructor <;> decide
  seq_busy := by decide
  ill_cause := by decide
  uninited := by decide
  mem_wf := by decide
  wbuf_wf := by decide
  rbuf_wf := by decide

theorem pendingStop_inv : pendingStop.Inv where
  engine := by constructor <;> decide
  phaseInv := by constructor <;> decide
  seq_busy := by decide
  ill_cause := by decide
  uninited := by decide
  mem_wf := by decide
  wbuf_wf := by decide
  rbuf_wf := by decide

/-- The environment is no part of the invariant. -/
theorem within_inv {s : State} (h : s.Inv) (d : Steady) : (within d s).Inv :=
  ⟨h.engine, ⟨h.phaseInv.stopp_idle, h.phaseInv.idle, h.phaseInv.addressPhase, h.phaseInv.dataPhase⟩, h.seq_busy, h.ill_cause,
    h.uninited, h.mem_wf, h.wbuf_wf, h.rbuf_wf⟩

/-- Nor are the slaves. -/
theorem strange_inv {s : State} (h : s.Inv) (d : Steady) : (strange d s).Inv :=
  ⟨h.engine, ⟨h.phaseInv.stopp_idle, h.phaseInv.idle, h.phaseInv.addressPhase, h.phaseInv.dataPhase⟩, h.seq_busy, h.ill_cause,
    h.uninited, h.mem_wf, h.wbuf_wf, h.rbuf_wf⟩

/-- A step that runs PROBE, from a state that meets every invariant: for StepKeepsInvariant, StepKeepsParameters,
LinesFollowTrace, TraceFollowsGrammar, CellsStayInRange and TraceOnlyGrows. -/
theorem witness_step_invariants :
    ({ idle [] with host := [.write cmdOffset 0x10000000] } : State).Inv ∧
    ({ idle [] with host := [.write cmdOffset 0x10000000] } : State).LinesInv ∧
    ({ idle [] with host := [.write cmdOffset 0x10000000] } : State).TraceInv ∧
    ({ idle [] with host := [.write cmdOffset 0x10000000] } : State).RangeInv ∧
    ∃ t, step { idle [] with host := [.write cmdOffset 0x10000000] } = .next t ∧
      t.epoch = ({ idle [] with host := [.write cmdOffset 0x10000000] } : State).epoch ∧ t.eng.trace ≠ [] :=
  ⟨⟨idle_inv.engine, ⟨idle_inv.phaseInv.stopp_idle, idle_inv.phaseInv.idle, idle_inv.phaseInv.addressPhase,
      idle_inv.phaseInv.dataPhase⟩, idle_inv.seq_busy, idle_inv.ill_cause, idle_inv.uninited, idle_inv.mem_wf,
      idle_inv.wbuf_wf, idle_inv.rbuf_wf⟩, by decide, by decide, ⟨by decide, by decide, by decide⟩, _, rfl, by decide, by decide⟩

/-! ### Witnesses: the line engine -/

theorem witness_FlagInvariants :
    sending.eng.Inv ∧ sending.eng.txe = true ∧
    ({ (receiving [] 0).eng with rxne := true } : Engine).Inv ∧ ({ (receiving [] 0).eng with rxne := true } : Engine).rxne = true ∧
    (idle []).eng.Inv ∧ (idle []).eng.es = .idle ∧ (idle []).eng.act = .none ∧
    (let s : State := { addressed with eng := addressed.eng.loadTx 0xA0 }
     s.eng.act = .txAddr ∧ s.eng.addr = false ∧ s.eng.af = false) ∧
    sending.eng.assertStop.Inv ∧ sending.eng.assertStop.stopp = true :=
  ⟨sending_inv.engine, by decide, by constructor <;> decide, by decide, idle_inv.engine, by decide, by decide, by decide,
    by constructor <;> decide, by decide⟩

theorem witness_AssertStart :
    ((idle []).eng.es = .idle ∧ (idle []).eng.act = .none ∧ (idle []).eng.stopp = false) ∧
    (addressed.eng.es = .sb ∧ addressed.eng.act = .none) ∧ (sending.eng.es = .tx ∧ sending.eng.act = .none) ∧
    ((receiving [] 0).eng.es = .rx ∧ (receiving [] 0).eng.act = .none) ∧
    (let e : Engine := { sending.eng with es := .nak }
     ¬(e.es = .idle ∧ e.act = .none ∧ e.stopp = false) ∧ ¬((e.es = .sb ∨ e.es = .tx ∨ e.es = .rx) ∧ e.act = .none)) ∧
    (idle []).eng.assertStart.act = .start ∧ sending.eng.assertStart.act = .rstart := by decide

theorem witness_LoadTx :
    (addressed.eng.es = .sb ∧ addressed.eng.act = .none) ∧
    (sending.eng.es = .tx ∧ sending.eng.act = .none ∧ sending.eng.txe = true) ∧
    (let e : Engine := { sending.eng with txe := false }
     ¬(e.es = .sb ∧ e.act = .none) ∧ ¬(e.es = .tx ∧ e.act = .none ∧ e.txe = true)) ∧
    (let s : State := { addressed with eng := addressed.eng.loadTx 0xA0 }
     s.eng.act = .txAddr ∧ (s.slaveByte prompt.answer s.eng.dr).1 = true) ∧
    (let s : State := { addressed with eng := addressed.eng.loadTx 0xA2 }
     s.eng.act = .txAddr ∧ (s.slaveByte prompt.answer s.eng.dr).1 = false) ∧
    (let s : State := { sending with eng := sending.eng.loadTx 0xFF }
     s.eng.act = .txData ∧ (s.slaveByte prompt.answer s.eng.dr).1 = true) ∧
    (let s : State := { strange absent sending with eng := sending.eng.loadTx 0x00 }
     s.eng.act = .txData ∧ (s.slaveByte absent.answer s.eng.dr).1 = false) := by decide

theorem witness_TwoStepClear :
    (let e : Engine := { sending.eng with addr := true, addrSeen := true, es := .addrHold }
     e.addrSeen = true ∧ e.dir = false) ∧
    (let e : Engine := { (receiving [] 0).eng with addr := true, addrSeen := true, es := .addrHold }
     e.addrSeen = true ∧ e.dir = true ∧ e.es = .addrHold) ∧ (idle []).eng.addrSeen = false := by decide

theorem witness_Reception :
    (let e := (receiving [] 0).eng
     e.es = .rx ∧ e.act = .none ∧ e.rxne = false) ∧
    ¬(sending.eng.es = .rx ∧ sending.eng.act = .none ∧ sending.eng.rxne = false) ∧
    ((receiving [] 0).eng.setAckMode true).act = .rxData := by decide

theorem witness_AssertStop :
    ((idle []).eng.es = .idle ∧ (idle []).eng.act = .none) ∧
    ((idle []).eng.assertStart.es = .idle ∧ (idle []).eng.assertStart.act = .start) ∧
    ¬(addressed.eng.es = .idle ∧ (addressed.eng.act = .none ∨ addressed.eng.act = .start)) ∧
    (sending.eng.assertStop.stopp = true ∧ sending.eng.assertStop.act = .none) ∧
    ((sending.eng.loadTx 0).assertStop.stopp = true ∧ (sending.eng.loadTx 0).assertStop.act ≠ .none) := by
  decide

/-- START in each of its phases, with the repeated START pending too, and the three commands that send or receive a byte, at each end of the operand's range. -/
theorem witness_PreconditionsMet :
    ((idle []).Inv ∧ refusalCause .start (idle []) = none ∧ ∃ t, gap (accept .start (idle [])) = .done () t) ∧
    (addressed.Inv ∧ refusalCause .start addressed = none ∧ ∃ t, gap (accept .start addressed) = .done () t) ∧
    (sending.Inv ∧ refusalCause .start sending = none ∧ ∃ t, gap (accept .start sending) = .done () t) ∧
    (refusalCause (.wraddr 0) addressed = none ∧ ∃ t, gap (accept (.wraddr 0) addressed) = .done () t) ∧
    (refusalCause (.wrbyte 0xFF) sending = none ∧ ∃ t, gap (accept (.wrbyte 0xFF) sending) = .done () t) ∧
    ((receiving [] 0).Inv ∧ refusalCause (.rdbyte true) (receiving [] 0) = none ∧
      ∃ t, gap (accept (.rdbyte true) (receiving [] 0)) = .done () t) ∧
    ((within hold pendingAgain).Inv ∧ (within hold pendingAgain).eng.act = .rstart ∧
      refusalCause .start (within hold pendingAgain) = none ∧ refusalCause (.wraddr 0) (within hold pendingAgain) = none ∧
      (∃ t, gap (accept .start (within hold pendingAgain)) = .done () t ∧ t.eng.act = .rstart) ∧
      ∃ t, gap (accept (.wraddr 0) (within hold pendingAgain)) = .done () t ∧ t.eng.act = .rstart) :=
  ⟨⟨idle_inv, by decide, _, rfl⟩, ⟨addressed_inv, by decide, _, rfl⟩, ⟨sending_inv, by decide, _, rfl⟩, ⟨by decide, _, rfl⟩,
    ⟨by decide, _, rfl⟩, ⟨receiving_inv, by decide, _, rfl⟩, within_inv pendingAgain_inv hold, rfl, by decide, by decide,
    ⟨_, rfl, rfl⟩, _, rfl, rfl⟩

theorem witness_EngineStepOneSymbol :
    (sending.eng.loadTx 0).act ≠ .none ∧ sending.eng.assertStop.stopp = true ∧
    (sending.eng.act = .none ∧ sending.eng.stopp = false) := by decide

/-! ### Witnesses: the reference EEPROM and arithmetic -/

theorem witness_EepromAnswers :
    (idle []).ee.out ≠ .driving ∧
    (addressed.ee.first = true ∧ slaveId 0xA0 = cfg.devBase ∧ addressed.ee.busydev = false ∧ (0xA0 : Byte).getLsbD 0 = false) ∧
    (slaveId 0xA1 = cfg.devBase ∧ (0xA1 : Byte).getLsbD 0 = true) ∧ slaveId 0xA2 ≠ cfg.devBase ∧
    (sending.ee.first = false ∧ sending.ee.sel = .write ∧ sending.ee.naddr = 0) ∧
    ({ sending.ee with naddr := 1 } : Eeprom).naddr = 1 ∧ ({ sending.ee with naddr := 2 } : Eeprom).naddr = 2 ∧
    ((receiving [] 0xFFFF).ee.sel = .read ∧ (receiving [] 0xFFFF).ee.out ≠ .released ∧
      (receiving [] 0xFFFF).ee.ptr.toNat ≤ cfg.maxAddress) := by decide

/-- Pages of one byte and of the whole space. -/
theorem witness_PointerWrapsInPage : (0 : Nat) ≤ 16 ∧ (7 : Nat) ≤ 16 ∧ (16 : Nat) ≤ 16 ∧ advanceInPage (2 ^ 7) 0x017F = 0x0100 := by
  decide

/-- No data; a page of two bytes filled up to MAX_ADDRESS. -/
theorem witness_EepromCommits :
    sending.ee.sel = .write ∧ sending.ee.out ≠ .driving ∧ sending.ee.pagebuf = [] ∧
    (let e : Eeprom := { sending.ee with pagebuf := [(0xFFFE, 1), (0xFFFF, 2)] }
     e.sel = .write ∧ e.out ≠ .driving ∧ e.pagebuf ≠ [] ∧ crossesPage { cfg with pageSize := 2 } e.pagebuf = false) ∧
    (0xFFFF : Nat) ≤ cfg.maxAddress := by decide

/-- The first, a middle and the last chunk of V41 row 6. -/
theorem witness_ChunkLaws :
    (1 : Nat) ≤ 128 ∧ (1 : Nat) ≤ 300 ∧ (130, 126) ∈ chunks 128 130 300 ∧ (256, 128) ∈ chunks 128 130 300 ∧
    (384, 46) ∈ chunks 128 130 300 ∧ (0 : Nat) < (chunks 128 130 300).length ∧ (2 : Nat) < (chunks 128 130 300).length ∧
    (1 : Nat) ≤ 1 ∧ chunks 1 5 1 = [(5, 1)] := by decide

/-! ### Witnesses: waits -/

/-- V20: a wait that ends at its first sample, and one that uses all three. -/
theorem witness_WaitIsBounded :
    (∃ t, wait (fun f => f.sb) never addressed = .done .success t) ∧
    ∃ t, wait (fun f => f.sb) never (within hold (idle [])) = .done .timeout t := ⟨⟨_, rfl⟩, _, rfl⟩

theorem witness_ReadyWaitIsBounded :
    1 ≤ (idle []).cfg.readyRetries ∧ (∃ t, readyWait (idle []) = .done .success t) ∧
    ∃ t, readyWait (strange absent (idle [])) = .done .timeout t := ⟨by decide, ⟨_, rfl⟩, _, rfl⟩

/-! ### Witnesses: commands in every schedule -/

/-- An accepted command that finishes; a refusal for each reason of the table of R168. -/
theorem witness_PhaseTransitions :
    (sending.Inv ∧ refusalCause (.wrbyte 0x12) sending = none ∧
      ∃ t, exec (.wrbyte 0x12) sending = .next t ∧ t.cpl = true) ∧
    ((idle []).busy = false ∧ (idle []).inited = !isInit (.wraddr 0) ∧ (idle []).phase ∉ phasesOf (.wraddr 0)) ∧
    (sending.busy = false ∧ sending.inited = !isInit (.rdbyte true) ∧ dirNeeded (.rdbyte true) = some true ∧
      sending.eng.dir = false) ∧
    ((receiving [] 0).busy = false ∧ (receiving [] 0).inited = !isInit (.wrbyte 0) ∧ dirNeeded (.wrbyte 0) = some false ∧
      (receiving [] 0).eng.dir = true) :=
  ⟨⟨sending_inv, by decide, _, rfl, by decide⟩, by decide, by decide, by decide⟩

theorem witness_OutcomesAllowed :
    refusalCause .probe (idle []) = none ∧ ∃ t, exec .probe (idle []) = .next t ∧ t.cpl = true := ⟨by decide, _, rfl, by decide⟩

/-- INIT, a command that is neither INIT nor RDBYTE, and RDBYTE. -/
theorem witness_BusLineFrame :
    (isBusLine (.init .std) = true ∧ ∃ t, exec (.init .std) (fresh []) = .next t ∧ t.epoch = (fresh []).epoch) ∧
    (isBusLine (.wrbyte 0) = true ∧ isInit (.wrbyte 0) = false ∧ (Instr.wrbyte 0).mnemonic ≠ "RDBYTE" ∧
      ∃ t, exec (.wrbyte 0) sending = .next t ∧ t.epoch = sending.epoch) ∧
    (isBusLine (.rdbyte true) = true ∧
      ∃ t, exec (.rdbyte true) (receiving [(0, 1)] 0) = .next t ∧ t.epoch = (receiving [(0, 1)] 0).epoch) :=
  ⟨⟨by decide, _, rfl, by decide⟩, ⟨by decide, by decide, by decide, _, rfl, by decide⟩, by decide, _, rfl, by decide⟩

/-- One command for each clause. -/
theorem witness_FlagFrame :
    ((fresh []).Inv ∧ isInit (.init .std) = true ∧ ∃ t, exec (.init .std) (fresh []) = .next t ∧ t.epoch = (fresh []).epoch) ∧
    ((idle []).Inv ∧ ∃ t, exec .start (idle []) = .next t ∧ t.epoch = (idle []).epoch) ∧
    (sending.Inv ∧ sending.phase ≠ .error ∧ sending.eng.stopp = false ∧
      ∃ t, exec .stop sending = .next t ∧ t.epoch = sending.epoch) ∧
    (addressed.Inv ∧ (Instr.wraddr 0xA0).mnemonic = "WRADDR" ∧
      ∃ t, exec (.wraddr 0xA0) addressed = .next t ∧ t.epoch = addressed.epoch) ∧
    ((Instr.wrbyte 0).mnemonic = "WRBYTE" ∧ ∃ t, exec (.wrbyte 0) sending = .next t ∧ t.epoch = sending.epoch) ∧
    ((receiving [] 0).Inv ∧ (Instr.rdbyte false).mnemonic = "RDBYTE" ∧
      ∃ t, exec (.rdbyte false) (receiving [] 0) = .next t ∧ t.epoch = (receiving [] 0).epoch) :=
  ⟨⟨fresh_inv, by decide, _, rfl, by decide⟩, ⟨idle_inv, _, rfl, by decide⟩,
    ⟨sending_inv, by decide, by decide, _, rfl, by decide⟩, ⟨addressed_inv, by decide, _, rfl, by decide⟩,
    ⟨by decide, _, rfl, by decide⟩, receiving_inv, by decide, _, rfl, by decide⟩

/-- PROBE meets the premises of every clause. -/
theorem witness_PagedFrame :
    isPaged .probe = true ∧ (∃ t, exec .probe (idle []) = .next t ∧ t.epoch = (idle []).epoch) ∧
    Instr.probe.mnemonic ≠ "MRD1" ∧ Instr.probe.mnemonic ≠ "MRDN" ∧ Instr.probe.mnemonic ≠ "MWRN" :=
  ⟨by decide, ⟨_, rfl, by decide⟩, by decide, by decide, by decide⟩

/-- A write command, at the addresses beside its own, a command that stores nothing, and STOP. -/
theorem witness_MemoryFrame :
    (idle []).Inv ∧ (idle []).cfg.Legal ∧ (idle []).ee.out ≠ .driving ∧
    (∃ t, exec (.mwr1 5 0xAB) (idle []) = .next t ∧ t.epoch = (idle []).epoch) ∧
    (¬storesTo (.mwr1 5 0xAB) (idle []).len.toNat 4 ∧ ¬storesTo (.mwr1 5 0xAB) (idle []).len.toNat 6) ∧
    addressed.Inv ∧ (∃ t, exec (.wraddr 0xA0) addressed = .next t ∧ t.epoch = addressed.epoch) ∧
    ¬storesTo (.wraddr 0xA0) addressed.len.toNat 0 ∧
    (addressed.ee.pagebuf = [] ∧ addressed.eng.act ≠ .txAddr ∧ addressed.eng.act ≠ .txData ∧ ¬storesTo .stop addressed.len.toNat 0 ∧
      ∃ t, exec .stop addressed = .next t ∧ t.epoch = addressed.epoch) :=
  ⟨idle_inv, cfg_legal, by decide, ⟨_, rfl, by decide⟩, ⟨by simp [storesTo], by simp [storesTo]⟩, addressed_inv,
    ⟨_, rfl, by decide⟩, by simp [storesTo], by decide, by decide, by decide, by simp [storesTo], _, rfl, by decide⟩

/-- The block ready for a command of L2. -/
theorem idle_ready (m : Memory) : (idle m).ReadyForPaged :=
  ⟨rfl, rfl, rfl, rfl, idle_inv.engine,
    ⟨idle_inv.phaseInv.stopp_idle, idle_inv.phaseInv.idle, idle_inv.phaseInv.addressPhase, idle_inv.phaseInv.dataPhase⟩⟩

/-- ReadyForPaged reads five fields. -/
theorem ready_of {s t : State} (h : s.ReadyForPaged) (hb : t.busy = s.busy) (hi : t.inited = s.inited) (hp : t.phase = s.phase)
    (he : t.eng = s.eng) : t.ReadyForPaged := by
  obtain ⟨a, b, c, d, e, f⟩ := h
  refine ⟨hb ▸ a, hi ▸ b, hp ▸ c, he ▸ d, he ▸ e, ?_⟩
  obtain ⟨f1, f2, f3, f4⟩ := f
  rw [← hp, ← he] at *
  exact ⟨f1, f2, f3, f4⟩

/-- `idle` with other parameters, environment, length or buffers is ready too. -/
theorem ready {t : State} (hb : t.busy = (idle []).busy) (hi : t.inited = (idle []).inited) (hp : t.phase = (idle []).phase)
    (he : t.eng = (idle []).eng) : t.ReadyForPaged := ready_of (idle_ready []) hb hi hp he

/-- One byte and two bytes beyond the range, LEN 0 beyond it; an accepted command that finishes. -/
theorem witness_OutOfRange :
    (let s : State := { idle [] with cfg := { cfg with maxAddress := 0x7FFF } }
     s.ReadyForPaged ∧ lenTooLong (.mrd1 0x8000) s = false ∧ leavesRange (.mrd1 0x8000) s.cfg s.len.toNat ∧
      leavesRange (.mwr1 0x8000 0) s.cfg s.len.toNat ∧ lenTooLong (.mwrn 0x8000) s = false ∧
      leavesRange (.mwrn 0x8000) s.cfg s.len.toNat) ∧
    (let s : State := { idle [] with len := 2 }
     s.ReadyForPaged ∧ lenTooLong (.mrdn 0xFFFF) s = false ∧ leavesRange (.mrdn 0xFFFF) s.cfg s.len.toNat) ∧
    refusalCause .probe (idle []) = none ∧ ∃ t, exec .probe (idle []) = .next t ∧ t.cpl = true :=
  ⟨⟨ready rfl rfl rfl rfl, by decide, by simp [leavesRange], by simp [leavesRange], by decide, by simp [leavesRange, idle, fresh, State.reset]⟩,
    ⟨ready rfl rfl rfl rfl, by decide, by simp [leavesRange, idle, fresh, cfg]⟩, by decide, _, rfl, by decide⟩

theorem witness_ZeroLength :
    (idle []).ReadyForPaged ∧ (idle []).len = 0 ∧ (0 : MemAddr).toNat ≤ (idle []).cfg.maxAddress ∧
    (0xFFFF : MemAddr).toNat ≤ (idle []).cfg.maxAddress := ⟨ready rfl rfl rfl rfl, by decide, by decide, by decide⟩

/-- A write that succeeds, one that ends in AddressOutOfRange, one that fails in its first chunk. -/
theorem witness_MwrnProgress :
    (let s : State := { idle [] with len := 2, wbuf := [(0, 0x55), (1, 0x66)] }
     refusalCause (.mwrn 127) s = none ∧ ∃ t, exec (.mwrn 127) s = .next t ∧ t.cpl = true ∧ t.outcome = .success) ∧
    (let s : State := { idle [] with len := 2 }
     refusalCause (.mwrn 0xFFFF) s = none ∧
      ∃ t, exec (.mwrn 0xFFFF) s = .next t ∧ t.cpl = true ∧ t.outcome = .addressOutOfRange) ∧
    (let s : State := { strange absent (idle []) with len := 1 }
     refusalCause (.mwrn 0) s = none ∧ ∃ t, exec (.mwrn 0) s = .next t ∧ t.cpl = true ∧ t.outcome = .noAcknowledge) :=
  ⟨⟨by decide, _, rfl, by decide, by decide⟩, ⟨by decide, _, rfl, by decide, by decide⟩, by decide, _, rfl, by decide,
    by decide⟩

/-- A read of two bytes that succeeds, and one that fails. -/
theorem witness_MrdnProgress :
    (let s : State := { idle [(0, 1), (1, 2)] with len := 2 }
     refusalCause (.mrdn 0) s = none ∧ 1 ≤ s.len.toNat ∧
      ∃ t, exec (.mrdn 0) s = .next t ∧ t.cpl = true ∧ t.outcome = .success) ∧
    (let s : State := { strange absent (idle []) with len := 1 }
     refusalCause (.mrdn 0) s = none ∧ ∃ t, exec (.mrdn 0) s = .next t ∧ t.cpl = true ∧ t.outcome = .noAcknowledge) :=
  ⟨⟨by decide, by decide, _, rfl, by decide, by decide⟩, by decide, _, rfl, by decide, by decide⟩

/-! ### Witnesses: completion -/

theorem witness_InitCompletes :
    (fresh []).Inv ∧ (fresh []).SteadyAs prompt ∧ (fresh []).busy = false ∧ (fresh []).inited = false :=
  ⟨fresh_inv, by decide, by decide, by decide⟩

theorem witness_StartCompletes :
    ((idle []).Inv ∧ (idle []).Prompt prompt ∧ (idle []).busy = false ∧ (idle []).inited = true ∧ (idle []).phase = .idle ∧
      (idle []).eng.stopp = false) ∧
    (addressed.Inv ∧ addressed.Prompt prompt ∧ addressed.busy = false ∧ addressed.inited = true ∧
      addressed.phase = .addressPhase ∧ addressed.eng.act = .none) ∧
    (sending.Inv ∧ sending.Prompt prompt ∧ sending.phase = .dataPhase ∧ sending.eng.act = .none) ∧
    (pendingAgain.Inv ∧ pendingAgain.Prompt prompt ∧ pendingAgain.phase = .addressPhase ∧ pendingAgain.eng.act ≠ .none) :=
  ⟨⟨idle_inv, by decide⟩, ⟨addressed_inv, by decide⟩, ⟨sending_inv, by decide⟩, pendingAgain_inv, by decide⟩

/-- Idle; a START pending; a transaction open, withheld and not withheld; a START pending, a byte pending, a byte and a STOP
pending, a STOP pending, none of them withheld. -/
theorem witness_StopCompletes :
    ((idle []).Inv ∧ (idle []).SteadyAs prompt ∧ (idle []).busy = false ∧ (idle []).inited = true ∧ (idle []).eng.es = .idle ∧
      (idle []).eng.act = .none) ∧
    (let s : State := { within hold (idle []) with phase := .error, eng := { Engine.reset with act := .start } }
     s.Inv ∧ s.SteadyAs hold ∧ s.eng.es = .idle ∧ s.eng.act = .start ∧ hold.engine = false) ∧
    ((within hold sending).Inv ∧ (within hold sending).SteadyAs hold ∧ (within hold sending).eng.es ≠ .idle) ∧
    (sending.Inv ∧ sending.SteadyAs prompt ∧ sending.eng.es ≠ .idle ∧ sending.eng.act = .none ∧ sending.eng.stopp = false ∧
      prompt.engine = true) ∧
    (pendingStart.Inv ∧ pendingStart.SteadyAs prompt ∧ pendingStart.eng.act ≠ .none ∧ pendingStart.eng.stopp = false) ∧
    (pendingByte.Inv ∧ pendingByte.SteadyAs prompt ∧ pendingByte.eng.act ≠ .none ∧ pendingByte.eng.stopp = false) ∧
    (pendingBoth.Inv ∧ pendingBoth.SteadyAs prompt ∧ pendingBoth.eng.act ≠ .none ∧ pendingBoth.eng.stopp = true) ∧
    (pendingStop.Inv ∧ pendingStop.SteadyAs prompt ∧ pendingStop.eng.act = .none ∧ pendingStop.eng.stopp = true) :=
  ⟨⟨idle_inv, by decide⟩,
    ⟨{ engine := by constructor <;> decide, phaseInv := by constructor <;> decide, seq_busy := by decide
       ill_cause := by decide, uninited := by decide, mem_wf := by decide, wbuf_wf := by decide, rbuf_wf := by decide },
      by decide⟩,
    ⟨within_inv sending_inv hold, by decide⟩, ⟨sending_inv, by decide⟩, ⟨pendingStart_inv, by decide⟩,
    ⟨pendingByte_inv, by decide⟩, ⟨pendingBoth_inv, by decide⟩, pendingStop_inv, by decide⟩

/-- Acknowledged and not. -/
theorem witness_WraddrCompletes :
    (addressed.Inv ∧ addressed.Prompt prompt ∧ addressed.busy = false ∧ addressed.inited = true ∧
      addressed.phase = .addressPhase ∧ addressed.eng.act = .none ∧
      ∃ e, State.slaveByte prompt.answer 0xA0 (addressed.rested prompt) = (true, e)) ∧
    ((strange absent addressed).Inv ∧ (strange absent addressed).Prompt absent ∧
      (strange absent addressed).phase = .addressPhase ∧ (strange absent addressed).eng.act = .none ∧
      ∃ e, State.slaveByte absent.answer 0xA0 ((strange absent addressed).rested absent) = (false, e)) ∧
    (pendingAgain.Inv ∧ pendingAgain.Prompt prompt ∧ pendingAgain.busy = false ∧ pendingAgain.inited = true ∧
      pendingAgain.phase = .addressPhase ∧ pendingAgain.eng.act ≠ .none) :=
  ⟨⟨addressed_inv, by decide, by decide, by decide, by decide, by decide, _, rfl⟩,
    ⟨strange_inv addressed_inv absent, by decide, by decide, by decide, _, rfl⟩, pendingAgain_inv, by decide⟩

theorem witness_WrbyteCompletes :
    (sending.Inv ∧ sending.Prompt prompt ∧ sending.busy = false ∧ sending.inited = true ∧ sending.phase = .dataPhase ∧
      sending.eng.dir = false ∧ ∃ e, State.slaveByte prompt.answer 0x12 (sending.rested prompt) = (true, e)) ∧
    ((strange absent sending).Inv ∧ (strange absent sending).Prompt absent ∧ (strange absent sending).eng.dir = false ∧
      ∃ e, State.slaveByte absent.answer 0x12 ((strange absent sending).rested absent) = (false, e)) :=
  ⟨⟨sending_inv, by decide, by decide, by decide, by decide, by decide, _, rfl⟩, strange_inv sending_inv absent, by decide,
    by decide, _, rfl⟩

theorem witness_RdbyteCompletes :
    (receiving [] 0).Inv ∧ (receiving [] 0).Prompt prompt ∧ (receiving [] 0).busy = false ∧ (receiving [] 0).inited = true ∧
    (receiving [] 0).phase = .dataPhase ∧ (receiving [] 0).eng.dir = true ∧
    ∃ v e, State.slaveRead prompt.answer true ((receiving [] 0).rested prompt) = (v, e) :=
  ⟨receiving_inv, by decide, by decide, by decide, by decide, by decide, _, _, rfl⟩

/-- Each clause in an environment that withholds every engine step. -/
theorem witness_WithheldTimesOut :
    ((within hold (idle [])).Inv ∧ (within hold (idle [])).SteadyAs hold ∧ hold.engine = false ∧
      (within hold (idle [])).busy = false ∧ (within hold (idle [])).inited = true ∧ (within hold (idle [])).eng.act = .none ∧
      (within hold (idle [])).phase = .idle ∧ (within hold (idle [])).eng.stopp = false) ∧
    ((within hold addressed).Inv ∧ (within hold addressed).SteadyAs hold ∧ (within hold addressed).eng.act = .none ∧
      (within hold addressed).phase = .addressPhase ∧ 1 ≤ (within hold addressed).cfg.spinLimit ∧
      (within hold addressed).eng.af = false) ∧
    ((within hold sending).Inv ∧ (within hold sending).SteadyAs hold ∧ (within hold sending).eng.act = .none ∧
      (within hold sending).phase = .dataPhase ∧ (within hold sending).eng.dir = false ∧
      (within hold sending).eng.af = false) ∧
    ((within hold (receiving [] 0)).Inv ∧ (within hold (receiving [] 0)).SteadyAs hold ∧
      (within hold (receiving [] 0)).phase = .dataPhase ∧ (within hold (receiving [] 0)).eng.dir = true) :=
  ⟨⟨within_inv idle_inv hold, by decide⟩, ⟨within_inv addressed_inv hold, by decide⟩, ⟨within_inv sending_inv hold, by decide⟩,
    within_inv receiving_inv hold, by decide⟩

theorem acks {s : State} {d : Steady} (hb : s.bus = .reference)
    (h : s.ee.out ≠ .driving ∧ (s.ee.busydev = false ∨ d.ready = true)) : s.DeviceAcks d := by
  unfold State.DeviceAcks; simpa only [hb] using h

theorem naks {s : State} {d : Steady} (hb : s.bus = .unknown) (h : d.answer.ack = false) : s.DeviceNaks d := by
  unfold State.DeviceNaks; simpa only [hb] using h

theorem naks_busy (n : Count) : (busyDevice n).DeviceNaks neverReady := by
  unfold State.DeviceNaks; exact ⟨show (idle []).ee.out ≠ .driving by decide, rfl, rfl⟩

/-- Of three listed gaps in a row one lets the engine step. -/
theorem late_timely (n : Nat) (h : ∀ k, k ≤ 2 * n → (((late n).gaps.drop k).take 3).length = 3 →
    (((late n).gaps.drop k).take 3).any letsEngine = true) : Timely cfg (late n) := by
  refine ⟨fun w hw hl => ?_, fun g hg => ?_, fun g hg => ?_, prompt, rfl, rfl, rfl⟩
  · obtain ⟨a, b, e⟩ := hw
    have hlen : (late n).gaps.length = 2 * n := by simp [late, Nat.mul_comm]
    have hw : ((late n).gaps.drop a.length).take 3 = w := by
      rw [← e, ← (show w.length = 3 from hl)]; simp
    have ha : a.length ≤ 2 * n := by rw [← hlen, ← e]; simp
    have := h a.length ha (by rw [hw]; exact hl)
    rw [hw] at this
    simpa using this
  · simp only [late, List.mem_flatten, List.mem_replicate] at hg
    obtain ⟨l, ⟨-, rfl⟩, hg⟩ := hg
    rcases List.mem_pair.1 hg with rfl | rfl <;> rfl
  · simp only [late, List.mem_flatten, List.mem_replicate] at hg
    obtain ⟨l, ⟨-, rfl⟩, hg⟩ := hg
    rcases List.mem_pair.1 hg with rfl | rfl <;> simp

theorem writes {s : State} {d : Steady} (hb : s.bus = .reference) (h : s.ee.out ≠ .driving ∧ d.ready = true) :
    s.DeviceWrites d := by
  unfold State.DeviceWrites; simpa only [hb] using h

/-- On the other kind of bus. -/
theorem strange_ready (d : Steady) (m : Memory) : (strange d (idle m)).ReadyForPaged := ready rfl rfl rfl rfl

/-- Acknowledged and not. -/
theorem witness_ProbeCompletes :
    ((idle []).ReadyForPaged ∧ (idle []).Prompt prompt ∧ (idle []).DeviceAcks prompt) ∧
    ((strange absent (idle [])).ReadyForPaged ∧ (strange absent (idle [])).Prompt absent ∧
      (strange absent (idle [])).DeviceNaks absent) :=
  ⟨⟨ready rfl rfl rfl rfl, by decide, acks rfl (by decide)⟩, strange_ready absent [], by decide, naks rfl rfl⟩

/-- A device that does not acknowledge: none on an unknown bus, and the reference EEPROM busy. -/
theorem witness_naks (n : Count) :
    ((strange absent (idle [])).ReadyForPaged ∧ (strange absent (idle [])).Prompt absent ∧
      (strange absent (idle [])).DeviceNaks absent) ∧
    (busyDevice n).ReadyForPaged ∧ (busyDevice n).Prompt neverReady ∧ (busyDevice n).DeviceNaks neverReady :=
  ⟨⟨strange_ready absent [], by decide, naks rfl rfl⟩, ready rfl rfl rfl rfl,
    ⟨rfl, rfl, show 1 ≤ cfg.spinLimit by decide⟩, naks_busy n⟩

/-- Addresses 0 and MAX_ADDRESS; a device that does not acknowledge. -/
theorem witness_Mrd1Completes :
    ((idle []).ReadyForPaged ∧ (idle []).Prompt prompt ∧ (idle []).DeviceAcks prompt ∧
      (0 : MemAddr).toNat ≤ (idle []).cfg.maxAddress ∧ (0xFFFF : MemAddr).toNat ≤ (idle []).cfg.maxAddress) ∧
    (busyDevice 0).ReadyForPaged ∧ (busyDevice 0).Prompt neverReady ∧ (busyDevice 0).DeviceNaks neverReady ∧
    (0xFFFF : MemAddr).toNat ≤ (busyDevice 0).cfg.maxAddress :=
  ⟨⟨ready rfl rfl rfl rfl, by decide, acks rfl (by decide), by decide, by decide⟩, (witness_naks 0).2.1, (witness_naks 0).2.2.1,
    naks_busy 0, by decide⟩

/-- A device that takes the write, one that does not acknowledge, and a timely schedule with late flags and a busy period that ends
after two refused probes. -/
theorem witness_Mwr1Completes :
    ((idle []).ReadyForPaged ∧ (idle []).Prompt prompt ∧ (idle []).cfg.Legal ∧ (idle []).DeviceWrites prompt ∧
      (0 : MemAddr).toNat ≤ (idle []).cfg.maxAddress ∧ (0xFFFF : MemAddr).toNat ≤ (idle []).cfg.maxAddress) ∧
    ((busyDevice 0).ReadyForPaged ∧ (busyDevice 0).Prompt neverReady ∧ (busyDevice 0).cfg.Legal ∧
      (busyDevice 0).DeviceNaks neverReady) ∧
    (let s : State := { idle [] with sched := late 15 }
     s.ReadyForPaged ∧ s.cfg.Legal ∧ Timely s.cfg s.sched ∧ s.bus = .reference ∧ s.ee.out ≠ .driving ∧ s.ee.busydev = false) :=
  ⟨⟨ready rfl rfl rfl rfl, by decide, cfg_legal, writes rfl (by decide), by decide, by decide⟩,
    ⟨(witness_naks 0).2.1, (witness_naks 0).2.2.1, cfg_legal, naks_busy 0⟩, ready rfl rfl rfl rfl, cfg_legal,
    late_timely 15 (by decide), by decide⟩

/-- One byte at MAX_ADDRESS, and the whole device in one transfer (V35); a device that does not acknowledge. -/
theorem witness_MrdnCompletes :
    ((busyDevice 1).ReadyForPaged ∧ (busyDevice 1).Prompt neverReady ∧ (busyDevice 1).cfg.Legal ∧
      (busyDevice 1).DeviceNaks neverReady ∧ 1 ≤ (busyDevice 1).len.toNat ∧
      (busyDevice 1).len.toNat ≤ (busyDevice 1).cfg.bufSize ∧
      (0xFFFF : MemAddr).toNat + (busyDevice 1).len.toNat - 1 ≤ (busyDevice 1).cfg.maxAddress) ∧
    (let s : State := { idle [] with len := 1 }
     s.ReadyForPaged ∧ s.Prompt prompt ∧ s.cfg.Legal ∧ s.DeviceAcks prompt ∧ 1 ≤ s.len.toNat ∧ s.len.toNat ≤ s.cfg.bufSize ∧
      (0xFFFF : MemAddr).toNat + s.len.toNat - 1 ≤ s.cfg.maxAddress) ∧
    (let s : State := { idle [] with len := 0x10000 }
     s.ReadyForPaged ∧ 1 ≤ s.len.toNat ∧ s.len.toNat ≤ s.cfg.bufSize ∧
      (0 : MemAddr).toNat + s.len.toNat - 1 ≤ s.cfg.maxAddress) :=
  ⟨⟨(witness_naks 1).2.1, (witness_naks 1).2.2.1, cfg_legal, naks_busy 1, by decide, by decide, by decide⟩,
    ⟨ready rfl rfl rfl rfl, by decide, cfg_legal, acks rfl (by decide), by decide, by decide, by decide⟩, ready rfl rfl rfl rfl, by decide,
    by decide, by decide⟩

theorem witness_MwrnCompletes :
    ((busyDevice 1).ReadyForPaged ∧ (busyDevice 1).Prompt neverReady ∧ (busyDevice 1).cfg.Legal ∧
      (busyDevice 1).DeviceNaks neverReady ∧ 1 ≤ (busyDevice 1).len.toNat ∧
      (busyDevice 1).len.toNat ≤ (busyDevice 1).cfg.bufSize ∧
      (0xFFFF : MemAddr).toNat + (busyDevice 1).len.toNat - 1 ≤ (busyDevice 1).cfg.maxAddress) ∧
    (let s : State := { idle [] with len := 1 }
     s.ReadyForPaged ∧ s.Prompt prompt ∧ s.cfg.Legal ∧ s.DeviceWrites prompt ∧ 1 ≤ s.len.toNat ∧
      s.len.toNat ≤ s.cfg.bufSize ∧ (0xFFFF : MemAddr).toNat + s.len.toNat - 1 ≤ s.cfg.maxAddress) ∧
    (let s : State := { idle [] with len := 0x10000 }
     s.ReadyForPaged ∧ 1 ≤ s.len.toNat ∧ s.len.toNat ≤ s.cfg.bufSize ∧
      (0 : MemAddr).toNat + s.len.toNat - 1 ≤ s.cfg.maxAddress) :=
  ⟨⟨(witness_naks 1).2.1, (witness_naks 1).2.2.1, cfg_legal, naks_busy 1, by decide, by decide, by decide⟩,
    ⟨ready rfl rfl rfl rfl, by decide, cfg_legal, writes rfl (by decide), by decide, by decide, by decide⟩, ready rfl rfl rfl rfl, by decide,
    by decide, by decide⟩

/-- Acknowledged; never acknowledged, with ticks and without; a timely schedule with late flags, on a busy device. -/
theorem witness_WaitrdyCompletes :
    ((idle []).ReadyForPaged ∧ (idle []).Prompt prompt ∧ 1 ≤ (idle []).cfg.readyRetries ∧ (idle []).DeviceAcks prompt) ∧
    ((strange absent (idle [])).ReadyForPaged ∧ (strange absent (idle [])).Prompt absent ∧
      (strange absent (idle [])).DeviceNaks absent ∧ (absent.pulse = true ∨ (strange absent (idle [])).cfg.readyDelayMs = 0)) ∧
    ((strange noTicks (idle [])).ReadyForPaged ∧ (strange noTicks (idle [])).Prompt noTicks ∧
      (strange noTicks (idle [])).DeviceNaks noTicks ∧ noTicks.pulse = false ∧
      1 ≤ (strange noTicks (idle [])).cfg.readyDelayMs) ∧
    ((busyLate 9).ReadyForPaged ∧ 1 ≤ (busyLate 9).cfg.readyRetries ∧ Timely (busyLate 9).cfg (busyLate 9).sched ∧
      (busyLate 9).bus = .reference ∧ (busyLate 9).ee.out ≠ .driving) :=
  ⟨⟨ready rfl rfl rfl rfl, by decide, by decide, acks rfl (by decide)⟩,
    ⟨strange_ready absent [], by decide, naks rfl rfl, by decide⟩,
    ⟨strange_ready noTicks [], by decide, naks rfl rfl, by decide, by decide⟩, ready rfl rfl rfl rfl, by decide,
    late_timely 9 (by decide), by decide⟩

/-- One byte at MAX_ADDRESS, by either command. -/
theorem witness_PersistentBusy :
    let s : State := { within neverReady (idle []) with len := 1 }
    s.ReadyForPaged ∧ s.Prompt neverReady ∧ s.cfg.Legal ∧ s.bus = .reference ∧ s.ee.out ≠ .driving ∧ s.ee.busydev = false ∧
    neverReady.ready = false ∧ (neverReady.pulse = true ∨ s.cfg.readyDelayMs = 0) ∧
    (0xFFFF : MemAddr).toNat ≤ s.cfg.maxAddress ∧ 1 ≤ s.len.toNat ∧ s.len.toNat ≤ s.cfg.bufSize ∧
    (0xFFFF : MemAddr).toNat + s.len.toNat - 1 ≤ s.cfg.maxAddress :=
  ⟨ready rfl rfl rfl rfl, by decide, cfg_legal, by decide⟩

/-- In a steady environment; and in timely schedules, a write that ends in Success and one all of whose probes are refused. -/
theorem witness_RoundTrips :
    (let s : State := { idle [] with len := 1 }
     s.ReadyForPaged ∧ s.Prompt prompt ∧ s.cfg.Legal ∧ s.bus = .reference ∧ s.ee.out ≠ .driving ∧ prompt.ready = true ∧
      (0xFFFF : MemAddr).toNat ≤ s.cfg.maxAddress ∧ 1 ≤ s.len.toNat ∧ s.len.toNat ≤ s.cfg.bufSize ∧
      (0xFFFF : MemAddr).toNat + s.len.toNat - 1 ≤ s.cfg.maxAddress) ∧
    (let s : State := { idle [] with len := 1, sched := late 15 }
     s.ReadyForPaged ∧ s.cfg.Legal ∧ Timely s.cfg s.sched ∧ s.ee.busydev = false ∧
      ¬refusedProbes s.cfg s.cfg.readyRetries <:+ (after (exec (.mwr1 5 0xAB) s)).eng.trace ∧
      ¬refusedProbes s.cfg s.cfg.readyRetries <:+ (after (exec (.mwrn 5) s)).eng.trace) ∧
    (let s : State := { idle [] with len := 1, sched := late 20 }
     s.ReadyForPaged ∧ Timely s.cfg s.sched ∧ s.ee.busydev = false ∧
      refusedProbes s.cfg s.cfg.readyRetries <:+ (after (exec (.mwr1 5 0xAB) s)).eng.trace ∧
      refusedProbes s.cfg s.cfg.readyRetries <:+ (after (exec (.mwrn 5) s)).eng.trace) :=
  ⟨⟨ready rfl rfl rfl rfl, by decide, cfg_legal, by decide⟩,
    ⟨ready rfl rfl rfl rfl, cfg_legal, late_timely 15 (by decide), by decide, by decide, by decide⟩, ready rfl rfl rfl rfl,
    late_timely 20 (by decide), by decide, by decide, by decide⟩

end Sys2Proof.Tests
end

section
/-!
PROOFS. No step changes a parameter or which slaves are on the bus (R9, R141): one value of the state that no access, no move of
the environment, no reset and no command writes.
-/

namespace Sys2Proof.Machine

/-- What is given to the block and its bus from outside: the parameters (R9) and the slaves present (R141). -/
def State.givens (s : State) : Params × BusKind := (s.cfg, s.bus)

theorem State.givens_eq_iff (s t : State) : t.givens = s.givens ↔ t.cfg = s.cfg ∧ t.bus = s.bus := Prod.ext_iff

/-! ### What each operation does to them -/

@[simp] theorem engineStep_givens (a : Answer) (s : State) : (engineStep a s).givens = s.givens := by
  simp [State.givens]

@[simp] theorem hostWrite_givens (off : Nat) (v : Word) (s : State) : (hostWrite off v s).givens = s.givens := by
  unfold hostWrite
  split
  · rfl
  · split
    · rfl
    · split <;> rfl

/-- A reset of the block keeps what is not the block's (R250). -/
@[simp] theorem resetBlock_givens (s : State) : (resetBlock s).givens = s.givens := rfl

/-- Neither is a field that the other agents, START, STOP, WRADDR or WRBYTE write. -/
theorem givens_untouched : Untouched State.givens := fun _ _ _ _ _ _ _ _ _ _ _ => rfl

/-! ### Commands and steps -/

/-- The bodies of the commands keep them. -/
theorem givens_kept (g : Params × BusKind) : KeptByReads (fun t => t.busy = true ∧ t.givens = g) :=
  givens_untouched.kept_reads (fun _ _ _ _ _ => rfl) g

/-- A reset in the middle of a command keeps them. -/
theorem givens_resets (g : Params × BusKind) : Resets (fun t => t.busy = true ∧ t.givens = g) (fun t => t.givens = g) :=
  fun s h => (resetBlock_givens s).trans h.2

/-- Every command keeps them, refused, finished or cut short. -/
theorem exec_givens {i : Instr} {s t : State} (hx : exec i s = .next t) : t.givens = s.givens := by
  have hk := givens_kept s.givens
  have hr := givens_resets s.givens
  cases hi : isInit i with
  | true =>
    cases i with
    | init m =>
      exact exec_init_keeps (R := fun t => t.givens = s.givens) hk.toKeptByAgents hr (fun _ h => h) (fun _ => ⟨rfl, rfl⟩)
        (fun _ _ h => h.2) (fun _ _ => rfl) hx
    | _ => simp [isInit] at hi
  | false =>
    exact exec_keeps (R := fun t => t.givens = s.givens) hk hr (fun _ h => h.2) (fun _ _ _ _ _ _ _ h => h)
      (fun _ _ _ _ _ h => h) (fun _ _ _ _ _ _ h => h) hi (fun _ => ⟨rfl, rfl⟩) (fun _ _ h => h.2) (fun _ _ => rfl) hx

/-- Every move of the host and the environment keeps them. -/
theorem givens_moves (g : Params × BusKind) : KeptByMoves (fun t => t.givens = g) where
  engine a h := (engineStep_givens a _).trans h
  ready h := h
  sched _ h := h
  draws _ h := h
  refused _ _ h := h
  read _ h := h
  write off v h := (hostWrite_givens off v _).trans h
  reset h := (resetBlock_givens _).trans h
  host _ h := h

theorem step_givens {s t : State} (h : step s = .next t) : t.givens = s.givens :=
  (givens_moves s.givens).step (fun hs hx => (exec_givens hx).trans hs) rfl h

/-- Settles O16: the parameters and the kind of bus are kept by every move, and by every command as a whole. -/
theorem stepKeepsParameters : Obligations.StepKeepsParameters := fun s t h => (State.givens_eq_iff s t).1 (step_givens h)

end Sys2Proof.Machine
end

section
/-!
PROOFS. What every step keeps: the invariant of the block (R39, R30, R35, R41, R54, R140).
-/

namespace Sys2Proof.Machine

/-- Settles O15: every move of the host and the environment keeps the invariant, and so does every command as a whole. -/
theorem stepKeepsInvariant : Obligations.StepKeepsInvariant := fun _ _ h ht => inv_moves.step exec_inv h ht

/-- Settles O14: nothing is on the wire after reset, no command executes and no byte is listed. -/
theorem resetMeetsInvariants : Obligations.ResetMeetsInvariants := by
  refine ⟨?_, rfl, rfl, ?_⟩
  · exact {
      engine := Engine.reset_inv
      phaseInv := ⟨by simp [State.reset, Engine.reset], by simp [State.reset, Engine.reset], by simp [State.reset],
        by simp [State.reset]⟩
      seq_busy := rfl
      ill_cause := by simp [State.reset]
      uninited := by simp [State.reset, Engine.reset]
      mem_wf := List.Pairwise.nil
      wbuf_wf := List.Pairwise.nil
      rbuf_wf := List.Pairwise.nil }
  · constructor <;> simp [State.reset, Eeprom.atReset]

end Sys2Proof.Machine
end

section
/-!
PROOFS. The host's view of the block: one step is one host access (R40, R44), the layouts of FLAGS and STATUS (R41, R42), the
register map (R44), host accesses while a command executes (R45), and the values after reset (R52, R250, R251).
-/

namespace Sys2Proof.Machine

/-! ### A step by the host's next access -/

theorem takeAccess_cons {s : State} {a : HostAction} {rest : List HostAction} (h : s.host = a :: rest) :
    takeAccess s = { s with host := rest } := by
  simp [takeAccess, h]

theorem takeAccess_nil {s : State} (h : s.host = []) : takeAccess s = s := by
  cases s
  simp_all [takeAccess]

theorem nextAccess_cons {s : State} {a : HostAction} {rest : List HostAction} (h : s.host = a :: rest) :
    nextAccess s = a := by
  simp [nextAccess, h]

theorem nextAccess_nil {s : State} (h : s.host = []) : nextAccess s = .idle := by
  simp [nextAccess, h]

/-- A word that decodes is executed as its command (R40). -/
theorem present_of_decode {w : Word} {i : Instr} (h : decode w = some i) (s : State) : present w s = exec i s := by
  simp [present, h]

/-- A word that does not decode is refused (R96, R97). -/
theorem present_of_decode_none {w : Word} (h : decode w = none) (s : State) :
    present w s = .next (refuse (illegalCause s) s) := by
  simp [present, h]

/-- Settles O6: by the host's next access. -/
theorem stepRunsDecodedCommand : Obligations.StepRunsDecodedCommand := by
  intro s rest
  refine ⟨fun w i h hd => ?_, fun w h hd => ?_, fun off v hne h => ?_, fun off h => ?_, fun h => ?_, fun h => ?_, fun h => ?_⟩
  · rw [step, nextAccess_cons h, takeAccess_cons h]; exact present_of_decode hd _
  · rw [step, nextAccess_cons h, takeAccess_cons h]; exact present_of_decode_none hd _
  · rw [step, nextAccess_cons h, takeAccess_cons h]; exact if_neg hne
  · rw [step, nextAccess_cons h, takeAccess_cons h]; rfl
  · rw [step, nextAccess_cons h, takeAccess_cons h]
  · rw [step, nextAccess_cons h, takeAccess_cons h]; rfl
  · rw [step, nextAccess_nil h, takeAccess_nil h]; rfl

/-! ### FLAGS and STATUS

The widths of the appended parts are left as sums (`-Nat.reduceAdd`): folded to 32, they no longer show where a part ends. -/

/-- FLAGS is the list of its flags, bit 0 first (R42). -/
theorem flagsWord_getLsbD (e : Engine) (i : Nat) :
    (flagsWord e).getLsbD i = [e.sb, e.addr, e.txe, e.rxne, e.stopp, e.af, e.acken, e.dir].getD i false := by
  show BitVec.getLsbD ((0 : BitVec 24) ++ BitVec.ofBool e.dir ++ BitVec.ofBool e.acken ++ BitVec.ofBool e.af ++
    BitVec.ofBool e.stopp ++ BitVec.ofBool e.rxne ++ BitVec.ofBool e.txe ++ BitVec.ofBool e.addr ++ BitVec.ofBool e.sb) i = _
  match i with
  | 0 | 1 | 2 | 3 | 4 | 5 | 6 | 7 => simp [-Nat.reduceAdd, BitVec.getLsbD_append, -BitVec.getLsbD_eq_getElem]
  | n + 8 => simp [-Nat.reduceAdd, BitVec.getLsbD_append]

/-- Settles O8: the bits of FLAGS are a list's; a read at its offset changes the read data only, by definition. -/
theorem flagsLayout : Obligations.FlagsLayout := by
  refine ⟨fun e => ⟨flagsWord_getLsbD e 0, flagsWord_getLsbD e 1, flagsWord_getLsbD e 2, flagsWord_getLsbD e 3,
    flagsWord_getLsbD e 4, flagsWord_getLsbD e 5, flagsWord_getLsbD e 6, flagsWord_getLsbD e 7, fun i hi => ?_⟩, fun _ => rfl⟩
  rw [flagsWord_getLsbD, List.getD_eq_default _ _ (by simpa using hi)]

/-- The fields of STATUS by their places (R41). -/
theorem statusFields (cause : BitVec 3) (ill : Bool) (outcome : BitVec 2) (cpl : Bool) (phase : BitVec 2)
    (mode inited busy : Bool) {w : BitVec (20 + 3 + 1 + 2 + 1 + 2 + 1 + 1 + 1)}
    (hw : w = (0 : BitVec 20) ++ cause ++ BitVec.ofBool ill ++ outcome ++ BitVec.ofBool cpl ++ phase ++ BitVec.ofBool mode ++
      BitVec.ofBool inited ++ BitVec.ofBool busy) :
    w.getLsbD 0 = busy ∧ w.getLsbD 1 = inited ∧ w.getLsbD 2 = mode ∧ w.extractLsb' 3 2 = phase ∧ w.getLsbD 5 = cpl ∧
      w.extractLsb' 6 2 = outcome ∧ w.getLsbD 8 = ill ∧ w.extractLsb' 9 3 = cause ∧ w.extractLsb' 12 20 = 0 := by
  subst hw
  simp [-Nat.reduceAdd, -BitVec.getLsbD_eq_getElem, BitVec.getLsbD_append, BitVec.extractLsb'_append_eq_of_le,
    BitVec.extractLsb'_append_eq_right]

theorem modeBit_eq_true (m : BusMode) : modeBit m = true ↔ m = .fast := by cases m <;> simp [modeBit]

/-- Settles O9: the fields by their places, and the codes. -/
theorem statusLayout : Obligations.StatusLayout := by
  refine ⟨fun s => ?_, by decide, by decide, by decide⟩
  obtain ⟨hbusy, hinited, hmode, hrest⟩ := statusFields s.illcause.code s.ill s.outcome.code s.cpl s.phase.code
    (modeBit s.mode) s.inited s.busy rfl
  exact ⟨hbusy, hinited, (iff_of_eq (congrArg (· = true) hmode)).trans (modeBit_eq_true s.mode), hrest⟩

/-! ### The register map -/

/-- The offsets of the registers a host can read, CMD apart (R44). -/
abbrev registerOffsets : List Nat := [0x00004, 0x00008, 0x0000C, 0x00010, 0x00014, 0x00018, 0x0001C]

/-- The offset lies in the buffer whose first byte is at `base` (R44). -/
abbrev State.InBuffer (s : State) (base off : Nat) : Prop := base ≤ off ∧ off < base + s.cfg.bufSize

/-- A read outside the registers is a read of one of the buffers, or of nothing. -/
theorem regRead_of_notMem {off : Nat} (h : off ∉ registerOffsets) (s : State) :
    regRead s off =
      if s.InBuffer wbufOffset off then (s.wbufRead (off - wbufOffset)).setWidth 32
      else if s.InBuffer rbufOffset off then (s.rbufRead (off - rbufOffset)).setWidth 32
      else 0 := by
  simp only [List.mem_cons, List.not_mem_nil, or_false, not_or] at h
  obtain ⟨h04, h08, h0C, h10, h14, h18, h1C⟩ := h
  simp only [regRead, lenOffset, if_neg h04, if_neg h08, if_neg h0C, if_neg h10, if_neg h14, if_neg h18, if_neg h1C]

/-- No register lies in a buffer (R44). -/
theorem notMem_registerOffsets {off : Nat} (h : 0x10000 ≤ off) : off ∉ registerOffsets := by
  simp only [List.mem_cons, List.not_mem_nil, or_false]
  omega

theorem regRead_wbuf {s : State} {i : Nat} (h : i < s.cfg.bufSize) :
    regRead s (0x10000 + i) = (s.wbufRead i).setWidth 32 := by
  rw [regRead_of_notMem (notMem_registerOffsets (by omega)), if_pos ⟨by simp [wbufOffset], by simpa [wbufOffset] using h⟩]
  simp [wbufOffset]

/-- WBUF ends before RBUF begins, as `BUF_SIZE` is at most 65536. -/
theorem regRead_rbuf {s : State} {i : Nat} (hc : s.cfg.bufSize ≤ 65536) (h : i < s.cfg.bufSize) :
    regRead s (0x20000 + i) = (s.rbufRead i).setWidth 32 := by
  have hw : ¬ s.InBuffer wbufOffset (0x20000 + i) := fun h => by have := h.2; simp only [wbufOffset] at this; omega
  rw [regRead_of_notMem (notMem_registerOffsets (by omega)), if_neg hw,
    if_pos ⟨by simp [rbufOffset], by simpa [rbufOffset] using h⟩]
  simp [rbufOffset]

/-- The offset lies outside the buffer whose first byte is at `base`. -/
theorem not_inBuffer {s : State} {base off : Nat} (h : off < base ∨ base + s.cfg.bufSize ≤ off) : ¬ s.InBuffer base off := by
  rintro ⟨h1, h2⟩
  omega

theorem hostWrite_outside {off : Nat} {s : State} (hl : off ≠ lenOffset) (hw : ¬ s.InBuffer wbufOffset off) (v : Word) :
    hostWrite off v s = s := by
  rw [hostWrite, if_neg hl, if_neg hw, ite_self]

/-- Settles O10: the registers by their offsets, then the buffers, then everything else. -/
theorem registerMap : Obligations.RegisterMap := by
  intro s hc
  refine ⟨?_, rfl, rfl, rfl, rfl, rfl, rfl, rfl, fun i => regRead_wbuf, fun i => regRead_rbuf hc, ?_, ?_⟩
  · rw [regRead_of_notMem (by decide), if_neg (by simp [wbufOffset]), if_neg (by simp [rbufOffset])]
  · intro off hreg hw hr
    rw [regRead_of_notMem hreg, if_neg (not_inBuffer (base := wbufOffset) hw),
      if_neg (not_inBuffer (base := rbufOffset) hr)]
  · intro off v hl hw
    exact hostWrite_outside hl (not_inBuffer hw) v

/-! ### Host writes -/

theorem hostWrite_busy {s : State} (h : s.busy = true) (off : Nat) (v : Word) : hostWrite off v s = s := by
  simp [hostWrite, h]

theorem hostWrite_len {s : State} (h : s.busy = false) (v : Word) :
    hostWrite lenOffset v s = { s with len := v.setWidth 17 } := by
  simp [hostWrite, h]

theorem hostWrite_wbuf {s : State} (h : s.busy = false) {i : Nat} (hi : i < s.cfg.bufSize) (v : Word) :
    hostWrite (0x10000 + i) v s = { s with wbuf := Memory.write s.wbuf i (v.setWidth 8) } := by
  have hl : 0x10000 + i ≠ lenOffset := by simp only [lenOffset]; omega
  have hw : s.InBuffer wbufOffset (0x10000 + i) := ⟨by simp [wbufOffset], by simpa [wbufOffset] using hi⟩
  rw [hostWrite, h, if_neg (by simp), if_neg hl, if_pos hw]
  simp [wbufOffset]

/-- Settles O11: the write to LEN, and to a WBUF byte, whose reads after it are those of `Memory.read_write`. -/
theorem hostWrites : Obligations.HostWrites := by
  intro s v hb
  refine ⟨hostWrite_len hb v, fun i hi => ⟨fun j => ?_, ?_⟩⟩
  · rw [hostWrite_wbuf hb hi]
    simp only [State.wbufRead, Memory.read_write]
    split <;> rfl
  · rw [hostWrite_wbuf hb hi]

/-- A command is refused while another executes, whatever its word (R45, R97). -/
theorem present_busy {s : State} (h : s.busy = true) (w : Word) : present w s = .next (refuse .busy s) := by
  cases hd : decode w with
  | none => rw [present_of_decode_none hd, illegalCause, if_pos h]
  | some i => rw [present_of_decode hd, exec_refused (by rw [refusalCause, if_pos h])]

/-- Settles O12: by the access. -/
theorem hostAccessWhileBusy : Obligations.HostAccessWhileBusy := by
  intro s hb
  refine ⟨fun off => ?_, fun off v hne => ?_, fun v => ?_, present_busy hb⟩
  · rw [hostMove, if_pos hb]; rfl
  · rw [hostMove, if_pos hb]; exact (if_neg hne).trans (hostWrite_busy hb off v)
  · rw [hostMove, if_pos hb]; exact if_pos rfl

/-! ### Reset -/

theorem slaveReset_mem (s : State) : s.slaveReset.mem = s.ee.mem := by
  unfold State.slaveReset
  split
  · split <;> rfl
  · rfl

theorem slaveReset_busydev (s : State) : s.slaveReset.busydev = s.ee.busydev := by
  unfold State.slaveReset
  split
  · split <;> rfl
  · rfl

/-- With no transaction open the slave is left alone (R251). -/
theorem slaveReset_closed {s : State} (h : s.eng.inTransaction = false) : s.slaveReset = s.ee := by
  unfold State.slaveReset
  split
  · rw [if_neg (by simp [h])]
  · rfl

/-- What a reset of the block leaves alone: the parameters, what the EEPROM holds, whether it is busy, and with no transaction open
the whole EEPROM (R250, R251). -/
theorem resetBlock_keeps (s : State) :
    (resetBlock s).cfg = s.cfg ∧ (∀ a, (resetBlock s).ee.memRead a = s.ee.memRead a) ∧
      (resetBlock s).ee.busydev = s.ee.busydev ∧ (s.eng.inTransaction = false → (resetBlock s).ee = s.ee) := by
  refine ⟨rfl, fun a => ?_, slaveReset_busydev s, slaveReset_closed⟩
  simp only [Eeprom.memRead, resetBlock, slaveReset_mem]

/-- Settles O13: the values are written in `State.reset`, which every reset takes; the EEPROM is no part of the block. -/
theorem resetValues : Obligations.ResetValues := by
  intro s t ht
  have hkeeps : t = resetBlock s → t.cfg = s.cfg ∧ (∀ a, t.ee.memRead a = s.ee.memRead a) ∧ t.ee.busydev = s.ee.busydev ∧
      (s.eng.inTransaction = false → t.ee = s.ee) := by
    rintro rfl
    exact resetBlock_keeps s
  obtain rfl | rfl := ht <;>
  exact ⟨⟨rfl, rfl, rfl, rfl, rfl, rfl, rfl, rfl, rfl⟩, rfl, ⟨rfl, rfl⟩, ⟨rfl, rfl, rfl, rfl, rfl, rfl, rfl⟩,
    ⟨rfl, rfl, rfl, rfl⟩, ⟨rfl, rfl⟩, ⟨rfl, rfl⟩, ⟨rfl, rfl, rfl, rfl, rfl, rfl, rfl, rfl⟩, ⟨rfl, rfl⟩, rfl, hkeeps⟩

end Sys2Proof.Machine
end

section
/-!
PROOFS. What every step keeps of the wire: the ports follow the trace (R49, R142), and the trace only grows (R50, R82). Both are
properties of what the engine puts on the wire, which one lemma carries through the body of every command.
-/

namespace Sys2Proof.Machine

/-- What the engine has put on the wire: the trace, and the levels it drives now. -/
def Engine.output (e : Engine) : List Symbol × Lines := (e.trace, ⟨e.sclO, e.sdaO⟩)

/-! ### The accesses put nothing on the wire -/

@[simp] theorem assertStart_output (e : Engine) : e.assertStart.output = e.output := by
  unfold Engine.assertStart
  split
  · rfl
  · split <;> rfl

@[simp] theorem assertStop_output (e : Engine) : e.assertStop.output = e.output := by
  unfold Engine.assertStop
  split
  · rfl
  · split <;> rfl

@[simp] theorem loadTx_output (b : Byte) (e : Engine) : (e.loadTx b).output = e.output := by
  unfold Engine.loadTx
  split
  · rfl
  · split <;> rfl

@[simp] theorem setAckMode_output (k : Bool) (e : Engine) : (e.setAckMode k).output = e.output := by
  unfold Engine.setAckMode
  split <;> rfl

@[simp] theorem readSr1_output (e : Engine) : e.readSr1.output = e.output := by
  unfold Engine.readSr1
  split <;> rfl

@[simp] theorem readSr2_output (e : Engine) : e.readSr2.output = e.output := by
  unfold Engine.readSr2
  split
  · split <;> rfl
  · rfl

/-! ### An engine step puts one symbol on the wire -/

/-- An engine step puts nothing on the wire, or one symbol (R141, R142). -/
theorem engineStep_output (a : Answer) (s : State) :
    (engineStep a s).eng.output = s.eng.output ∨
      ∃ sym, (engineStep a s).eng.output = (s.eng.trace ++ [sym], linesAfter sym) := by
  unfold engineStep
  cases s.eng.act with
  | start => exact .inr ⟨.start, rfl⟩
  | rstart => exact .inr ⟨.rstart, rfl⟩
  | txAddr =>
    simp only [Engine.afterTxAddr]
    split
    · exact .inr ⟨_, rfl⟩
    · exact .inr ⟨_, rfl⟩
  | txData =>
    simp only [Engine.afterTxData]
    split
    · exact .inr ⟨_, rfl⟩
    · exact .inr ⟨_, rfl⟩
  | rxData => exact .inr ⟨.rx _ _, rfl⟩
  | none =>
    simp only
    split
    · exact .inr ⟨.stop, rfl⟩
    · exact .inl rfl

/-- A property of the output that every symbol keeps is kept by every engine step. -/
theorem engineStep_output_keeps {W : List Symbol × Lines → Prop} (hW : ∀ t l sym, W (t, l) → W (t ++ [sym], linesAfter sym))
    (a : Answer) {s : State} (h : W s.eng.output) : W (engineStep a s).eng.output := by
  obtain he | ⟨sym, he⟩ := engineStep_output a s
  · rwa [he]
  · rw [he]; exact hW _ _ sym h

/-- A property of the output that every symbol keeps is kept by the bodies of the commands, INIT apart. -/
theorem output_kept {W : List Symbol × Lines → Prop} (hW : ∀ t l sym, W (t, l) → W (t ++ [sym], linesAfter sym)) :
    KeptByReads (fun u => u.busy = true ∧ W u.eng.output) where
  busy h := h.1
  engine a h := ⟨by simpa using h.1, engineStep_output_keeps hW a h.2⟩
  ready h := h
  sched _ h := h
  draws _ h := h
  refused h := h
  read _ h := h
  sampled h := by simpa using h
  spin _ h := h
  assertStart h := by simpa using h
  assertStop h := by simpa using h
  loadTx _ h := by simpa using h
  setAckMode _ h := by simpa using h
  readSr2 h := by simpa using h
  readDr h := h
  phase _ h := h
  seq _ h := h
  err _ h := h
  retry _ h := h
  ticks _ h := h
  result _ h := h

@[simp] theorem hostWrite_eng (off : Nat) (v : Word) (s : State) : (hostWrite off v s).eng = s.eng := by
  unfold hostWrite
  split
  · rfl
  · split
    · rfl
    · split <;> rfl

@[simp] theorem hostWrite_epoch (off : Nat) (v : Word) (s : State) : (hostWrite off v s).epoch = s.epoch := by
  unfold hostWrite
  split
  · rfl
  · split
    · rfl
    · split <;> rfl

/-! ### INIT -/

theorem eq_init_of_isInit {i : Instr} (h : isInit i = true) : ∃ m, i = .init m := by
  cases i <;> simp_all [isInit]

@[simp] theorem resetBlock_epoch (s : State) : (resetBlock s).epoch = s.epoch + 1 := rfl

/-- INIT does nothing to the engine and PHASE, which are idle where it is accepted; a reset may do (R54, R162, R250). -/
theorem exec_init_eng {s t : State} {m : BusMode} (h : s.Inv) (hx : exec (.init m) s = .next t) :
    (t.eng = s.eng ∧ t.phase = s.phase) ∨ (t.eng = Engine.reset ∧ s.epoch < t.epoch) := by
  cases hr : refusalCause (.init m) s with
  | some c =>
    rw [exec_refused hr] at hx
    injection hx with hx
    subst hx
    exact .inl ⟨rfl, rfl⟩
  | none =>
    obtain ⟨hact, hst, hlines⟩ := init_idle h hr
    refine exec_init_keeps (P := fun u => InitMid s u ∧ u.busy = true ∧ u.epoch = s.epoch)
      (R := fun t => (t.eng = s.eng ∧ t.phase = s.phase) ∨ (t.eng = Engine.reset ∧ s.epoch < t.epoch))
      ((initMid_kept hact hst).and (epoch_kept s).toKeptByAgents) (fun u hu => .inr ⟨rfl, ?_⟩) (fun u hu => ?_) (fun _ => ?_)
      (fun _ u hu => .inl ⟨hu.1.eng, hu.1.phase⟩) (fun c hc => ?_) hx
    · simp [hu.2.2]
    · refine ⟨⟨hu.1.busy, ?_, hu.1.phase, hu.1.seq, hu.1.ill_cause, hu.1.mem_wf, hu.1.wbuf_wf, hu.1.rbuf_wf⟩, hu.2⟩
      simp only [initRegisters]
      rw [hu.1.eng]
      exact hlines
    · exact ⟨⟨rfl, rfl, rfl, rfl, by simp, h.mem_wf, h.wbuf_wf, h.rbuf_wf⟩, rfl, rfl⟩
    · rw [hr] at hc
      cases hc

/-! ### The ports -/

/-- The last level driven is the last level of the last symbol. -/
theorem traceLevels_append_getLastD (t : List Symbol) (sym : Symbol) (d : Lines) :
    (traceLevels (t ++ [sym])).getLastD d = linesAfter sym := by
  have hlevels : traceLevels (t ++ [sym]) = traceLevels t ++ sym.levels := by simp [traceLevels]
  have hne : sym.levels ≠ [] := by cases sym <;> simp [Symbol.levels, bitLevels]
  rw [hlevels, linesAfter, List.getLastD_eq_getLast?, List.getLastD_eq_getLast?, List.getLast?_append_of_ne_nil _ hne,
    List.getLast?_eq_some_getLast hne]
  rfl

/-- The levels driven now are the last of the trace's. -/
abbrev OutputFollows (o : List Symbol × Lines) : Prop := o.2 = (traceLevels o.1).getLastD ⟨true, true⟩

theorem outputFollows_append (t : List Symbol) (l : Lines) (sym : Symbol) (_ : OutputFollows (t, l)) :
    OutputFollows (t ++ [sym], linesAfter sym) := (traceLevels_append_getLastD t sym _).symm

theorem outputFollows_reset : OutputFollows Engine.reset.output := rfl

/-- Every command keeps the ports in agreement with the trace. -/
theorem exec_lines {i : Instr} {s t : State} (hi : s.Inv) (h : s.LinesInv) (hx : exec i s = .next t) : t.LinesInv := by
  cases hinit : isInit i with
  | true =>
    obtain ⟨m, rfl⟩ := eq_init_of_isInit hinit
    obtain ⟨he, -⟩ | ⟨he, -⟩ := exec_init_eng hi hx
    · rw [State.LinesInv, he]; exact h
    · rw [State.LinesInv, he]; exact outputFollows_reset
  | false =>
    exact exec_keeps (R := State.LinesInv) (output_kept outputFollows_append) (fun _ _ => outputFollows_reset)
      (fun _ hu => hu.2) (fun _ _ _ _ _ _ _ hu => hu) (fun _ _ _ _ _ hu => hu) (fun _ _ _ _ _ _ hu => hu) hinit
      (fun _ => ⟨rfl, h⟩) (fun _ _ hu => hu.2) (fun _ _ => h) hx

/-- Every move of the host and the environment does. -/
theorem lines_moves : KeptByMoves State.LinesInv where
  engine a h := engineStep_output_keeps outputFollows_append a h
  ready h := h
  sched _ h := h
  draws _ h := h
  refused _ _ h := h
  read _ h := h
  write off v h := by simpa [State.LinesInv] using h
  reset _ := outputFollows_reset
  host _ h := h

/-- Two properties that every move keeps. -/
theorem KeptByMoves.and {R R' : State → Prop} (h : KeptByMoves R) (h' : KeptByMoves R') :
    KeptByMoves (fun s => R s ∧ R' s) where
  engine a hs := ⟨h.engine a hs.1, h'.engine a hs.2⟩
  ready hs := ⟨h.ready hs.1, h'.ready hs.2⟩
  sched x hs := ⟨h.sched x hs.1, h'.sched x hs.2⟩
  draws n hs := ⟨h.draws n hs.1, h'.draws n hs.2⟩
  refused c hc hs := ⟨h.refused c hc hs.1, h'.refused c hc hs.2⟩
  read off hs := ⟨h.read off hs.1, h'.read off hs.2⟩
  write off v hs := ⟨h.write off v hs.1, h'.write off v hs.2⟩
  reset hs := ⟨h.reset hs.1, h'.reset hs.2⟩
  host x hs := ⟨h.host x hs.1, h'.host x hs.2⟩

/-- Settles O17: with the invariant, so that INIT finds the engine idle and its lines released. -/
theorem linesFollowTrace : Obligations.LinesFollowTrace := fun _ _ hi h ht =>
  ((inv_moves.and lines_moves).step (fun hs hx => ⟨exec_inv hs.1 hx, exec_lines hs.1 hs.2 hx⟩) ⟨hi, h⟩ ht).2

/-! ### The trace -/

/-- From `s` to `t` the block was reset, or the trace has only grown. -/
def Grows (s t : State) : Prop := s.epoch < t.epoch ∨ (t.epoch = s.epoch ∧ s.eng.trace <+: t.eng.trace)

theorem Grows.refl {s : State} : Grows s s := .inr ⟨rfl, ⟨[], List.append_nil _⟩⟩

theorem Grows.trans {s t u : State} (h : Grows s t) (h' : Grows t u) : Grows s u := by
  obtain h | ⟨he, hp⟩ := h
  · obtain h' | ⟨he', -⟩ := h'
    · exact .inl (h.trans h')
    · exact .inl (he' ▸ h)
  · obtain h' | ⟨he', hp'⟩ := h'
    · exact .inl (he ▸ h')
    · exact .inr ⟨he'.trans he, hp.trans hp'⟩

theorem Grows.of_eq {s t u : State} (h : Grows s t) (hepoch : u.epoch = t.epoch) (heng : u.eng = t.eng) : Grows s u :=
  h.trans (.inr ⟨hepoch, by rw [heng]⟩)

theorem grows_append {x : List Symbol} (t : List Symbol) (l : Lines) (sym : Symbol) (h : x <+: (t, l).1) :
    x <+: (t ++ [sym], linesAfter sym).1 := h.trans ⟨[sym], rfl⟩

/-- Every command only appends to the trace, INIT nothing, unless a reset comes. -/
theorem exec_grows {i : Instr} {s t : State} (hx : exec i s = .next t) : Grows s t := by
  have hk := (output_kept (W := fun o => s.eng.trace <+: o.1) grows_append).and (epoch_kept s)
  have hreset : Resets (fun u => (u.busy = true ∧ s.eng.trace <+: u.eng.output.1) ∧ u.busy = true ∧ u.epoch = s.epoch)
      (Grows s) := fun u hu => .inl (by simp [hu.2.2])
  cases hinit : isInit i with
  | true =>
    obtain ⟨m, rfl⟩ := eq_init_of_isInit hinit
    exact exec_init_keeps (R := Grows s) hk.toKeptByAgents hreset (fun _ hu => hu)
      (fun _ => ⟨⟨rfl, ⟨[], List.append_nil _⟩⟩, rfl, rfl⟩) (fun _ _ hu => .inr ⟨hu.2.2, hu.1.2⟩) (fun _ _ => Grows.refl) hx
  | false =>
    exact exec_keeps (R := Grows s) hk hreset (fun _ hu => .inr ⟨hu.2.2, hu.1.2⟩) (fun _ _ _ _ _ _ _ hu => hu)
      (fun _ _ _ _ _ hu => hu) (fun _ _ _ _ _ _ hu => hu) hinit (fun _ => ⟨⟨rfl, ⟨[], List.append_nil _⟩⟩, rfl, rfl⟩)
      (fun _ _ hu => .inr ⟨hu.2.2, hu.1.2⟩) (fun _ _ => Grows.refl) hx

/-- An engine step appends at most one symbol. -/
theorem engineStep_grows (a : Answer) (s : State) : Grows s (engineStep a s) :=
  .inr ⟨by simp, engineStep_output_keeps (W := fun o => s.eng.trace <+: o.1) grows_append a ⟨[], List.append_nil _⟩⟩

/-- So does every move of the host and the environment. -/
theorem grows_moves (s : State) : KeptByMoves (Grows s) where
  engine a h := h.trans (engineStep_grows a _)
  ready h := h
  sched _ h := h
  draws _ h := h
  refused _ _ h := h
  read _ h := h
  write off v h := h.of_eq (by simp) (by simp)
  reset h := h.trans (.inl (Nat.lt_succ_self _))
  host _ h := h

/-- Settles O20: a step is one move or one command, and each only appends. -/
theorem traceOnlyGrows : Obligations.TraceOnlyGrows := by
  intro s t ht he
  obtain h | ⟨-, h⟩ := (grows_moves s).step (fun hs hx => hs.trans (exec_grows hx)) Grows.refl ht
  · exact absurd he h.ne'
  · exact h

end Sys2Proof.Machine
end

section
/-!
PROOFS. No step lists a byte where the EEPROM or a buffer has none (R26, R27, R73): every write of a byte is guarded by its range,
and MRDN stores below LEN, which fits the buffer (R97).
-/

namespace Sys2Proof.Machine

/-- Every listed byte lies in range, `c` being the parameters. -/
abbrev State.InRange (c : Params) (s : State) : Prop :=
  (∀ x ∈ s.ee.mem, x.1 ≤ c.maxAddress) ∧ (∀ x ∈ s.wbuf, x.1 < c.bufSize) ∧ ∀ x ∈ s.rbuf, x.1 < c.bufSize

theorem State.rangeInv_iff (s : State) : s.RangeInv ↔ s.InRange s.cfg :=
  ⟨fun h => ⟨h.mem_range, h.wbuf_range, h.rbuf_range⟩, fun h => ⟨h.1, h.2.1, h.2.2⟩⟩

/-- The addresses listed after a write are those before it and the one written. -/
theorem Memory.write_all {p : Nat → Prop} {m : Memory} {a : Nat} (ha : p a) (h : ∀ x ∈ m, p x.1) (v : Byte) :
    ∀ x ∈ Memory.write m a v, p x.1 := by
  intro x hx
  obtain hx | hx := Memory.mem_write m a v x hx
  · exact hx ▸ ha
  · exact h x hx

/-- The EEPROM stores nothing above MAX_ADDRESS (R73). -/
theorem memWrite_range (c : Params) (e : Eeprom) (a : Nat) (v : Byte) (h : ∀ x ∈ e.mem, x.1 ≤ c.maxAddress) :
    ∀ x ∈ (e.memWrite c a v).mem, x.1 ≤ c.maxAddress := by
  unfold Eeprom.memWrite
  split
  · exact Memory.write_all (p := (· ≤ c.maxAddress)) ‹_› h v
  · exact h

/-- The parameters are `c` and every listed byte lies in range. -/
abbrev State.Ranged (c : Params) (s : State) : Prop := s.cfg = c ∧ s.InRange c

theorem engineStep_ranged (a : Answer) {c : Params} {s : State} (h : s.Ranged c) : (engineStep a s).Ranged c := by
  obtain ⟨rfl, hm, hb⟩ := h
  exact ⟨by simp, engineStep_mem_keeps (P := fun m => ∀ x ∈ m, x.1 ≤ s.cfg.maxAddress) a (memWrite_range s.cfg) hm,
    by simpa using hb⟩

theorem resetBlock_ranged {c : Params} {s : State} (h : s.Ranged c) : (resetBlock s).Ranged c := by
  refine ⟨h.1, ?_, by simp [resetBlock, State.reset]⟩
  simp only [resetBlock, slaveReset_mem]
  exact h.2.1

/-- The host writes a WBUF byte below `BUF_SIZE` only (R44). -/
theorem hostWrite_ranged {c : Params} {s : State} (h : s.Ranged c) (off : Nat) (v : Word) : (hostWrite off v s).Ranged c := by
  obtain ⟨rfl, hm, hw, hr⟩ := h
  unfold hostWrite
  split
  · exact ⟨rfl, hm, hw, hr⟩
  · split
    · exact ⟨rfl, hm, hw, hr⟩
    · split
      · rename_i hin
        have hlt : off - wbufOffset < s.cfg.bufSize := by omega
        exact ⟨rfl, hm, Memory.write_all (p := (· < s.cfg.bufSize)) hlt hw _, hr⟩
      · exact ⟨rfl, hm, hw, hr⟩

theorem storeReceived_ranged {c : Params} {s : State} (h : s.Ranged c) {j : Nat} (hj : j < c.bufSize) :
    (storeReceived j s).Ranged c :=
  ⟨h.1, h.2.1, h.2.2.1, Memory.write_all (p := (· < c.bufSize)) hj h.2.2.2 _⟩

/-- The bodies of the commands keep every listed byte in range. -/
theorem ranged_kept (c : Params) : KeptByReads (fun u => u.busy = true ∧ u.Ranged c) where
  busy h := h.1
  engine a h := ⟨by simpa using h.1, engineStep_ranged a h.2⟩
  ready h := h
  sched _ h := h
  draws _ h := h
  refused h := h
  read _ h := h
  sampled h := h
  spin _ h := h
  assertStart h := h
  assertStop h := h
  loadTx _ h := h
  setAckMode _ h := h
  readSr2 h := h
  readDr h := h
  phase _ h := h
  seq _ h := h
  err _ h := h
  retry _ h := h
  ticks _ h := h
  result _ h := h

/-- An accepted MRDN stores within the buffer (R97). -/
theorem accepted_mrdn_len {s : State} {a : MemAddr} (h : refusalCause (.mrdn a) s = none) : s.len.toNat ≤ s.cfg.bufSize := by
  simpa [lenTooLong] using accepted_len h

/-- Every command keeps every listed byte in range. -/
theorem exec_ranged {i : Instr} {s t : State} {c : Params} (h : s.Ranged c) (hx : exec i s = .next t) : t.Ranged c := by
  have hreset : Resets (fun u => u.busy = true ∧ u.Ranged c) (State.Ranged c) := fun _ hu => resetBlock_ranged hu.2
  cases hinit : isInit i with
  | true =>
    obtain ⟨m, rfl⟩ := eq_init_of_isInit hinit
    exact exec_init_keeps (R := State.Ranged c) (ranged_kept c).toKeptByAgents hreset (fun _ hu => hu) (fun _ => ⟨rfl, h⟩)
      (fun _ _ hu => hu.2) (fun _ _ => h) hx
  | false =>
    refine exec_keeps (R := State.Ranged c) (ranged_kept c) hreset (fun _ hu => hu.2) (fun _ _ _ _ _ _ _ hu => hu)
      (fun _ _ _ _ _ hu => hu) (fun hok a hi u j hj hu => ⟨hu.1, storeReceived_ranged hu.2 ?_⟩) hinit (fun _ => ⟨rfl, h⟩)
      (fun _ _ hu => hu.2) (fun _ _ => h) hx
    subst hi
    exact hj.trans_le (h.1 ▸ accepted_mrdn_len hok)

/-- So does every move of the host and the environment. -/
theorem ranged_moves (c : Params) : KeptByMoves (State.Ranged c) where
  engine a h := engineStep_ranged a h
  ready h := h
  sched _ h := h
  draws _ h := h
  refused _ _ h := h
  read _ h := h
  write off v h := hostWrite_ranged h off v
  reset h := resetBlock_ranged h
  host _ h := h

/-- Settles O19: the parameters stay, and every byte written lies in range. -/
theorem cellsStayInRange : Obligations.CellsStayInRange := by
  intro s t h ht
  obtain ⟨hcfg, hin⟩ := (ranged_moves s.cfg).step exec_ranged ⟨rfl, s.rangeInv_iff.1 h⟩ ht
  exact t.rangeInv_iff.2 (hcfg ▸ hin)

end Sys2Proof.Machine
end

section
/-!
PROOFS. What a command leaves unchanged (R23 to R27, R37, R43): the registers that no write of its body names, in any schedule in
which the block is not reset meanwhile.
-/

namespace Sys2Proof.Machine

/-! ### Which command a mnemonic names -/

theorem mnemonic_eq_RDBYTE {i : Instr} : i.mnemonic = "RDBYTE" ↔ ∃ k, i = .rdbyte k := by
  cases i <;> simp [Instr.mnemonic]

theorem mnemonic_eq_WRADDR {i : Instr} : i.mnemonic = "WRADDR" ↔ ∃ a, i = .wraddr a := by
  cases i <;> simp [Instr.mnemonic]

theorem mnemonic_eq_WRBYTE {i : Instr} : i.mnemonic = "WRBYTE" ↔ ∃ d, i = .wrbyte d := by
  cases i <;> simp [Instr.mnemonic]

theorem mnemonic_eq_MRD1 {i : Instr} : i.mnemonic = "MRD1" ↔ ∃ a, i = .mrd1 a := by
  cases i <;> simp [Instr.mnemonic]

theorem mnemonic_eq_MRDN {i : Instr} : i.mnemonic = "MRDN" ↔ ∃ a, i = .mrdn a := by
  cases i <;> simp [Instr.mnemonic]

theorem mnemonic_eq_MWRN {i : Instr} : i.mnemonic = "MWRN" ↔ ∃ a, i = .mwrn a := by
  cases i <;> simp [Instr.mnemonic]

/-- Of the BusLine commands only RDBYTE receives. -/
theorem busLine_receives {i : Instr} (h : isBusLine i = true) (hne : i.mnemonic ≠ "RDBYTE") : receives i = false := by
  cases i <;> simp_all [isBusLine, receives, Instr.mnemonic]

/-- Of the PagedMemoryDevice commands only MRD1 and MRDN receive. -/
theorem paged_receives {i : Instr} (h : isPaged i = true) (h1 : i.mnemonic ≠ "MRD1") (hn : i.mnemonic ≠ "MRDN") :
    receives i = false := by
  cases i <;> simp_all [isPaged, receives, Instr.mnemonic]

theorem isInit_of_isPaged {i : Instr} (h : isPaged i = true) : isInit i = false := by
  cases i <;> simp_all [isPaged, isInit]

/-! ### BusLine commands -/

variable {α : Type} {f : State → α} {i : Instr} {s t : State}

/-- A field that RDBYTE does not write, and the number of resets, through its body. -/
theorem untouched_receives (h : Untouched f) (hres : ∀ u x, f { u with result := x } = f u) (s : State) :
    KeptByReceives (fun u => (u.busy = true ∧ f u = f s) ∧ u.busy = true ∧ u.epoch = s.epoch) :=
  (h.kept_receives hres _).and (epoch_kept s).toKeptByTransfers.toKeptByReceives

/-- A field that START, STOP, WRADDR and WRBYTE do not write, nor INIT and RDBYTE what they do besides, keeps its value through
every BusLine command. -/
theorem Untouched.exec_busLine (h : Untouched f) (hinit : ∀ m u, f (initRegisters m u) = f u)
    (hres : ∀ u x, f { u with result := x } = f u) (ha : f (accept i s) = f s) (hf : ∀ e u, f (finish e u) = f u)
    (href : ∀ c, f (refuse c s) = f s) (hb : isBusLine i = true) (hx : exec i s = .next t) : Since f s t := by
  have hk := untouched_receives h hres s
  have h0 : ((accept i s).busy = true ∧ f (accept i s) = f s) ∧ (accept i s).busy = true ∧ (accept i s).epoch = s.epoch :=
    ⟨⟨rfl, ha⟩, rfl, rfl⟩
  refine exec_all (G := Since f s) hk.toKeptByAgents since_reset hx (fun _ => ?_) (fun e u hu _ => (hf e u).trans hu.1.2)
    (fun _ hu => hu) (fun c _ _ => href c)
  cases i with
  | init m =>
    exact (hk.gap since_reset h0).andThen fun _ u hu => ⟨⟨hu.1.1, (hinit m u).trans hu.1.2⟩, hu.2⟩
  | start => exact (hk.blStart since_reset h0).mono (fun _ _ hu => hu.1) fun _ hu => hu
  | stop => exact (hk.blStop since_reset h0).mono (fun _ _ hu => hu.1) fun _ hu => hu
  | wraddr a => exact (hk.blWriteAddress since_reset a h0).mono (fun _ _ hu => hu.1) fun _ hu => hu
  | wrbyte d => exact (hk.blWriteByte since_reset d h0).mono (fun _ _ hu => hu.1) fun _ hu => hu
  | rdbyte k => exact (hk.blReadByte since_reset k h0).mono (fun _ _ hu => hu.1) fun _ hu => hu
  | probe | mrd1 _ | mwr1 _ _ | mrdn _ | mwrn _ | waitrdy => simp [isBusLine] at hb

/-- A field no command but INIT writes. -/
theorem Untouched.exec_configured (h : Untouched f)
    (hw : ∀ u e n m x, f { u with err := e, retry := n, ticks := m, result := x } = f u)
    (hc : ∀ u (a b c d : Count), f { u with cur := a, idx := b, doneCount := c, chunk := d } = f u)
    (hst : ∀ u j, f (storeReceived j u) = f u) (ha : f (accept i s) = f s) (hf : ∀ e u, f (finish e u) = f u)
    (href : ∀ c, f (refuse c s) = f s) (hi : isInit i = false) (hx : exec i s = .next t) : Since f s t :=
  exec_since (h.kept_reads hw _) (fun _ _ => hc) (fun _ _ u b c => hc u u.cur b c u.chunk) (fun _ _ => hst) hi ha hf href hx

/-- RESULT through a command that receives nothing (R23). -/
theorem exec_result (hr : receives i = false) (hx : exec i s = .next t) : Since State.result s t := by
  cases hi : isInit i with
  | true =>
    obtain ⟨m, rfl⟩ := eq_init_of_isInit hi
    exact exec_since_init (Untouched.kept_send (f := State.result) (fun _ _ _ _ _ _ _ _ _ _ _ => rfl) _).toKeptByAgents
      (fun _ => rfl) rfl (fun _ _ => rfl) (fun _ => rfl) hx
  | false =>
    exact exec_since_send (Untouched.kept_paged (f := State.result) (fun _ _ _ _ _ _ _ _ _ _ _ => rfl)
      (fun _ _ _ _ => rfl) _) (fun _ _ _ _ _ _ _ => rfl) hi hr rfl (fun _ _ => rfl) (fun _ => rfl) hx

/-- ACKEN through a command that receives nothing (R37). -/
theorem exec_acken (hr : receives i = false) (hx : exec i s = .next t) : Since (fun u => u.eng.acken) s t := by
  cases hi : isInit i with
  | true =>
    obtain ⟨m, rfl⟩ := eq_init_of_isInit hi
    exact exec_since_init (f := fun u => u.eng.acken) (acken_kept _).toKeptByAgents (fun _ => rfl) rfl (fun _ _ => rfl)
      (fun _ => rfl) hx
  | false =>
    exact exec_since_send (f := fun u => u.eng.acken) (acken_kept _) (fun _ _ _ _ _ _ _ => rfl) hi hr rfl (fun _ _ => rfl)
      (fun _ => rfl) hx

/-- The registers INIT alone writes (R41, R43). -/
def State.configured (s : State) : Bool × BusMode × BitVec 16 × BitVec 8 := (s.inited, s.mode, s.ccr, s.trise)

theorem configured_eq_iff : t.configured = s.configured ↔
    t.inited = s.inited ∧ t.mode = s.mode ∧ t.ccr = s.ccr ∧ t.trise = s.trise := by
  simp [State.configured]

theorem exec_configured (hi : isInit i = false) (hx : exec i s = .next t) : Since State.configured s t :=
  Untouched.exec_configured (f := State.configured) (fun _ _ _ _ _ _ _ _ _ _ _ => rfl) (fun _ _ _ _ _ => rfl)
    (fun _ _ _ _ _ => rfl) (fun _ _ => rfl) rfl (fun _ _ => rfl) (fun _ => rfl) hi hx

/-- What the host gives the block: LEN, WBUF and the pending accesses, and the parameters and the bus (R9, R24, R26, R141). -/
def State.supplied (s : State) : Count × Memory × List HostAction × Params × BusKind := (s.len, s.wbuf, s.host, s.cfg, s.bus)

theorem supplied_eq_iff : t.supplied = s.supplied ↔
    t.len = s.len ∧ t.wbuf = s.wbuf ∧ t.host = s.host ∧ t.cfg = s.cfg ∧ t.bus = s.bus := by
  simp [State.supplied]

/-- DONE and RBUF, and the working registers of L2 (R25, R27, R28). -/
def State.working (s : State) : Count × Memory × (Count × Count × Count) × (Nat × Nat) × TransferOutcome :=
  (s.doneCount, s.rbuf, (s.cur, s.idx, s.chunk), (s.retry, s.ticks), s.err)

theorem working_eq_iff : t.working = s.working ↔ t.doneCount = s.doneCount ∧ t.rbuf = s.rbuf ∧
    (t.cur = s.cur ∧ t.idx = s.idx ∧ t.chunk = s.chunk) ∧ (t.retry = s.retry ∧ t.ticks = s.ticks) ∧ t.err = s.err := by
  simp [State.working]

/-- No BusLine command writes any of them. -/
theorem exec_busLine_working (hb : isBusLine i = true) (hx : exec i s = .next t) :
    Since (fun u => (u.supplied, u.working)) s t :=
  Untouched.exec_busLine (f := fun u => (u.supplied, u.working)) (fun _ _ _ _ _ _ _ _ _ _ _ => rfl) (fun _ _ => rfl)
    (fun _ _ => rfl) rfl (fun _ _ => rfl) (fun _ => rfl) hb hx

/-- Settles O38: by the groups of registers that are written together. -/
theorem busLineFrame : Obligations.BusLineFrame := by
  intro i s t hb hx he
  obtain ⟨hsup, hwork⟩ := Prod.ext_iff.1 (exec_busLine_working hb hx he)
  obtain ⟨hlen, hwbuf, hhost, hcfg, hbus⟩ := supplied_eq_iff.1 hsup
  obtain ⟨hdone, hrbuf, ⟨hcur, hidx, hchunk⟩, ⟨hretry, hticks⟩, herr⟩ := working_eq_iff.1 hwork
  refine ⟨fun hi => configured_eq_iff.1 (exec_configured hi hx he), fun hne => ?_, hlen, hdone, hwbuf, hrbuf, hcur, hidx,
    hchunk, hretry, hticks, herr, hcfg, hbus, hhost⟩
  have hr := busLine_receives hb hne
  exact ⟨exec_result hr hx he, exec_acken hr hx he⟩

/-! ### PagedMemoryDevice commands -/

theorem exec_supplied (hi : isInit i = false) (hx : exec i s = .next t) : Since State.supplied s t :=
  Untouched.exec_configured (f := State.supplied) (fun _ _ _ _ _ _ _ _ _ _ _ => rfl) (fun _ _ _ _ _ => rfl)
    (fun _ _ _ _ _ => rfl) (fun _ _ => rfl) rfl (fun _ _ => rfl) (fun _ => rfl) hi hx

/-- RBUF through a command other than INIT and MRDN (R27). -/
theorem exec_rbuf (hi : isInit i = false) (hne : ∀ a, i ≠ .mrdn a) (hx : exec i s = .next t) : Since State.rbuf s t :=
  exec_since (Untouched.kept_reads (f := State.rbuf) (fun _ _ _ _ _ _ _ _ _ _ _ => rfl) (fun _ _ _ _ _ => rfl) _)
    (fun _ _ _ _ _ _ _ => rfl) (fun _ _ _ _ _ => rfl) (fun a h => absurd h (hne a)) hi rfl (fun _ _ => rfl) (fun _ => rfl) hx

/-- CUR and CHUNK through a command other than INIT and MWRN (R28). -/
theorem exec_cur_chunk (hi : isInit i = false) (hne : ∀ a, i ≠ .mwrn a) (hx : exec i s = .next t) :
    Since (fun u => (u.cur, u.chunk)) s t :=
  exec_since (Untouched.kept_reads (f := fun u => (u.cur, u.chunk)) (fun _ _ _ _ _ _ _ _ _ _ _ => rfl)
    (fun _ _ _ _ _ => rfl) _) (fun a h => absurd h (hne a)) (fun _ _ _ _ _ => rfl) (fun _ _ _ _ => rfl) hi rfl (fun _ _ => rfl)
    (fun _ => rfl) hx

/-- DONE and IDX through a command other than INIT, MRDN and MWRN (R25, R28). -/
theorem exec_done_idx (hi : isInit i = false) (hr : ∀ a, i ≠ .mrdn a) (hw : ∀ a, i ≠ .mwrn a) (hx : exec i s = .next t) :
    Since (fun u => (u.doneCount, u.idx)) s t :=
  exec_since (Untouched.kept_reads (f := fun u => (u.doneCount, u.idx)) (fun _ _ _ _ _ _ _ _ _ _ _ => rfl)
    (fun _ _ _ _ _ => rfl) _) (fun a h => absurd h (hw a)) (fun a h => absurd h (hr a)) (fun a h => absurd h (hr a)) hi rfl
    (fun _ _ => rfl) (fun _ => rfl) hx

/-- RETRY and TICKS through the commands that do not wait for the device: PROBE, MRD1, MRDN (R28). -/
theorem exec_retry_ticks (hi : i = .probe ∨ (∃ a, i = .mrd1 a) ∨ ∃ a, i = .mrdn a) (hx : exec i s = .next t) :
    Since (fun u => (u.retry, u.ticks)) s t := by
  have hk := (Untouched.kept_transfers (f := fun u : State => (u.retry, u.ticks)) (fun _ _ _ _ _ _ _ _ _ _ _ => rfl)
    (fun _ _ _ => rfl) (s.retry, s.ticks)).and (epoch_kept s).toKeptByTransfers
  have hbody : (bodyOf i (accept i s)).All
      (fun _ u => (u.busy = true ∧ (u.retry, u.ticks) = (s.retry, s.ticks)) ∧ u.busy = true ∧ u.epoch = s.epoch)
      (Since (fun u => (u.retry, u.ticks)) s) := by
    obtain rfl | ⟨a, rfl⟩ | ⟨a, rfl⟩ := hi
    · exact (hk.pmProbe since_reset (s := accept .probe s) ⟨⟨rfl, rfl⟩, rfl, rfl⟩).mono (fun _ _ hu => hu.1) fun _ hu => hu
    · exact (hk.pmReadByte since_reset a (s := accept (.mrd1 a) s) ⟨⟨rfl, rfl⟩, rfl, rfl⟩).mono (fun _ _ hu => hu.1)
        fun _ hu => hu
    · exact (hk.pmReadBytes since_reset a (s := accept (.mrdn a) s) (fun _ _ hu => hu) ⟨⟨rfl, rfl⟩, rfl, rfl⟩
        ⟨⟨rfl, rfl⟩, rfl, rfl⟩).mono (fun _ _ hu => hu.1) fun _ hu => hu
  exact exec_all (G := Since (fun u => (u.retry, u.ticks)) s) hk.toKeptByAgents since_reset hx (fun _ => hbody)
    (fun _ _ hu _ => hu.1.2) (fun _ hu => hu) (fun _ _ _ => rfl)

/-- Settles O40: by the groups of registers that are written together. -/
theorem pagedFrame : Obligations.PagedFrame := by
  intro i s t hp hx he
  have hi := isInit_of_isPaged hp
  have hmrdn : i.mnemonic ≠ "MRDN" → ∀ a, i ≠ .mrdn a := fun h a ha => h (mnemonic_eq_MRDN.2 ⟨a, ha⟩)
  have hmwrn : i.mnemonic ≠ "MWRN" → ∀ a, i ≠ .mwrn a := fun h a ha => h (mnemonic_eq_MWRN.2 ⟨a, ha⟩)
  obtain ⟨hinited, hmode, hccr, htrise⟩ := configured_eq_iff.1 (exec_configured hi hx he)
  obtain ⟨hlen, hwbuf, hhost, hcfg, hbus⟩ := supplied_eq_iff.1 (exec_supplied hi hx he)
  refine ⟨⟨hinited, hmode, hccr, htrise, hlen, hwbuf, hcfg, hbus, hhost⟩, fun h1 hn => ?_,
    fun hn => exec_rbuf hi (hmrdn hn) hx he, fun hn => Prod.ext_iff.1 (exec_cur_chunk hi (hmwrn hn) hx he),
    fun hr hw => Prod.ext_iff.1 (exec_done_idx hi (hmrdn hr) (hmwrn hw) hx he), fun h => ?_⟩
  · have hr := paged_receives hp h1 hn
    exact ⟨exec_result hr hx he, exec_acken hr hx he⟩
  · rw [mnemonic_eq_MRD1, mnemonic_eq_MRDN] at h
    exact Prod.ext_iff.1 (exec_retry_ticks h hx he)

end Sys2Proof.Machine
end

section
/-!
PROOFS. The flags and DR a BusLine command leaves unchanged (R21, R31 to R38, R143). Each command has a property of the engine that
holds where it is accepted and that the engine's steps, the flag samples and the command's own accesses keep.
-/

namespace Sys2Proof.Machine

/-! ### Properties of the engine alone -/

/-- `E` is kept by every engine step, and by a flag sample. -/
structure KeptByEngine (E : Engine → Prop) : Prop where
  start : ∀ {e}, E e → e.act = .start → E e.afterStart
  rstart : ∀ {e}, E e → e.act = .rstart → E e.afterRstart
  txAddr : ∀ {e} (k : Bool), E e → e.act = .txAddr → E (e.afterTxAddr k)
  txData : ∀ {e} (k : Bool), E e → e.act = .txData → E (e.afterTxData k)
  rxData : ∀ {e} (v : Byte), E e → e.act = .rxData → E (e.afterRx v)
  stop : ∀ {e}, E e → e.act = .none → e.stopp = true → E e.afterStop
  sampled : ∀ {e}, E e → E e.readSr1

/-- While a command executes and the block is not reset, `E` holds of the engine; `s` is the state the command came to. -/
abbrev During (E : Engine → Prop) (s u : State) : Prop := u.busy = true ∧ u.epoch = s.epoch ∧ E u.eng

/-- The block was reset since `s`. -/
abbrev ResetSince (s u : State) : Prop := u.epoch ≠ s.epoch

variable {E : Engine → Prop} {s u : State}

theorem KeptByEngine.engineStep (h : KeptByEngine E) (a : Answer) (he : E s.eng) : E (engineStep a s).eng := by
  unfold Machine.engineStep
  split <;> rename_i hact
  · exact h.start he hact
  · exact h.rstart he hact
  · exact h.txAddr _ he hact
  · exact h.txData _ he hact
  · exact h.rxData _ he hact
  · split <;> rename_i hstop
    · exact h.stop he hact hstop
    · exact he

theorem KeptByEngine.waits (h : KeptByEngine E) (s : State) : KeptByWaits (During E s) where
  busy hu := hu.1
  engine a hu := ⟨by simpa using hu.1, by simpa using hu.2.1, h.engineStep a hu.2.2⟩
  ready hu := hu
  sched _ hu := hu
  draws _ hu := hu
  refused hu := hu
  read _ hu := hu
  sampled hu := ⟨hu.1, hu.2.1, h.sampled hu.2.2⟩
  spin _ hu := hu

/-- The unit's call of the engine, and the wait it comes to. -/
theorem During.call (hu : During E s u) {e : Engine} (he : E e) (p : SeqPoint) : During E s (seqAt p { u with eng := e }) :=
  ⟨hu.1, hu.2.1, he⟩

theorem during_resets (E : Engine → Prop) (s : State) : Resets (During E s) (ResetSince s) := fun u hu => by
  simp [ResetSince, hu.2.1]

/-! ### The L1 operations, by the access each makes -/

theorem KeptByEngine.blStart (h : KeptByEngine E) (hcall : ∀ {e}, E e → E e.assertStart) (hu : During E s u) :
    (blStart u).All (fun _ => During E s) (ResetSince s) :=
  ((h.waits s).gap (during_resets E s) hu).andThen fun _ _ ht =>
    ((h.waits s).wait (during_resets E s) _ _ (During.call ht (hcall ht.2.2) .waitStart)).andThen fun _ _ hv => hv.1

theorem KeptByEngine.blStop (h : KeptByEngine E) (hcall : ∀ {e}, E e → E e.assertStop) (hu : During E s u) :
    (blStop u).All (fun _ => During E s) (ResetSince s) :=
  ((h.waits s).gap (during_resets E s) hu).andThen fun _ _ ht => ⟨ht.1, ht.2.1, hcall ht.2.2⟩

theorem KeptByEngine.blWriteAddress (h : KeptByEngine E) {a : Byte} (hcall : ∀ {e}, E e → E (e.loadTx a))
    (hclear : ∀ {e}, E e → E e.readSr2) (hu : During E s u) :
    (blWriteAddress a u).All (fun _ => During E s) (ResetSince s) :=
  ((h.waits s).gap (during_resets E s) hu).andThen fun _ _ ht =>
    ((h.waits s).wait (during_resets E s) _ _ (During.call ht (hcall ht.2.2) .waitAddress)).andThen fun r v hv => by
      obtain ⟨hbusy, hepoch, he⟩ := hv.1
      show During E s (settleAddress r v)
      unfold settleAddress
      split
      · exact ⟨hbusy, hepoch, hclear he⟩
      · exact ⟨hbusy, hepoch, he⟩

theorem KeptByEngine.blWriteByte (h : KeptByEngine E) {d : Byte} (hcall : ∀ {e}, E e → E (e.loadTx d))
    (hu : During E s u) : (blWriteByte d u).All (fun _ => During E s) (ResetSince s) :=
  ((h.waits s).gap (during_resets E s) hu).andThen fun _ _ ht =>
    ((h.waits s).wait (during_resets E s) _ _ (During.call ht (hcall ht.2.2) .waitTransmit)).andThen fun _ _ hv => hv.1

theorem KeptByEngine.blReadByte (h : KeptByEngine E) {k : Bool} (hcall : ∀ {e}, E e → E (e.setAckMode k))
    (hread : ∀ {e}, E e → E e.readDr) (hu : During E s u) :
    (blReadByte k u).All (fun _ => During E s) (ResetSince s) :=
  ((h.waits s).gap (during_resets E s) hu).andThen fun _ _ ht =>
    ((h.waits s).wait (during_resets E s) _ _ (During.call ht (hcall ht.2.2) .waitReceive)).andThen fun r v hv => by
      obtain ⟨hbusy, hepoch, he⟩ := hv.1
      show During E s (takeResult r v)
      unfold takeResult
      split
      · exact ⟨hbusy, hepoch, hread he⟩
      · exact ⟨hbusy, hepoch, he⟩

/-- What the body's property says of the engine holds of it in the state the command leaves, if no reset comes; a refusal leaves the
engine alone. -/
theorem KeptByEngine.exec {α : Type} {g : Engine → α} {i : Instr} {t : State} (h : KeptByEngine E)
    (hg : ∀ e, E e → g e = g s.eng)
    (hb : refusalCause i s = none → (bodyOf i (accept i s)).All (fun _ => During E s) (ResetSince s))
    (hx : exec i s = .next t) : Since (fun u => g u.eng) s t :=
  exec_all (G := Since (fun u => g u.eng) s) (h.waits s).toKeptByAgents (during_resets E s) hx hb
    (fun _ u hu _ => hg u.eng hu.2.2) (fun _ hu he => absurd he hu) (fun _ _ _ => rfl)

/-! ### The engine where a command is accepted -/

variable {i : Instr} {t : State}

/-- Outside PHASE Error and with no STOP pending nothing is pending but a repeated START (R140, log 31). -/
theorem State.PhaseInv.act (h : s.PhaseInv) (hp : s.phase ≠ .error) (hst : s.eng.stopp = false) :
    s.eng.act = .none ∨ s.eng.act = .rstart := by
  cases hphase : s.phase with
  | idle => exact .inl (h.idle hphase hst).2
  | addressPhase => exact (h.addressPhase hphase).2
  | dataPhase => exact .inl (h.dataPhase hphase).1
  | error => exact absurd hphase hp

/-- START is accepted with no STOP pending, and not in PHASE Error (R97). -/
theorem accepted_start (h : s.Inv) (hr : refusalCause .start s = none) : s.phase ≠ .error ∧ s.eng.stopp = false := by
  obtain ⟨-, -, hphase, hstop⟩ := accepted hr
  refine ⟨fun he => by simp [phaseAllows, he] at hphase, ?_⟩
  by_cases hp : s.phase = .idle
  · exact hstop (by simp [reusesBus, hp])
  · exact h.phaseInv.stopp_false hp

/-- WRADDR is accepted in PHASE AddressPhase (R97). -/
theorem accepted_wraddr {a : Byte} (hr : refusalCause (.wraddr a) s = none) : s.phase = .addressPhase := by
  obtain ⟨-, -, hphase, -⟩ := accepted hr
  simpa [phaseAllows] using hphase

/-- WRBYTE is accepted in PHASE DataPhase (R97). -/
theorem accepted_wrbyte {d : Byte} (hr : refusalCause (.wrbyte d) s = none) : s.phase = .dataPhase := by
  obtain ⟨-, -, hphase, -⟩ := accepted hr
  simp only [phaseAllows, Bool.and_eq_true, beq_iff_eq] at hphase
  exact hphase.1

/-- RDBYTE is accepted in PHASE DataPhase (R97). -/
theorem accepted_rdbyte {k : Bool} (hr : refusalCause (.rdbyte k) s = none) : s.phase = .dataPhase := by
  obtain ⟨-, -, hphase, -⟩ := accepted hr
  simp only [phaseAllows, Bool.and_eq_true, beq_iff_eq] at hphase
  exact hphase.1

/-! ### START -/

/-- While START executes: only a START is told to the engine, which changes none of these (R133). -/
abbrev StartKeeps (e₀ e : Engine) : Prop :=
  (e.act = .none ∨ e.act = .start ∨ e.act = .rstart) ∧ e.stopp = false ∧
    (e.stopp, e.acken, e.dir, e.dr) = (e₀.stopp, e₀.acken, e₀.dir, e₀.dr)

theorem startKeeps (e₀ : Engine) : KeptByEngine (StartKeeps e₀) where
  start h _ := ⟨.inl rfl, h.2⟩
  rstart h _ := ⟨.inl rfl, h.2⟩
  txAddr _ h ha := by simp [StartKeeps, ha] at h
  txData _ h ha := by simp [StartKeeps, ha] at h
  rxData _ h ha := by simp [StartKeeps, ha] at h
  stop h _ hs := by simp [StartKeeps, hs] at h
  sampled h := by unfold Engine.readSr1; split <;> exact h

theorem startKeeps_assertStart {e₀ e : Engine} (h : StartKeeps e₀ e) : StartKeeps e₀ e.assertStart := by
  unfold Engine.assertStart
  split
  · exact ⟨.inr (.inl rfl), h.2⟩
  · split
    · exact ⟨.inr (.inr rfl), h.2⟩
    · exact h

theorem exec_start_flags (h : s.Inv) (hx : exec .start s = .next t) :
    Since (fun u => (u.eng.stopp, u.eng.acken, u.eng.dir, u.eng.dr)) s t := by
  refine (startKeeps s.eng).exec (g := fun e => (e.stopp, e.acken, e.dir, e.dr)) (fun _ he => he.2.2) (fun hr => ?_) hx
  obtain ⟨hp, hst⟩ := accepted_start h hr
  exact (startKeeps s.eng).blStart startKeeps_assertStart
    ⟨rfl, rfl, (h.phaseInv.act hp hst).imp id .inr, hst, rfl⟩

/-! ### STOP -/

/-- While STOP executes: no byte is told to the engine, and neither a START nor the STOP changes these (R139). -/
abbrev StopKeeps (e₀ e : Engine) : Prop :=
  (e.act = .none ∨ e.act = .rstart) ∧ (e.af, e.acken, e.dir, e.dr) = (e₀.af, e₀.acken, e₀.dir, e₀.dr)

theorem stopKeeps (e₀ : Engine) : KeptByEngine (StopKeeps e₀) where
  start h ha := by simp [StopKeeps, ha] at h
  rstart h _ := ⟨.inl rfl, h.2⟩
  txAddr _ h ha := by simp [StopKeeps, ha] at h
  txData _ h ha := by simp [StopKeeps, ha] at h
  rxData _ h ha := by simp [StopKeeps, ha] at h
  stop h ha _ := ⟨.inl ha, h.2⟩
  sampled h := by unfold Engine.readSr1; split <;> exact h

theorem stopKeeps_assertStop {e₀ e : Engine} (h : StopKeeps e₀ e) : StopKeeps e₀ e.assertStop := by
  unfold Engine.assertStop
  split
  · exact h
  · split
    · exact ⟨.inl rfl, h.2⟩
    · exact h

theorem exec_stop_flags (h : s.Inv) (hp : s.phase ≠ .error) (hst : s.eng.stopp = false) (hx : exec .stop s = .next t) :
    Since (fun u => (u.eng.af, u.eng.acken, u.eng.dir, u.eng.dr)) s t := by
  refine (stopKeeps s.eng).exec (g := fun e => (e.af, e.acken, e.dir, e.dr)) (fun _ he => he.2) (fun _ => ?_) hx
  exact (stopKeeps s.eng).blStop stopKeeps_assertStop ⟨rfl, rfl, h.phaseInv.act hp hst, rfl⟩

/-! ### WRADDR -/

/-- While WRADDR executes: nothing is received and no STOP is asked for (R134). -/
abbrev WraddrKeeps (e₀ e : Engine) : Prop :=
  e.act ≠ .rxData ∧ e.rxne = false ∧ e.stopp = false ∧ e.acken = e₀.acken

theorem wraddrKeeps (e₀ : Engine) : KeptByEngine (WraddrKeeps e₀) where
  start h _ := ⟨by simp [Engine.afterStart], h.2⟩
  rstart h _ := ⟨by simp [Engine.afterRstart], rfl, h.2.2⟩
  txAddr _ h _ := by unfold Engine.afterTxAddr; split <;> exact ⟨by simp, h.2⟩
  txData _ h _ := by unfold Engine.afterTxData; split <;> exact ⟨by simp, h.2⟩
  rxData _ h ha := absurd ha h.1
  stop h _ hs := by simp [WraddrKeeps, hs] at h
  sampled h := by unfold Engine.readSr1; split <;> exact h

theorem wraddrKeeps_loadTx {e₀ e : Engine} {a : Byte} (h : WraddrKeeps e₀ e) : WraddrKeeps e₀ (e.loadTx a) := by
  unfold Engine.loadTx
  split
  · exact ⟨by simp, h.2⟩
  · split
    · exact ⟨by simp, h.2⟩
    · exact h

theorem wraddrKeeps_readSr2 {e₀ e : Engine} (h : WraddrKeeps e₀ e) : WraddrKeeps e₀ e.readSr2 := by
  unfold Engine.readSr2
  split
  · split <;> exact h
  · exact h

/-- In PHASE AddressPhase no byte has been received. -/
theorem State.Inv.addressPhase_rxne (h : s.Inv) (hp : s.phase = .addressPhase) : s.eng.rxne = false := by
  by_contra hc
  have hrx := h.engine.rxne_state (by simpa using hc)
  rw [(h.phaseInv.addressPhase hp).1] at hrx
  cases hrx

theorem exec_wraddr_flags {a : Byte} (h : s.Inv) (hx : exec (.wraddr a) s = .next t) :
    Since (fun u => (u.eng.rxne, u.eng.stopp, u.eng.acken)) s t := by
  cases hr : refusalCause (.wraddr a) s with
  | some c =>
    rw [exec_refused hr] at hx
    injection hx with hx
    subst hx
    exact fun _ => rfl
  | none =>
    have hp := accepted_wraddr hr
    have hst := h.phaseInv.stopp_false (by simp [hp])
    have hrxne := h.addressPhase_rxne hp
    refine (wraddrKeeps s.eng).exec (g := fun e => (e.rxne, e.stopp, e.acken))
      (fun e he => by simp [he.2.1, he.2.2.1, he.2.2.2, hst, hrxne]) (fun _ => ?_) hx
    refine (wraddrKeeps s.eng).blWriteAddress wraddrKeeps_loadTx wraddrKeeps_readSr2 ⟨rfl, rfl, ?_, hrxne, hst, rfl⟩
    obtain ha | ha := (h.phaseInv.addressPhase hp).2 <;> simp [ha]

/-! ### WRBYTE -/

/-- While WRBYTE executes: only the data byte is told to the engine (R136). -/
abbrev WrbyteKeeps (e₀ e : Engine) : Prop :=
  (e.act = .none ∨ e.act = .txData) ∧ e.es ≠ .sb ∧ e.stopp = false ∧
    (e.sb, e.addr, e.rxne, e.stopp, e.acken, e.dir) = (e₀.sb, e₀.addr, e₀.rxne, e₀.stopp, e₀.acken, e₀.dir)

theorem wrbyteKeeps (e₀ : Engine) : KeptByEngine (WrbyteKeeps e₀) where
  start h ha := by simp [WrbyteKeeps, ha] at h
  rstart h ha := by simp [WrbyteKeeps, ha] at h
  txAddr _ h ha := by simp [WrbyteKeeps, ha] at h
  txData _ h _ := by
    unfold Engine.afterTxData
    split
    · exact ⟨.inl rfl, h.2⟩
    · exact ⟨.inl rfl, by simp, h.2.2⟩
  rxData _ h ha := by simp [WrbyteKeeps, ha] at h
  stop h _ hs := by simp [WrbyteKeeps, hs] at h
  sampled h := by unfold Engine.readSr1; split <;> exact h

theorem wrbyteKeeps_loadTx {e₀ e : Engine} {d : Byte} (h : WrbyteKeeps e₀ e) : WrbyteKeeps e₀ (e.loadTx d) := by
  unfold Engine.loadTx
  split <;> rename_i hc
  · exact absurd hc.1 h.2.1
  · split
    · exact ⟨.inr rfl, h.2⟩
    · exact h

theorem exec_wrbyte_flags {d : Byte} (h : s.Inv) (hx : exec (.wrbyte d) s = .next t) :
    Since (fun u => (u.eng.sb, u.eng.addr, u.eng.rxne, u.eng.stopp, u.eng.acken, u.eng.dir)) s t := by
  refine (wrbyteKeeps s.eng).exec (g := fun e => (e.sb, e.addr, e.rxne, e.stopp, e.acken, e.dir)) (fun _ he => he.2.2.2)
    (fun hr => ?_) hx
  have hp := accepted_wrbyte hr
  obtain ⟨hact, hes⟩ := h.phaseInv.dataPhase hp
  refine (wrbyteKeeps s.eng).blWriteByte wrbyteKeeps_loadTx
    ⟨rfl, rfl, .inl hact, ?_, h.phaseInv.stopp_false (by simp [hp]), rfl⟩
  obtain ⟨hes, -⟩ | ⟨hes, -⟩ := hes <;> simp [hes]

/-! ### RDBYTE -/

/-- While RDBYTE executes: only a reception is told to the engine (R137). -/
abbrev RdbyteKeeps (e₀ e : Engine) : Prop :=
  (e.act = .none ∨ e.act = .rxData) ∧ e.stopp = false ∧
    (e.sb, e.addr, e.txe, e.stopp, e.af, e.dir) = (e₀.sb, e₀.addr, e₀.txe, e₀.stopp, e₀.af, e₀.dir)

theorem rdbyteKeeps (e₀ : Engine) : KeptByEngine (RdbyteKeeps e₀) where
  start h ha := by simp [RdbyteKeeps, ha] at h
  rstart h ha := by simp [RdbyteKeeps, ha] at h
  txAddr _ h ha := by simp [RdbyteKeeps, ha] at h
  txData _ h ha := by simp [RdbyteKeeps, ha] at h
  rxData _ h _ := ⟨.inl rfl, h.2⟩
  stop h _ hs := by simp [RdbyteKeeps, hs] at h
  sampled h := by unfold Engine.readSr1; split <;> exact h

theorem rdbyteKeeps_setAckMode {e₀ e : Engine} {k : Bool} (h : RdbyteKeeps e₀ e) : RdbyteKeeps e₀ (e.setAckMode k) := by
  unfold Engine.setAckMode
  split
  · exact ⟨.inr rfl, h.2⟩
  · exact h

theorem exec_rdbyte_flags {k : Bool} (h : s.Inv) (hx : exec (.rdbyte k) s = .next t) :
    Since (fun u => (u.eng.sb, u.eng.addr, u.eng.txe, u.eng.stopp, u.eng.af, u.eng.dir)) s t := by
  refine (rdbyteKeeps s.eng).exec (g := fun e => (e.sb, e.addr, e.txe, e.stopp, e.af, e.dir)) (fun _ he => he.2.2)
    (fun hr => ?_) hx
  have hp := accepted_rdbyte hr
  exact (rdbyteKeeps s.eng).blReadByte rdbyteKeeps_setAckMode (fun he => he)
    ⟨rfl, rfl, .inl (h.phaseInv.dataPhase hp).1, h.phaseInv.stopp_false (by simp [hp]), rfl⟩

/-! ### All of them -/

/-- Settles O39: by the command. -/
theorem flagFrame : Obligations.FlagFrame := by
  intro i s t h hx he
  refine ⟨fun hi => ?_, fun hi => ?_, fun hi hp hst => ?_, fun hi => ?_, fun hi => ?_, fun hi => ?_⟩
  · obtain ⟨m, rfl⟩ := eq_init_of_isInit hi
    obtain heq | ⟨-, hlt⟩ := exec_init_eng h hx
    · exact heq
    · exact absurd he hlt.ne'
  · subst hi
    simpa only [Prod.mk.injEq] using exec_start_flags h hx he
  · subst hi
    simpa only [Prod.mk.injEq] using exec_stop_flags h hp hst hx he
  · obtain ⟨a, rfl⟩ := mnemonic_eq_WRADDR.1 hi
    simpa only [Prod.mk.injEq] using exec_wraddr_flags h hx he
  · obtain ⟨d, rfl⟩ := mnemonic_eq_WRBYTE.1 hi
    simpa only [Prod.mk.injEq] using exec_wrbyte_flags h hx he
  · obtain ⟨k, rfl⟩ := mnemonic_eq_RDBYTE.1 hi
    simpa only [Prod.mk.injEq] using exec_rdbyte_flags h hx he

end Sys2Proof.Machine
end

section
/-!
PROOFS. How far MRDN and MWRN came (R25, R27, R195, R196, R201): DONE counts the bytes stored and the chunks written, whatever the
schedule and the bus did.
-/

namespace Sys2Proof.Machine

/-! ### Commands that finish -/

/-- The command has not finished: cut short, by a reset or in a delay. -/
abbrev Unfinished (s : State) : Prop := s.cpl = false

theorem resets_unfinished (P : State → Prop) : Resets P Unfinished := fun _ _ => rfl

variable {α : Type} {f : State → α} {i : Instr} {s t : State}

/-- While a command executes and the field `f` has the value `v`. -/
abbrev Holding (f : State → α) (v : α) (s : State) : Prop := Doing s ∧ s.busy = true ∧ f s = v

theorem Holding.doing {v : α} (h : Holding f v s) : Doing s := h.1

theorem Holding.value {v : α} (h : Holding f v s) : f s = v := h.2.2

theorem Doing.holding (h : Doing s) : Holding f (f s) s := ⟨h, h.1, rfl⟩

/-- What the body of an accepted command leaves of a field nothing else writes is found when the command has finished (R160). -/
theorem exec_completed (hf : Untouched f) (hfin : ∀ e u, f (finish e u) = f u) {R : TransferOutcome → α → Prop}
    (hok : refusalCause i s = none) (hb : (bodyOf i (accept i s)).All (fun e u => Doing u ∧ R e (f u)) Unfinished)
    (hx : exec i s = .next t) (hc : t.cpl = true) : R t.outcome (f t) := by
  rw [exec_accepted hok] at hx
  injection hx with hx
  subst hx
  refine conclude_all (F := fun e u => Doing u ∧ R e (f u)) (G := fun t => t.cpl = true → R t.outcome (f t)) hb
    (fun e u hu => ?_) (fun e u hu _ => ?_) (fun u hu h => ?_) hc
  · have hk : KeptByAgents (Holding f (f u)) := doing_kept.toKeptByAgents.and (hf.kept_send (f u)).toKeptByAgents
    exact (hk.gap (resets_unfinished _) hu.1.holding).mono (fun _ v hv => ⟨hv.doing, hv.value ▸ hu.2⟩) fun _ hv => hv
  · rw [hfin]
    exact hu.2
  · rw [hu] at h
    cases h

/-! ### Sequences whose end is not what their steps keep -/

section

variable {P Q : State → Prop} {R : TransferOutcome → State → Prop} {k : State → Ran TransferOutcome}

/-- The steps keep `P`, and `R` holds wherever `P` does when one of them fails. -/
abbrev FailsWith (P : State → Prop) (R : TransferOutcome → State → Prop) : Prop :=
  ∀ e t, P t → BusOutcome e → e ≠ .success → R e t

/-- A step of a sequence, its abort path, and what follows it. -/
theorem KeptByAbort.orAbort_then (h : KeptByAbort P) (hQ : Resets P Q) (hR : FailsWith P R) {r : Ran TransferOutcome}
    (hr : r.All (fun e t => P t ∧ BusOutcome e) Q) (hk : ∀ t, P t → (k t).All R Q) : (r.orFail Machine.abort k).All R Q :=
  hr.orFail
    (fun e _ ht hne => (h.abort hQ e ht.1).mono (fun _ u hu => hu.2 ▸ hR e u hu.1 ht.2 hne) fun _ hu => hu)
    fun t ht => hk t ht.1

theorem KeptByAbort.blStart_outcome (h : KeptByAbort P) (hQ : Resets P Q) (hs : P s) :
    (Machine.blStart s).All (fun e t => P t ∧ BusOutcome e) Q :=
  (h.blStart hQ hs).mono (fun _ _ hu => ⟨hu.1, hu.2.outcome⟩) fun _ hu => hu

theorem KeptByAbort.addrPhase_then (h : KeptByAbort P) (hQ : Resets P Q) (hR : FailsWith P R) (a : MemAddr)
    (hk : ∀ t, P t → (k t).All R Q) (hs : P s) : (Machine.addrPhaseThen a k s).All R Q :=
  h.orAbort_then hQ hR (h.blStart_outcome hQ hs) fun _ ht =>
    h.orAbort_then hQ hR (h.blWriteAddress hQ _ ht) fun _ ht =>
      h.orAbort_then hQ hR (h.blWriteByte hQ _ ht) fun _ ht => h.orAbort_then hQ hR (h.blWriteByte hQ _ ht) hk

theorem KeptByAbort.turnToRead_then (h : KeptByAbort P) (hQ : Resets P Q) (hR : FailsWith P R)
    (hk : ∀ t, P t → (k t).All R Q) (hs : P s) : (Machine.turnToRead k s).All R Q :=
  h.orAbort_then hQ hR (h.blStart_outcome hQ hs) fun _ ht => h.orAbort_then hQ hR (h.blWriteAddress hQ _ ht) hk

theorem KeptByAbort.send_then (h : KeptByAbort P) (hQ : Resets P Q) (hR : FailsWith P R)
    (hk : ∀ t, P t → (k t).All R Q) (n : Nat) : ∀ (j : Nat) {s : State}, P s → (Machine.sendLoop k n j s).All R Q := by
  induction n with
  | zero => exact fun _ s hs => hk s hs
  | succ n ih => exact fun j s hs => h.orAbort_then hQ hR (h.blWriteByte hQ _ hs) fun _ ht => ih (j + 1) ht

/-- The stop and the ready wait after a chunk, and what follows them (R196). -/
theorem KeptByPaged.settle_then (h : KeptByPaged P) (hQ : Resets P Q) (hPQ : ∀ s, P s → Q s) (hR : FailsWith P R)
    (hk : ∀ t, P t → (k t).All R Q) (hs : P s) :
    ((Machine.stopWait s).orFail giveBack fun s => (Machine.readyWait s).orFail giveBack k).All R Q :=
  (h.stopWait_outcome hQ hs).orFail (fun e t ht hne => hR e t ht.1 ht.2 hne) fun _ ht =>
    (h.readyWait_outcome hQ hPQ ht.1).orFail (fun e t ht hne => hR e t ht.1 ht.2 hne) fun t ht => hk t ht.1

end

/-! ### MWRN -/

/-- The bytes in a list of chunks. -/
def chunkTotal (cs : List (Nat × Nat)) : Nat := (cs.map (fun x => x.2)).sum

@[simp] theorem chunkTotal_nil : chunkTotal [] = 0 := rfl

@[simp] theorem chunkTotal_cons (c : Nat × Nat) (cs : List (Nat × Nat)) : chunkTotal (c :: cs) = c.2 + chunkTotal cs := by
  simp [chunkTotal]

/-- The first chunks of a write of `n` bytes hold at most `n` of them. -/
theorem chunksFrom_take_total (p fuel : Nat) : ∀ a n k : Nat, chunkTotal ((chunksFrom p fuel a n).take k) ≤ n := by
  induction fuel with
  | zero => intro a n k; simp [chunksFrom]
  | succ fuel ih =>
    intro a n k
    unfold chunksFrom
    split
    · simp
    · cases k with
      | zero => simp
      | succ k =>
        have hrest := ih (a + min (remaining p a) n) (n - min (remaining p a) n) k
        simp only [List.take_succ_cons, chunkTotal_cons]
        omega

theorem chunks_zero (p a : Nat) : chunks p a 0 = [] := rfl

/-- What MWRN leaves in DONE when it began with `i` bytes written and the chunks `cs` to write: those of the first chunks of `cs`,
of all after Success; the bus gave the outcome. -/
def ChunksWritten (cs : List (Nat × Nat)) (i : Nat) (e : TransferOutcome) (d : Count) : Prop :=
  BusOutcome e ∧ ∃ k ≤ cs.length, d = BitVec.ofNat 17 (i + chunkTotal (cs.take k)) ∧ (e = .success → k = cs.length)

theorem chunksWritten_none (cs : List (Nat × Nat)) (i : Nat) {e : TransferOutcome} (he : BusOutcome e) (hne : e ≠ .success) :
    ChunksWritten cs i e (BitVec.ofNat 17 i) :=
  ⟨he, 0, Nat.zero_le _, by simp, fun h => absurd h hne⟩

theorem chunksWritten_nil (i : Nat) : ChunksWritten [] i .success (BitVec.ofNat 17 i) :=
  ⟨busOutcome_success, 0, Nat.le_refl _, by simp, fun _ => rfl⟩

theorem ChunksWritten.cons {cs : List (Nat × Nat)} {c m i : Nat} {e : TransferOutcome} {d : Count}
    (h : ChunksWritten cs (i + m) e d) : ChunksWritten ((c, m) :: cs) i e d := by
  obtain ⟨he, k, hk, hd, hs⟩ := h
  refine ⟨he, k + 1, Nat.succ_le_succ hk, ?_, fun h => by simp [hs h]⟩
  rw [hd, List.take_succ_cons, chunkTotal_cons, Nat.add_assoc]

/-- What keeps DONE is what MWR1 and WAITRDY do. -/
theorem done_kept (v : Count) : KeptByPaged (Holding State.doneCount v) :=
  doing_kept.toKeptByPaged.and (Untouched.kept_paged (fun _ _ _ _ _ _ _ _ _ _ _ => rfl) (fun _ _ _ _ => rfl) v)

/-- The chunks of MWRN (R196): DONE goes on by whole chunks. -/
theorem chunkLoop_done (cs : List (Nat × Nat)) : ∀ (i : Nat) {s : State}, Holding State.doneCount (BitVec.ofNat 17 i) s →
    (chunkLoop cs i s).All (fun e u => Doing u ∧ ChunksWritten cs i e u.doneCount) Unfinished := by
  induction cs with
  | nil => exact fun i s hs => ⟨hs.doing, hs.value.symm ▸ chunksWritten_nil i⟩
  | cons c cs ih =>
    obtain ⟨c, m⟩ := c
    intro i s hs
    have hk := done_kept (BitVec.ofNat 17 i)
    have hR : FailsWith (Holding State.doneCount (BitVec.ofNat 17 i))
        (fun e u => Doing u ∧ ChunksWritten ((c, m) :: cs) i e u.doneCount) :=
      fun e t ht he hne => ⟨ht.doing, ht.value.symm ▸ chunksWritten_none _ i he hne⟩
    refine hk.addrPhase_then (resets_unfinished _) hR _ (fun t ht => hk.send_then (resets_unfinished _) hR
      (fun t ht => hk.settle_then (resets_unfinished _) (fun _ hu => hu.doing.2) hR (fun t ht => ?_) ht) m i ht) hs
    refine (ih (i + m) ?_).mono (fun _ _ hu => ⟨hu.1, hu.2.cons⟩) fun _ hu => hu
    exact ⟨ht.doing, ht.doing.1, rfl⟩

/-- What MWRN leaves in DONE (R25, R196): the bytes of whole chunks, `n` being LEN. -/
def MwrnLeaves (p a n : Nat) (e : TransferOutcome) (d : Count) : Prop :=
  (e = .addressOutOfRange → d = 0) ∧
    ∃ k ≤ (chunks p a n).length, d.toNat = chunkTotal ((chunks p a n).take k) ∧ (e = .success → k = (chunks p a n).length)

theorem ChunksWritten.mwrnLeaves {p a n : Nat} {e : TransferOutcome} {d : Count} (hn : n < 2 ^ 17)
    (h : ChunksWritten (chunks p a n) 0 e d) : MwrnLeaves p a n e d := by
  obtain ⟨he, k, hk, hd, hs⟩ := h
  refine ⟨fun h => ?_, k, hk, ?_, hs⟩
  · subst h
    obtain h | h | h := he <;> cases h
  · have hle : chunkTotal ((chunks p a n).take k) ≤ n := chunksFrom_take_total p n a n k
    rw [hd, Nat.zero_add, BitVec.toNat_ofNat, Nat.mod_eq_of_lt (Nat.lt_of_le_of_lt hle hn)]

/-- What MWRN can do (R196). -/
theorem pmWriteBytes_done (a : MemAddr) (hs : Doing s) :
    (pmWriteBytes a s).All
      (fun e u => Doing u ∧ MwrnLeaves s.cfg.pageSize a.toNat s.len.toNat e u.doneCount) Unfinished := by
  unfold pmWriteBytes
  simp only
  split
  · exact ⟨hs, fun _ => rfl, 0, Nat.zero_le _, rfl, fun h => by cases h⟩
  · split
    · rename_i hn
      rw [hn]
      exact ⟨hs, fun _ => rfl, 0, Nat.zero_le _, rfl, fun _ => rfl⟩
    · refine (chunkLoop_done _ 0 ?_).mono (fun _ _ hu => ⟨hu.1, hu.2.mwrnLeaves s.len.isLt⟩) fun _ hu => hu
      exact ⟨hs, hs.1, rfl⟩

/-- Settles O44: DONE goes on at the end of a chunk only. -/
theorem mwrnProgress : Obligations.MwrnProgress := fun a s _ hok hx hc =>
  exec_completed (f := State.doneCount) (R := MwrnLeaves s.cfg.pageSize a.toNat s.len.toNat)
    (fun _ _ _ _ _ _ _ _ _ _ _ => rfl) (fun _ _ => rfl) hok (pmWriteBytes_done (s := accept (.mwrn a) s) a ⟨rfl, rfl⟩) hx hc

/-! ### MRDN -/

/-- DONE and the bytes of RBUF. -/
def State.stored (s : State) : Count × (Nat → Byte) := (s.doneCount, s.rbufRead)

/-- DONE, the bytes of RBUF, and RESULT. -/
def State.received (s : State) : (Count × (Nat → Byte)) × Byte := (s.stored, s.result)

theorem stored_untouched : Untouched State.stored := fun _ _ _ _ _ _ _ _ _ _ _ => rfl

theorem received_untouched : Untouched State.received := fun _ _ _ _ _ _ _ _ _ _ _ => rfl

/-- RBUF after a byte was stored at index `j`. -/
theorem storeReceived_rbufRead (j x : Nat) (s : State) :
    (storeReceived j s).rbufRead x = if x = j then s.result else s.rbufRead x := by
  simp only [State.rbufRead, storeReceived_rbuf, storeReceived_epoch, Memory.read_write]
  split <;> rfl

/-- `k` bytes of RBUF have been stored, the others read as `old` has them. -/
def StoredTo (old : Nat → Byte) (k : Nat) (x : Count × (Nat → Byte)) : Prop :=
  x.1 = BitVec.ofNat 17 k ∧ ∀ j, k ≤ j → x.2 j = old j

/-- What MRDN leaves, `n` being LEN (R195): some of the bytes stored; after Success all, the last of them in RESULT. -/
def MrdnLeaves (old : Nat → Byte) (n : Nat) (e : TransferOutcome) (x : (Count × (Nat → Byte)) × Byte) : Prop :=
  ∃ k ≤ n, StoredTo old k x.1 ∧ (e = .success → k = n ∧ (1 ≤ n → x.1.2 (n - 1) = x.2))

theorem mrdnLeaves_failed {old : Nat → Byte} {n k : Nat} (hk : k ≤ n) {e : TransferOutcome} (hne : e ≠ .success)
    (h : StoredTo old k s.stored) : MrdnLeaves old n e s.received :=
  ⟨k, hk, h, fun he => absurd he hne⟩

theorem stored_kept (v : Count × (Nat → Byte)) : KeptByTransfers (Holding State.stored v) :=
  doing_kept.toKeptByTransfers.and (stored_untouched.kept_transfers (fun _ _ _ => rfl) v)

/-- A step of MRDN that fails stores nothing. -/
theorem failsWith_stored {old : Nat → Byte} {n k : Nat} (hk : k ≤ n) {v : Count × (Nat → Byte)} (h : StoredTo old k v) :
    FailsWith (Holding State.stored v) (fun e u => Doing u ∧ MrdnLeaves old n e u.received) := fun _ _ ht _ hne =>
  ⟨ht.doing, mrdnLeaves_failed hk hne (ht.value.symm ▸ h)⟩

/-- Where the receptions stand: `j` bytes stored, the last of them in RESULT (R195). -/
structure ReceivedTo (old : Nat → Byte) (j : Nat) (s : State) : Prop where
  doing : Doing s
  stored : StoredTo old j s.stored
  last : 1 ≤ j → s.rbufRead (j - 1) = s.result

theorem ReceivedTo.store {old : Nat → Byte} {j : Nat} (hd : Doing s) (h : StoredTo old j s.stored) :
    ReceivedTo old (j + 1) (storeReceived j s) where
  doing := hd
  stored := by
    refine ⟨rfl, fun x hx => ?_⟩
    show (storeReceived j s).rbufRead x = old x
    rw [storeReceived_rbufRead, if_neg (by omega)]
    exact h.2 x (by omega)
  last _ := by
    rw [Nat.add_sub_cancel, storeReceived_rbufRead, if_pos rfl]
    rfl

/-- The receptions of MRDN, `n` of `N` left. -/
theorem receiveLoop_received {old : Nat → Byte} {N : Nat} (n : Nat) : ∀ (j : Nat), j + n = N → ∀ {s : State},
    ReceivedTo old j s →
    (receiveLoop n j s).All (fun e u => Doing u ∧ MrdnLeaves old N e u.received) Unfinished := by
  induction n with
  | zero =>
    intro j hj s hs
    obtain rfl : j = N := hj
    have hk : KeptBySend (Holding State.received s.received) :=
      doing_kept.toKeptBySend.and (received_untouched.kept_send _)
    refine (hk.stopWait (resets_unfinished _) hs.doing.holding).mono (fun e u hu => ⟨hu.1.doing, ?_⟩) fun _ hu => hu
    rw [hu.1.value]
    exact ⟨j, Nat.le_refl _, hs.stored, fun _ => ⟨rfl, hs.last⟩⟩
  | succ n ih =>
    intro j hj s hs
    have hk := stored_kept s.stored
    refine hk.orAbort_then (resets_unfinished _) (failsWith_stored (by omega) hs.stored)
      (hk.blReadByte_outcome (resets_unfinished _) _ hs.doing.holding) fun t ht => ?_
    exact ih (j + 1) (by omega) (ReceivedTo.store ht.doing (ht.value.symm ▸ hs.stored))

/-- What MRDN can do (R195). -/
theorem pmReadBytes_received (a : MemAddr) (hs : Doing s) :
    (pmReadBytes a s).All (fun e u => Doing u ∧ MrdnLeaves s.rbufRead s.len.toNat e u.received) Unfinished := by
  have h0 : StoredTo s.rbufRead 0 (0, s.rbufRead) := ⟨rfl, fun _ _ => rfl⟩
  unfold pmReadBytes
  simp only
  split
  · exact ⟨hs, 0, Nat.zero_le _, h0, fun h => by cases h⟩
  · split
    · rename_i hn
      rw [hn]
      exact ⟨hs, 0, Nat.zero_le _, h0, fun _ => ⟨rfl, fun h => by omega⟩⟩
    · have hk := stored_kept (0, s.rbufRead)
      have hR := failsWith_stored (n := s.len.toNat) (Nat.zero_le _) h0
      refine hk.addrPhase_then (resets_unfinished _) hR a (fun t ht => hk.turnToRead_then (resets_unfinished _) hR
        (fun t ht => ?_) ht) ?_
      · exact receiveLoop_received _ 0 (by omega) ⟨ht.doing, ht.value.symm ▸ h0, fun h => by omega⟩
      · exact ⟨hs, hs.1, rfl⟩

/-- Settles O45: DONE goes on with each byte stored, and nothing else stores. -/
theorem mrdnProgress : Obligations.MrdnProgress := by
  intro a s t hok hx hc
  obtain ⟨k, hk, ⟨hdone, hold⟩, hsuccess⟩ := exec_completed (f := State.received)
    (R := MrdnLeaves s.rbufRead s.len.toNat) received_untouched (fun _ _ => rfl) hok
    (pmReadBytes_received (s := accept (.mrdn a) s) a ⟨rfl, rfl⟩) hx hc
  have hdone : t.doneCount = BitVec.ofNat 17 k := hdone
  have htoNat : t.doneCount.toNat = k := by
    rw [hdone, BitVec.toNat_ofNat, Nat.mod_eq_of_lt (Nat.lt_of_le_of_lt hk s.len.isLt)]
  refine ⟨by omega, fun h => ?_, fun i hi => hold i (by omega), fun h hn => (hsuccess h).2 hn⟩
  rw [hdone, (hsuccess h).1, BitVec.ofNat_toNat, BitVec.setWidth_eq]

end Sys2Proof.Machine
end

section
/-!
PROOFS. The reference EEPROM and the line level: the levels of each symbol and what the block reads off the lines (R65, R66, R121 to
R130), what the device answers (R74, R75, R77), where its write pointer goes (R67, R75), and what a STOP stores (R76, R78).
-/

namespace Sys2Proof.Machine

/-! ### The lines -/

/-- A released or driven level stands on an open-drain line when every device lets it (R121). -/
theorem wiredLevel_eq_true (own : Bool) (others : List Bool) :
    wiredLevel own others = true ↔ own = true ∧ ∀ x ∈ others, x = true := by
  simp [wiredLevel]

@[simp] theorem receivedBit_eq (x : Bool) : receivedBit x = x := by cases x <;> rfl

@[simp] theorem clockRises_eq (k : Bool) : clockRises k = k := by cases k <;> rfl

/-- A bit that goes on the wire is sampled once, whatever the data line was before. -/
theorem risingSamples_bit (x y : Bool) (ls : List Lines) :
    risingSamples ⟨false, y⟩ (bitLevels x ++ ls) = x :: risingSamples ⟨false, x⟩ ls := by
  simp [risingSamples, bitLevels]

/-- The slaves release both lines. -/
theorem onLines_released (own : Lines) : onLines own [⟨true, true⟩] = own := by
  obtain ⟨c, x⟩ := own
  simp [onLines, wiredLevel]

/-- A slave puts a bit on the data line that the block has released. -/
theorem onLines_slaveBit (c x : Bool) : onLines ⟨c, true⟩ [⟨true, x⟩] = ⟨c, x⟩ := by
  simp [onLines, wiredLevel]

/-- On the lines a transmitted byte shows its bits and the acknowledge bit (R66, R128). -/
theorem wireLevels_tx (b : Byte) (k : Bool) :
    (Symbol.tx b k).wireLevels = (bitsMsbFirst b).flatMap bitLevels ++ bitLevels (!k) := by
  simp [Symbol.wireLevels, Symbol.levels, Symbol.slaveLevels, bitsMsbFirst, bitLevels, List.replicate, onLines_released,
    onLines_slaveBit]

/-- On the lines a received byte shows its bits and the acknowledge bit, and the data line is released (R66, R129). -/
theorem wireLevels_rx (b : Byte) (k : Bool) :
    (Symbol.rx b k).wireLevels = (bitsMsbFirst b).flatMap bitLevels ++ bitLevels (!k) ++ [⟨false, true⟩] := by
  simp [Symbol.wireLevels, Symbol.levels, Symbol.slaveLevels, bitsMsbFirst, bitLevels, List.replicate, onLines_released,
    onLines_slaveBit]

/-- The bits of a byte and a ninth, bit by bit, are sampled in that order. -/
theorem risingSamples_byte (b : Byte) (x y : Bool) (ls : List Lines) :
    risingSamples ⟨false, x⟩ ((bitsMsbFirst b).flatMap bitLevels ++ bitLevels y ++ ls) =
      bitsMsbFirst b ++ y :: risingSamples ⟨false, y⟩ ls := by
  simp [bitsMsbFirst, risingSamples_bit]

/-- Settles O29: bit by bit. -/
theorem lineLevels : Obligations.LineLevels := by
  refine ⟨fun own slaves => ⟨?_, ?_⟩, fun b k x => ?_, fun b k x => ?_, fun b k x sym hsym => ?_, ?_, receivedByte_eq,
    fun k => ⟨receivedAck_eq k, receivedBit_eq k, clockRises_eq k⟩, rfl, rfl, rfl⟩
  · simp [onLines, wiredLevel_eq_true]
  · simp [onLines, wiredLevel_eq_true]
  · simpa [Symbol.levels, risingSamples, bitsMsbFirst] using risingSamples_byte b x true []
  · simp [Symbol.levels, List.replicate, risingSamples_bit, risingSamples]
  · obtain rfl | rfl := hsym
    · simpa [wireLevels_tx, risingSamples, bitsMsbFirst] using risingSamples_byte b x (!k) []
    · simpa [wireLevels_rx, risingSamples, bitsMsbFirst] using risingSamples_byte b x (!k) [⟨false, true⟩]
  · rintro x7 x6 x5 x4 x3 x2 x1 x0 v rfl
    revert x7 x6 x5 x4 x3 x2 x1 x0
    decide

/-! ### What the device answers -/

/-- A START seen by a device that does not drive the line (R74). -/
theorem Eeprom.onStart_seen (ans : Answer) {e : Eeprom} (h : e.out ≠ .driving) : e.onStart ans = e.begin := if_neg h

/-- The first byte names the device and it is not busy: it is selected as bit 0 says (R74). -/
theorem Eeprom.onByte_selects {c : Params} {b : Byte} {e : Eeprom} (ans : Answer) (hf : e.first = true)
    (hid : slaveId b = c.devBase) (hb : e.busydev = false) :
    e.onByte c ans b = (true,
      if directionBit b then { e with first := false, sel := .read, out := .fresh }
      else { e with first := false, sel := .write, naddr := 0, pagebuf := [], out := .released }) := by
  cases hd : directionBit b <;> simp [Eeprom.onByte, Eeprom.onAddress, hf, hid, hb, hd]

/-- The first byte names another device, or this one is busy (R74). -/
theorem Eeprom.onByte_refuses {c : Params} {b : Byte} {e : Eeprom} (ans : Answer) (hf : e.first = true)
    (h : slaveId b ≠ c.devBase ∨ e.busydev = true) : e.onByte c ans b = (false, { e with first := false, sel := .none }) := by
  have hn : ¬(slaveId b = c.devBase ∧ e.busydev = false) := fun hc => h.elim (fun h => h hc.1) fun h => by simp [hc.2] at h
  simp [Eeprom.onByte, Eeprom.onAddress, hf, hn]

/-- Every later byte in write direction is acknowledged and taken (R75). -/
theorem Eeprom.onByte_takes {c : Params} {b : Byte} {e : Eeprom} (ans : Answer) (hf : e.first = false) (hs : e.sel = .write) :
    e.onByte c ans b = (true, e.takeByte c b) := by
  simp [Eeprom.onByte, hf, hs]

theorem Eeprom.takeByte_high {c : Params} {b : Byte} {e : Eeprom} (h : e.naddr = 0) :
    e.takeByte c b = { e with hi := b, naddr := 1 } := by
  simp [Eeprom.takeByte, h]

theorem Eeprom.takeByte_low {c : Params} {b : Byte} {e : Eeprom} (h : e.naddr = 1) :
    e.takeByte c b = { e with ptr := e.hi ++ b, naddr := 2 } := by
  simp [Eeprom.takeByte, h]

theorem Eeprom.takeByte_data {c : Params} {b : Byte} {e : Eeprom} (h : e.naddr = 2) :
    e.takeByte c b =
      { e with pagebuf := e.pagebuf ++ [(e.ptr.toNat, b)], ptr := advanceInPage c.pageSize e.ptr } := by
  simp [Eeprom.takeByte, h]

/-- The pointer after a byte that MEM has (R77). -/
theorem nextReadPtr_of_le {c : Params} {p : MemAddr} (d : MemAddr) (h : p.toNat ≤ c.maxAddress) :
    nextReadPtr c d p = if p.toNat = c.maxAddress then 0 else p + 1 := by
  simp [nextReadPtr, Nat.not_lt.2 h]

/-- Settles O30: by the symbol and the place in the transaction. -/
theorem eepromAnswers : Obligations.EepromAnswers := by
  intro c ans b e
  refine ⟨fun ho => ?_, fun hf hid hb hd => ?_, fun hf hid hb hd => ?_, fun hf h => ?_, fun hf hs hn => ?_, fun hf hs hn => ?_,
    fun hf hs hn => ?_, fun hs ho hp k => ?_⟩
  · rw [Eeprom.onStart_seen ans ho]
    exact ⟨rfl, rfl, rfl, rfl⟩
  · have hd : directionBit b = false := hd
    rw [Eeprom.onByte_selects ans hf hid hb, hd]
    exact ⟨rfl, rfl, rfl, rfl⟩
  · have hd : directionBit b = true := hd
    rw [Eeprom.onByte_selects ans hf hid hb, hd]
    exact ⟨rfl, rfl⟩
  · rw [Eeprom.onByte_refuses ans hf h]
  · rw [Eeprom.onByte_takes ans hf hs, Eeprom.takeByte_high hn]
  · rw [Eeprom.onByte_takes ans hf hs, Eeprom.takeByte_low hn]
  · rw [Eeprom.onByte_takes ans hf hs, Eeprom.takeByte_data hn]
    exact ⟨rfl, rfl, rfl, rfl⟩
  · rw [Eeprom.onRead_selected c ans k hs ho, if_pos hp, nextReadPtr_of_le _ hp]
    exact ⟨rfl, rfl, rfl⟩

/-! ### The write pointer -/

/-- Settles O31: the pointer stays below the next page's first address, and the last page ends where 16 bits do. -/
theorem pointerWrapsInPage : Obligations.PointerWrapsInPage := by
  intro k p hk
  have hpos : 0 < 2 ^ k := Nat.two_pow_pos k
  have hmod : (p.toNat + 1) % 2 ^ k < 2 ^ k := Nat.mod_lt _ hpos
  have hfit : p.toNat / 2 ^ k * 2 ^ k + (p.toNat + 1) % 2 ^ k < 2 ^ 16 := by
    obtain ⟨j, hj⟩ : 2 ^ k ∣ 2 ^ 16 := Nat.pow_dvd_pow 2 hk
    have hpage : p.toNat / 2 ^ k < j := Nat.div_lt_of_lt_mul (hj ▸ p.isLt)
    calc p.toNat / 2 ^ k * 2 ^ k + (p.toNat + 1) % 2 ^ k < (p.toNat / 2 ^ k + 1) * 2 ^ k := by
          rw [Nat.add_mul, Nat.one_mul]; omega
      _ ≤ j * 2 ^ k := Nat.mul_le_mul_right _ hpage
      _ = 2 ^ 16 := by rw [hj, Nat.mul_comm]
  have hval : (advanceInPage (2 ^ k) p).toNat = p.toNat / 2 ^ k * 2 ^ k + (p.toNat + 1) % 2 ^ k := by
    rw [advanceInPage, BitVec.toNat_ofNat, Nat.mod_eq_of_lt hfit]
  refine ⟨hval, ?_⟩
  rw [hval, Nat.add_comm, Nat.add_mul_div_right _ _ hpos, Nat.div_eq_of_lt hmod, Nat.zero_add]

/-! ### What a STOP stores -/

/-- A STOP that ends a write transaction of a device that does not drive the line (R76). -/
theorem Eeprom.onStop_write {c : Params} {e : Eeprom} (n : Nat) (ans : Answer) (hs : e.sel = .write) (ho : e.out ≠ .driving) :
    e.onStop c n ans = (e.commit c n).deselect := by
  simp [Eeprom.onStop, hs, ho]

theorem Eeprom.commit_nil {c : Params} {e : Eeprom} (n : Nat) (h : e.pagebuf = []) : e.commit c n = e := by
  simp [Eeprom.commit, h]

/-- Data that stayed in its page is stored, and the device is busy (R76). -/
theorem Eeprom.commit_pairs {c : Params} {e : Eeprom} (n : Nat) (hne : e.pagebuf ≠ []) (hc : crossesPage c e.pagebuf = false) :
    e.commit c n = { e.storePairs c e.pagebuf with busydev := true } := by
  obtain ⟨p, ps, hp⟩ := List.exists_cons_of_ne_nil hne
  rw [hp] at hc
  simp [Eeprom.commit, hp, hc]

/-- What is read after pairs were stored: the last pair for the address, or what was there (R76). -/
theorem memRead_storePairs (c : Params) {x : Nat} (hx : x ≤ c.maxAddress) (ps : List (Nat × Byte)) : ∀ e : Eeprom,
    (e.storePairs c ps).memRead x =
      match ps.reverse.find? (fun p => p.1 == x) with
      | some p => p.2
      | none => e.memRead x := by
  induction ps with
  | nil => intro e; rfl
  | cons p ps ih =>
    intro e
    have hcons : e.storePairs c (p :: ps) = (e.memWrite c p.1 p.2).storePairs c ps := rfl
    rw [hcons, ih, List.reverse_cons, List.find?_append]
    cases ps.reverse.find? (fun p => p.1 == x) with
    | some q => rfl
    | none =>
      rw [memRead_memWrite]
      by_cases hp : p.1 = x
      · simp [hp, hx]
      · simp [hp, Ne.symm hp]

/-- Settles O32: a STOP commits the page buffer and deselects the device. -/
theorem eepromCommits : Obligations.EepromCommits := by
  intro c n ans e hs ho
  rw [Eeprom.onStop_write n ans hs ho]
  refine ⟨fun hnil => ?_, fun hne hc => ?_, rfl⟩
  · rw [Eeprom.commit_nil n hnil]
    exact ⟨fun _ => rfl, rfl⟩
  · rw [Eeprom.commit_pairs n hne hc]
    exact ⟨rfl, fun x hx => memRead_storePairs c hx e.pagebuf e⟩

end Sys2Proof.Machine
end

section
/-!
PROOFS. The round trips of the reference EEPROM (R88): in an environment in which every wait ends, a write ends in Success, or in Timeout
after READY_RETRIES refused probes, and a read that follows a successful write gives the bytes written.
-/

namespace Sys2Proof.Machine

/-- The block accepts a command of L2 in the environment `v`, and the reference EEPROM, its busy state as `P` says, holds the content
`m` and does not drive the data line. -/
structure Env.Ready (v : Env) (P : Bool → Prop) (m : Memory) (s : State) : Prop where
  accepts : s.ReadyForPaged
  holds : ∀ i, v.holds (accept i s)
  bus : s.bus = .reference
  free : SlaveFree P m s.ee

/-- The byte of the content `m` at an address: the one listed, or the free value (R73, R80). -/
abbrev Memory.byteAt (m : Memory) (x : Nat) : Byte := (Memory.read m x).getD (Config.eepromInit x)

section

variable {v : Env} {P P' Q Q' : Bool → Prop} {m : Memory} {s : State}

theorem Env.Ready.begun (h : v.Ready P m s) (i : Instr) : At v (accept i s) .idle [] (SlaveFree P m) (accept i s) :=
  At.init h.accepts (h.holds i) fun _ => h.free

/-- The reference EEPROM that is not busy is not heard to refuse. -/
theorem Env.Ready.not_refused (h : v.Ready P m s) : ¬v.Hears Off s.bus false := fun hH => by
  simpa using hH.reference h.bus

theorem Env.Ready.bus_ne (h : v.Ready P m s) : s.bus ≠ .unknown := by simp [h.bus]

theorem Env.Ready.alike (h : v.Ready P m s) : v.Alike s.bus := fun hb => absurd hb h.bus_ne

/-- A command of L2 whose body left the bus free: the block is ready again. -/
theorem Env.Ready.ends (h : v.Ready P m s) {i : Instr} (hi : isPaged i = true) (hl : lenTooLong i s = false)
    {e : TransferOutcome} {u s1 : State} {w : List Symbol} {m' : Memory} (hb : bodyOf i (accept i s) = .done e u)
    (hS : v.Settles Q P') (hu : At v s1 .idle w (SlaveFree P' m') u) (hrest : u.eng.AtRest) (hp : u.phase = .idle)
    (hs1 : (s1.busy, s1.inited, s1.bus) = (true, s.inited, s.bus)) :
    ∃ g, exec i s = .next (finish e g) ∧ At v s1 .idle w (SlaveFree P' m') g ∧ v.Ready P' m' (finish e g) := by
  obtain ⟨g, hx, hg, hc⟩ := exec_paged h.accepts hi hl hb hu (SlaveFree.rests hS)
  have hfreed := freed_of e hc hrest hp
  simp only [Prod.mk.injEq] at hs1
  obtain ⟨hbusy, hinited, hbus⟩ := hs1
  have hk := hg.kept
  simp only [State.sequenceKept, Prod.mk.injEq] at hk
  obtain ⟨hbusy', hinited', -⟩ := hk
  have hready : s.inited = true := h.accepts.2.1
  have hbus' : g.bus = .reference := hg.bus_eq.trans (hbus.trans h.bus)
  refine ⟨g, hx, hg, ⟨?_, fun j => ?_, hbus', hg.ee hbus'⟩⟩
  · exact ready_of_rest rfl (hinited'.trans (hinited.trans hready)) hfreed.rest hfreed.phase
  · exact v.holds_congr _ _ hg.holds rfl (hbusy'.trans hbusy).symm rfl

/-! ### Reads -/

/-- MRD1 gives the byte at its address (R81, R193). -/
theorem Env.Ready.mrd1 (h : v.Ready P m s) (hS : v.Settles P Off) {a : MemAddr} (ha : a.toNat ≤ s.cfg.maxAddress) :
    ∃ t, exec (.mrd1 a) s = .next t ∧ t.outcome = .success ∧ t.result = m.byteAt a.toNat := by
  obtain ⟨u, e, hu, hrest, hp, -⟩ | ⟨u, -, hN⟩ := At.readByte (s0 := accept (.mrd1 a) s) hS h.alike a (m.byteAt a.toNat) ha
    (fun hb => absurd hb h.bus_ne) (fun _ => rfl) (h.begun _)
  · obtain ⟨g, hx, hg, -⟩ := h.ends (i := .mrd1 a) rfl rfl e v.settles_off hu hrest hp rfl
    obtain ⟨hresult, -⟩ := hg.facts
    exact ⟨_, hx, rfl, hresult⟩
  · exact absurd hN.hears h.not_refused

/-- MRDN gives the bytes from its address on (R81, R195). -/
theorem Env.Ready.mrdn (h : v.Ready P m s) (hS : v.Settles P Off) (hmax : s.cfg.maxAddress ≤ 0xFFFF) {a : MemAddr}
    (h1 : 1 ≤ s.len.toNat) (hb : s.len.toNat ≤ s.cfg.bufSize) (ha : a.toNat + s.len.toNat - 1 ≤ s.cfg.maxAddress) :
    ∃ t, exec (.mrdn a) s = .next t ∧ t.outcome = .success ∧
      ∀ i, i < s.len.toNat → t.rbufRead i = m.byteAt (a.toNat + i) := by
  obtain ⟨u, s1, e, hu, hs1, hread, hrest, hp, -⟩ | ⟨u, -, hN⟩ := At.readBytes (s0 := accept (.mrdn a) s) hS h.alike hmax a
    (fun i => m.byteAt (a.toNat + i)) h1 ha (fun hb => absurd hb h.bus_ne) (fun _ _ _ => rfl) (h.begun _)
  · obtain ⟨g, hx, hg, -⟩ := h.ends (i := .mrdn a) rfl (by simpa [lenTooLong] using hb) e v.settles_off hu hrest hp
      (by rw [hs1]; rfl)
    obtain ⟨-, -, hrbuf, -⟩ := hg.facts
    exact ⟨_, hx, rfl, fun i hi => by simp [State.rbufRead, hrbuf, hread, hi]⟩
  · exact absurd hN.hears h.not_refused

/-! ### Writes -/

/-- READY_RETRIES refused probes end the trace. -/
abbrev State.EndsRefused (s t : State) : Prop := refusedProbes s.cfg s.cfg.readyRetries <:+ t.eng.trace

/-- How a write begun in `s` ends in `t`, when the content it has to leave is as `M` says: in Success, the block ready for the next
command, or in Timeout, every probe of a ready wait having been refused (R194, R196, R197). -/
structure Env.WriteEnds (v : Env) (Q' : Bool → Prop) (M : Memory → Prop) (s t : State) : Prop where
  cpl : t.cpl = true
  cfg : t.cfg = s.cfg
  len : t.len = s.len
  ends : (t.outcome = .success ∧ ¬s.EndsRefused t ∧ ∃ m, M m ∧ v.Ready Off m t) ∨
    (t.outcome = .timeout ∧ s.EndsRefused t ∧ v.Hears Q' s.bus false)

theorem chunks_ne_nil {p a n : Nat} (hn : 1 ≤ n) : Machine.chunks p a n ≠ [] := by
  obtain ⟨k, rfl⟩ : ∃ k, n = k + 1 := ⟨n - 1, by omega⟩
  simp [Machine.chunks, chunksFrom]

/-- MWR1 stores its byte, or its ready wait does not end (R82, R194). -/
theorem Env.Ready.mwr1 (h : v.Ready P m s) (hS : v.Settles P Off) (hQ : ∀ b, v.lulls true b → Q b) (hSQ : v.Settles Q Q')
    (ht : v.Delays Q' s) (hleg : s.cfg.Legal) {a : MemAddr} (ha : a.toNat ≤ s.cfg.maxAddress) (x : Byte) :
    ∃ t, exec (.mwr1 a x) s = .next t ∧ v.WriteEnds Q' (fun m' => m'.byteAt a.toNat = x) s t := by
  have hretries : 1 ≤ s.cfg.readyRetries := hleg.2.2.2.1
  obtain ⟨j, u, -, e, hu, hrest, hp, -⟩ | ⟨u, e, hu, hrest, hp, -, -, hH⟩ | ⟨u, -, hN⟩ :=
    At.writeByte (s0 := accept (.mwr1 a x) s) hS h.alike hQ hSQ (fun _ => ht) hleg a x ha (h.begun _)
  · obtain ⟨g, hx, hg, hready⟩ := h.ends (i := .mwr1 a x) rfl rfl e v.settles_off hu hrest hp rfl
    obtain ⟨-, -, -, -, -, -, -, hlen, -⟩ := hg.facts
    refine ⟨_, hx, rfl, hg.cfg_eq, hlen, .inl ⟨rfl, ?_, _, ?_, hready⟩⟩
    · rw [State.EndsRefused, finish_eng, hg.eng.trace, ← List.append_assoc]
      exact probe_suffix _ hretries _
    · simp [Memory.byteAt, Memory.read_write_same]
  · obtain ⟨g, hx, hg, -⟩ := h.ends (i := .mwr1 a x) rfl rfl e hSQ hu hrest hp rfl
    obtain ⟨-, -, -, -, -, -, -, hlen, -⟩ := hg.facts
    refine ⟨_, hx, rfl, hg.cfg_eq, hlen, .inr ⟨rfl, ?_, hH⟩⟩
    rw [State.EndsRefused, finish_eng, hg.eng.trace, ← List.append_assoc]
    exact List.suffix_append _ _
  · exact absurd hN.hears h.not_refused

/-- MWRN stores the bytes of WBUF from its address on, or a ready wait of its does not end (R82, R196). -/
theorem Env.Ready.mwrn (h : v.Ready P m s) (hS : v.Settles P Off) (hQ : ∀ b, v.lulls true b → Q b) (hSQ : v.Settles Q Q')
    (ht : v.Delays Q' s) (hleg : s.cfg.Legal) {a : MemAddr} (h1 : 1 ≤ s.len.toNat) (hb : s.len.toNat ≤ s.cfg.bufSize)
    (ha : a.toNat + s.len.toNat - 1 ≤ s.cfg.maxAddress) :
    ∃ t, exec (.mwrn a) s = .next t ∧
      v.WriteEnds Q' (fun m' => ∀ i, i < s.len.toNat → m'.byteAt (a.toNat + i) = s.wbufRead i) s t := by
  have hretries : 1 ≤ s.cfg.readyRetries := hleg.2.2.2.1
  have hl : lenTooLong (.mwrn a) s = false := by simpa [lenTooLong] using hb
  obtain ⟨u, m', js, r, e, hjs, -, hu, hm, hrest, hp, -⟩ | ⟨u, w, m', s1, e, hu, hs1, hrest, hp, hH, hsuffix⟩ :=
    At.writeBytes (s0 := accept (.mwrn a) s) hS hQ hSQ ht hleg a h1 ha (fun _ => by simp) (fun hb => absurd hb h.bus_ne)
      (h.begun _)
  · obtain ⟨g, hx, hg, hready⟩ := h.ends (i := .mwrn a) rfl hl e v.settles_off hu hrest hp rfl
    obtain ⟨-, -, -, -, -, -, -, hlen, -⟩ := hg.facts
    refine ⟨_, hx, rfl, hg.cfg_eq, hlen, .inl ⟨rfl, ?_, m', fun i hi => ?_, hready⟩⟩
    · obtain ⟨w, hw⟩ := chunks_last (accept (.mwrn a) s) 0 a.toNat _ js hjs (chunks_ne_nil h1)
      rw [State.EndsRefused, finish_eng, hg.eng.trace, List.nil_append, hw, ← List.append_assoc]
      exact probe_suffix _ hretries _
    · simp [Memory.byteAt, hm, hi, State.wbufRead]
  · obtain ⟨g, hx, hg, -⟩ := h.ends (i := .mwrn a) rfl hl e hSQ hu hrest hp (by rw [hs1]; rfl)
    obtain ⟨-, -, -, -, -, -, -, hlen, -⟩ := hg.facts
    refine ⟨_, hx, rfl, hg.cfg_eq.trans (by rw [hs1]; rfl), hlen.trans (by rw [hs1]; rfl), .inr ⟨rfl, ?_, hH⟩⟩
    rw [State.EndsRefused, finish_eng, hg.eng.trace, List.nil_append]
    exact hsuffix.trans (List.suffix_append _ _)

/-! ### A write, then a read -/

/-- The command `wr` finishes, in Timeout when every probe of a ready wait was refused, else in Success, and then the command `rd` does
and leaves a state as `G` says. -/
def Env.RoundTrip (v : Env) (Q' : Bool → Prop) (wr rd : Instr) (G : State → Prop) (s : State) : Prop :=
  ∃ t, exec wr s = .next t ∧ t.cpl = true ∧
    ((t.outcome = .success ∧ ¬s.EndsRefused t ∧ ∃ u, exec rd t = .next u ∧ u.outcome = .success ∧ G u) ∨
      (t.outcome = .timeout ∧ s.EndsRefused t ∧ v.Hears Q' s.bus false))

theorem Env.Ready.roundTrip1 (h : v.Ready P m s) (hS : v.Settles P Off) (hQ : ∀ b, v.lulls true b → Q b)
    (hSQ : v.Settles Q Q') (ht : v.Delays Q' s) (hleg : s.cfg.Legal) {a : MemAddr} (ha : a.toNat ≤ s.cfg.maxAddress) (x : Byte) :
    v.RoundTrip Q' (.mwr1 a x) (.mrd1 a) (fun u => u.result = x) s := by
  obtain ⟨t, hx, hw⟩ := h.mwr1 hS hQ hSQ ht hleg ha x
  refine ⟨t, hx, hw.cpl, hw.ends.imp_left fun ⟨hok, hnot, m', hm, hready⟩ => ⟨hok, hnot, ?_⟩⟩
  obtain ⟨u, hx, hok, hresult⟩ := hready.mrd1 v.settles_off (a := a) (hw.cfg ▸ ha)
  exact ⟨u, hx, hok, hresult.trans hm⟩

theorem Env.Ready.roundTripN (h : v.Ready P m s) (hS : v.Settles P Off) (hQ : ∀ b, v.lulls true b → Q b)
    (hSQ : v.Settles Q Q') (ht : v.Delays Q' s) (hleg : s.cfg.Legal) {a : MemAddr} (h1 : 1 ≤ s.len.toNat)
    (hb : s.len.toNat ≤ s.cfg.bufSize) (ha : a.toNat + s.len.toNat - 1 ≤ s.cfg.maxAddress) :
    v.RoundTrip Q' (.mwrn a) (.mrdn a) (fun u => ∀ i, i < s.len.toNat → u.rbufRead i = s.wbufRead i) s := by
  obtain ⟨t, hx, hw⟩ := h.mwrn hS hQ hSQ ht hleg h1 hb ha
  refine ⟨t, hx, hw.cpl, hw.ends.imp_left fun ⟨hok, hnot, m', hm, hready⟩ => ⟨hok, hnot, ?_⟩⟩
  obtain ⟨u, hx, hok, hread⟩ := hready.mrdn v.settles_off (a := a) (hw.cfg ▸ hleg.2.1) (hw.len ▸ h1)
    (by rw [hw.len, hw.cfg]; exact hb) (by rw [hw.len, hw.cfg]; exact ha)
  rw [hw.len] at hread
  exact ⟨u, hx, hok, fun i hi => (hread i hi).trans (hm i hi)⟩

variable {wr rd : Instr} {G : State → Prop}

/-- Where no probe can be refused the write ends in Success. -/
theorem Env.RoundTrip.unrefused (h : v.RoundTrip Q' wr rd G s) (hn : ¬v.Hears Q' s.bus false) :
    ∃ t u, exec wr s = .next t ∧ t.outcome = .success ∧ exec rd t = .next u ∧ u.outcome = .success ∧ G u := by
  obtain ⟨t, hx, -, ⟨hok, -, u, hu⟩ | ⟨-, -, hH⟩⟩ := h
  · exact ⟨t, u, hx, hok, hu⟩
  · exact absurd hH hn

/-- The trace tells the two ends apart. -/
theorem Env.RoundTrip.by_trace (h : v.RoundTrip Q' wr rd G s) :
    ∃ t, exec wr s = .next t ∧ t.cpl = true ∧ (s.EndsRefused t → t.outcome = .timeout) ∧
      (¬s.EndsRefused t → t.outcome = .success ∧ ∃ u, exec rd t = .next u ∧ u.outcome = .success ∧ G u) := by
  obtain ⟨t, hx, hcpl, ⟨hok, hnot, hu⟩ | ⟨hout, hend, -⟩⟩ := h
  · exact ⟨t, hx, hcpl, fun hend => absurd hend hnot, fun _ => ⟨hok, hu⟩⟩
  · exact ⟨t, hx, hcpl, fun _ => hout, fun hnot => absurd hend hnot⟩

end

/-- Settles O60: in a steady environment that ends busy periods no probe is refused; in a timely schedule any may be. -/
theorem roundTrips : Obligations.RoundTrips := by
  intro a s hready hleg hbus hout
  refine ⟨fun d hprompt hd => ?_, fun htimely hidle => ?_⟩
  · have h : (steadyEnv d).Ready (fun b => b = false ∨ d.ready = true) s.ee.mem s :=
      ⟨hready, fun i => prompt_holds i hprompt, hbus, hout, .inr hd, rfl⟩
    have hS := steady_settles_acks d
    have hdelays : (steadyEnv d).Delays Off s := fun hH => absurd hH h.not_refused
    exact ⟨fun x ha => (h.roundTrip1 hS (fun _ _ => .inr hd) hS hdelays hleg ha x).unrefused h.not_refused,
      fun h1 hb ha => (h.roundTripN hS (fun _ _ => .inr hd) hS hdelays hleg h1 hb ha).unrefused h.not_refused⟩
  · have h : timelyEnv.Ready Off s.ee.mem s := ⟨hready, fun _ => ⟨rfl, htimely⟩, hbus, hout, hidle, rfl⟩
    have hdelays : timelyEnv.Delays Any s := fun _ => .inl trivial
    have hS := timelyEnv.settles_off
    have hSQ := timelyEnv.settles_any
    exact ⟨fun x ha => (h.roundTrip1 hS (fun _ _ => trivial) hSQ hdelays hleg ha x).by_trace,
      fun h1 hb ha => (h.roundTripN hS (fun _ _ => trivial) hSQ hdelays hleg h1 hb ha).by_trace⟩

end Sys2Proof.Machine
end

section
/-!
PROOFS. The bytes of EEPROM memory a command leaves as they were (R69, R70, R73, R76), in any schedule. MEM changes at a STOP that ends a
write transaction only, so that each command has a property of the engine and the device together that its steps keep, and under which
no STOP stores a byte outside the command's own addresses.
-/

namespace Sys2Proof.Machine

/-! ### The engine and the device at a step -/

/-- A step of the engine `e` and the reference EEPROM `d` on its bus, whatever the environment draws (R141). -/
inductive BusStep (c : Params) (e : Engine) (d : Eeprom) : Engine → Eeprom → Prop where
  | start (a : Answer) (h : e.act = .start) : BusStep c e d e.afterStart (d.onStart a)
  | rstart (a : Answer) (h : e.act = .rstart) : BusStep c e d e.afterRstart (d.onStart a)
  | txAddr (a : Answer) (h : e.act = .txAddr) : BusStep c e d (e.afterTxAddr (d.onByte c a e.dr).1) (d.onByte c a e.dr).2
  | txData (a : Answer) (h : e.act = .txData) : BusStep c e d (e.afterTxData (d.onByte c a e.dr).1) (d.onByte c a e.dr).2
  | rxData (a : Answer) (v : Byte) (h : e.act = .rxData) : BusStep c e d (e.afterRx v) (d.onRead c a e.acken).2
  | stop (a : Answer) (n : Nat) (h : e.act = .none) (hs : e.stopp = true) : BusStep c e d e.afterStop (d.onStop c n a)
  | none (h : e.act = .none) (hs : e.stopp = false) : BusStep c e d e d

/-- An engine step of the block connected to the reference EEPROM. -/
theorem engineStep_busStep (a : Answer) {s : State} (hb : s.bus = .reference) :
    BusStep s.cfg s.eng s.ee (engineStep a s).eng (engineStep a s).ee := by
  unfold engineStep
  cases hact : s.eng.act with
  | start => simpa [State.slaveStart, hb] using BusStep.start a hact
  | rstart => simpa [State.slaveStart, hb] using BusStep.rstart a hact
  | txAddr => simpa [slaveByte_reference a s.eng.dr hb] using BusStep.txAddr a hact
  | txData => simpa [slaveByte_reference a s.eng.dr hb] using BusStep.txData a hact
  | rxData => simpa [slaveRead_reference a s.eng.acken hb] using BusStep.rxData a _ hact
  | none =>
    cases hs : s.eng.stopp with
    | true => simpa [State.slaveStop, hb] using BusStep.stop a s.draws hact hs
    | false => simpa using BusStep.none hact hs

section

variable {c : Params} {e e' : Engine} {d d' : Eeprom}

theorem afterTxAddr_act (k : Bool) (e : Engine) : (e.afterTxAddr k).act = .none := by
  unfold Engine.afterTxAddr; split <;> rfl

theorem afterTxData_act (k : Bool) (e : Engine) : (e.afterTxData k).act = .none := by
  unfold Engine.afterTxData; split <;> rfl

theorem afterTxAddr_stopp (k : Bool) (e : Engine) : (e.afterTxAddr k).stopp = e.stopp := by
  unfold Engine.afterTxAddr; split <;> rfl

theorem afterTxData_stopp (k : Bool) (e : Engine) : (e.afterTxData k).stopp = e.stopp := by
  unfold Engine.afterTxData; split <;> rfl

/-- A step leaves no activity. -/
theorem BusStep.act (h : BusStep c e d e' d') : e'.act = .none := by
  cases h with
  | start | rstart | rxData => rfl
  | txAddr => exact afterTxAddr_act _ e
  | txData => exact afterTxData_act _ e
  | stop _ _ h | none h => exact h

/-- No step asks for a STOP (R143). -/
theorem BusStep.stopp (h : BusStep c e d e' d') (hs : e.stopp = false) : e'.stopp = false := by
  cases h with
  | start | rstart | rxData | none => exact hs
  | txAddr => exact (afterTxAddr_stopp _ e).trans hs
  | txData => exact (afterTxData_stopp _ e).trans hs
  | stop => rfl

/-- With an activity pending, or no STOP, nothing is stored (R76). -/
theorem BusStep.mem (h : BusStep c e d e' d') (hs : e.act ≠ .none ∨ e.stopp = false) : d'.mem = d.mem := by
  cases h with
  | start | rstart | txAddr | txData | rxData => simp
  | stop _ _ hact hstop => simp [hact, hstop] at hs
  | none => rfl

theorem BusStep.of_start (h : BusStep c e d e' d') (ha : e.act = .start) : ∃ a, e' = e.afterStart ∧ d' = d.onStart a := by
  cases h with
  | start a => exact ⟨a, rfl, rfl⟩
  | rstart _ h | txAddr _ h | txData _ h | rxData _ _ h | stop _ _ h | none h => simp [ha] at h

theorem BusStep.of_rstart (h : BusStep c e d e' d') (ha : e.act = .rstart) :
    ∃ a, e' = e.afterRstart ∧ d' = d.onStart a := by
  cases h with
  | rstart a => exact ⟨a, rfl, rfl⟩
  | start _ h | txAddr _ h | txData _ h | rxData _ _ h | stop _ _ h | none h => simp [ha] at h

theorem BusStep.of_txAddr (h : BusStep c e d e' d') (ha : e.act = .txAddr) :
    ∃ a, e' = e.afterTxAddr (d.onByte c a e.dr).1 ∧ d' = (d.onByte c a e.dr).2 := by
  cases h with
  | txAddr a => exact ⟨a, rfl, rfl⟩
  | start _ h | rstart _ h | txData _ h | rxData _ _ h | stop _ _ h | none h => simp [ha] at h

theorem BusStep.of_txData (h : BusStep c e d e' d') (ha : e.act = .txData) :
    ∃ a, e' = e.afterTxData (d.onByte c a e.dr).1 ∧ d' = (d.onByte c a e.dr).2 := by
  cases h with
  | txData a => exact ⟨a, rfl, rfl⟩
  | start _ h | rstart _ h | txAddr _ h | rxData _ _ h | stop _ _ h | none h => simp [ha] at h

end

/-! ### What the unit's accesses do to STOPP and ACT -/

@[simp] theorem assertStart_stopp (e : Engine) : e.assertStart.stopp = e.stopp := by
  unfold Engine.assertStart; split <;> [rfl; split <;> rfl]

@[simp] theorem loadTx_stopp (b : Byte) (e : Engine) : (e.loadTx b).stopp = e.stopp := by
  unfold Engine.loadTx; split <;> [rfl; split <;> rfl]

@[simp] theorem setAckMode_stopp (k : Bool) (e : Engine) : (e.setAckMode k).stopp = e.stopp := by
  unfold Engine.setAckMode; split <;> rfl

@[simp] theorem readSr1_stopp (e : Engine) : e.readSr1.stopp = e.stopp := by unfold Engine.readSr1; split <;> rfl

@[simp] theorem readSr1_act (e : Engine) : e.readSr1.act = e.act := by unfold Engine.readSr1; split <;> rfl

@[simp] theorem readSr1_es (e : Engine) : e.readSr1.es = e.es := by unfold Engine.readSr1; split <;> rfl

@[simp] theorem readSr1_dr (e : Engine) : e.readSr1.dr = e.dr := by unfold Engine.readSr1; split <;> rfl

@[simp] theorem readSr1_dir (e : Engine) : e.readSr1.dir = e.dir := by unfold Engine.readSr1; split <;> rfl

@[simp] theorem readSr2_stopp (e : Engine) : e.readSr2.stopp = e.stopp := by
  unfold Engine.readSr2; split <;> [split <;> rfl; rfl]

@[simp] theorem readSr2_act (e : Engine) : e.readSr2.act = e.act := by
  unfold Engine.readSr2; split <;> [split <;> rfl; rfl]

/-! ### Properties of the engine and the device -/

section

variable {S : Nat → Prop} {s0 s : State} {E E' : Engine → Eeprom → Prop}

/-- While a command begun in `s0` executes and the block is not reset: every byte outside `S` reads as in `s0`, and `E` holds of the
engine and the device. -/
abbrev On (S : Nat → Prop) (s0 : State) (E : Engine → Eeprom → Prop) (u : State) : Prop :=
  (u.busy = true ∧ u.epoch = s0.epoch ∧ u.cfg = s0.cfg ∧ u.bus = .reference) ∧ u.eng.Inv ∧
    (∀ x, ¬S x → u.ee.memRead x = s0.ee.memRead x) ∧ E u.eng u.ee

/-- Unless the block was reset since `s0`, every byte outside `S` reads as in `s0`. -/
abbrev Unchanged (S : Nat → Prop) (s0 u : State) : Prop :=
  u.epoch = s0.epoch → ∀ x, ¬S x → u.ee.memRead x = s0.ee.memRead x

theorem On.unchanged {u : State} (h : On S s0 E u) : Unchanged S s0 u := fun _ => h.2.2.1

theorem on_resets (S : Nat → Prop) (s0 : State) (E : Engine → Eeprom → Prop) : Resets (On S s0 E) (Unchanged S s0) := by
  rintro u ⟨⟨-, hepoch, -⟩, -⟩ he
  simp [hepoch] at he

/-- `E` is kept by every step, under it no step stores outside `S`, and it does not speak of the busy state or ADDR_SEEN. -/
structure KeptOnBus (c : Params) (S : Nat → Prop) (E : Engine → Eeprom → Prop) : Prop where
  step : ∀ {e d e' d'}, e.Inv → BusStep c e d e' d' → E e d → E e' d'
  mem : ∀ {e d e' d'}, BusStep c e d e' d' → E e d → ∀ x, ¬S x → d'.memRead x = d.memRead x
  ready : ∀ {e d}, E e d → E e (d.withBusy false)
  sampled : ∀ {e d}, E e d → E e.readSr1 d

theorem KeptOnBus.waits (h : KeptOnBus s0.cfg S E) : KeptByWaits (On S s0 E) where
  busy hs := hs.1.1
  engine {s} a hs := by
    obtain ⟨⟨hbusy, hepoch, hcfg, hbus⟩, hinv, hmem, hE⟩ := hs
    have hb := hcfg ▸ engineStep_busStep a hbus
    refine ⟨by simp [hbusy, hepoch, hcfg, hbus], engineStep_inv hinv a, fun x hx => ?_, h.step hinv hb hE⟩
    rw [h.mem hb hE x hx, hmem x hx]
  ready hs := ⟨hs.1, hs.2.1, hs.2.2.1, h.ready hs.2.2.2⟩
  sched _ hs := hs
  draws _ hs := hs
  refused hs := hs
  read _ hs := hs
  sampled hs := ⟨hs.1, hs.2.1.readSr1, hs.2.2.1, h.sampled hs.2.2.2⟩
  spin _ hs := hs

/-- Less said. -/
theorem On.weaken {u : State} (h : On S s0 E u) (hE : ∀ e d, E e d → E' e d) : On S s0 E' u :=
  ⟨h.1, h.2.1, h.2.2.1, hE _ _ h.2.2.2⟩

/-- The access `f` of the engine turns `E` into `E'`. -/
structure Calls (f : Engine → Engine) (E E' : Engine → Eeprom → Prop) : Prop where
  inv : ∀ {e : Engine}, e.Inv → (f e).Inv
  turns : ∀ {e : Engine} {d : Eeprom}, e.Inv → E e d → E' (f e) d

theorem Calls.on {f : Engine → Engine} (h : Calls f E E') {u : State} (hu : On S s0 E u) :
    On S s0 E' { u with eng := f u.eng } :=
  ⟨hu.1, h.inv hu.2.1, hu.2.2.1, h.turns hu.2.1 hu.2.2.2⟩

end

section

variable {S : Nat → Prop} {s0 s : State} {E E' A : Engine → Eeprom → Prop} {R : TransferOutcome → State → Prop}

/-! ### The L1 operations, by the access each makes -/

/-- A wait that ends in Success saw its flag (R161). -/
theorem WaitSays.seen {ok bad : Sample → Bool} {u : State} (h : WaitSays ok bad .success u) :
    ok u.eng.sample = true ∧ (u.eng.addr = true → u.eng.addrSeen = true) := by
  obtain ⟨-, h⟩ | ⟨h, -⟩ | h := h
  · exact h
  · cases h
  · cases h

/-- An operation that tells the engine something and waits: `E` holds before it, `E'` during the wait. -/
theorem On.operation (h : KeptOnBus s0.cfg S E) (h' : KeptOnBus s0.cfg S E') {f : Engine → Engine} (hf : Calls f E E')
    {ok bad : Sample → Bool} {p : SeqPoint} {g : TransferOutcome → State → State}
    (hg : ∀ r u, On S s0 E' u → WaitSays ok bad r u → R r (g r u)) (hs : On S s0 E s) :
    ((gap s).andThen fun _ t => (wait ok bad (seqAt p { t with eng := f t.eng })).andThen fun r u => .done r (g r u)).All R
      (Unchanged S s0) := by
  refine (h.waits.gap (on_resets S s0 E) hs).andThen fun _ t ht => ?_
  refine (h'.waits.wait (on_resets S s0 E') ok bad (s := seqAt p { t with eng := f t.eng }) (hf.on ht)).andThen
    fun r u hu => ?_
  exact hg r u hu.1 hu.2

theorem On.blStart (h : KeptOnBus s0.cfg S E) (h' : KeptOnBus s0.cfg S E') (hf : Calls Engine.assertStart E E')
    (hR : ∀ r u, On S s0 E' u → WaitSays (fun f => f.sb) never r u → R r (setPhase r .addressPhase u)) (hs : On S s0 E s) :
    (blStart s).All R (Unchanged S s0) :=
  On.operation h h' hf hR hs

theorem On.blWriteAddress (h : KeptOnBus s0.cfg S E) (h' : KeptOnBus s0.cfg S E') {a : Byte}
    (hf : Calls (Engine.loadTx a) E E')
    (hR : ∀ r u, On S s0 E' u → WaitSays (fun f => f.addr) (fun f => f.af) r u → R r (settleAddress r u)) (hs : On S s0 E s) :
    (blWriteAddress a s).All R (Unchanged S s0) :=
  On.operation h h' hf hR hs

theorem On.blWriteByte (h : KeptOnBus s0.cfg S E) (h' : KeptOnBus s0.cfg S E') {b : Byte}
    (hf : Calls (Engine.loadTx b) E E')
    (hR : ∀ r u, On S s0 E' u → WaitSays (fun f => f.txe) (fun f => f.af) r u → R r (failToError r u)) (hs : On S s0 E s) :
    (blWriteByte b s).All R (Unchanged S s0) :=
  On.operation h h' hf hR hs

theorem On.blReadByte (h : KeptOnBus s0.cfg S E) {k : Bool} (hf : Calls (Engine.setAckMode k) E E)
    (hr : Calls Engine.readDr E E) (hs : On S s0 E s) : (blReadByte k s).All (fun _ => On S s0 E) (Unchanged S s0) :=
  On.operation h h hf (g := takeResult) (R := fun _ => On S s0 E) (fun r u hu _ => by
    unfold takeResult
    split
    · exact hr.on hu
    · exact hu) hs

theorem On.settleAddress (hc : Calls Engine.readSr2 E E) {u : State} (hu : On S s0 E u) (r : TransferOutcome) :
    On S s0 E (settleAddress r u) := by
  unfold Machine.settleAddress
  split
  · exact hc.on hu
  · exact hu

/-! ### A stop and its wait -/

/-- A STOP has been asked for and is pending, or the engine is idle. -/
abbrev Closing (e : Engine) : Prop := e.stopp = true ∨ (e.es = .idle ∧ e.act = .none)

theorem closing_assertStop (e : Engine) : Closing e.assertStop := by
  unfold Engine.assertStop
  split
  · rename_i h; exact .inr h
  · split
    · rename_i h; exact .inr ⟨h.1, rfl⟩
    · exact .inl rfl

theorem Closing.step {c : Params} {e e' : Engine} {d d' : Eeprom} (h : Closing e) (hb : BusStep c e d e' d') :
    Closing e' := by
  cases hb with
  | start _ ha | rstart _ ha | rxData _ _ ha => exact .inl (h.resolve_right fun h => by simp [ha] at h)
  | txAddr _ ha => exact .inl ((afterTxAddr_stopp _ e).trans (h.resolve_right fun h => by simp [ha] at h))
  | txData _ ha => exact .inl ((afterTxData_stopp _ e).trans (h.resolve_right fun h => by simp [ha] at h))
  | stop _ _ ha => exact .inr ⟨rfl, ha⟩
  | none => exact h

/-- `E` is kept on the bus, and when the unit asks for a STOP. -/
structure Closable (c : Params) (S : Nat → Prop) (E : Engine → Eeprom → Prop) : Prop extends KeptOnBus c S E where
  assertStop : Calls Engine.assertStop E E

theorem Closable.closing (h : Closable s0.cfg S E) : KeptOnBus s0.cfg S (fun e d => E e d ∧ Closing e) where
  step hi hb hE := ⟨h.step hi hb hE.1, hE.2.step hb⟩
  mem hb hE := h.mem hb hE.1
  ready hE := ⟨h.ready hE.1, hE.2⟩
  sampled hE := ⟨h.sampled hE.1, by simpa [Closing] using hE.2⟩

/-- What a sequence of L1 operations leaves: a STOP pending, not after Success, or the engine idle. -/
abbrev Over (S : Nat → Prop) (s0 : State) (E : Engine → Eeprom → Prop) (r : TransferOutcome) (u : State) : Prop :=
  On S s0 (fun e d => E e d ∧ Closing e) u ∧ (r = .success → u.eng.stopp = false)

theorem Closable.blStop (h : Closable s0.cfg S E) (hs : On S s0 E s) :
    (blStop s).All (fun _ => On S s0 (fun e d => E e d ∧ Closing e)) (Unchanged S s0) := by
  have hcall : Calls Engine.assertStop E (fun e d => E e d ∧ Closing e) :=
    ⟨h.assertStop.inv, fun hi hE => ⟨h.assertStop.turns hi hE, closing_assertStop _⟩⟩
  refine (h.waits.gap (on_resets S s0 E) hs).andThen fun _ t ht => ?_
  exact hcall.on ht

theorem Closable.stopWait (h : Closable s0.cfg S E) (hs : On S s0 E s) :
    (stopWait s).All (Over S s0 E) (Unchanged S s0) := by
  refine (h.blStop hs).andThen fun _ t ht => ?_
  refine (h.closing.waits.wait (on_resets S s0 _) (fun f => !f.stopp) never (s := seqAt .waitStop t) ht).mono
    (fun r u hu => ⟨hu.1, ?_⟩) fun _ hu => hu
  rintro rfl
  simpa [Engine.sample] using hu.2.seen.1

/-- After an operation of a sequence: `A` holds on Success, `E` otherwise. -/
abbrev Stage (S : Nat → Prop) (s0 : State) (E A : Engine → Eeprom → Prop) (r : TransferOutcome) (u : State) : Prop :=
  (r = .success → On S s0 A u) ∧ (r ≠ .success → On S s0 E u)

/-- An operation of a sequence, its abort path, and what follows it. -/
theorem Closable.orAbort (h : Closable s0.cfg S E) {r : Ran TransferOutcome} {k : State → Ran TransferOutcome}
    (hr : r.All (Stage S s0 E A) (Unchanged S s0)) (hover : ∀ r u, Over S s0 E r u → R r u)
    (hk : ∀ t, On S s0 A t → (k t).All R (Unchanged S s0)) : (r.orFail abort k).All R (Unchanged S s0) :=
  hr.orFail
    (fun e t ht hne => (h.stopWait (s := { t with err := e }) (ht.2 hne)).andThen fun _ u hu =>
      hover e u ⟨hu.1, fun he => absurd he hne⟩)
    fun t ht => hk t (ht.1 rfl)

/-! ### Places in a sequence -/

/-- The engine waits in `q` with nothing pending, the device being as `D` says. -/
abbrev Rests (q : EngineState) (D : Eeprom → Prop) (e : Engine) (d : Eeprom) : Prop :=
  e.es = q ∧ e.act = .none ∧ e.stopp = false ∧ D d

/-- Nothing happens there but the end of a busy period. -/
theorem rests_kept (q : EngineState) {D : Eeprom → Prop} (hD : ∀ d, D d → D (d.withBusy false)) :
    KeptOnBus s0.cfg S (Rests q D) where
  step _ hb hE := by
    obtain ⟨hes, hact, hstop, hd⟩ := hE
    cases hb with
    | start _ h | rstart _ h | txAddr _ h | txData _ h | rxData _ _ h => simp [hact] at h
    | stop _ _ _ h => simp [hstop] at h
    | none => exact ⟨hes, hact, hstop, hd⟩
  mem hb hE x _ := memRead_congr (hb.mem (.inr hE.2.2.1)) x
  ready hE := ⟨hE.1, hE.2.1, hE.2.2.1, hD _ hE.2.2.2⟩
  sampled hE := by simpa [Rests] using hE

/-- The engine has been told the activity `x`, `A` holding before its symbol and `K` after it. -/
abbrev Pending (x : Activity) (A K : Engine → Eeprom → Prop) (e : Engine) (d : Eeprom) : Prop :=
  e.stopp = false ∧ ((e.act = x ∧ A e d) ∨ (e.act = .none ∧ K e d))

/-- `E` does not speak of the busy state or ADDR_SEEN. -/
structure Insensitive (E : Engine → Eeprom → Prop) : Prop where
  ready : ∀ {e d}, E e d → E e (d.withBusy false)
  sampled : ∀ {e d}, E e d → E e.readSr1 d

theorem pending_kept {x : Activity} {A K : Engine → Eeprom → Prop} (hA : Insensitive A) (hK : Insensitive K)
    (hstep : ∀ {e d e' d'}, e.Inv → e.act = x → A e d → BusStep s0.cfg e d e' d' → K e' d') :
    KeptOnBus s0.cfg S (Pending x A K) where
  step hi hb hE := by
    obtain ⟨hstop, ⟨hact, hA⟩ | ⟨hact, hK⟩⟩ := hE
    · exact ⟨hb.stopp hstop, .inr ⟨hb.act, hstep hi hact hA hb⟩⟩
    · cases hb with
      | start _ h | rstart _ h | txAddr _ h | txData _ h | rxData _ _ h => simp [hact] at h
      | stop _ _ _ h => simp [hstop] at h
      | none => exact ⟨hstop, .inr ⟨hact, hK⟩⟩
  mem hb hE x _ := memRead_congr (hb.mem (.inr hE.1)) x
  ready hE := ⟨hE.1, hE.2.imp (fun h => ⟨h.1, hA.ready h.2⟩) fun h => ⟨h.1, hK.ready h.2⟩⟩
  sampled hE := ⟨by simpa using hE.1,
    hE.2.imp (fun h => ⟨by simpa using h.1, hA.sampled h.2⟩) fun h => ⟨by simpa using h.1, hK.sampled h.2⟩⟩

/-! ### Without a STOP -/

/-- No STOP is pending: START, WRADDR, WRBYTE and RDBYTE are accepted so, and ask for none. -/
abbrev NoStop (e : Engine) (_ : Eeprom) : Prop := e.stopp = false

theorem noStop_kept : KeptOnBus s0.cfg S NoStop where
  step _ hb hE := hb.stopp hE
  mem hb hE x _ := memRead_congr (hb.mem (.inr hE)) x
  ready hE := hE
  sampled hE := by simpa [NoStop] using hE

end

section

variable {S : Nat → Prop} {s0 : State} {c : Params}

/-! ### An empty page buffer -/

/-- The page buffer is empty, and no byte that is pending can get into it: STOP, and a read once it has turned round. -/
abbrev BufferEmpty (e : Engine) (d : Eeprom) : Prop :=
  d.pagebuf = [] ∧ e.act ≠ .txData ∧ (e.act = .txAddr → d.first = true)

theorem onStart_pagebuf (a : Answer) {d : Eeprom} (h : d.pagebuf = []) : (d.onStart a).pagebuf = [] := by
  unfold Eeprom.onStart
  split
  · exact h
  · rfl

theorem onByte_first_pagebuf (c : Params) (a : Answer) (b : Byte) {d : Eeprom} (hf : d.first = true) (h : d.pagebuf = []) :
    (d.onByte c a b).2.pagebuf = [] := by
  simp only [Eeprom.onByte, hf, if_true, Eeprom.onAddress]
  split
  · split
    · exact h
    · rfl
  · exact h

theorem onRead_pagebuf (c : Params) (a : Answer) (k : Bool) (d : Eeprom) : (d.onRead c a k).2.pagebuf = d.pagebuf := by
  unfold Eeprom.onRead
  split
  · split <;> rfl
  · rfl

theorem onStop_empty (c : Params) (n : Nat) (a : Answer) {d : Eeprom} (h : d.pagebuf = []) :
    (d.onStop c n a).pagebuf = [] ∧ (d.onStop c n a).mem = d.mem := by
  unfold Eeprom.onStop
  rw [Eeprom.commit_nil n h]
  split
  · exact ⟨h, rfl⟩
  · split
    · exact ⟨rfl, rfl⟩
    · exact ⟨rfl, rfl⟩

theorem empty_kept : Closable s0.cfg S BufferEmpty where
  step hi hb hE := by
    obtain ⟨hp, htx, hfirst⟩ := hE
    refine ⟨?_, by simp [hb.act], by simp [hb.act]⟩
    cases hb with
    | start a | rstart a => exact onStart_pagebuf a hp
    | txAddr a h => exact onByte_first_pagebuf _ a _ (hfirst h) hp
    | txData _ h => exact absurd h htx
    | rxData a => exact (onRead_pagebuf _ a _ _).trans hp
    | stop a n => exact (onStop_empty _ n a hp).1
    | none => exact hp
  mem {e d e' d'} hb hE x _ := by
    cases hb with
    | stop a n => exact memRead_congr (onStop_empty _ n a hE.1).2 x
    | start | rstart | txAddr | txData | rxData | none => exact memRead_congr (by simp) x
  ready hE := hE
  sampled hE := by simpa [BufferEmpty] using hE
  assertStop := ⟨Engine.Inv.assertStop, fun _ hE => by
    unfold Engine.assertStop
    split
    · exact hE
    · split
      · exact ⟨hE.1, by simp, by simp⟩
      · exact hE⟩

theorem empty_setAckMode (k : Bool) : Calls (Engine.setAckMode k) BufferEmpty BufferEmpty :=
  ⟨fun hi => hi.setAckMode k, fun _ hE => by
    unfold Engine.setAckMode
    split
    · exact ⟨hE.1, by simp, by simp⟩
    · exact hE⟩

theorem empty_readDr : Calls Engine.readDr BufferEmpty BufferEmpty := ⟨Engine.Inv.readDr, fun _ hE => hE⟩

theorem empty_readSr2 : Calls Engine.readSr2 BufferEmpty BufferEmpty := ⟨Engine.Inv.readSr2, fun _ hE => by simpa [BufferEmpty] using hE⟩

/-! ### What a STOP stores -/

/-- A write of the pairs `ps` stores them all, and none outside `S`: it does not cross a page boundary (R76, R79). -/
abbrev Within (c : Params) (S : Nat → Prop) (ps : List (Nat × Byte)) : Prop :=
  (∀ p ∈ ps, S p.1) ∧ crossesPage c ps = false

theorem within_nil (c : Params) (S : Nat → Prop) : Within c S [] := ⟨by simp, rfl⟩

theorem memRead_storePairs_other (c : Params) {x : Nat} (ps : List (Nat × Byte)) :
    ∀ d : Eeprom, (∀ p ∈ ps, p.1 ≠ x) → (d.storePairs c ps).memRead x = d.memRead x := by
  induction ps with
  | nil => intro d _; rfl
  | cons p ps ih =>
    intro d h
    have hcons : d.storePairs c (p :: ps) = (d.memWrite c p.1 p.2).storePairs c ps := rfl
    have hp : x ≠ p.1 := (h p (by simp)).symm
    rw [hcons, ih _ fun q hq => h q (by simp [hq]), memRead_memWrite, if_neg fun hc => hp hc.1]

/-- A STOP that the device sees leaves it deselected and stores nothing outside `S` (R76). -/
theorem onStop_within (n : Nat) (a : Answer) {d : Eeprom} (ho : d.out ≠ .driving) (h : Within c S d.pagebuf) :
    (d.onStop c n a).out ≠ .driving ∧ (d.onStop c n a).pagebuf = [] ∧
      ∀ x, ¬S x → (d.onStop c n a).memRead x = d.memRead x := by
  simp only [Eeprom.onStop, if_neg ho]
  split
  · refine ⟨by simp [Eeprom.deselect], rfl, fun x hx => ?_⟩
    show (d.commit c n).memRead x = d.memRead x
    by_cases hnil : d.pagebuf = []
    · rw [Eeprom.commit_nil n hnil]
    · rw [Eeprom.commit_pairs n hnil h.2]
      exact memRead_storePairs_other c d.pagebuf d fun p hp hpx => hx (hpx ▸ h.1 p hp)
  · exact ⟨by simp [Eeprom.deselect], rfl, fun _ _ => rfl⟩

/-- The pending byte `b`, if the device takes it, keeps the write within `S`. -/
abbrev Takes (c : Params) (S : Nat → Prop) (b : Byte) (d : Eeprom) : Prop :=
  d.first = false → d.sel = .write → Within c S (d.takeByte c b).pagebuf

theorem takeByte_withBusy (c : Params) (b : Byte) (d : Eeprom) (k : Bool) :
    (d.withBusy k).takeByte c b = (d.takeByte c b).withBusy k := by
  have hcases : ∀ k : Fin 3, k = 0 ∨ k = 1 ∨ k = 2 := by decide
  obtain h | h | h := hcases d.naddr
  · rw [Eeprom.takeByte_high h, Eeprom.takeByte_high (e := d.withBusy k) h]
  · rw [Eeprom.takeByte_low h, Eeprom.takeByte_low (e := d.withBusy k) h]
  · rw [Eeprom.takeByte_data h, Eeprom.takeByte_data (e := d.withBusy k) h]

theorem takeByte_out (c : Params) (b : Byte) (d : Eeprom) : (d.takeByte c b).out = d.out := by
  unfold Eeprom.takeByte
  split <;> rfl

/-- A byte does not make the device drive the line, and the write stays within `S`. -/
theorem onByte_within (a : Answer) {b : Byte} {d : Eeprom} (ho : d.out ≠ .driving) (h : Within c S d.pagebuf)
    (ht : Takes c S b d) : (d.onByte c a b).2.out ≠ .driving ∧ Within c S (d.onByte c a b).2.pagebuf := by
  cases hf : d.first with
  | true =>
    simp only [Eeprom.onByte, hf, if_true, Eeprom.onAddress]
    split
    · split
      · exact ⟨by simp, h⟩
      · exact ⟨by simp, within_nil c S⟩
    · exact ⟨ho, h⟩
  | false =>
    cases hs : d.sel with
    | none => simpa [Eeprom.onByte, hf, hs] using ⟨ho, h⟩
    | read => simpa [Eeprom.onByte, hf, hs] using ⟨ho, h⟩
    | write =>
      rw [Eeprom.onByte_takes a hf hs]
      exact ⟨by rwa [takeByte_out], ht hf hs⟩

/-! ### Writing -/

/-- No START has gone on the wire and no STOP will before one has. -/
abbrev Unstarted (e : Engine) : Prop := e.es = .idle ∧ e.stopp = false ∧ (e.act = .none ∨ e.act = .start)

/-- While a command sends: nothing is received, and once its START is on the wire what a STOP may find in the page buffer, now or
after a byte that is pending, is a write within `S`. -/
abbrev Sending (c : Params) (S : Nat → Prop) (e : Engine) (d : Eeprom) : Prop :=
  e.act ≠ .rxData ∧ d.out ≠ .driving ∧
    (Unstarted e ∨ (Within c S d.pagebuf ∧ (e.act = .txAddr ∨ e.act = .txData → Takes c S e.dr d)))

theorem Sending.within {e : Engine} {d : Eeprom} (h : Sending c S e d) (hu : ¬Unstarted e) : Within c S d.pagebuf ∧
    (e.act = .txAddr ∨ e.act = .txData → Takes c S e.dr d) :=
  h.2.2.resolve_left hu

/-- Where nothing is pending. -/
theorem sending_of_within {e : Engine} {d : Eeprom} (ha : e.act = .none) (ho : d.out ≠ .driving)
    (h : Within c S d.pagebuf) : Sending c S e d := ⟨by simp [ha], ho, .inr ⟨h, by simp [ha]⟩⟩

theorem sending_kept : Closable s0.cfg S (Sending s0.cfg S) where
  step hi hb hE := by
    have hact := hb.act
    obtain ⟨hrx, ho, hw⟩ := hE
    cases hb with
    | start a | rstart a =>
      rw [Eeprom.onStart_seen a ho]
      exact sending_of_within hact (by simp [Eeprom.begin]) (within_nil _ S)
    | txAddr a h | txData a h =>
      obtain ⟨hp, ht⟩ := hw.resolve_left fun hu => by simp [Unstarted, h] at hu
      obtain ⟨ho', hp'⟩ := onByte_within a ho hp (ht (by simp [h]))
      exact sending_of_within hact ho' hp'
    | rxData _ _ h => exact absurd h hrx
    | stop a n h hs =>
      obtain ⟨hp, -⟩ := hw.resolve_left fun hu => by simp [Unstarted, hs] at hu
      obtain ⟨ho', hp', -⟩ := onStop_within n a ho hp
      exact sending_of_within hact ho' (hp' ▸ within_nil _ S)
    | none => exact ⟨hrx, ho, hw⟩
  mem {e d e' d'} hb hE x hx := by
    cases hb with
    | stop a n h hs =>
      obtain ⟨hp, -⟩ := hE.within fun hu => by simp [Unstarted, hs] at hu
      exact (onStop_within n a hE.2.1 hp).2.2 x hx
    | start | rstart | txAddr | txData | rxData | none => exact memRead_congr (by simp) x
  ready hE := ⟨hE.1, hE.2.1, hE.2.2.imp_right fun h => ⟨h.1, fun ha => by
    simpa [Takes, takeByte_withBusy] using h.2 ha⟩⟩
  sampled hE := by simpa [Sending, Unstarted] using hE
  assertStop := ⟨Engine.Inv.assertStop, fun {e d} _ hE => by
    unfold Engine.assertStop
    split
    · exact hE
    · split
      · rename_i h
        refine ⟨by simp, hE.2.1, hE.2.2.imp (fun hu => ⟨h.1, hu.2.1, .inl rfl⟩) fun hw => ⟨hw.1, by simp⟩⟩
      · rename_i h1 h2
        exact ⟨hE.1, hE.2.1, .inr (hE.within fun hu => by
          obtain ⟨hes, -, hact | hact⟩ := hu
          · exact h1 ⟨hes, hact⟩
          · exact h2 ⟨hes, hact⟩)⟩⟩

end

section

variable {S : Nat → Prop} {s0 s : State} {E : Engine → Eeprom → Prop} {R : TransferOutcome → State → Prop} {c : Params}
  {D D' : Eeprom → Prop}

/-! ### A START and an address byte -/

/-- The device does not drive the data line (U6). -/
abbrev NotDriving (d : Eeprom) : Prop := d.out ≠ .driving

/-- The device saw a START and waits for the address byte (R74). -/
abbrev Begun (d : Eeprom) : Prop := d.first = true ∧ d.out ≠ .driving ∧ d.pagebuf = []

/-- The device is selected for writing and has taken `k` address bytes (R74, R75). -/
abbrev Selected (k : Fin 3) (d : Eeprom) : Prop := d.first = false ∧ d.sel = .write ∧ d.out ≠ .driving ∧ d.naddr = k

/-- A device that does not drive the line sees the START that `x` puts on the wire (R74). -/
theorem BusStep.begun {e e' : Engine} {d d' : Eeprom} (h : BusStep c e d e' d') (ha : e.act = .start ∨ e.act = .rstart)
    (ho : NotDriving d) : e'.es = .sb ∧ Begun d' := by
  obtain ha | ha := ha
  · obtain ⟨a, rfl, rfl⟩ := h.of_start ha
    rw [Eeprom.onStart_seen a ho]
    exact ⟨rfl, rfl, by simp [Eeprom.begin], rfl⟩
  · obtain ⟨a, rfl, rfl⟩ := h.of_rstart ha
    rw [Eeprom.onStart_seen a ho]
    exact ⟨rfl, rfl, by simp [Eeprom.begin], rfl⟩

/-- START `x`, from the state `q` of the engine, the device being as `D` says. -/
abbrev Starting (x : Activity) (q : EngineState) (D : Eeprom → Prop) : Engine → Eeprom → Prop :=
  Pending x (fun e d => e.es = q ∧ D d) fun e d => e.es = .sb ∧ Begun d

theorem starting_kept {x : Activity} {q : EngineState} (hx : x = .start ∨ x = .rstart)
    (hD : ∀ d, D d → NotDriving d ∧ D (d.withBusy false)) : KeptOnBus s0.cfg S (Starting x q D) :=
  pending_kept ⟨fun h => ⟨h.1, (hD _ h.2).2⟩, fun h => by simpa using h⟩ ⟨fun h => h, fun h => by simpa using h⟩
    fun _ hact hA hb => hb.begun (hact ▸ hx) (hD _ hA.2).1

/-- START from `q`: on Success the engine is in ES_SB and the device waits for the address byte (R163). -/
theorem On.starts {x : Activity} {q : EngineState} (hx : x = .start ∧ q = .idle ∨ x = .rstart ∧ q = .tx)
    (hD : ∀ d, D d → NotDriving d ∧ D (d.withBusy false)) (hE : ∀ e d, Starting x q D e d → E e d)
    (hs : On S s0 (Rests q D) s) : (Machine.blStart s).All (Stage S s0 E (Rests .sb Begun)) (Unchanged S s0) := by
  have hxs : x = .start ∨ x = .rstart := hx.imp And.left And.left
  have hq : q ≠ .sb := by obtain ⟨-, rfl⟩ | ⟨-, rfl⟩ := hx <;> simp
  refine On.blStart (rests_kept q fun d h => (hD d h).2) (starting_kept hxs hD)
    ⟨Engine.Inv.assertStart, fun {e d} _ ⟨hes, hact, hstop, hd⟩ => ?_⟩ (fun r u hu hw => ⟨?_, fun _ => On.weaken hu hE⟩) hs
  · refine ⟨by simpa using hstop, .inl ?_⟩
    obtain ⟨rfl, rfl⟩ | ⟨rfl, rfl⟩ := hx <;> simp [Engine.assertStart, hes, hact, hstop, hd]
  · rintro rfl
    obtain ⟨hbus, hinv, hmem, hstop, hp⟩ := hu
    have hes : u.eng.es = .sb := hinv.sb_state hw.seen.1
    obtain ⟨-, hes', -⟩ | ⟨hact, -, hd⟩ := hp
    · exact absurd (hes'.symm.trans hes) hq
    · exact ⟨hbus, hinv, hmem, hes, hact, hstop, hd⟩

/-- What a command that writes does at its START. -/
theorem sends_start (hs : On S s0 (Rests .idle NotDriving) s) :
    (blStart s).All (Stage S s0 (Sending s0.cfg S) (Rests .sb Begun)) (Unchanged S s0) := by
  refine On.starts (.inl ⟨rfl, rfl⟩) (fun d h => ⟨h, h⟩) (fun e d ⟨hstop, h⟩ => ?_) hs
  obtain ⟨hact, hes, ho⟩ | ⟨hact, -, -, ho, hp⟩ := h
  · exact ⟨by simp [hact], ho, .inl ⟨hes, hstop, .inr hact⟩⟩
  · exact sending_of_within hact ho (hp ▸ within_nil _ S)

/-- The device is selected for writing, no byte sent yet. -/
abbrev Addressed (d : Eeprom) : Prop := Selected 0 d ∧ d.pagebuf = []

/-- What follows the address byte DEVW (R74). -/
theorem BusStep.addressed {e e' : Engine} {d d' : Eeprom} (h : BusStep c e d e' d') (ha : e.act = .txAddr)
    (hdr : e.dr = devW c) (hd : Begun d) :
    NotDriving d' ∧ d'.pagebuf = [] ∧ (e'.es = .addrHold → e'.dir = false ∧ Addressed d') := by
  obtain ⟨a, rfl, rfl⟩ := h.of_txAddr ha
  obtain ⟨hf, ho, hp⟩ := hd
  have hid : slaveId e.dr = c.devBase := by rw [hdr]; exact slaveId_bus _ _
  have hdir : directionBit e.dr = false := by rw [hdr]; exact dir_bus _ _
  cases hb : d.busydev with
  | false =>
    rw [Eeprom.onByte_selects a hf hid hb, hdir]
    have hsel : Addressed { d with first := false, sel := .write, naddr := 0, pagebuf := [], out := .released } := by
      simp [Addressed, Selected]
    exact ⟨hsel.1.2.2.1, rfl, fun _ => ⟨hdir, hsel⟩⟩
  | true =>
    rw [Eeprom.onByte_refuses a hf (.inr hb)]
    exact ⟨ho, hp, by simp [Engine.afterTxAddr]⟩

/-- The address byte DEVW pending, then answered. -/
abbrev Addressing (c : Params) : Engine → Eeprom → Prop :=
  Pending .txAddr (fun e d => e.es = .sb ∧ e.dr = devW c ∧ Begun d) fun e d =>
    NotDriving d ∧ d.pagebuf = [] ∧ (e.es = .addrHold → e.dir = false ∧ Addressed d)

theorem addressing_kept : KeptOnBus s0.cfg S (Addressing s0.cfg) :=
  pending_kept ⟨fun h => h, fun h => by simpa using h⟩ ⟨fun h => h, fun h => by simpa using h⟩
    fun _ hact hA hb => hb.addressed hact hA.2.1 hA.2.2

theorem Addressing.sending {e : Engine} {d : Eeprom} (h : Addressing c e d) : Sending c S e d := by
  obtain ⟨-, ⟨hact, -, -, hf, ho, hp⟩ | ⟨hact, ho, hp, -⟩⟩ := h
  · exact ⟨by simp [hact], ho, .inr ⟨hp ▸ within_nil c S, fun _ h => by simp [hf] at h⟩⟩
  · exact sending_of_within hact ho (hp ▸ within_nil c S)

/-- What a command that writes does with DEVW: on Success the device is selected for writing (R165). -/
theorem sends_address (hs : On S s0 (Rests .sb Begun) s) :
    (blWriteAddress (devW s.cfg) s).All (Stage S s0 (Sending s0.cfg S) (Rests .tx Addressed)) (Unchanged S s0) := by
  have hcall : Calls (Engine.loadTx (devW s0.cfg)) (Rests .sb Begun) (Addressing s0.cfg) :=
    ⟨fun hi => hi.loadTx _, fun _ ⟨hes, hact, hstop, hd⟩ =>
      ⟨by simpa using hstop, .inl (by simpa [Engine.loadTx, hes, hact] using hd)⟩⟩
  rw [hs.1.2.2.1]
  refine On.blWriteAddress (rests_kept .sb fun _ h => h) addressing_kept hcall (fun r u hu hw => ⟨fun hr => ?_, fun hne => ?_⟩) hs
  · subst hr
    obtain ⟨hbus, hinv, hmem, hstop, hp⟩ := hu
    obtain ⟨hok, hseen⟩ := hw.seen
    have haddr : u.eng.addr = true := hok
    have hes : u.eng.es = .addrHold := hinv.addr_state.1 haddr
    obtain ⟨-, hes', -⟩ | ⟨hact, -, -, hsel⟩ := hp
    · exact absurd (hes'.symm.trans hes) (by simp)
    · obtain ⟨hdir, hd⟩ := hsel hes
      rw [Machine.settleAddress, if_pos rfl]
      refine ⟨hbus, hinv.readSr2, hmem, ?_⟩
      exact ⟨by simp [setPhase, Engine.readSr2, hseen haddr, hdir], by simpa using hact, by simpa using hstop, hd⟩
  · rw [Machine.settleAddress, if_neg hne]
    exact On.weaken hu fun _ _ h => h.sending

/-! ### A byte written -/

/-- Between the bytes of a write within `S`. -/
structure InWrite (c : Params) (S : Nat → Prop) (D : Eeprom → Prop) : Prop where
  selected : ∀ {d}, D d → d.first = false ∧ d.sel = .write ∧ NotDriving d
  within : ∀ {d}, D d → Within c S d.pagebuf
  ready : ∀ {d}, D d → D (d.withBusy false)

/-- The byte `b` pending in a write, `D` before it and `D'` after it. -/
abbrev Writing (b : Byte) (D D' : Eeprom → Prop) : Engine → Eeprom → Prop :=
  Pending .txData (fun e d => e.es = .tx ∧ e.dr = b ∧ D d) fun _ d => D' d

theorem writing_kept {b : Byte} (hD : InWrite s0.cfg S D) (hD' : InWrite s0.cfg S D')
    (ht : ∀ d, D d → D' (d.takeByte s0.cfg b)) : KeptOnBus s0.cfg S (Writing b D D') :=
  pending_kept ⟨fun h => ⟨h.1, h.2.1, hD.ready h.2.2⟩, fun h => by simpa using h⟩ ⟨hD'.ready, fun h => h⟩
    fun {e d e' d'} _ hact ⟨_, hdr, hd⟩ hb => by
      obtain ⟨a, rfl, rfl⟩ := hb.of_txData hact
      obtain ⟨hf, hs, -⟩ := hD.selected hd
      rw [Eeprom.onByte_takes a hf hs, hdr]
      exact ht d hd

theorem Writing.sending {b : Byte} (hD : InWrite c S D) (hD' : InWrite c S D') (ht : ∀ d, D d → D' (d.takeByte c b))
    {e : Engine} {d : Eeprom} (h : Writing b D D' e d) : Sending c S e d := by
  obtain ⟨-, ⟨hact, -, hdr, hd⟩ | ⟨hact, hd⟩⟩ := h
  · exact ⟨by simp [hact], (hD.selected hd).2.2, .inr ⟨hD.within hd, fun _ _ _ => hdr ▸ hD'.within (ht d hd)⟩⟩
  · exact sending_of_within hact (hD'.selected hd).2.2 (hD'.within hd)

/-- What a command that writes does with a byte: on Success the device has taken it (R166). -/
theorem sends_byte {b : Byte} (hD : InWrite s0.cfg S D) (hD' : InWrite s0.cfg S D')
    (ht : ∀ d, D d → D' (d.takeByte s0.cfg b)) (hs : On S s0 (Rests .tx D) s) :
    (blWriteByte b s).All (Stage S s0 (Sending s0.cfg S) (Rests .tx D')) (Unchanged S s0) := by
  have hcall : Calls (Engine.loadTx b) (Rests .tx D) (Writing b D D') :=
    ⟨fun hi => hi.loadTx _, fun hi ⟨hes, hact, hstop, hd⟩ =>
      ⟨by simpa using hstop, .inl (by simp [Engine.loadTx, hes, hact, hi.txe_stands hes (by simp [hact]), hd])⟩⟩
  refine On.blWriteByte (rests_kept (D := D) .tx fun _ => hD.ready) (writing_kept hD hD' ht) hcall
    (fun r u hu hw => ⟨fun hr => ?_, fun _ => On.weaken hu fun _ _ h => h.sending hD hD' ht⟩) hs
  subst hr
  obtain ⟨hbus, hinv, hmem, hstop, hp⟩ := hu
  have htxe : u.eng.txe = true := hw.seen.1
  obtain ⟨hact, -⟩ | ⟨hact, hd⟩ := hp
  · exact absurd (hinv.act_txData hact).2 (by simp [htxe])
  · exact ⟨hbus, hinv, hmem, hinv.txe_state htxe, hact, hstop, hd⟩

/-! ### The address phase -/

/-- The high address byte is sent. -/
abbrev HighSent (a : MemAddr) (d : Eeprom) : Prop := Selected 1 d ∧ d.pagebuf = [] ∧ d.hi = addrHigh a

/-- Both address bytes are sent: the device's pointer is the address (R75). -/
abbrev AddressSent (a : MemAddr) (d : Eeprom) : Prop := Selected 2 d ∧ d.pagebuf = [] ∧ d.ptr = a

theorem addressed_inWrite : InWrite c S Addressed :=
  ⟨fun h => ⟨h.1.1, h.1.2.1, h.1.2.2.1⟩, fun h => h.2 ▸ within_nil c S, fun h => h⟩

theorem highSent_inWrite (a : MemAddr) : InWrite c S (HighSent a) :=
  ⟨fun h => ⟨h.1.1, h.1.2.1, h.1.2.2.1⟩, fun h => h.2.1 ▸ within_nil c S, fun h => h⟩

theorem addressSent_inWrite (a : MemAddr) : InWrite c S (AddressSent a) :=
  ⟨fun h => ⟨h.1.1, h.1.2.1, h.1.2.2.1⟩, fun h => h.2.1 ▸ within_nil c S, fun h => h⟩

theorem Addressed.takes {a : MemAddr} {d : Eeprom} (h : Addressed d) : HighSent a (d.takeByte c (addrHigh a)) := by
  obtain ⟨⟨hf, hs, ho, hn⟩, hp⟩ := h
  rw [Eeprom.takeByte_high hn]
  exact ⟨⟨hf, hs, ho, rfl⟩, hp, rfl⟩

theorem HighSent.takes {a : MemAddr} {d : Eeprom} (h : HighSent a d) : AddressSent a (d.takeByte c (addrLow a)) := by
  obtain ⟨⟨hf, hs, ho, hn⟩, hp, hhi⟩ := h
  rw [Eeprom.takeByte_low hn, hhi]
  exact ⟨⟨hf, hs, ho, rfl⟩, hp, high_low a⟩

/-- The address phase of a command, its abort paths, and what follows (R190). -/
theorem sends_addrPhase (a : MemAddr) {k : State → Ran TransferOutcome}
    (hover : ∀ r u, Over S s0 (Sending s0.cfg S) r u → R r u)
    (hk : ∀ t, On S s0 (Rests .tx (AddressSent a)) t → (k t).All R (Unchanged S s0))
    (hs : On S s0 (Rests .idle NotDriving) s) : (addrPhaseThen a k s).All R (Unchanged S s0) := by
  refine sending_kept.orAbort (sends_start hs) hover fun t ht => ?_
  refine sending_kept.orAbort (sends_address ht) hover fun t ht => ?_
  refine sending_kept.orAbort (sends_byte addressed_inWrite (highSent_inWrite a) (fun _ => Addressed.takes) ht) hover
    fun t ht => ?_
  exact sending_kept.orAbort (sends_byte (highSent_inWrite a) (addressSent_inWrite a) (fun _ => HighSent.takes) ht) hover hk

/-! ### A write that does not cross a page boundary -/

/-- `j` of the `m` data bytes for the addresses from `p` on are sent. -/
abbrev DataSent (p m j : Nat) (d : Eeprom) : Prop :=
  Selected 2 d ∧ d.pagebuf.map (fun x => x.1) = List.range' p j ∧ (j < m → d.ptr.toNat = p + j)

/-- A chunk: `m` bytes from `p` on, within a page and within `S`. -/
structure Chunk (c : Params) (S : Nat → Prop) (p m : Nat) : Prop where
  page : m ≤ remaining c.pageSize p
  mem : ∀ x, p ≤ x → x < p + m → S x

variable {p m j : Nat}

theorem DataSent.within {d : Eeprom} (hc : Chunk c S p m) (hj : j ≤ m) (h : DataSent p m j d) : Within c S d.pagebuf := by
  obtain ⟨-, hps, -⟩ := h
  refine ⟨fun x hx => ?_, ?_⟩
  · have hx' : x.1 ∈ List.range' p j := hps ▸ List.mem_map_of_mem hx
    obtain ⟨hlo, hhi⟩ := List.mem_range'_1.1 hx'
    exact hc.mem x.1 hlo (by omega)
  · have hlen : d.pagebuf.length = j := by simpa using congrArg List.length hps
    cases hpb : d.pagebuf with
    | nil => rfl
    | cons x xs =>
      rw [hpb] at hps hlen
      obtain ⟨i, rfl⟩ : ∃ i, j = i + 1 := ⟨xs.length, by simpa using hlen.symm⟩
      have hx : x.1 = p := by simpa [List.range'_succ] using congrArg List.head? hps
      have := hc.page
      simp only [crossesPage, hx, hlen, decide_eq_false_iff_not]
      omega

theorem dataSent_inWrite (hc : Chunk c S p m) (hj : j ≤ m) : InWrite c S (DataSent p m j) :=
  ⟨fun h => ⟨h.1.1, h.1.2.1, h.1.2.2.1⟩, fun h => h.within hc hj, fun h => h⟩

/-- PTR before the last byte of its page (R75). -/
theorem toNat_advanceInPage {k : Nat} (hk : k ≤ 16) {a : MemAddr} (h : a.toNat % 2 ^ k + 1 < 2 ^ k) :
    (advanceInPage (2 ^ k) a).toNat = a.toNat + 1 := by
  have hmod : (a.toNat + 1) % 2 ^ k = a.toNat % 2 ^ k + 1 := by
    rw [Nat.add_mod, Nat.mod_eq_of_lt (show 1 < 2 ^ k by omega), Nat.mod_eq_of_lt h]
  rw [(pointerWrapsInPage k a hk).1, hmod, Nat.mul_comm, ← Nat.add_assoc, Nat.div_add_mod]

theorem DataSent.takes {b : Byte} {d : Eeprom} (hleg : c.Legal) (hc : Chunk c S p m) (hj : j < m) (h : DataSent p m j d) :
    DataSent p m (j + 1) (d.takeByte c b) := by
  obtain ⟨hsel, hps, hptr⟩ := h
  obtain ⟨hf, hs, ho, hn⟩ := hsel
  obtain ⟨⟨k, hk, hpage⟩, -⟩ := hleg
  have hp := hptr hj
  rw [Eeprom.takeByte_data hn]
  refine ⟨⟨hf, hs, ho, hn⟩, by simp [hps, hp, List.range'_1_concat], fun hlt => ?_⟩
  have hroom : p % 2 ^ k + (j + 1) < 2 ^ k := by
    have := hc.page
    rw [remaining, hpage] at this
    omega
  have hmod : (p + j) % 2 ^ k = p % 2 ^ k + j := by
    rw [Nat.add_mod, Nat.mod_eq_of_lt (show j < 2 ^ k by omega), Nat.mod_eq_of_lt (by omega)]
  show (advanceInPage c.pageSize d.ptr).toNat = p + (j + 1)
  rw [hpage, toNat_advanceInPage (by omega) (by rw [hp, hmod]; omega), hp, Nat.add_assoc]

end

section

variable {S : Nat → Prop} {s0 s : State} {E : Engine → Eeprom → Prop} {D : Eeprom → Prop} {p m : Nat}

/-! ### The commands that write -/

/-- Between the bytes of a write. -/
theorem On.sending (hD : InWrite s0.cfg S D) (h : On S s0 (Rests .tx D) s) : On S s0 (Sending s0.cfg S) s :=
  On.weaken h fun _ _ ⟨_, hact, _, hd⟩ => sending_of_within hact (hD.selected hd).2.2 (hD.within hd)

/-- Before a START. -/
theorem On.over (h : On S s0 (Rests .idle NotDriving) s) (r : TransferOutcome) : Over S s0 (Sending s0.cfg S) r s :=
  ⟨On.weaken h fun _ _ ⟨hes, hact, hstop, hd⟩ => ⟨⟨by simp [hact], hd, .inl ⟨hes, hstop, .inl hact⟩⟩, .inr ⟨hes, hact⟩⟩,
    fun _ => h.2.2.2.2.2.1⟩

/-- After the STOP. -/
theorem On.stopped (h : On S s0 (fun e d => Sending s0.cfg S e d ∧ Closing e) s) (hs : s.eng.stopp = false) :
    On S s0 (Rests .idle NotDriving) s := by
  obtain ⟨hbus, hinv, hmem, hsend, hclose⟩ := h
  obtain ⟨hes, hact⟩ := hclose.resolve_left (by simp [hs])
  exact ⟨hbus, hinv, hmem, hes, hact, hs, hsend.2.1⟩

/-- A probe (R192). -/
theorem pmProbe_over (hs : On S s0 (Rests .idle NotDriving) s) :
    (pmProbe s).All (Over S s0 (Sending s0.cfg S)) (Unchanged S s0) := by
  refine sending_kept.orAbort (sends_start hs) (fun _ _ h => h) fun t ht => ?_
  exact sending_kept.orAbort (sends_address ht) (fun _ _ h => h) fun t ht =>
    sending_kept.stopWait (On.sending addressed_inWrite ht)

/-- The ready wait (R197). -/
theorem readyLoop_over (n : Nat) : ∀ {s : State}, On S s0 (Rests .idle NotDriving) s →
    (readyLoop n s).All (Over S s0 (Sending s0.cfg S)) (Unchanged S s0) := by
  have hrest : KeptOnBus s0.cfg S (Rests .idle NotDriving) := rests_kept .idle fun _ h => h
  induction n with
  | zero => exact fun hs => On.over hs _
  | succ n ih =>
    intro s hs
    refine (pmProbe_over hs).andThen fun r t ht => ?_
    simp only
    split
    · refine (sending_kept.closing.waits.gap (on_resets S s0 _) (s := { t with retry := t.retry + 1 }) ht.1).andThen
        fun _ v hv => ?_
      split
      · exact ⟨hv, by simp⟩
      · rename_i hstop
        have hv := On.stopped hv (by simpa using hstop)
        exact (hrest.waits.delayLoop (on_resets S s0 _) (fun _ hu => On.unchanged hu) (fun _ hu => hu) v.cfg.readyDelayMs
          (s := { seqAt .delay v with ticks := 0 }) hv).andThen fun _ _ hx => ih hx
    · exact ht

theorem readyWait_over (hs : On S s0 (Rests .idle NotDriving) s) :
    (readyWait s).All (Over S s0 (Sending s0.cfg S)) (Unchanged S s0) :=
  readyLoop_over _ (s := { s with retry := 0 }) hs

/-- The stop after the data, and what follows it (R194, R196). -/
theorem On.stopWait_then {k : State → Ran TransferOutcome} (hD : InWrite s0.cfg S D)
    (hk : ∀ t, On S s0 (Rests .idle NotDriving) t → (k t).All (Over S s0 (Sending s0.cfg S)) (Unchanged S s0))
    (hs : On S s0 (Rests .tx D) s) :
    ((stopWait s).orFail giveBack k).All (Over S s0 (Sending s0.cfg S)) (Unchanged S s0) :=
  (sending_kept.stopWait (On.sending hD hs)).orFail (fun _ _ ht _ => ht) fun t ht => hk t (On.stopped ht.1 (ht.2 rfl))

/-- The data bytes of a chunk (R196). -/
theorem sendLoop_over (hleg : s0.cfg.Legal) (hc : Chunk s0.cfg S p m) {k : State → Ran TransferOutcome}
    (hk : ∀ t, On S s0 (Rests .tx (DataSent p m m)) t → (k t).All (Over S s0 (Sending s0.cfg S)) (Unchanged S s0)) (n : Nat) :
    ∀ {i j : Nat} {s : State}, j + n = m → On S s0 (Rests .tx (DataSent p m j)) s →
      (sendLoop k n i s).All (Over S s0 (Sending s0.cfg S)) (Unchanged S s0) := by
  induction n with
  | zero =>
    intro i j s hj hs
    subst hj
    exact hk s hs
  | succ n ih =>
    intro i j s hj hs
    have hsend := sends_byte (b := s.wbufRead i) (dataSent_inWrite hc (by omega)) (dataSent_inWrite (j := j + 1) hc (by omega))
      (fun _ hd => hd.takes hleg hc (by omega)) hs
    exact sending_kept.orAbort hsend (fun _ _ h => h) fun t ht => ih (by omega) ht

theorem AddressSent.data {a : MemAddr} {d : Eeprom} (h : AddressSent a d) (ha : a.toNat = p) : DataSent p m 0 d :=
  ⟨h.1, by simp [h.2.1], fun _ => by rw [h.2.2, ha, Nat.add_zero]⟩

/-- The chunks of MWRN (R196). -/
theorem chunkLoop_over (hleg : s0.cfg.Legal) (cs : List (Nat × Nat)) :
    (∀ x ∈ cs, Chunk s0.cfg S x.1 x.2 ∧ x.1 < 2 ^ 16) → ∀ {i : Nat} {s : State}, On S s0 (Rests .idle NotDriving) s →
      (chunkLoop cs i s).All (Over S s0 (Sending s0.cfg S)) (Unchanged S s0) := by
  induction cs with
  | nil => exact fun _ _ _ hs => On.over hs _
  | cons x cs ih =>
    obtain ⟨p, m⟩ := x
    intro hcs i s hs
    obtain ⟨hc, hp⟩ := hcs (p, m) (by simp)
    have hp' : (BitVec.ofNat 16 p).toNat = p := by simpa using hp
    refine sends_addrPhase (BitVec.ofNat 16 p) (fun _ _ h => h) (fun t ht => ?_) (s := { s with chunk := BitVec.ofNat 17 m }) hs
    refine sendLoop_over hleg hc (fun t ht => ?_) m (Nat.zero_add m) (On.weaken ht fun _ _ ⟨hes, hact, hstop, hd⟩ =>
      ⟨hes, hact, hstop, hd.data hp'⟩)
    refine On.stopWait_then (dataSent_inWrite hc (Nat.le_refl m)) (fun t ht => ?_) ht
    refine (readyWait_over ht).orFail (fun _ _ hu _ => hu) fun u hu => ?_
    have hu := On.stopped hu.1 (hu.2 rfl)
    exact ih (fun x hx => hcs x (by simp [hx])) hu

/-- Every chunk lies in the write, in one page. -/
theorem chunksFrom_within (ps fuel : Nat) : ∀ a n : Nat, ∀ x ∈ chunksFrom ps fuel a n,
    a ≤ x.1 ∧ x.1 < a + n ∧ x.1 + x.2 ≤ a + n ∧ x.2 ≤ remaining ps x.1 := by
  induction fuel with
  | zero => intro a n x hx; simp [chunksFrom] at hx
  | succ fuel ih =>
    intro a n x hx
    unfold chunksFrom at hx
    split at hx
    · simp at hx
    · obtain rfl | hx := List.mem_cons.1 hx
      · refine ⟨Nat.le_refl a, ?_, ?_, Nat.min_le_left _ _⟩ <;> simp only <;> omega
      · obtain ⟨hlo, hhi, hend, hpage⟩ := ih _ _ x hx
        refine ⟨?_, ?_, ?_, hpage⟩ <;> omega

/-- MWRN (R196). -/
theorem pmWriteBytes_over (hleg : s0.cfg.Legal) (a : MemAddr) (hS : ∀ x, a.toNat ≤ x → x < a.toNat + s.len.toNat → S x)
    (hs : On S s0 (Rests .idle NotDriving) s) :
    (pmWriteBytes a s).All (Over S s0 (Sending s0.cfg S)) (Unchanged S s0) := by
  unfold Machine.pmWriteBytes
  simp only
  split
  · exact On.over (s := { s with doneCount := 0 }) hs _
  · rename_i hrange
    split
    · exact On.over (s := { s with doneCount := 0 }) hs _
    · rename_i hn
      refine chunkLoop_over hleg _ (fun x hx => ?_) (s := { s with doneCount := 0, cur := a.setWidth 17, idx := 0 }) hs
      have hcfg : s.cfg = s0.cfg := hs.1.2.2.1
      obtain ⟨hlo, hhi, hend, hpage⟩ := chunksFrom_within _ _ _ _ x hx
      have hmax := hleg.2.1
      simp only [outOfRange, if_neg hn, decide_eq_true_eq, hcfg] at hrange
      exact ⟨⟨hcfg ▸ hpage, fun y hy hy' => hS y (by omega) (by omega)⟩, by omega⟩

/-- MWR1 (R194). -/
theorem pmWriteByte_over (hleg : s0.cfg.Legal) (a : MemAddr) (b : Byte) (hS : S a.toNat)
    (hs : On S s0 (Rests .idle NotDriving) s) :
    (pmWriteByte a b s).All (Over S s0 (Sending s0.cfg S)) (Unchanged S s0) := by
  have hc : Chunk s0.cfg S a.toNat 1 := ⟨Params.Legal.remaining_pos hleg a, fun x hx hx' => by
    rwa [show x = a.toNat by omega]⟩
  unfold Machine.pmWriteByte
  split
  · exact On.over hs _
  · refine sends_addrPhase a (fun _ _ h => h) (fun t ht => ?_) hs
    have hsend := sends_byte (b := b) (addressSent_inWrite a) (dataSent_inWrite (j := 1) hc (Nat.le_refl 1))
      (fun _ hd => (hd.data rfl).takes hleg hc Nat.one_pos) ht
    refine sending_kept.orAbort hsend (fun _ _ h => h) fun t ht => ?_
    exact On.stopWait_then (dataSent_inWrite hc (Nat.le_refl 1)) (fun _ => readyWait_over) ht

/-! ### The commands that read -/

/-- A property of the engine and the device that the other agents keep holds, and with it every byte outside `S` reads as in `s0`. -/
abbrev Safe (S : Nat → Prop) (s0 u : State) : Prop := ∃ E, KeptOnBus s0.cfg S E ∧ On S s0 E u

theorem Over.safe (h : Closable s0.cfg S E) {r : TransferOutcome} {u : State} (hu : Over S s0 E r u) : Safe S s0 u :=
  ⟨_, h.closing, hu.1⟩

theorem over_safe (h : Closable s0.cfg S E) {r : Ran TransferOutcome} (hr : r.All (Over S s0 E) (Unchanged S s0)) :
    r.All (fun _ => Safe S s0) (Unchanged S s0) :=
  hr.mono (fun _ _ hu => Over.safe h hu) fun _ hu => hu

/-- The read address byte, its wait, and its end (R165). -/
theorem readAddress_empty (b : Byte) (hs : On S s0 (Rests .sb Begun) s) :
    (blWriteAddress b s).All (Stage S s0 BufferEmpty BufferEmpty) (Unchanged S s0) := by
  have hcall : Calls (Engine.loadTx b) (Rests .sb Begun) BufferEmpty :=
    ⟨fun hi => hi.loadTx _, fun _ ⟨hes, hact, _, hf, _, hp⟩ => by simp [BufferEmpty, Engine.loadTx, hes, hact, hf, hp]⟩
  refine On.blWriteAddress (rests_kept .sb fun _ h => h) empty_kept.toKeptOnBus hcall (fun r u hu _ => ?_) hs
  have h := On.settleAddress empty_readSr2 hu r
  exact ⟨fun _ => h, fun _ => h⟩

/-- The repeated START of a read and DEVR, and what follows (R193, R195). -/
theorem turnToRead_safe {a : MemAddr} {k : State → Ran TransferOutcome}
    (hk : ∀ t, On S s0 BufferEmpty t → (k t).All (fun _ => Safe S s0) (Unchanged S s0))
    (hs : On S s0 (Rests .tx (AddressSent a)) s) : (turnToRead k s).All (fun _ => Safe S s0) (Unchanged S s0) := by
  have hstart := On.starts (E := BufferEmpty) (.inr ⟨rfl, rfl⟩) (fun d (h : AddressSent a d) => ⟨h.1.2.2.1, h⟩)
    (fun e d ⟨_, h⟩ => by
      obtain ⟨hact, -, -, hp, -⟩ | ⟨hact, -, -, -, hp⟩ := h <;> simp [BufferEmpty, hact, hp]) hs
  refine empty_kept.orAbort hstart (fun _ _ h => Over.safe empty_kept h) fun t ht => ?_
  exact empty_kept.orAbort (readAddress_empty _ ht) (fun _ _ h => Over.safe empty_kept h) hk

/-- A byte of a read, its abort path, and what follows (R193, R195). -/
theorem readByte_safe (k : Bool) {f : State → Ran TransferOutcome}
    (hf : ∀ t, On S s0 BufferEmpty t → (f t).All (fun _ => Safe S s0) (Unchanged S s0)) (hs : On S s0 BufferEmpty s) :
    ((blReadByte k s).orFail abort f).All (fun _ => Safe S s0) (Unchanged S s0) :=
  empty_kept.orAbort
    ((On.blReadByte empty_kept.toKeptOnBus (empty_setAckMode k) empty_readDr hs).mono (fun _ _ h => ⟨fun _ => h, fun _ => h⟩)
      fun _ h => h)
    (fun _ _ h => Over.safe empty_kept h) hf

theorem stopWait_safe (hs : On S s0 BufferEmpty s) : (stopWait s).All (fun _ => Safe S s0) (Unchanged S s0) :=
  over_safe empty_kept (empty_kept.stopWait hs)

/-- The receptions of MRDN (R195). -/
theorem receiveLoop_safe (n : Nat) : ∀ {i : Nat} {s : State}, On S s0 BufferEmpty s →
    (receiveLoop n i s).All (fun _ => Safe S s0) (Unchanged S s0) := by
  induction n with
  | zero => exact fun hs => stopWait_safe hs
  | succ n ih => exact fun {i} s hs => readByte_safe _ (fun t ht => ih (s := storeReceived i t) ht) hs

/-- The address phase of a read, and what follows it. -/
theorem addrPhase_turnToRead_safe (a : MemAddr) {k : State → Ran TransferOutcome}
    (hk : ∀ t, On S s0 BufferEmpty t → (k t).All (fun _ => Safe S s0) (Unchanged S s0))
    (hs : On S s0 (Rests .idle NotDriving) s) :
    (addrPhaseThen a (turnToRead k) s).All (fun _ => Safe S s0) (Unchanged S s0) :=
  sends_addrPhase a (fun _ _ h => Over.safe sending_kept h) (fun _ => turnToRead_safe hk) hs

/-- MRD1 (R193). -/
theorem pmReadByte_safe (a : MemAddr) (hs : On S s0 (Rests .idle NotDriving) s) :
    (pmReadByte a s).All (fun _ => Safe S s0) (Unchanged S s0) := by
  unfold Machine.pmReadByte
  split
  · exact ⟨_, rests_kept .idle fun _ h => h, hs⟩
  · exact addrPhase_turnToRead_safe a (fun _ => readByte_safe false fun _ => stopWait_safe) hs

/-- MRDN (R195). -/
theorem pmReadBytes_safe (a : MemAddr) (hs : On S s0 (Rests .idle NotDriving) s) :
    (pmReadBytes a s).All (fun _ => Safe S s0) (Unchanged S s0) := by
  have hrest : Safe S s0 { s with doneCount := 0 } := ⟨_, rests_kept .idle fun _ h => h, hs⟩
  unfold Machine.pmReadBytes
  simp only
  split
  · exact hrest
  · split
    · exact hrest
    · exact addrPhase_turnToRead_safe a (fun _ => receiveLoop_safe _) (s := { s with doneCount := 0, idx := 0 }) hs

/-! ### Every command -/

theorem safe_kept (S : Nat → Prop) (s0 : State) : KeptByAgents (Safe S s0) where
  busy := fun ⟨_, _, hs⟩ => hs.1.1
  engine a := fun ⟨E, hE, hs⟩ => ⟨E, hE, hE.waits.engine a hs⟩
  ready := fun ⟨E, hE, hs⟩ => ⟨E, hE, hE.waits.ready hs⟩
  sched _ := fun h => h
  draws _ := fun h => h
  refused := fun h => h
  read _ := fun h => h

theorem safe_resets (S : Nat → Prop) (s0 : State) : Resets (Safe S s0) (Unchanged S s0) :=
  fun u ⟨E, _, hs⟩ => on_resets S s0 E u hs

/-- Where a command is accepted. -/
theorem on_accept {i : Instr} (h : s.Inv) (hb : s.bus = .reference) (hE : E s.eng s.ee) : On S s E (accept i s) :=
  ⟨⟨rfl, rfl, rfl, hb⟩, h.engine, fun _ _ => rfl, hE⟩

/-- A command of L2 is accepted with the engine idle (R97, R140). -/
theorem accepted_paged_rests {i : Instr} (h : s.Inv) (hi : isPaged i = true) (hr : refusalCause i s = none)
    (ho : s.ee.out ≠ .driving) : Rests .idle NotDriving s.eng s.ee := by
  obtain ⟨-, -, hphase, hstop⟩ := accepted hr
  have hidle : s.phase = .idle ∧ s.eng.stopp = false := by
    cases i <;> simp_all [isPaged, phaseAllows, reusesBus]
  obtain ⟨hes, hact⟩ := h.phaseInv.idle hidle.1 hidle.2
  exact ⟨hes, hact, hidle.2, ho⟩

end

section

variable {S : Nat → Prop} {s0 s : State} {i : Instr}

/-! ### Every command on the reference bus -/

/-- An operation that asks for no STOP, none being pending. -/
theorem noStop_calls {f : Engine → Engine} (hinv : ∀ {e : Engine}, e.Inv → (f e).Inv) (hstop : ∀ e : Engine, (f e).stopp = e.stopp) :
    Calls f NoStop NoStop :=
  ⟨hinv, fun {e _} _ h => (hstop e).trans h⟩

/-- START (R163). -/
theorem blStart_noStop (hs : On S s0 NoStop s) : (blStart s).All (fun _ => Safe S s0) (Unchanged S s0) :=
  On.blStart noStop_kept noStop_kept (noStop_calls Engine.Inv.assertStart assertStart_stopp)
    (fun _ _ hu _ => ⟨_, noStop_kept, hu⟩) hs

/-- WRADDR (R165). -/
theorem blWriteAddress_noStop (a : Byte) (hs : On S s0 NoStop s) :
    (blWriteAddress a s).All (fun _ => Safe S s0) (Unchanged S s0) :=
  On.blWriteAddress noStop_kept noStop_kept (noStop_calls (fun h => h.loadTx a) (loadTx_stopp a))
    (fun r _ hu _ => ⟨_, noStop_kept, On.settleAddress (noStop_calls Engine.Inv.readSr2 readSr2_stopp) hu r⟩) hs

/-- WRBYTE (R166). -/
theorem blWriteByte_noStop (b : Byte) (hs : On S s0 NoStop s) :
    (blWriteByte b s).All (fun _ => Safe S s0) (Unchanged S s0) :=
  On.blWriteByte noStop_kept noStop_kept (noStop_calls (fun h => h.loadTx b) (loadTx_stopp b))
    (fun _ _ hu _ => ⟨_, noStop_kept, hu⟩) hs

/-- RDBYTE (R167). -/
theorem blReadByte_noStop (k : Bool) (hs : On S s0 NoStop s) :
    (blReadByte k s).All (fun _ => Safe S s0) (Unchanged S s0) :=
  (On.blReadByte noStop_kept (noStop_calls (fun h => h.setAckMode k) (setAckMode_stopp k))
    (noStop_calls Engine.Inv.readDr fun _ => rfl) hs).mono (fun _ _ hu => ⟨_, noStop_kept, hu⟩) fun _ hu => hu

/-- In ES_IDLE both lines are released (R142). -/
theorem Engine.Inv.lines_idle {e : Engine} (h : e.Inv) (hes : e.es = .idle) : { e with sclO := true, sdaO := true } = e := by
  have hscl : e.sclO = true := h.scl_idle.2 hes
  have hsda : e.sdaO = true := by
    by_contra hc
    have := h.sda_sb.1 (by simpa using hc)
    simp [hes] at this
  cases e
  simp_all only

/-- INIT (R162). -/
theorem blInit_safe (m : BusMode) (hs : On S s0 (Rests .idle fun _ => True) s) :
    (blInit m s).All (fun _ => Safe S s0) (Unchanged S s0) := by
  have hk : KeptOnBus s0.cfg S (Rests .idle fun _ => True) := rests_kept .idle fun _ h => h
  refine (hk.waits.gap (on_resets S s0 _) hs).andThen fun _ t ht => ⟨_, hk, ?_⟩
  obtain ⟨hbus, hinv, hmem, hrest⟩ := ht
  have heng : (initRegisters m t).eng = t.eng := hinv.lines_idle hrest.1
  exact ⟨hbus, by rwa [heng], hmem, by rwa [heng]⟩

/-- What every command does to MEM, on the bus of the reference EEPROM. -/
theorem body_safe (h : s.Inv) (hleg : s.cfg.Legal) (hb : s.bus = .reference)
    (hstop : i = .stop → s.ee.pagebuf = [] ∧ s.eng.act ≠ .txAddr ∧ s.eng.act ≠ .txData)
    (ho : isPaged i = true → s.ee.out ≠ .driving) (hr : refusalCause i s = none) :
    (bodyOf i (accept i s)).All (fun _ => Safe (storesTo i s.len.toNat) s) (Unchanged (storesTo i s.len.toNat) s) := by
  have hrest (hi : isPaged i = true) : On (storesTo i s.len.toNat) s (Rests .idle NotDriving) (accept i s) :=
    on_accept h hb (accepted_paged_rests h hi hr (ho hi))
  have hnone (hp : s.eng.stopp = false) : On (storesTo i s.len.toNat) s NoStop (accept i s) := on_accept h hb hp
  cases i with
  | init m =>
    obtain ⟨hact, hst, -⟩ := init_idle h hr
    obtain ⟨-, hin, -, -⟩ := accepted hr
    obtain ⟨-, hes, -⟩ := h.uninited (by simpa [isInit] using hin)
    exact blInit_safe m (on_accept h hb ⟨hes, hact, hst, trivial⟩)
  | start => exact blStart_noStop (hnone (accepted_start h hr).2)
  | stop =>
    obtain ⟨hp, htxa, htxd⟩ := hstop rfl
    exact (empty_kept.blStop (on_accept h hb ⟨hp, htxd, fun ha => absurd ha htxa⟩)).mono
      (fun _ _ hu => ⟨_, empty_kept.closing, hu⟩) fun _ hu => hu
  | wraddr a => exact blWriteAddress_noStop a (hnone (h.phaseInv.stopp_false (by simp [accepted_wraddr hr])))
  | wrbyte d => exact blWriteByte_noStop d (hnone (h.phaseInv.stopp_false (by simp [accepted_wrbyte hr])))
  | rdbyte k => exact blReadByte_noStop k (hnone (h.phaseInv.stopp_false (by simp [accepted_rdbyte hr])))
  | probe => exact over_safe sending_kept (pmProbe_over (hrest rfl))
  | mrd1 a => exact pmReadByte_safe a (hrest rfl)
  | mwr1 a d => exact over_safe sending_kept (pmWriteByte_over hleg a d rfl (hrest rfl))
  | mrdn a => exact pmReadBytes_safe a (hrest rfl)
  | mwrn a => exact over_safe sending_kept (pmWriteBytes_over hleg a (fun _ hx hx' => ⟨hx, hx'⟩) (hrest rfl))
  | waitrdy => exact over_safe sending_kept (readyWait_over (hrest rfl))

/-! ### Where the EEPROM is not on the bus -/

/-- The EEPROM is not on the bus, and holds the content `m`. -/
abbrev Apart (m : Memory) (u : State) : Prop := u.busy = true ∧ u.bus = .unknown ∧ u.ee.mem = m

/-- Nothing there changes MEM. -/
theorem apart_kept (m : Memory) : KeptByReads (Apart m) where
  busy h := h.1
  engine a h := ⟨by simpa using h.1, by simpa using h.2.1, by rw [engineStep_unknown a h.2.1]; exact h.2.2⟩
  ready h := h
  sched _ h := h
  draws _ h := h
  refused h := h
  read _ h := h
  sampled h := h
  spin _ h := h
  assertStart h := h
  assertStop h := h
  loadTx _ h := h
  setAckMode _ h := h
  readSr2 h := h
  readDr h := h
  phase _ h := h
  seq _ h := h
  err _ h := h
  retry _ h := h
  ticks _ h := h
  result _ h := h

theorem exec_apart {t : State} (hb : s.bus = .unknown) (hx : exec i s = .next t) : Since (fun u => u.ee.mem) s t := by
  have hk := (apart_kept s.ee.mem).and (epoch_kept s)
  have hacc : Apart s.ee.mem (accept i s) ∧ (accept i s).busy = true ∧ (accept i s).epoch = s.epoch :=
    ⟨⟨rfl, hb, rfl⟩, rfl, rfl⟩
  cases hi : isInit i with
  | true =>
    cases i with
    | init m =>
      exact exec_init_keeps hk.toKeptByAgents since_reset (fun _ h => h) (fun _ => hacc) (fun _ _ h _ => h.1.2.2)
        (fun _ _ _ => rfl) hx
    | start | stop | wraddr | wrbyte | rdbyte | probe | mrd1 | mwr1 | mrdn | mwrn | waitrdy => simp [isInit] at hi
  | false =>
    exact exec_keeps hk since_reset (fun _ h _ => h.1.2.2) (fun _ _ _ _ _ _ _ h => h) (fun _ _ _ _ _ h => h)
      (fun _ _ _ _ _ _ h => h) hi (fun _ => hacc) (fun _ _ h _ => h.1.2.2) (fun _ _ _ => rfl) hx

end

/-- Settles O41: on the reference bus every command keeps a property under which no STOP stores elsewhere; apart from it, nothing changes
MEM. -/
theorem memoryFrame : Obligations.MemoryFrame := by
  intro i s t x h hleg hstop ho hx hepoch hnot
  cases hb : s.bus with
  | unknown => exact memRead_congr (exec_apart hb hx hepoch) x
  | reference =>
    have hG : Unchanged (storesTo i s.len.toNat) s t :=
      exec_all (safe_kept _ s) (safe_resets _ s) hx (body_safe h hleg hb hstop ho)
        (fun _ _ ⟨_, _, hu⟩ => hu.unchanged) (fun _ hu => hu) fun _ _ _ _ _ => rfl
    exact hG hepoch x hnot

end Sys2Proof.Machine
end

section
/-!
PROOFS. What every step keeps of the wire: the trace follows the grammar of transactions (R98, R99, R132).
-/

namespace Sys2Proof.Machine

/-! ### The grammar and the engine -/

/-- The engine's flags and state agree, and the trace follows the grammar up to the place the engine's state stands for. -/
structure Engine.OnTrace (e : Engine) : Prop where
  inv : e.Inv
  wire : wireOf e.trace = some e.wire

/-- A symbol moves the wire by one step of the grammar. -/
theorem wireOf_append (t : List Symbol) (sym : Symbol) : wireOf (t ++ [sym]) = (wireOf t).bind (·.next sym) := by
  simp [wireOf, List.foldlM_append, Option.bind_eq_bind]

/-- What puts nothing on the wire keeps the trace on the grammar, when it leaves the engine at its place there. -/
theorem Engine.OnTrace.of_eq {e e' : Engine} (h : e.OnTrace) (hi : e'.Inv) (ht : e'.trace = e.trace)
    (hw : e'.wire = e.wire) : e'.OnTrace :=
  ⟨hi, by rw [ht, hw]; exact h.wire⟩

/-- A symbol the grammar allows keeps the trace on it, when the engine goes where the grammar does. -/
theorem Engine.OnTrace.emitted {e e' : Engine} {sym : Symbol} (h : e.OnTrace) (hi : e'.Inv) (ht : e'.trace = e.trace ++ [sym])
    (hw : e.wire.next sym = some e'.wire) : e'.OnTrace :=
  ⟨hi, by rw [ht, wireOf_append, h.wire]; exact hw⟩

/-! ### The accesses leave the engine at its place -/

@[simp] theorem assertStart_wire (e : Engine) : e.assertStart.wire = e.wire := by
  unfold Engine.assertStart
  split
  · rfl
  · split <;> rfl

@[simp] theorem assertStop_wire (e : Engine) : e.assertStop.wire = e.wire := by
  unfold Engine.assertStop
  split
  · rfl
  · split <;> rfl

@[simp] theorem loadTx_wire (b : Byte) (e : Engine) : (e.loadTx b).wire = e.wire := by
  unfold Engine.loadTx
  split
  · rfl
  · split <;> rfl

@[simp] theorem setAckMode_wire (k : Bool) (e : Engine) : (e.setAckMode k).wire = e.wire := by
  unfold Engine.setAckMode
  split <;> rfl

@[simp] theorem readSr1_wire (e : Engine) : e.readSr1.wire = e.wire := by
  unfold Engine.readSr1
  split <;> rfl

/-- The second step of the clear of ADDR leaves ES_ADDRHOLD for the state its direction stands for (R135). -/
theorem Engine.Inv.readSr2_wire {e : Engine} (h : e.Inv) : e.readSr2.wire = e.wire := by
  unfold Engine.readSr2
  split
  · rename_i hseen
    have hes : e.es = .addrHold := h.addr_state.1 (h.seen_addr hseen)
    cases hd : e.dir <;> simp [Engine.wire, hes, hd]
  · rfl

theorem Engine.OnTrace.assertStart {e : Engine} (h : e.OnTrace) : e.assertStart.OnTrace :=
  h.of_eq h.inv.assertStart (congrArg Prod.fst (assertStart_output e)) (by simp)

theorem Engine.OnTrace.assertStop {e : Engine} (h : e.OnTrace) : e.assertStop.OnTrace :=
  h.of_eq h.inv.assertStop (congrArg Prod.fst (assertStop_output e)) (by simp)

theorem Engine.OnTrace.loadTx {e : Engine} (h : e.OnTrace) (b : Byte) : (e.loadTx b).OnTrace :=
  h.of_eq (h.inv.loadTx b) (congrArg Prod.fst (loadTx_output b e)) (by simp)

theorem Engine.OnTrace.setAckMode {e : Engine} (h : e.OnTrace) (k : Bool) : (e.setAckMode k).OnTrace :=
  h.of_eq (h.inv.setAckMode k) (congrArg Prod.fst (setAckMode_output k e)) (by simp)

theorem Engine.OnTrace.readSr1 {e : Engine} (h : e.OnTrace) : e.readSr1.OnTrace :=
  h.of_eq h.inv.readSr1 (congrArg Prod.fst (readSr1_output e)) (by simp)

theorem Engine.OnTrace.readSr2 {e : Engine} (h : e.OnTrace) : e.readSr2.OnTrace :=
  h.of_eq h.inv.readSr2 (congrArg Prod.fst (readSr2_output e)) h.inv.readSr2_wire

theorem Engine.OnTrace.readDr {e : Engine} (h : e.OnTrace) : e.readDr.OnTrace := h.of_eq h.inv.readDr rfl rfl

/-! ### The engine steps follow the grammar -/

/-- START opens a transaction (R133). -/
theorem Engine.OnTrace.afterStart {e : Engine} (h : e.OnTrace) (ha : e.act = .start) : e.afterStart.OnTrace := by
  have hes : e.es = .idle := h.inv.act_start ha
  refine h.emitted (h.inv.afterStart ha) rfl ?_
  simp [Engine.wire, hes, Wire.next, Engine.afterStart]

/-- A repeated START comes before the address byte or between two bytes that are not refused (R133). -/
theorem Engine.OnTrace.afterRstart {e : Engine} (h : e.OnTrace) (ha : e.act = .rstart) : e.afterRstart.OnTrace := by
  refine h.emitted .afterRstart rfl ?_
  obtain hes | hes | hes := h.inv.act_rstart ha <;> simp [Engine.wire, hes, Wire.next, Engine.afterRstart]

/-- After START the address byte says which way the bytes go; refused, it leaves STOP only (R134). -/
theorem Engine.OnTrace.afterTxAddr {e : Engine} (h : e.OnTrace) (ha : e.act = .txAddr) (k : Bool) :
    (e.afterTxAddr k).OnTrace := by
  obtain ⟨hes, -⟩ := h.inv.act_txAddr ha
  have hi := h.inv.afterTxAddr ha k
  cases k with
  | true => exact h.emitted hi rfl (by simp [Engine.wire, hes, Wire.next, Engine.afterTxAddr])
  | false => exact h.emitted hi rfl (by simp [Engine.wire, hes, Wire.next, Engine.afterTxAddr])

/-- A data byte is sent where bytes are sent; refused, it leaves STOP only (R136). -/
theorem Engine.OnTrace.afterTxData {e : Engine} (h : e.OnTrace) (ha : e.act = .txData) (k : Bool) :
    (e.afterTxData k).OnTrace := by
  obtain ⟨hes, -⟩ := h.inv.act_txData ha
  have hi := h.inv.afterTxData ha k
  cases k with
  | true =>
    exact h.emitted hi rfl
      (by simp [Engine.wire, hes, Wire.next, Engine.afterTxData, Engine.shiftedOut, Engine.emit])
  | false => exact h.emitted hi rfl (by simp [Engine.wire, hes, Wire.next, Engine.afterTxData])

/-- A byte is received where bytes are received, whatever the acknowledge bit (R137). -/
theorem Engine.OnTrace.afterRx {e : Engine} (h : e.OnTrace) (ha : e.act = .rxData) (v : Byte) : (e.afterRx v).OnTrace := by
  obtain ⟨hes, -⟩ := h.inv.act_rxData ha
  refine h.emitted (h.inv.afterRx ha v) rfl ?_
  simp [Engine.wire, hes, Wire.next, Engine.afterRx, Engine.emit]

/-- STOP may come wherever a transaction is open (R139). -/
theorem Wire.next_stop {w : Wire} (h : w ≠ .free) : w.next .stop = some .free := by
  cases w <;> simp_all [Wire.next]

theorem Engine.wire_ne_free {e : Engine} (h : e.es ≠ .idle) : e.wire ≠ .free := by
  cases hes : e.es with
  | idle => exact absurd hes h
  | addrHold => cases hd : e.dir <;> simp [Engine.wire, hes, hd]
  | sb | tx | rx | nak => simp [Engine.wire, hes]

theorem Engine.OnTrace.afterStop {e : Engine} (h : e.OnTrace) (ha : e.act = .none) (hst : e.stopp = true) :
    e.afterStop.OnTrace :=
  h.emitted (.afterStop ha) rfl (Wire.next_stop (Engine.wire_ne_free (h.inv.stopp_open hst)))

/-- Every engine step puts on the wire what the grammar allows where the engine is (R141). -/
theorem engineStep_onTrace (a : Answer) {s : State} (h : s.eng.OnTrace) : (engineStep a s).eng.OnTrace := by
  unfold engineStep
  cases hact : s.eng.act with
  | start => exact h.afterStart hact
  | rstart => exact h.afterRstart hact
  | txAddr => exact h.afterTxAddr hact _
  | txData => exact h.afterTxData hact _
  | rxData => exact h.afterRx hact _
  | none =>
    simp only
    split
    · rename_i hst
      exact h.afterStop hact hst
    · exact h

theorem onTrace_reset : Engine.reset.OnTrace := ⟨Engine.reset_inv, rfl⟩

/-! ### Commands and steps -/

/-- The bodies of the commands, INIT apart, keep the trace on the grammar. -/
theorem onTrace_kept : KeptByReads (fun u => u.busy = true ∧ u.eng.OnTrace) where
  busy h := h.1
  engine a h := ⟨by simpa using h.1, engineStep_onTrace a h.2⟩
  ready h := h
  sched _ h := h
  draws _ h := h
  refused h := h
  read _ h := h
  sampled h := ⟨h.1, h.2.readSr1⟩
  spin _ h := h
  assertStart h := ⟨h.1, h.2.assertStart⟩
  assertStop h := ⟨h.1, h.2.assertStop⟩
  loadTx b h := ⟨h.1, h.2.loadTx b⟩
  setAckMode k h := ⟨h.1, h.2.setAckMode k⟩
  readSr2 h := ⟨h.1, h.2.readSr2⟩
  readDr h := ⟨h.1, h.2.readDr⟩
  phase _ h := h
  seq _ h := h
  err _ h := h
  retry _ h := h
  ticks _ h := h
  result _ h := h

/-- Every command keeps the trace on the grammar, refused, finished or cut short. -/
theorem exec_onTrace {i : Instr} {s t : State} (hi : s.Inv) (h : s.eng.OnTrace) (hx : exec i s = .next t) :
    t.eng.OnTrace := by
  cases hinit : isInit i with
  | true =>
    obtain ⟨m, rfl⟩ := eq_init_of_isInit hinit
    obtain ⟨he, -⟩ | ⟨he, -⟩ := exec_init_eng hi hx
    · rw [he]; exact h
    · rw [he]; exact onTrace_reset
  | false =>
    exact exec_keeps (R := fun u => u.eng.OnTrace) onTrace_kept (fun _ _ => onTrace_reset) (fun _ hu => hu.2)
      (fun _ _ _ _ _ _ _ hu => hu) (fun _ _ _ _ _ hu => hu) (fun _ _ _ _ _ _ hu => hu) hinit (fun _ => ⟨rfl, h⟩)
      (fun _ _ hu => hu.2) (fun _ _ => h) hx

/-- Every move of the host and the environment does. -/
theorem onTrace_moves : KeptByMoves (fun u => u.eng.OnTrace) where
  engine a h := engineStep_onTrace a h
  ready h := h
  sched _ h := h
  draws _ h := h
  refused _ _ h := h
  read _ h := h
  write off v h := by simpa using h
  reset _ := onTrace_reset
  host _ h := h

/-- Settles O18: with the invariant, which says in what state of the engine each symbol can be pending. -/
theorem traceFollowsGrammar : Obligations.TraceFollowsGrammar := fun _ _ hi h ht =>
  ((inv_moves.and onTrace_moves).step (fun hs hx => ⟨exec_inv hs.1 hx, exec_onTrace hs.1 hs.2 hx⟩)
    ⟨hi, hi.engine, h⟩ ht).2.wire

end Sys2Proof.Machine
end

section
/-!
PROOFS. The encoding (R91 to R97): a command word by its fields, decoding and encoding as inverses, the words of the opcode
table, and illegal words.
-/

namespace Sys2Proof

/-! ### The fields of a word put together -/

/-- The operand field `w[23:0]` (R91). -/
def argField (w : Word) : BitVec 24 := w.extractLsb' 0 24

@[simp] theorem opField_wordOf (op : Byte) (arg : BitVec 24) : opField (wordOf op arg) = op :=
  BitVec.extractLsb'_append_eq_left

/-- A part of the operand field is that part of the operand. -/
theorem extractLsb'_wordOf {start len : Nat} (h : start + len ≤ 24) (op : Byte) (arg : BitVec 24) :
    (wordOf op arg).extractLsb' start len = arg.extractLsb' start len :=
  BitVec.extractLsb'_append_eq_of_add_le h

/-- An operand of `n` bits is read back from the low `n` bits (R92). -/
theorem operand_wordOf {n : Nat} (h : n ≤ 24) (op : Byte) (x : BitVec n) :
    (wordOf op (x.setWidth 24)).extractLsb' 0 n = x := by
  rw [extractLsb'_wordOf (by omega), BitVec.extractLsb'_setWidth_of_le (by omega), BitVec.extractLsb'_eq_self]

/-- The bits above an operand are 0 (R92). -/
theorem reserved_wordOf {n k : Nat} (h : n + k ≤ 24) (op : Byte) (x : BitVec n) :
    (wordOf op (x.setWidth 24)).extractLsb' n k = 0 := by
  rw [extractLsb'_wordOf h, BitVec.extractLsb'_setWidth_of_le h]
  ext j hj
  simp

@[simp] theorem bitField_wordOf (op : Byte) (b : Bool) : bitField (wordOf op ((BitVec.ofBool b).setWidth 24)) = b := by
  have h := operand_wordOf (by decide) op (BitVec.ofBool b)
  simpa [bitField] using congrArg (·.getLsbD 0) h

@[simp] theorem lowByte_wordOf (op x : Byte) : lowByte (wordOf op (x.setWidth 24)) = x := operand_wordOf (by decide) op x

@[simp] theorem addrField_wordOf (op : Byte) (a : MemAddr) : addrField (wordOf op (a.setWidth 24)) = a :=
  operand_wordOf (by decide) op a

@[simp] theorem addrField_wordOf_append (op d : Byte) (a : MemAddr) : addrField (wordOf op (d ++ a)) = a :=
  (extractLsb'_wordOf (by decide) op _).trans BitVec.extractLsb'_append_eq_right

@[simp] theorem midByte_wordOf_append (op d : Byte) (a : MemAddr) : midByte (wordOf op (d ++ a)) = d :=
  (extractLsb'_wordOf (by decide) op _).trans BitVec.extractLsb'_append_eq_left

@[simp] theorem reservedN_wordOf (op : Byte) : reservedN (wordOf op 0#24) = true := by
  rw [reservedN, extractLsb'_wordOf (by decide)]
  rfl

@[simp] theorem reservedIK_wordOf (op : Byte) (x : BitVec 1) : reservedIK (wordOf op (x.setWidth 24)) = true := by
  simp [reservedIK, reserved_wordOf]

@[simp] theorem reservedAB_wordOf (op x : Byte) : reservedAB (wordOf op (x.setWidth 24)) = true := by
  simp [reservedAB, reserved_wordOf]

@[simp] theorem reservedM_wordOf (op : Byte) (a : MemAddr) : reservedM (wordOf op (a.setWidth 24)) = true := by
  simp [reservedM, midByte, reserved_wordOf]

@[simp] theorem busModeOf_busModeBit (m : BusMode) : busModeOf (busModeBit m) = m := by cases m <;> rfl

@[simp] theorem busModeBit_busModeOf (b : Bool) : busModeBit (busModeOf b) = b := by cases b <;> rfl

@[simp] theorem whenReserved_true (i : Instr) : whenReserved true i = some i := rfl

theorem whenReserved_eq_some {ok : Bool} {i j : Instr} : whenReserved ok i = some j ↔ ok = true ∧ i = j := by
  cases ok <;> simp [whenReserved]

/-- Every command is read back from its own word: the opcode picks the branch, and the format's fields hold the operands. -/
theorem decode_encode (i : Instr) : decode (encode i) = some i := by
  cases i <;> simp [decode, encode]

/-- Settles O2: the fields of a word that was put together are what it was put together from. -/
theorem decodeEncode : Obligations.DecodeEncode := decode_encode

/-! ### A word taken apart -/

/-- A word is its opcode and its operand field. -/
theorem wordOf_fields (w : Word) : wordOf (opField w) (argField w) = w :=
  (BitVec.extractLsb'_append_extractLsb'_eq_extractLsb' (x := w) rfl).trans BitVec.extractLsb'_eq_self

/-- A word whose bits above its low `n` are 0, up to its opcode, is that opcode with those `n` bits (R92). -/
theorem wordOf_operand {n k : Nat} (hnk : n + k = 24) {op : Byte} {w : Word} (hop : opField w = op)
    (hr : w.extractLsb' n k = 0) : wordOf op ((w.extractLsb' 0 n).setWidth 24) = w := by
  have harg : (w.extractLsb' 0 n).setWidth 24 = argField w := by
    ext j hj
    by_cases hjn : j < n
    · simp [argField, hjn]
    · have hbit : (w.extractLsb' n k).getLsbD (j - n) = false := by rw [hr]; simp
      rw [BitVec.getLsbD_extractLsb', Nat.add_sub_cancel' (by omega)] at hbit
      have hjk : j - n < k := by omega
      simpa [argField, hjn, hjk] using hbit
  rw [← hop, harg, wordOf_fields]

theorem ofBool_bitField (w : Word) : BitVec.ofBool (bitField w) = w.extractLsb' 0 1 := by
  ext j hj
  obtain rfl : j = 0 := by omega
  simp [bitField]

/-- The word of a command without operands (format N). -/
theorem wordOf_reservedN {op : Byte} {w : Word} (hop : opField w = op) (hr : reservedN w = true) : wordOf op 0 = w := by
  rw [← wordOf_fields w, hop, show argField w = 0 from eq_of_beq hr]

/-- The word of a command with a bit (formats I and K). -/
theorem wordOf_reservedIK {op : Byte} {w : Word} (hop : opField w = op) (hr : reservedIK w = true) :
    wordOf op ((BitVec.ofBool (bitField w)).setWidth 24) = w := by
  rw [ofBool_bitField]
  exact wordOf_operand rfl hop (eq_of_beq hr)

theorem encode_init_bitField {w : Word} (hop : opField w = 0x01) (hr : reservedIK w = true) :
    encode (.init (busModeOf (bitField w))) = w := by
  rw [encode, busModeBit_busModeOf, wordOf_reservedIK hop hr]

/-- The word of a command with a byte (formats A and B). -/
theorem wordOf_reservedAB {op : Byte} {w : Word} (hop : opField w = op) (hr : reservedAB w = true) :
    wordOf op ((lowByte w).setWidth 24) = w := wordOf_operand rfl hop (eq_of_beq hr)

/-- The word of a command with an address (format M). -/
theorem wordOf_reservedM {op : Byte} {w : Word} (hop : opField w = op) (hr : reservedM w = true) :
    wordOf op ((addrField w).setWidth 24) = w := wordOf_operand rfl hop (eq_of_beq hr)

/-- The word of a command with an address and a byte (format MD), which has no reserved bit. -/
theorem wordOf_midByte_addrField {op : Byte} {w : Word} (hop : opField w = op) :
    wordOf op (midByte w ++ addrField w) = w := by
  subst hop
  exact (congrArg _ (BitVec.extractLsb'_append_extractLsb'_eq_extractLsb' (x := w) rfl)).trans (wordOf_fields w)

/-- A branch of the decoder gives a command's own word, when its check says that the format's reserved bits are 0. -/
theorem encode_of_whenReserved {ok : Bool} {i j : Instr} {w : Word} (h : whenReserved ok j = some i)
    (hw : ok = true → encode j = w) : encode i = w := by
  obtain ⟨hok, rfl⟩ := whenReserved_eq_some.1 h
  exact hw hok

/-- A word that decodes is its command's own: the branch gives the opcode, and its check the reserved bits. -/
theorem encode_of_decode {w : Word} {i : Instr} (h : decode w = some i) : encode i = w := by
  unfold decode at h
  obtain ⟨hop, h⟩ | ⟨-, h⟩ := ite_eq_iff.1 h
  · exact encode_of_whenReserved h (encode_init_bitField hop)
  obtain ⟨hop, h⟩ | ⟨-, h⟩ := ite_eq_iff.1 h
  · exact encode_of_whenReserved h (wordOf_reservedN hop)
  obtain ⟨hop, h⟩ | ⟨-, h⟩ := ite_eq_iff.1 h
  · exact encode_of_whenReserved h (wordOf_reservedN hop)
  obtain ⟨hop, h⟩ | ⟨-, h⟩ := ite_eq_iff.1 h
  · exact encode_of_whenReserved h (wordOf_reservedAB hop)
  obtain ⟨hop, h⟩ | ⟨-, h⟩ := ite_eq_iff.1 h
  · exact encode_of_whenReserved h (wordOf_reservedAB hop)
  obtain ⟨hop, h⟩ | ⟨-, h⟩ := ite_eq_iff.1 h
  · exact encode_of_whenReserved h (wordOf_reservedIK hop)
  obtain ⟨hop, h⟩ | ⟨-, h⟩ := ite_eq_iff.1 h
  · exact encode_of_whenReserved h (wordOf_reservedN hop)
  obtain ⟨hop, h⟩ | ⟨-, h⟩ := ite_eq_iff.1 h
  · exact encode_of_whenReserved h (wordOf_reservedM hop)
  obtain ⟨hop, h⟩ | ⟨-, h⟩ := ite_eq_iff.1 h
  · obtain rfl := Option.some.inj h
    exact wordOf_midByte_addrField hop
  obtain ⟨hop, h⟩ | ⟨-, h⟩ := ite_eq_iff.1 h
  · exact encode_of_whenReserved h (wordOf_reservedM hop)
  obtain ⟨hop, h⟩ | ⟨-, h⟩ := ite_eq_iff.1 h
  · exact encode_of_whenReserved h (wordOf_reservedM hop)
  obtain ⟨hop, h⟩ | ⟨-, h⟩ := ite_eq_iff.1 h
  · exact encode_of_whenReserved h (wordOf_reservedN hop)
  cases h

/-- Settles O3: by the branch of the decoder. -/
theorem encodeDecode : Obligations.EncodeDecode := fun _ _ => encode_of_decode

/-- Settles O1: each word is the encoding of its command. -/
theorem sampleWordsDecode : Obligations.SampleWordsDecode :=
  ⟨decode_encode (.init .std), decode_encode (.init .fast), decode_encode .start, decode_encode .stop,
    decode_encode (.wraddr 0xA0), decode_encode (.wrbyte 0x12), decode_encode (.rdbyte false), decode_encode (.rdbyte true),
    decode_encode .probe, decode_encode (.mrd1 0x0123), decode_encode (.mwr1 0x0123 0xAB), decode_encode (.mrdn 0x0010),
    decode_encode (.mwrn 0x0064), decode_encode .waitrdy⟩

/-! ### The words of the opcode table -/

/-- A word has a row's bits wherever the row fixes them. -/
theorem extractLsb'_of_matches {r : OpcodeRow} {w : Word} (h : r.matchesWord w = true) {start len : Nat}
    (hm : r.mask.extractLsb' start len = BitVec.allOnes len) :
    w.extractLsb' start len = r.value.extractLsb' start len := by
  rw [← (eq_of_beq h : w &&& r.mask = r.value), BitVec.extractLsb'_and, hm, BitVec.and_allOnes]

/-- A word that matches a row of the table is the encoding of a command of that row. -/
theorem encode_of_matches {r : OpcodeRow} {w : Word} (hr : r ∈ opcodeRows) (h : r.matchesWord w = true) :
    ∃ i : Instr, r.mnemonic = i.mnemonic ∧ encode i = w := by
  have hop (op : Byte) (hm : r.mask.extractLsb' 24 8 = BitVec.allOnes 8) (hv : r.value.extractLsb' 24 8 = op) :
      opField w = op := (extractLsb'_of_matches h hm).trans hv
  have hz (n k : Nat) (hm : r.mask.extractLsb' n k = BitVec.allOnes k) (hv : r.value.extractLsb' n k = 0) :
      (w.extractLsb' n k == 0) = true := beq_of_eq ((extractLsb'_of_matches h hm).trans hv)
  simp only [opcodeRows, busLineRows, pagedRows, List.cons_append, List.nil_append, List.mem_cons, List.not_mem_nil,
    or_false] at hr
  obtain rfl | rfl | rfl | rfl | rfl | rfl | rfl | rfl | rfl | rfl | rfl | rfl := hr
  · exact ⟨.init (busModeOf (bitField w)), rfl, encode_init_bitField (hop _ rfl rfl) (hz _ _ rfl rfl)⟩
  · exact ⟨.start, rfl, wordOf_reservedN (hop _ rfl rfl) (hz _ _ rfl rfl)⟩
  · exact ⟨.stop, rfl, wordOf_reservedN (hop _ rfl rfl) (hz _ _ rfl rfl)⟩
  · exact ⟨.wraddr (lowByte w), rfl, wordOf_reservedAB (hop _ rfl rfl) (hz _ _ rfl rfl)⟩
  · exact ⟨.wrbyte (lowByte w), rfl, wordOf_reservedAB (hop _ rfl rfl) (hz _ _ rfl rfl)⟩
  · exact ⟨.rdbyte (bitField w), rfl, wordOf_reservedIK (hop _ rfl rfl) (hz _ _ rfl rfl)⟩
  · exact ⟨.probe, rfl, wordOf_reservedN (hop _ rfl rfl) (hz _ _ rfl rfl)⟩
  · exact ⟨.mrd1 (addrField w), rfl, wordOf_reservedM (hop _ rfl rfl) (hz _ _ rfl rfl)⟩
  · exact ⟨.mwr1 (addrField w) (midByte w), rfl, wordOf_midByte_addrField (hop _ rfl rfl)⟩
  · exact ⟨.mrdn (addrField w), rfl, wordOf_reservedM (hop _ rfl rfl) (hz _ _ rfl rfl)⟩
  · exact ⟨.mwrn (addrField w), rfl, wordOf_reservedM (hop _ rfl rfl) (hz _ _ rfl rfl)⟩
  · exact ⟨.waitrdy, rfl, wordOf_reservedN (hop _ rfl rfl) (hz _ _ rfl rfl)⟩

/-- Every command's word matches a row of its mnemonic. -/
theorem exists_row (i : Instr) : ∃ r ∈ opcodeRows, r.mnemonic = i.mnemonic ∧ r.matchesWord (encode i) = true := by
  cases i with
  | init m => exact Laws.Legal.init m
  | start => exact Laws.Legal.start
  | stop => exact Laws.Legal.stop
  | wraddr a => exact Laws.Legal.wraddr a
  | wrbyte d => exact Laws.Legal.wrbyte d
  | rdbyte k => exact Laws.Legal.rdbyte k
  | probe => exact Laws.Legal.probe
  | mrd1 a => exact Laws.Legal.mrd1 a
  | mwr1 a d => exact Laws.Legal.mwr1 a d
  | mrdn a => exact Laws.Legal.mrdn a
  | mwrn a => exact Laws.Legal.mwrn a
  | waitrdy => exact Laws.Legal.waitrdy

/-- No two rows of the table share a mnemonic. -/
theorem row_eq_of_mnemonic {r r' : OpcodeRow} (hr : r ∈ opcodeRows) (hr' : r' ∈ opcodeRows)
    (h : r.mnemonic = r'.mnemonic) : r = r' :=
  List.inj_on_of_nodup_map (f := OpcodeRow.mnemonic) (by decide) hr hr' h

/-- A command's word matches exactly the row of its mnemonic. -/
theorem matches_encode_iff {r : OpcodeRow} (hr : r ∈ opcodeRows) (i : Instr) :
    r.matchesWord (encode i) = true ↔ r.mnemonic = i.mnemonic := by
  constructor
  · intro h
    obtain ⟨j, hj, he⟩ := encode_of_matches hr h
    have hji : j = i := Option.some.inj (by rw [← decode_encode j, he, decode_encode i])
    rwa [← hji]
  · intro h
    obtain ⟨r', hr', hm, hw⟩ := exists_row i
    rwa [row_eq_of_mnemonic hr hr' (h.trans hm.symm)]

/-- The legal words are the encodings (R96). -/
theorem legalWord_iff_encode {w : Word} : legalWord w = true ↔ ∃ i, encode i = w := by
  rw [legalWord, List.any_eq_true]
  constructor
  · rintro ⟨r, hr, h⟩
    obtain ⟨i, -, he⟩ := encode_of_matches hr h
    exact ⟨i, he⟩
  · rintro ⟨i, rfl⟩
    obtain ⟨r, hr, -, h⟩ := exists_row i
    exact ⟨r, hr, h⟩

/-- So are the words that decode. -/
theorem decode_eq_some_iff {w : Word} {i : Instr} : decode w = some i ↔ encode i = w :=
  ⟨encode_of_decode, fun h => h ▸ decode_encode i⟩

/-- Settles O4: both are the encodings, and a command's word matches the row of its mnemonic. -/
theorem decodesLegalWords : Obligations.DecodesLegalWords := by
  intro w
  refine ⟨?_, fun i r h hr => ?_⟩
  · simp only [legalWord_iff_encode, Option.isSome_iff_exists, decode_eq_some_iff]
  · rw [← encode_of_decode h]
    exact matches_encode_iff hr i

/-! ### Illegal words -/

theorem wordOf_toNat (op : Byte) (arg : BitVec 24) : (wordOf op arg).toNat = 2 ^ 24 * op.toNat + arg.toNat := by
  rw [Nat.two_pow_add_eq_or_of_lt arg.isLt, Nat.mul_comm, ← Nat.shiftLeft_eq]
  exact BitVec.toNat_append op arg

theorem wordOf_div (op : Byte) (arg : BitVec 24) : (wordOf op arg).toNat / 2 ^ 24 = op.toNat := by
  rw [wordOf_toNat]; omega

theorem wordOf_mod (op : Byte) (arg : BitVec 24) : (wordOf op arg).toNat % 2 ^ 24 = arg.toNat := by
  rw [wordOf_toNat]; omega

/-- An operand has no bit above its width. -/
theorem operand_div {n : Nat} (x : BitVec n) : (x.setWidth 24).toNat / 2 ^ n = 0 :=
  Nat.div_eq_of_lt (lt_of_le_of_lt (by simpa using Nat.mod_le _ _) x.isLt)

/-- A word is illegal: its opcode is reserved, or a reserved bit of its opcode's format is set (R92, R95, R96). -/
def Illegal (w : Word) : Prop :=
  w.toNat / 2 ^ 24 ∉ [0x01, 0x02, 0x03, 0x04, 0x05, 0x06, 0x10, 0x11, 0x12, 0x13, 0x14, 0x15] ∨
    (w.toNat / 2 ^ 24 ∈ [0x02, 0x03, 0x10, 0x15] ∧ w.toNat % 2 ^ 24 ≠ 0) ∨
    (w.toNat / 2 ^ 24 ∈ [0x01, 0x06] ∧ w.toNat % 2 ^ 24 / 2 ≠ 0) ∨
    (w.toNat / 2 ^ 24 ∈ [0x04, 0x05] ∧ w.toNat % 2 ^ 24 / 2 ^ 8 ≠ 0) ∨
    (w.toNat / 2 ^ 24 ∈ [0x11, 0x13, 0x14] ∧ w.toNat % 2 ^ 24 / 2 ^ 16 ≠ 0)

/-- No encoding is illegal: its opcode is listed, and its format's operand leaves the bits above it 0. -/
theorem not_illegal_encode (i : Instr) : ¬ Illegal (encode i) := by
  have hbit (x : BitVec 1) : (x.setWidth 24).toNat / 2 = 0 := operand_div x
  cases i <;> simp only [Illegal, encode, wordOf_div, wordOf_mod, operand_div, hbit] <;> simp

theorem decode_illegal {w : Word} (h : Illegal w) : decode w = none := by
  cases hd : decode w with
  | none => rfl
  | some i => exact absurd (encode_of_decode hd ▸ h) (not_illegal_encode i)

end Sys2Proof
end

section
/-!
PROOFS. What becomes of a word written to CMD: an illegal word is refused (R96), and every word is checked in the order of R97.
-/

namespace Sys2Proof.Machine

/-- Settles O5: an illegal word does not decode. -/
theorem illegalWordRefused : Obligations.IllegalWordRefused := by
  refine ⟨by decide, fun w s hb h => ?_⟩
  rw [present_of_decode_none (decode_illegal h), illegalCause, if_neg (by simp [hb])]
  rfl

/-! ### The acceptance checks (R97) -/

/-- Check 3: INIT is refused after INIT, everything else before it. -/
theorem isInit_beq_inited_iff (i : Instr) (s : State) :
    (isInit i == s.inited) = true ↔ (isInit i = true ∧ s.inited = true) ∨ (isInit i = false ∧ s.inited = false) := by
  cases isInit i <;> cases s.inited <;> simp

/-- Check 4 by the columns of the table: the PHASE values, and the direction. -/
theorem not_phaseAllows_iff (i : Instr) (s : State) :
    (!phaseAllows i s) = true ↔ s.phase ∉ phasesOf i ∨ (dirNeeded i = some true ∧ s.eng.dir = false) ∨
      (dirNeeded i = some false ∧ s.eng.dir = true) := by
  cases i with
  | stop => cases hp : s.phase <;> simp [phaseAllows, phasesOf, dirNeeded]
  | start => simp [phaseAllows, phasesOf, dirNeeded, and_assoc]
  | wrbyte d => cases hd : s.eng.dir <;> simp [phaseAllows, phasesOf, dirNeeded, hd]
  | rdbyte k => cases hd : s.eng.dir <;> simp [phaseAllows, phasesOf, dirNeeded, hd]
  | init | wraddr | probe | mrd1 | mwr1 | mrdn | mwrn | waitrdy => simp [phaseAllows, phasesOf, dirNeeded]

/-- Check 5 concerns START in Idle and the commands of L2. -/
theorem reusesBus_iff (i : Instr) (s : State) :
    reusesBus i s = true ↔ (i = .start ∧ s.phase = .idle) ∨ isPaged i = true := by
  cases i <;> simp [reusesBus, isPaged]

/-- Check 6 concerns MRDN and MWRN. -/
theorem lenTooLong_iff (i : Instr) (s : State) :
    lenTooLong i s = true ↔ (i.mnemonic = "MRDN" ∨ i.mnemonic = "MWRN") ∧ s.cfg.bufSize < s.len.toNat := by
  cases i <;> simp [lenTooLong, Instr.mnemonic]

/-- Settles O7: check by check. -/
theorem acceptanceChecks : Obligations.AcceptanceChecks := by
  intro w s
  split
  · rename_i hb
    exact present_busy hb w
  · rename_i hb
    split
    · rename_i hd
      rw [present_of_decode_none hd, illegalCause, if_neg hb]
      rfl
    · rename_i i hd
      rw [present_of_decode hd, exec_eq, command, refusalCause, if_neg hb]
      simp only [isInit_beq_inited_iff, not_phaseAllows_iff, Bool.and_eq_true, reusesBus_iff, lenTooLong_iff]
      split_ifs <;> rfl

end Sys2Proof.Machine
end

section
/-!
PROOFS. The line engine, access by access and step by step (R133 to R141): one equation per case of each, and from them what an
accepted BusLine command finds where it comes to its call of the engine (R140).
-/

namespace Sys2Proof.Machine

variable {e : Engine} {s t : State} {i : Instr}

/-! ### The accesses, case by case -/

theorem assertStart_idle (hes : e.es = .idle) (ha : e.act = .none) (hst : e.stopp = false) :
    e.assertStart = { e with af := false, act := .start } := if_pos ⟨hes, ha, hst⟩

theorem assertStart_open (hes : e.es = .sb ∨ e.es = .tx ∨ e.es = .rx) (ha : e.act = .none) :
    e.assertStart = { e with af := false, act := .rstart } := by
  have hidle : ¬(e.es = .idle ∧ e.act = .none ∧ e.stopp = false) := fun h => by simp [h.1] at hes
  rw [Engine.assertStart, if_neg hidle, if_pos ⟨hes, ha⟩]

theorem assertStart_outside (hidle : ¬(e.es = .idle ∧ e.act = .none ∧ e.stopp = false))
    (hopen : ¬((e.es = .sb ∨ e.es = .tx ∨ e.es = .rx) ∧ e.act = .none)) : e.assertStart = { e with af := false } := by
  rw [Engine.assertStart, if_neg hidle, if_neg hopen]

theorem loadTx_sb (b : Byte) (hes : e.es = .sb) (ha : e.act = .none) :
    e.loadTx b = { e with dr := b, sb := false, act := .txAddr } := if_pos ⟨hes, ha⟩

theorem loadTx_tx (b : Byte) (hes : e.es = .tx) (ha : e.act = .none) (htxe : e.txe = true) :
    e.loadTx b = { e with dr := b, txe := false, act := .txData } := by
  rw [Engine.loadTx, if_neg (by simp [hes]), if_pos ⟨hes, ha, htxe⟩]

theorem loadTx_outside (b : Byte) (hsb : ¬(e.es = .sb ∧ e.act = .none))
    (htx : ¬(e.es = .tx ∧ e.act = .none ∧ e.txe = true)) : e.loadTx b = e := by
  rw [Engine.loadTx, if_neg hsb, if_neg htx]

theorem setAckMode_rx (k : Bool) (hes : e.es = .rx) (ha : e.act = .none) (hrxne : e.rxne = false) :
    e.setAckMode k = { e with acken := k, act := .rxData } := if_pos ⟨hes, ha, hrxne⟩

theorem setAckMode_outside (k : Bool) (h : ¬(e.es = .rx ∧ e.act = .none ∧ e.rxne = false)) :
    e.setAckMode k = { e with acken := k } := if_neg h

theorem readSr1_eq (e : Engine) : e.readSr1 = { e with addrSeen := e.addrSeen || e.addr } := by
  unfold Engine.readSr1
  split <;> rename_i ha
  · rw [show (e.addrSeen || e.addr) = true by simp [ha]]
  · rw [show (e.addrSeen || e.addr) = e.addrSeen by simp [ha]]

theorem readSr2_transmitter (hseen : e.addrSeen = true) (hdir : e.dir = false) :
    e.readSr2 = { e with addr := false, addrSeen := false, es := .tx, txe := true } := by
  rw [Engine.readSr2, if_pos hseen, if_neg (by simp [hdir])]

theorem readSr2_receiver (hseen : e.addrSeen = true) (hdir : e.dir = true) :
    e.readSr2 = { e with addr := false, addrSeen := false, es := .rx } := by
  rw [Engine.readSr2, if_pos hseen, if_pos hdir]

theorem readSr2_unseen (hseen : e.addrSeen = false) : e.readSr2 = e := if_neg (by simp [hseen])

theorem assertStop_idle (hes : e.es = .idle) (ha : e.act = .none) : e.assertStop = e := if_pos ⟨hes, ha⟩

theorem assertStop_cancels (hes : e.es = .idle) (ha : e.act = .start) : e.assertStop = { e with act := .none } := by
  rw [Engine.assertStop, if_neg (by simp [ha]), if_pos ⟨hes, ha⟩]

theorem assertStop_open (h : ¬(e.es = .idle ∧ (e.act = .none ∨ e.act = .start))) :
    e.assertStop = { e with stopp := true } := by
  rw [Engine.assertStop, if_neg fun hn => h ⟨hn.1, .inl hn.2⟩, if_neg fun hn => h ⟨hn.1, .inr hn.2⟩]

/-! ### The engine steps, activity by activity -/

theorem engineStep_start (ans : Answer) (ha : s.eng.act = .start) :
    (engineStep ans s).eng = { s.eng with
      trace := s.eng.trace ++ [.start], sb := true, es := .sb, act := .none, sclO := false, sdaO := false } := by
  rw [engineStep, ha]; rfl

theorem engineStep_rstart (ans : Answer) (ha : s.eng.act = .rstart) :
    (engineStep ans s).eng = { s.eng with
      trace := s.eng.trace ++ [.rstart], sb := true, addr := false, txe := false, rxne := false, addrSeen := false
      es := .sb, act := .none, sclO := false, sdaO := false } := by
  rw [engineStep, ha]; rfl

/-- The address byte on the wire, acknowledged (R134). -/
theorem engineStep_txAddr_ack (ans : Answer) (ha : s.eng.act = .txAddr) (hk : (s.slaveByte ans s.eng.dr).1 = true) :
    (engineStep ans s).eng = { s.eng with
      trace := s.eng.trace ++ [.tx s.eng.dr true], shift := 0, bitcnt := 0, act := .none, addr := true
      dir := s.eng.dr.getLsbD 0, es := .addrHold, sclO := false, sdaO := true } := by
  rw [engineStep, ha]; simp only [hk]; rfl

/-- The address byte on the wire, not acknowledged (R134). -/
theorem engineStep_txAddr_nak (ans : Answer) (ha : s.eng.act = .txAddr) (hk : (s.slaveByte ans s.eng.dr).1 = false) :
    (engineStep ans s).eng = { s.eng with
      trace := s.eng.trace ++ [.tx s.eng.dr false], shift := 0, bitcnt := 0, act := .none, af := true, es := .nak
      sclO := false, sdaO := true } := by
  rw [engineStep, ha]; simp only [hk]; rfl

/-- A data byte on the wire, acknowledged (R136). -/
theorem engineStep_txData_ack (ans : Answer) (ha : s.eng.act = .txData) (hk : (s.slaveByte ans s.eng.dr).1 = true) :
    (engineStep ans s).eng = { s.eng with
      trace := s.eng.trace ++ [.tx s.eng.dr true], shift := 0, bitcnt := 0, act := .none, txe := true
      sclO := false, sdaO := true } := by
  rw [engineStep, ha]; simp only [hk]; rfl

/-- A data byte on the wire, not acknowledged (R136). -/
theorem engineStep_txData_nak (ans : Answer) (ha : s.eng.act = .txData) (hk : (s.slaveByte ans s.eng.dr).1 = false) :
    (engineStep ans s).eng = { s.eng with
      trace := s.eng.trace ++ [.tx s.eng.dr false], shift := 0, bitcnt := 0, act := .none, af := true, es := .nak
      sclO := false, sdaO := true } := by
  rw [engineStep, ha]; simp only [hk]; rfl

theorem engineStep_rxData (ans : Answer) (ha : s.eng.act = .rxData) :
    (engineStep ans s).eng = { s.eng with
      trace := s.eng.trace ++ [.rx (s.slaveRead ans s.eng.acken).1 s.eng.acken], shift := (s.slaveRead ans s.eng.acken).1
      bitcnt := 0, dr := (s.slaveRead ans s.eng.acken).1, rxne := true, act := .none, sclO := false, sdaO := true } := by
  rw [engineStep, ha]; rfl

theorem engineStep_stop (ans : Answer) (ha : s.eng.act = .none) (hst : s.eng.stopp = true) :
    (engineStep ans s).eng = { s.eng with
      trace := s.eng.trace ++ [.stop], sb := false, addr := false, txe := false, rxne := false, addrSeen := false
      stopp := false, es := .idle, sclO := true, sdaO := true } := by
  rw [engineStep, ha]; simp only [hst]; rfl

theorem afterTxAddr_trace (k : Bool) (e : Engine) : (e.afterTxAddr k).trace = e.trace ++ [.tx e.dr k] := by
  cases k <;> rfl

theorem afterTxData_trace (k : Bool) (e : Engine) : (e.afterTxData k).trace = e.trace ++ [.tx e.dr k] := by
  cases k <;> rfl

/-- An enabled step puts one symbol on the wire (R141). -/
theorem engineStep_emits (ans : Answer) (h : s.eng.act ≠ .none ∨ s.eng.stopp = true) :
    ∃ sym, (engineStep ans s).eng.trace = s.eng.trace ++ [sym] := by
  unfold engineStep
  cases ha : s.eng.act with
  | start | rstart | rxData => exact ⟨_, rfl⟩
  | txAddr => exact ⟨_, afterTxAddr_trace _ _⟩
  | txData => exact ⟨_, afterTxData_trace _ _⟩
  | none =>
    have hst : s.eng.stopp = true := h.resolve_left fun hn => hn ha
    simp only [hst]
    exact ⟨_, rfl⟩

/-- A pending STOP waits for the activity before it (R139). -/
theorem engineStep_stopp_of_act (ans : Answer) (ha : s.eng.act ≠ .none) :
    (engineStep ans s).eng.stopp = s.eng.stopp := by
  unfold engineStep
  cases hact : s.eng.act with
  | start | rstart | rxData => rfl
  | txAddr => exact afterTxAddr_stopp _ _
  | txData => exact afterTxData_stopp _ _
  | none => exact absurd hact ha

/-! ### The accesses and steps as the rules state them -/

/-- Settles O28: activity by activity. -/
theorem engineStepOneSymbol : Obligations.EngineStepOneSymbol := by
  refine fun ans s => ⟨fun h => ?_, engineStep_none ans⟩
  obtain ⟨sym, htrace⟩ := engineStep_emits ans h
  exact ⟨sym, htrace, engineStep_act ans s⟩

/-- Settles O22: the cases of the access, and of the two steps. -/
theorem assertStart : Obligations.AssertStart :=
  ⟨fun _ => ⟨assertStart_idle, assertStart_open, assertStart_outside⟩,
    fun ans _ => ⟨engineStep_start ans, engineStep_rstart ans⟩⟩

/-- Settles O23: by the acknowledge bit. -/
theorem loadTx : Obligations.LoadTx := by
  refine ⟨fun e b => ⟨loadTx_sb b, loadTx_tx b, loadTx_outside b⟩, fun ans s k hk => ⟨?_, ?_⟩⟩
  · rintro ha f rfl
    cases k with
    | true => simp [engineStep_txAddr_ack ans ha hk.symm]
    | false => simp [engineStep_txAddr_nak ans ha hk.symm]
  · rintro ha f rfl
    cases k with
    | true => simp [engineStep_txData_ack ans ha hk.symm]
    | false => simp [engineStep_txData_nak ans ha hk.symm]

/-- Settles O24: the cases of the two reads; ES_ADDRHOLD is outside the preconditions of the other two accesses. -/
theorem twoStepClear : Obligations.TwoStepClear := fun e =>
  ⟨rfl, readSr1_eq e, readSr2_transmitter, readSr2_receiver, readSr2_unseen, rfl, fun hes b k =>
    ⟨loadTx_outside b (by simp [hes]) (by simp [hes]), setAckMode_outside k (by simp [hes])⟩⟩

/-- Settles O25: the cases of the access, and the step of a reception. -/
theorem reception : Obligations.Reception := by
  refine ⟨fun e k => ⟨setAckMode_rx k, setAckMode_outside k⟩, ?_, fun _ => rfl, fun _ => rfl⟩
  rintro ans s v rfl ha f rfl
  simp [engineStep_rxData ans ha]

/-- Settles O26: the cases of the access, and STOPP at a step with and without an activity. -/
theorem assertStop : Obligations.AssertStop :=
  ⟨fun _ => ⟨assertStop_idle, assertStop_cancels, assertStop_open⟩, fun ans _ hst ha => engineStep_stop ans ha hst,
    fun ans _ hst ha => (engineStep_stopp_of_act ans ha).trans hst⟩

/-! ### What a command finds at its call of the engine (R140) -/

/-- In the gap before an accepted command's call, no STOP pending: PHASE is that of `s`, and so is the engine, but that an activity
still pending may have been completed. -/
structure BeforeCall (s t : State) : Prop where
  good : t.Good
  phase : t.phase = s.phase
  stopp : t.eng.stopp = false
  eng : t.eng = s.eng ∨ (s.eng.act ≠ .none ∧ t.eng.act = .none)

theorem beforeCall_kept (s : State) : KeptByAgents (BeforeCall s) where
  busy h := h.good.mid.busy
  engine {t} a h := by
    refine ⟨good_kept.engine a h.good, by simpa using h.phase, engineStep_stopp a h.stopp, ?_⟩
    obtain he | ⟨hs, -⟩ := h.eng
    · by_cases ha : s.eng.act = .none
      · rw [engineStep_none a (by rw [he, ha]) h.stopp]
        exact .inl he
      · exact .inr ⟨ha, engineStep_act a t⟩
    · exact .inr ⟨hs, engineStep_act a t⟩
  ready h := ⟨good_kept.ready h.good, h.phase, h.stopp, h.eng⟩
  sched x h := ⟨good_kept.sched x h.good, h.phase, h.stopp, h.eng⟩
  draws n h := ⟨good_kept.draws n h.good, h.phase, h.stopp, h.eng⟩
  refused h := ⟨good_kept.refused h.good, h.phase, h.stopp, h.eng⟩
  read off h := ⟨good_kept.read off h.good, h.phase, h.stopp, h.eng⟩

/-- The gap before the call of an accepted command other than INIT, no STOP pending. -/
theorem beforeCall_of_gap (h : s.Inv) (hr : refusalCause i s = none) (hi : isInit i = false) (hst : s.eng.stopp = false)
    (hg : gap (accept i s) = .done () t) : BeforeCall s t := by
  obtain ⟨-, hin, -, -⟩ := accepted hr
  have hs : BeforeCall s (accept i s) := ⟨accept_good h (by simpa [hi] using hin), rfl, hst, .inl rfl⟩
  have ht := (beforeCall_kept s).gap (Q := fun _ => True) (fun _ _ => trivial) hs
  rwa [hg] at ht

/-- In AddressPhase the engine is in ES_SB, with the repeated START of `s` still withheld, or no activity (log 31). -/
theorem BeforeCall.addressPhase (h : BeforeCall s t) (hp : s.phase = .addressPhase) :
    t.eng.es = .sb ∧ (t.eng.act = .none ∨ (t.eng.act = .rstart ∧ t.eng = s.eng)) := by
  obtain ⟨hes, ha⟩ := h.good.phaseInv.addressPhase (h.phase.trans hp)
  refine ⟨hes, ha.imp id fun ha => ⟨ha, h.eng.resolve_right fun hn => ?_⟩⟩
  simp [ha] at hn

/-- In DataPhase nothing is pending, so the engine is as it was. -/
theorem BeforeCall.dataPhase (h : BeforeCall s t) (hs : s.Inv) (hp : s.phase = .dataPhase) : t.eng = s.eng :=
  h.eng.resolve_right fun hn => hn.1 (hs.phaseInv.dataPhase hp).1

/-- START finds the engine idle or in an open transaction, or the repeated START before it withheld (R133, log 31). -/
theorem BeforeCall.start (h : BeforeCall s t) (hp : s.phase ≠ .error) :
    (t.eng.es = .idle ∧ t.eng.act = .none ∧ t.eng.stopp = false) ∨
      ((t.eng.es = .sb ∨ t.eng.es = .tx ∨ t.eng.es = .rx) ∧ t.eng.act = .none) ∨
      (s.phase = .addressPhase ∧ s.eng.act = .rstart ∧ t.eng = s.eng ∧ t.eng.assertStart = { t.eng with af := false }) := by
  cases hphase : s.phase with
  | idle =>
    obtain ⟨hes, ha⟩ := h.good.phaseInv.idle (h.phase.trans hphase) h.stopp
    exact .inl ⟨hes, ha, h.stopp⟩
  | addressPhase =>
    obtain ⟨hes, ha | ⟨ha, he⟩⟩ := h.addressPhase hphase
    · exact .inr (.inl ⟨.inl hes, ha⟩)
    · exact .inr (.inr ⟨rfl, he ▸ ha, he, assertStart_outside (by simp [ha]) (by simp [ha])⟩)
  | dataPhase =>
    obtain ⟨ha, ⟨hes, -⟩ | ⟨hes, -⟩⟩ := h.good.phaseInv.dataPhase (h.phase.trans hphase)
    · exact .inr (.inl ⟨.inr (.inl hes), ha⟩)
    · exact .inr (.inl ⟨.inr (.inr hes), ha⟩)
  | error => exact absurd hphase hp

/-- WRADDR finds ES_SB and no activity, or the repeated START before it withheld (R134, log 31). -/
theorem BeforeCall.wraddr (h : BeforeCall s t) (hp : s.phase = .addressPhase) (a : Byte) :
    (t.eng.es = .sb ∧ t.eng.act = .none) ∨ (s.eng.act = .rstart ∧ t.eng = s.eng ∧ t.eng.loadTx a = t.eng) := by
  obtain ⟨hes, ha | ⟨ha, he⟩⟩ := h.addressPhase hp
  · exact .inl ⟨hes, ha⟩
  · exact .inr ⟨he ▸ ha, he, loadTx_outside a (by simp [ha]) (by simp [ha])⟩

/-- WRBYTE is accepted where the engine waits for a byte to send (R97, R136). -/
theorem accepted_wrbyte_engine {d : Byte} (h : s.Inv) (hr : refusalCause (.wrbyte d) s = none) :
    s.eng.es = .tx ∧ s.eng.act = .none ∧ s.eng.txe = true := by
  obtain ⟨-, -, hallows, -⟩ := accepted hr
  have hdir : s.eng.dir = false := by simpa [phaseAllows, accepted_wrbyte hr] using hallows
  obtain ⟨ha, ⟨hes, -⟩ | ⟨-, hdir', -⟩⟩ := h.phaseInv.dataPhase (accepted_wrbyte hr)
  · exact ⟨hes, ha, h.engine.txe_stands hes (by simp [ha])⟩
  · simp [hdir] at hdir'

/-- RDBYTE is accepted where the engine can arm a reception (R97, R137). -/
theorem accepted_rdbyte_engine {k : Bool} (h : s.Inv) (hr : refusalCause (.rdbyte k) s = none) :
    s.eng.es = .rx ∧ s.eng.act = .none ∧ s.eng.rxne = false := by
  obtain ⟨-, -, hallows, -⟩ := accepted hr
  have hdir : s.eng.dir = true := by simpa [phaseAllows, accepted_rdbyte hr] using hallows
  obtain ⟨ha, ⟨-, hdir'⟩ | ⟨hes, -, hrxne⟩⟩ := h.phaseInv.dataPhase (accepted_rdbyte hr)
  · simp [hdir] at hdir'
  · exact ⟨hes, ha, hrxne⟩

/-- Settles O27: PHASE says where the engine is, and only a repeated START still withheld can move before the call. -/
theorem preconditionsMet : Obligations.PreconditionsMet := by
  intro i s t h hr hg
  have hcall (hi : isInit i = false) (hst : s.eng.stopp = false) : BeforeCall s t := beforeCall_of_gap h hr hi hst hg
  refine ⟨?_, ?_, ?_, ?_⟩
  · rintro rfl
    obtain ⟨hp, hst⟩ := accepted_start h hr
    exact (hcall rfl hst).start hp
  · rintro a rfl
    have hp := accepted_wraddr hr
    exact (hcall rfl (h.phaseInv.stopp_false (by simp [hp]))).wraddr hp a
  · rintro b rfl
    have hp := accepted_wrbyte hr
    rw [(hcall rfl (h.phaseInv.stopp_false (by simp [hp]))).dataPhase h hp]
    exact accepted_wrbyte_engine h hr
  · rintro k rfl
    have hp := accepted_rdbyte hr
    rw [(hcall rfl (h.phaseInv.stopp_false (by simp [hp]))).dataPhase h hp]
    exact accepted_rdbyte_engine h hr

end Sys2Proof.Machine
end

section
/-!
PROOFS. How long a wait takes (R161), and PHASE after every command (R168), whatever the schedule and the bus do.
-/

namespace Sys2Proof.Machine

variable {i : Instr} {s t : State}

/-! ### The samples of a wait (R161) -/

@[simp] theorem engineStep_spin (a : Answer) (s : State) : (engineStep a s).spin = s.spin := by rw [engineStep_eq]

@[simp] theorem hostWrite_spin (off : Nat) (v : Word) (s : State) : (hostWrite off v s).spin = s.spin := by
  unfold hostWrite
  split
  · rfl
  · split
    · rfl
    · split <;> rfl

/-- Of the other agents' moves only a reset while a command executes writes SPIN. -/
theorem move_spin {m : Move} (h : (isReset m && s.busy) = false) : (move m s).spin = s.spin := by
  match m with
  | .env (.engine a) => exact engineStep_spin a s
  | .env .hold | .env .ready => rfl
  | .host a =>
    simp only [move, hostMove]
    split
    · rename_i hb
      cases a with
      | write off v =>
        simp only
        split
        · rfl
        · exact hostWrite_spin off v s
      | read off | idle => rfl
      | reset => simp [isReset, hb] at h
    · rfl

theorem runMoves_spin (ms : List Move) : ∀ {s : State}, (runMoves ms s).All (fun _ t => t.spin = s.spin) (fun _ => True) := by
  induction ms with
  | nil => exact rfl
  | cons m ms ih =>
    intro s
    unfold runMoves
    split
    · trivial
    · rename_i hm
      exact ih.mono (fun _ _ ht => ht.trans (move_spin (by simpa using hm))) fun _ _ => trivial

@[simp] theorem nextGap_spin (s : State) : (nextGap s).2.spin = s.spin := by unfold nextGap; split <;> rfl

/-- A gap that comes to its end does not count as a sample. -/
theorem gap_spin (s : State) : (gap s).All (fun _ t => t.spin = s.spin) (fun _ => True) :=
  (runMoves_spin _).mono (fun _ _ ht => ht.trans (nextGap_spin s)) fun _ _ => trivial

/-- A wait with at most `m` failed samples: how many SPIN counted of them is `k`. -/
abbrev CountsSamples (r : TransferOutcome) (k m : Nat) : Prop := k ≤ m ∧ (r = .timeout ↔ k = m) ∧ r ≠ .addressOutOfRange

/-- SPIN goes on with each failed sample; a wait that ends before its samples are used up has an outcome of its own. -/
theorem waitLoop_counts (ok bad : Sample → Bool) (n : Nat) : ∀ s : State,
    (waitLoop ok bad n s).All (fun r t => CountsSamples r t.spin (s.spin + n)) (fun _ => True) := by
  induction n with
  | zero => exact fun s => ⟨Nat.le_refl _, by simp, by simp⟩
  | succ n ih =>
    intro s
    refine (gap_spin s).andThen fun _ t ht => ?_
    split
    · exact ⟨by simp [ht], by simp [ht], by simp⟩
    · split
      · exact ⟨by simp [ht], by simp [ht], by simp⟩
      · have hrest := ih { readSr1 t with spin := t.spin + 1 }
        rwa [show t.spin + 1 + n = s.spin + (n + 1) by omega] at hrest

/-- Settles O34: by induction on the samples left. -/
theorem waitIsBounded : Obligations.WaitIsBounded := by
  intro ok bad s t r hw
  have h := waitLoop_counts ok bad s.cfg.spinLimit { s with spin := 0 }
  rwa [show waitLoop ok bad s.cfg.spinLimit { s with spin := 0 } = .done r t from hw, Ran.all_done, Nat.zero_add] at h

/-! ### PHASE after a command (R168) -/

/-- A command that does not come to its end has not finished. -/
theorem body_doing (i : Instr) (s : State) : (bodyOf i (accept i s)).All (fun _ => Doing) Unfinished := by
  have h := doing_kept
  have hQ := resets_unfinished Doing
  have hPQ : ∀ u, Doing u → Unfinished u := fun _ hu => hu.2
  have h0 : Doing (accept i s) := ⟨rfl, rfl⟩
  have left {R : TransferOutcome → State → Prop} {r : Ran TransferOutcome}
      (hr : r.All (fun e u => Doing u ∧ R e u) Unfinished) : r.All (fun _ => Doing) Unfinished := hr.mono (fun _ _ hu => hu.1) fun _ hu => hu
  cases i with
  | init m => exact (h.gap hQ h0).andThen fun _ _ hu => hu
  | start => exact left (h.blStart hQ h0)
  | stop => exact left (h.blStop hQ h0)
  | wraddr a => exact left (h.blWriteAddress hQ a h0)
  | wrbyte b => exact left (h.blWriteByte hQ b h0)
  | rdbyte k => exact left (h.blReadByte hQ k h0)
  | probe => exact left (h.pmProbe hQ h0)
  | mrd1 a => exact left (h.pmReadByte hQ a h0)
  | mwr1 a b => exact left (h.pmWriteByte hQ hPQ a b h0)
  | mrdn a => exact left (h.pmReadBytes (s := accept (.mrdn a) s) hQ a (fun _ _ hu => hu) h0 h0)
  | mwrn a => exact left (h.pmWriteBytes hQ hPQ (fun _ _ _ _ hu => hu) a h0)
  | waitrdy => exact left (h.readyWait hQ hPQ h0)

/-- No other agent writes PHASE, but by a reset. -/
theorem doing_phase_kept (p : Phase) : KeptByAgents (fun u => Doing u ∧ u.phase = p) :=
  (doing_kept.toKeptByWaits.with (E := fun _ q => q = p) (fun _ _ h => h) fun h => h).toKeptByAgents

/-- What the body of an accepted command leaves in PHASE: INIT nothing new, the others as `body_good` says. -/
theorem body_phase (h : s.Inv) (hr : refusalCause i s = none) :
    (bodyOf i (accept i s)).All (fun e u => Doing u ∧ u.phase = phaseAfter i s.phase (e == .success)) Unfinished := by
  cases hi : isInit i with
  | false =>
    exact ((body_good h hr hi).and (body_doing i s)).mono (fun _ _ hu => ⟨hu.2, hu.1.2⟩) fun _ hu => hu.2
  | true =>
    obtain ⟨m, rfl⟩ := eq_init_of_isInit hi
    have h0 : Doing (accept (.init m) s) ∧ (accept (.init m) s).phase = s.phase := ⟨⟨rfl, rfl⟩, rfl⟩
    exact ((doing_phase_kept s.phase).gap (resets_unfinished _) h0).andThen fun _ _ hu => hu

/-- PHASE after a command that finished is PHASE after its body (R160). -/
theorem exec_phase (h : s.Inv) (hr : refusalCause i s = none) (hx : exec i s = .next t) (hc : t.cpl = true) :
    t.phase = phaseAfter i s.phase (t.outcome == .success) := by
  rw [exec_accepted hr] at hx
  injection hx with hx
  subst hx
  refine conclude_all (Q := Unfinished) (F := fun e u => Doing u ∧ u.phase = phaseAfter i s.phase (e == .success))
    (G := fun t => t.cpl = true → t.phase = phaseAfter i s.phase (t.outcome == .success)) (body_phase h hr)
    (fun e u hu => (doing_phase_kept _).gap (resets_unfinished _) hu) (fun e u hu _ => hu.2) (fun u hu hc => ?_) hc
  rw [hu] at hc
  cases hc

/-- Check 3 passed (R97). -/
theorem isInit_beq_inited (hi : s.inited = !isInit i) : (isInit i == s.inited) = false := by
  rw [hi]
  cases isInit i <;> rfl

/-- A command is refused with cause 4 outside its column of the table. -/
theorem refusalCause_phase (hb : s.busy = false) (hi : s.inited = !isInit i) (hp : phaseAllows i s = false) :
    refusalCause i s = some .phase := by
  simp [refusalCause, hb, isInit_beq_inited hi, hp]

/-- Settles O36: PHASE as the body leaves it, and check 4 of R97. -/
theorem phaseTransitions : Obligations.PhaseTransitions := by
  refine ⟨fun i s t h hr hx hc => exec_phase h hr hx hc, fun i s hb hi hp => ?_⟩
  have hallows : phaseAllows i s = false := by simpa using (not_phaseAllows_iff i s).2 hp
  exact exec_refused (refusalCause_phase hb hi hallows)

end Sys2Proof.Machine
end

section
/-!
PROOFS. The BusLine commands in a steady environment (R162 to R167, R141, R161): the state each leaves, written whole.
-/

namespace Sys2Proof.Machine

variable {i : Instr} {s u v : State} {d : Steady} {e : TransferOutcome}

/-! ### A command accepted, run and finished -/

/-- The checks of R97 passed by a BusLine command. -/
theorem refusalCause_busLine (hl : isBusLine i = true) (hb : s.busy = false) (hi : s.inited = !isInit i)
    (hp : phaseAllows i s = true) (hst : reusesBus i s = true → s.eng.stopp = false) : refusalCause i s = none := by
  have hlen : lenTooLong i s = false := by
    cases i with
    | mrdn | mwrn => cases hl
    | _ => rfl
  have hstop : (s.eng.stopp && reusesBus i s) = false := by
    cases hr : reusesBus i s with
    | false => simp
    | true => simp [hst hr]
  simp [refusalCause, hb, isInit_beq_inited hi, hp, hlen, hstop]

/-- A command whose body and last gap are known (R160). -/
theorem exec_ended (hr : refusalCause i s = none) (hb : bodyOf i (accept i s) = .done e u) (hg : gap u = .done () v) :
    exec i s = .next (finish e v) := by
  rw [exec_accepted hr, hb]
  simp [conclude, hg]

/-- A command of a steady environment whose body leaves nothing pending: its last gap only ends a busy period. -/
theorem exec_quiet (hr : refusalCause i s = none) (hb : bodyOf i (accept i s) = .done e u) (hd : u.SteadyAs d)
    (ha : u.eng.act = .none) (hst : u.eng.stopp = false) : exec i s = .next { finish e u with ee := u.ee.rested d } :=
  exec_ended hr hb (gap_steady_quiet hd ha hst)

/-! ### The flags in the engine's states (R39) -/

theorem Engine.Inv.sb_false {x : Engine} (h : x.Inv) (hes : x.es ≠ .sb) : x.sb = false :=
  Bool.eq_false_iff.2 fun hsb => hes (h.sb_state hsb)

theorem Engine.Inv.addr_false {x : Engine} (h : x.Inv) (hes : x.es ≠ .addrHold) : x.addr = false :=
  Bool.eq_false_iff.2 fun haddr => hes (h.addr_state.1 haddr)

theorem Engine.Inv.addrSeen_false {x : Engine} (h : x.Inv) (hes : x.es ≠ .addrHold) : x.addrSeen = false :=
  Bool.eq_false_iff.2 fun hseen => hes (h.addr_state.1 (h.seen_addr hseen))

theorem Engine.Inv.txe_false {x : Engine} (h : x.Inv) (hes : x.es ≠ .tx) : x.txe = false :=
  Bool.eq_false_iff.2 fun htxe => hes (h.txe_state htxe)

theorem Engine.Inv.stopp_false {x : Engine} (h : x.Inv) (hes : x.es = .idle) : x.stopp = false :=
  Bool.eq_false_iff.2 fun hst => h.stopp_open hst hes

/-! ### A gap of a steady environment, in an accepted command -/

@[simp] theorem eeprom_rested_rested (d : Steady) (x : Eeprom) : (x.rested d).rested d = x.rested d := by
  unfold Eeprom.rested; cases d.ready <;> simp

@[simp] theorem rested_accept (d : Steady) (i : Instr) (s : State) : (accept i s).rested d = accept i (s.rested d) := rfl

@[simp] theorem slaveStart_accept (a : Answer) (i : Instr) (s : State) :
    State.slaveStart a (accept i s) = State.slaveStart a s := rfl

@[simp] theorem slaveByte_accept (a : Answer) (b : Byte) (i : Instr) (s : State) :
    State.slaveByte a b (accept i s) = State.slaveByte a b s := rfl

@[simp] theorem slaveRead_accept (a : Answer) (k : Bool) (i : Instr) (s : State) :
    State.slaveRead a k (accept i s) = State.slaveRead a k s := rfl

theorem engineStep_accept (a : Answer) (i : Instr) (s : State) : engineStep a (accept i s) = accept i (engineStep a s) := by
  simp only [engineStep, accept_eng]
  cases s.eng.act with
  | none =>
    simp only
    rw [apply_ite (accept i)]
    rfl
  | start | rstart | txAddr | txData | rxData => rfl

/-- The state after a gap of the steady environment `d` (R141, log 30). -/
def State.afterGap (d : Steady) (s : State) : State :=
  if d.engine then engineStep d.answer (engineStep d.answer (s.rested d)) else s.rested d

theorem gap_accept (h : s.SteadyAs d) : gap (accept i s) = .done () (accept i (s.afterGap d)) := by
  rw [gap_steady (s := accept i s) h, State.afterGap]
  cases d.engine with
  | true => simp only [if_true]; rw [← engineStep_accept, ← engineStep_accept]; rfl
  | false => rfl

theorem afterGap_sched (d : Steady) (s : State) : (s.afterGap d).sched = s.sched := by
  unfold State.afterGap; split <;> simp

theorem afterGap_withheld (he : d.engine = false) : s.afterGap d = s.rested d := by simp [State.afterGap, he]

theorem afterGap_quiet (ha : s.eng.act = .none) (hst : s.eng.stopp = false) : s.afterGap d = s.rested d := by
  have hstep : engineStep d.answer (s.rested d) = s.rested d := engineStep_none _ ha hst
  simp [State.afterGap, hstep]

theorem afterGap_act (he : d.engine = true) (hst : s.eng.stopp = false) :
    s.afterGap d = engineStep d.answer (s.rested d) := by
  have hstopp : (engineStep d.answer (s.rested d)).eng.stopp = false := engineStep_stopp _ hst
  rw [State.afterGap, if_pos he, engineStep_none _ (engineStep_act _ _) hstopp]

/-! ### INIT -/

/-- Settles O46: nothing is pending before INIT, so the two gaps only end a busy period. -/
theorem initCompletes : Obligations.InitCompletes := by
  intro m s d h hd hb hi
  obtain ⟨hp, hes, ha⟩ := h.uninited hi
  have hst := h.engine.stopp_false hes
  have hr : refusalCause (.init m) s = none := refusalCause_busLine rfl hb hi (by simp [phaseAllows, hp]) (by simp [reusesBus])
  have hbody : blInit m (accept (.init m) s) = .done .success (initRegisters m (accept (.init m) (s.rested d))) := by
    rw [blInit, gap_accept hd, afterGap_quiet ha hst]; rfl
  rw [exec_quiet (d := d) hr hbody hd ha hst]
  cases m <;> simp [finish, State.ended, State.rested, initRegisters, accept]

/-! ### STOP -/

/-- What `bl_stop()` does between its gaps (R164). -/
def State.stopAsked (s : State) : State := { s with eng := s.eng.assertStop, phase := .idle }

/-- STOP in a steady environment: a gap, the call, and the gap at the command's end. -/
theorem exec_stop (hr : refusalCause .stop s = none) (hd : s.SteadyAs d) :
    exec .stop s = .next (State.ended .success (((s.afterGap d).stopAsked).afterGap d)) := by
  have hbody : blStop (accept .stop s) = .done .success (accept .stop (s.afterGap d).stopAsked) := by
    rw [blStop, gap_accept hd]; rfl
  exact exec_ended hr hbody (gap_accept ((afterGap_sched d s).trans hd))

theorem stopAsked_idle (hes : s.eng.es = .idle) (ha : s.eng.act = .none) : s.stopAsked = { s with phase := .idle } := by
  rw [State.stopAsked, assertStop_idle hes ha]

theorem stopAsked_open (hes : s.eng.es ≠ .idle) :
    s.stopAsked = { s with eng := { s.eng with stopp := true }, phase := .idle } := by
  rw [State.stopAsked, assertStop_open fun h => hes h.1]

/-- The step that puts a pending STOP on the wire, PHASE being Idle as R35 has it. -/
theorem engineStep_stopped (ha : s.eng.act = .none) (hst : s.eng.stopp = true) (hp : s.phase = .idle) :
    engineStep d.answer s = s.stopped d := by
  simp [engineStep, ha, hst, State.stopped, Engine.afterStop, Engine.emit, hp]

/-- After the STOP nothing is left for the engine. -/
theorem engineStep_of_stopped (a : Answer) (ha : s.eng.act = .none) : engineStep a (s.stopped d) = s.stopped d :=
  engineStep_none a ha rfl

/-- A gap in which a pending STOP goes on the wire. -/
theorem afterGap_stop (he : d.engine = true) (ha : s.eng.act = .none) (hst : s.eng.stopp = true) (hp : s.phase = .idle) :
    s.afterGap d = (s.rested d).stopped d := by
  have hstep : engineStep d.answer (s.rested d) = (s.rested d).stopped d := engineStep_stopped ha hst hp
  have hact : (s.rested d).eng.act = .none := ha
  rw [State.afterGap, if_pos he, hstep, engineStep_of_stopped _ hact]

/-- A gap in which the symbol of a pending activity goes on the wire and a pending STOP after it. -/
theorem afterGap_act_stop (he : d.engine = true) (ha : s.eng.act ≠ .none) (hst : s.eng.stopp = true) (hp : s.phase = .idle) :
    s.afterGap d = (engineStep d.answer (s.rested d)).stopped d := by
  have hstopp : (engineStep d.answer (s.rested d)).eng.stopp = true :=
    (engineStep_stopp_of_act (s := s.rested d) _ ha).trans hst
  have hphase : (engineStep d.answer (s.rested d)).phase = .idle := (engineStep_phase _ _).trans hp
  rw [State.afterGap, if_pos he, engineStep_stopped (engineStep_act _ _) hstopp hphase]

/-- The gap after the call in an open transaction with nothing pending. -/
theorem afterGap_stopAsked_open (he : d.engine = true) (hes : s.eng.es ≠ .idle) (ha : s.eng.act = .none) :
    s.stopAsked.afterGap d = (s.rested d).stopped d := by
  rw [stopAsked_open hes, afterGap_stop he]
  · rfl
  · exact ha
  · rfl
  · rfl

/-- The gap after the call when the STOP went on the wire before it. -/
theorem afterGap_stopAsked_stopped (ha : s.eng.act = .none) :
    (s.stopped d).stopAsked.afterGap d = (s.stopped d).rested d := by
  rw [stopAsked_idle (s := s.stopped d) rfl ha, afterGap_quiet]
  · rfl
  · exact ha
  · rfl

/-- Once an activity's symbol is on the wire a transaction is open. -/
theorem engineStep_open (h : s.eng.Inv) (a : Answer) (ha : s.eng.act ≠ .none) : (engineStep a s).eng.es ≠ .idle := by
  unfold engineStep
  cases hact : s.eng.act with
  | none => exact absurd hact ha
  | start => simp [Engine.afterStart]
  | rstart => simp [Engine.afterRstart]
  | txAddr => simp only [Engine.afterTxAddr]; split <;> simp
  | txData => simp only [Engine.afterTxData]; split <;> simp [Engine.shiftedOut, Engine.emit, (h.act_txData hact).1]
  | rxData => simp [Engine.afterRx, Engine.emit, (h.act_rxData hact).1]

/-- Settles O48: by what each of the two gaps does in the engine's state. -/
theorem stopCompletes : Obligations.StopCompletes := by
  intro s d h hd hb hi
  have hr : refusalCause .stop s = none := refusalCause_busLine rfl hb hi rfl (by simp [reusesBus])
  rw [exec_stop hr hd]
  refine ⟨fun hes ha => ?_, fun hes ha he => ?_, fun hes he => ?_, fun hes ha hst he => ?_, fun ha hst he => ?_,
    fun ha hst he => ?_, fun ha hst he => ?_⟩
  -- no transaction open, nothing pending
  · have hst := h.engine.stopp_false hes
    rw [afterGap_quiet ha hst, stopAsked_idle (s := s.rested d) hes ha,
      afterGap_quiet (s := { s.rested d with phase := .idle }) ha hst]
    simp [State.rested]
  -- engine withheld: a START is cancelled; in an open transaction the STOP stays pending
  · rw [afterGap_withheld he, afterGap_withheld he, State.stopAsked, rested_eng, assertStop_cancels hes ha]
    simp [State.rested]
  · rw [afterGap_withheld he, afterGap_withheld he, stopAsked_open (s := s.rested d) hes]
    simp [State.rested]
  -- the STOP goes on the wire in the last gap, an activity's symbol in the first
  · rw [afterGap_quiet ha hst, afterGap_stopAsked_open (s := s.rested d) he hes ha, rested_rested]
    rfl
  · have hopen : (engineStep d.answer (s.rested d)).eng.es ≠ .idle := engineStep_open (s := s.rested d) h.engine _ ha
    rw [afterGap_act he hst, afterGap_stopAsked_open he hopen (engineStep_act _ _)]
  -- the STOP was pending already: it goes on the wire in the first gap
  · rw [afterGap_act_stop he ha hst (h.phaseInv.stopp_idle hst), afterGap_stopAsked_stopped (engineStep_act _ _)]
  · rw [afterGap_stop he ha hst (h.phaseInv.stopp_idle hst), afterGap_stopAsked_stopped (s := s.rested d) ha]

/-! ### An activity pending before the command (log 31) -/

theorem onStart_busydev (a : Answer) (x : Eeprom) : (x.onStart a).busydev = x.busydev := by
  unfold Eeprom.onStart; split <;> rfl

theorem slaveStart_busydev (a : Answer) (s : State) : (State.slaveStart a s).busydev = s.ee.busydev := by
  unfold State.slaveStart
  split
  · exact onStart_busydev a s.ee
  · rfl

theorem eeprom_rested_of_busydev {x : Eeprom} (h : (x.busydev && !d.ready) = x.busydev) : x.rested d = x := by
  rw [Eeprom.rested, h]

/-- A START on the wire does not make a device busy. -/
theorem engineStep_rstart_rested (ha : s.eng.act = .rstart) :
    (engineStep d.answer (s.rested d)).rested d = engineStep d.answer (s.rested d) := by
  have hact : (s.rested d).eng.act = .rstart := ha
  have hee : (engineStep d.answer (s.rested d)).ee = State.slaveStart d.answer (s.rested d) := by
    rw [engineStep, hact]
  have hbusy : (State.slaveStart d.answer (s.rested d)).busydev = (s.ee.busydev && !d.ready) := slaveStart_busydev _ _
  rw [State.rested, hee, eeprom_rested_of_busydev (by rw [hbusy, Bool.and_assoc, Bool.and_self]), ← hee]

/-- A repeated START still pending goes on the wire in the command's first gap: the command is as from the state after it. -/
theorem exec_pending_rstart (hd : s.SteadyAs d) (he : d.engine = true) (hst : s.eng.stopp = false) (ha : s.eng.act = .rstart)
    (hr : refusalCause i s = none) (hr' : refusalCause i (engineStep d.answer (s.rested d)) = none)
    (hbody : ∀ u v, gap u = gap v → bodyOf i u = bodyOf i v) :
    exec i s = exec i (engineStep d.answer (s.rested d)) := by
  have hstopp : (engineStep d.answer (s.rested d)).eng.stopp = false := engineStep_stopp _ hst
  have hsched : (engineStep d.answer (s.rested d)).SteadyAs d := (engineStep_sched _ _).trans hd
  rw [exec_accepted hr, exec_accepted hr', hbody]
  rw [gap_accept hd, gap_accept hsched, afterGap_act he hst, afterGap_quiet (engineStep_act _ _) hstopp,
    engineStep_rstart_rested ha]

theorem blStart_congr {s u : State} (h : gap s = gap u) : blStart s = blStart u := by rw [blStart, blStart, h]

theorem blWriteAddress_congr (a : Byte) {s u : State} (h : gap s = gap u) : blWriteAddress a s = blWriteAddress a u := by
  rw [blWriteAddress, blWriteAddress, h]

/-! ### START -/

theorem accepts_start (hb : s.busy = false) (hi : s.inited = true) (hp : s.phase = .idle) (hst : s.eng.stopp = false) :
    refusalCause .start s = none :=
  refusalCause_busLine rfl hb hi (by simp [phaseAllows, hp]) fun _ => hst

/-- A repeated START is accepted whatever STOPP is: R35 has it 0 there. -/
theorem accepts_restart (hb : s.busy = false) (hi : s.inited = true) (hp : s.phase = .addressPhase ∨ s.phase = .dataPhase) :
    refusalCause .start s = none :=
  refusalCause_busLine rfl hb hi (by obtain hp | hp := hp <;> simp [phaseAllows, hp])
    (by obtain hp | hp := hp <;> simp [reusesBus, hp])

/-- Settles O47: the operation in a prompt environment, then a gap with nothing pending. -/
theorem startCompletes : Obligations.StartCompletes := by
  intro s d h hprompt hb hi
  obtain ⟨hd, he, hl⟩ := hprompt
  have haccept : (accept .start s).Prompt d := ⟨hd, he, hl⟩
  refine ⟨fun hp hst => ?_, fun hp ha => ?_, fun hp ha => ?_⟩
  · obtain ⟨hes, ha⟩ := h.phaseInv.idle hp hst
    have haddr := h.engine.addr_false (by simp [hes])
    rw [exec_quiet (d := d) (accepts_start hb hi hp hst) (blStart_idle haccept haddr hes ha hst) hd rfl hst]
    simp [finish, State.ended, ha]
  · have hst : s.eng.stopp = false := h.phaseInv.stopp_false (by obtain hp | hp := hp <;> simp [hp])
    have hes : s.eng.es = .sb ∨ s.eng.es = .tx ∨ s.eng.es = .rx := by
      obtain hp | hp := hp
      · exact .inl (h.phaseInv.addressPhase hp).1
      · exact .inr ((h.phaseInv.dataPhase hp).2.imp (fun h => h.1) fun h => h.1)
    rw [exec_quiet (d := d) (accepts_restart hb hi hp) (blStart_repeated haccept hes ha hst) hd rfl hst]
    simp [finish, State.ended, ha]
  · have hst : s.eng.stopp = false := h.phaseInv.stopp_false (by simp [hp])
    have hact : s.eng.act = .rstart := (h.phaseInv.addressPhase hp).2.resolve_left ha
    have hp' : (engineStep d.answer (s.rested d)).phase = .addressPhase := (engineStep_phase _ _).trans hp
    have hr' : refusalCause .start (engineStep d.answer (s.rested d)) = none :=
      accepts_restart ((engineStep_busy _ _).trans hb) ((engineStep_inited _ _).trans hi) (.inl hp')
    exact ⟨engineStep_act _ _, hp', exec_pending_rstart hd he hst hact (accepts_restart hb hi (.inl hp)) hr'
      fun _ _ => blStart_congr⟩

/-! ### WRADDR -/

theorem accepts_wraddr (a : Byte) (hb : s.busy = false) (hi : s.inited = true) (hp : s.phase = .addressPhase) :
    refusalCause (.wraddr a) s = none :=
  refusalCause_busLine rfl hb hi (by simp [phaseAllows, hp]) (by simp [reusesBus])

/-- Settles O49: by the slave's answer. -/
theorem wraddrCompletes : Obligations.WraddrCompletes := by
  intro a s d h hprompt hb hi hp
  obtain ⟨hd, he, hl⟩ := hprompt
  have haccept : (accept (.wraddr a) s).Prompt d := ⟨hd, he, hl⟩
  have hr := accepts_wraddr a hb hi hp
  have hst : s.eng.stopp = false := h.phaseInv.stopp_false (by simp [hp])
  obtain ⟨hes, hact⟩ := h.phaseInv.addressPhase hp
  have haddr := h.engine.addr_false (by simp [hes])
  refine ⟨fun k x ha hk => ?_, fun ha => ?_⟩
  · cases k with
    | true =>
      have htxe := h.engine.txe_false (by simp [hes])
      have hseen := h.engine.addrSeen_false (by simp [hes])
      rw [exec_quiet (d := d) hr (blWriteAddress_ack a haccept hes ha hst (congrArg Prod.fst hk)) hd rfl hst]
      simp [finish, State.ended, directionBit, hk, ha, haddr, hseen, htxe]
    | false =>
      rw [exec_quiet (d := d) hr (blWriteAddress_nak a haccept haddr hes ha hst (congrArg Prod.fst hk)) hd rfl hst]
      simp [finish, State.ended, hk, ha]
  · have hp' : (engineStep d.answer (s.rested d)).phase = .addressPhase := (engineStep_phase _ _).trans hp
    have hr' : refusalCause (.wraddr a) (engineStep d.answer (s.rested d)) = none :=
      accepts_wraddr a ((engineStep_busy _ _).trans hb) ((engineStep_inited _ _).trans hi) hp'
    exact ⟨engineStep_act _ _, hp', exec_pending_rstart hd he hst (hact.resolve_left ha) hr hr'
      fun _ _ => blWriteAddress_congr a⟩

/-! ### WRBYTE and RDBYTE -/

theorem accepts_wrbyte (b : Byte) (hb : s.busy = false) (hi : s.inited = true) (hp : s.phase = .dataPhase)
    (hdir : s.eng.dir = false) : refusalCause (.wrbyte b) s = none :=
  refusalCause_busLine rfl hb hi (by simp [phaseAllows, hp, hdir]) (by simp [reusesBus])

theorem accepts_rdbyte (k : Bool) (hb : s.busy = false) (hi : s.inited = true) (hp : s.phase = .dataPhase)
    (hdir : s.eng.dir = true) : refusalCause (.rdbyte k) s = none :=
  refusalCause_busLine rfl hb hi (by simp [phaseAllows, hp, hdir]) (by simp [reusesBus])

/-- Settles O50: by the slave's answer. -/
theorem wrbyteCompletes : Obligations.WrbyteCompletes := by
  intro b s d k x h hprompt hb hi hp hdir hk
  have hr := accepts_wrbyte b hb hi hp hdir
  have hst : s.eng.stopp = false := h.phaseInv.stopp_false (by simp [hp])
  obtain ⟨hes, ha, htxe⟩ := accepted_wrbyte_engine h hr
  have haddr := h.engine.addr_false (by simp [hes])
  have haccept : (accept (.wrbyte b) s).Prompt d := hprompt
  cases k with
  | true =>
    rw [exec_quiet (d := d) hr (blWriteByte_ack b haccept haddr htxe hes ha hst (congrArg Prod.fst hk)) hprompt.1 ha hst]
    simp [finish, State.ended, hk]
  | false =>
    rw [exec_quiet (d := d) hr (blWriteByte_nak b haccept haddr htxe hes ha hst (congrArg Prod.fst hk)) hprompt.1 ha hst]
    simp [finish, State.ended, hk]

/-- Settles O51: the byte is the slave's. -/
theorem rdbyteCompletes : Obligations.RdbyteCompletes := by
  intro k s d x ee h hprompt hb hi hp hdir hx
  have hr := accepts_rdbyte k hb hi hp hdir
  have hst : s.eng.stopp = false := h.phaseInv.stopp_false (by simp [hp])
  obtain ⟨hes, ha, hrxne⟩ := accepted_rdbyte_engine h hr
  have haddr := h.engine.addr_false (by simp [hes])
  have haccept : (accept (.rdbyte k) s).Prompt d := hprompt
  rw [exec_quiet (d := d) hr (blReadByte_prompt k haccept haddr hes ha hrxne hst) hprompt.1 ha hst]
  simp [finish, State.ended, hx]

end Sys2Proof.Machine
end

section
/-!
PROOFS. The BusLine commands where the environment withholds every engine step (R141, R161, R223): a wait sees the same flags at each
of its samples.
-/

namespace Sys2Proof.Machine

variable {i : Instr} {s : State} {d : Steady}

theorem gap_withheld (h : s.SteadyAs d) (he : d.engine = false) : gap s = .done () (s.rested d) := by
  rw [gap_steady h, he]
  rfl

/-- A flag that is not there at the first sample is there at none. -/
theorem waitLoop_withheld {ok bad : Sample → Bool} (he : d.engine = false) (n : Nat) : ∀ {s : State}, s.SteadyAs d →
    s.rested d = s → s.eng.addr = false → ok s.eng.sample = false → bad s.eng.sample = false →
    waitLoop ok bad n s = .done .timeout { s with spin := s.spin + n } := by
  induction n with
  | zero => exact fun _ _ _ _ _ => rfl
  | succ n ih =>
    intro s hd hrest haddr hok hbad
    have hrest' : State.rested d { s with spin := s.spin + 1 } = { s with spin := s.spin + 1 } :=
      congrArg (fun u : State => { u with spin := s.spin + 1 }) hrest
    have hnext := ih (s := { s with spin := s.spin + 1 }) hd hrest' haddr hok hbad
    rw [waitLoop, gap_withheld hd he, hrest, Ran.andThen_done, hok, hbad, readSr1_clear haddr]
    simpa [Nat.add_assoc, Nat.add_comm 1] using hnext

/-! ### A command at its wait -/

/-- The command `i`, accepted in `s`, at its wait `p` after its call has left the engine as `x`, with `n` samples failed. -/
def State.waiting (i : Instr) (p : SeqPoint) (x : Engine) (n : Nat) (s : State) : State :=
  seqAt p { accept i s with eng := x, spin := n }

variable {p : SeqPoint} {x : Engine} {f : Engine → Engine} {ok bad : Sample → Bool} {r : TransferOutcome}
  {k : TransferOutcome → State → Ran TransferOutcome}

theorem waiting_rested (n : Nat) : ((s.rested d).waiting i p x n).rested d = (s.rested d).waiting i p x n :=
  congrArg (State.waiting i p x n) (rested_rested d s)

theorem wait_withheld (n : Nat) (hd : s.SteadyAs d) (he : d.engine = false) (haddr : x.addr = false)
    (hok : ok x.sample = false) (hbad : bad x.sample = false) :
    wait ok bad ((s.rested d).waiting i p x n) = .done .timeout ((s.rested d).waiting i p x s.cfg.spinLimit) := by
  have hloop := waitLoop_withheld (s := (s.rested d).waiting i p x 0) he s.cfg.spinLimit hd (waiting_rested 0) haddr hok hbad
  rwa [show ((s.rested d).waiting i p x 0).spin = 0 from rfl, Nat.zero_add] at hloop

/-- A flag that is there already ends the wait at its first sample. -/
theorem wait_withheld_seen (n : Nat) (hd : s.SteadyAs d) (he : d.engine = false) (hl : 1 ≤ s.cfg.spinLimit)
    (haddr : x.addr = false) (hok : ok x.sample = true) :
    wait ok bad ((s.rested d).waiting i p x n) = .done .success ((s.rested d).waiting i p x 0) := by
  have hgap : gap ((s.rested d).waiting i p x 0) = .done () ((s.rested d).waiting i p x 0) :=
    (gap_withheld (s := (s.rested d).waiting i p x 0) hd he).trans (congrArg (Ran.done ()) (waiting_rested 0))
  have hwait := wait_first (s := (s.rested d).waiting i p x n) (bad := bad) hl hgap hok
  rwa [readSr1_clear (s := (s.rested d).waiting i p x 0) haddr] at hwait

/-- The form of the waiting BusLine commands (R163, R165 to R167): a gap, the call `f` of the engine, the wait `p`, and `k` after it. -/
abbrev CallsAndWaits (i : Instr) (f : Engine → Engine) (p : SeqPoint) (ok bad : Sample → Bool)
    (k : TransferOutcome → State → Ran TransferOutcome) : Prop :=
  ∀ u, bodyOf i u = (gap u).andThen fun _ t => (wait ok bad (seqAt p { t with eng := f t.eng })).andThen k

theorem CallsAndWaits.exec_withheld {w v : State} (hbody : CallsAndWaits i f p ok bad k) (hr : refusalCause i s = none)
    (hd : s.SteadyAs d) (he : d.engine = false)
    (hw : wait ok bad ((s.rested d).waiting i p (f s.eng) s.spin) = .done r w) (hk : k r w = .done r v) (hv : v.SteadyAs d) :
    exec i s = .next (finish r (v.rested d)) := by
  have hran : bodyOf i (accept i s) = .done r v := by
    rw [hbody, gap_withheld (s := accept i s) hd he, Ran.andThen_done]
    exact (congrArg (Ran.andThen · k) hw).trans hk
  exact exec_ended hr hran (gap_withheld hv he)

/-- The flag not being there after the call, the command ends in Timeout after SPIN_LIMIT samples (R161, R223). -/
theorem CallsAndWaits.timesOut (hbody : CallsAndWaits i f p ok bad k)
    (hk : ∀ u, k .timeout u = .done .timeout { u with phase := .error }) (hr : refusalCause i s = none) (hd : s.SteadyAs d)
    (he : d.engine = false) (hx : f s.eng = x) (haddr : x.addr = false) (hok : ok x.sample = false)
    (hbad : bad x.sample = false) :
    exec i s = .next (State.ended .timeout
      { s with eng := x, ee := s.ee.rested d, phase := .error, spin := s.cfg.spinLimit }) := by
  subst hx
  rw [hbody.exec_withheld hr hd he (wait_withheld _ hd he haddr hok hbad) (hk _) hd]
  simp [finish, State.ended, State.rested, State.waiting, seqAt, accept]

/-- Settles O52: by the command, and by what its wait sees after its call. -/
theorem withheldTimesOut : Obligations.WithheldTimesOut := by
  intro s d h hd he hb hi ha
  refine ⟨fun hp hst => ?_, fun hp => ?_, fun hp hl => ?_, fun a hp haf => ?_, fun b hp hdir haf => ?_, fun k hp hdir => ?_⟩
  · obtain ⟨hes, -⟩ := h.phaseInv.idle hp hst
    exact CallsAndWaits.timesOut (i := .start) (fun _ => rfl) (fun _ => rfl) (accepts_start hb hi hp hst) hd he
      (assertStart_idle hes ha hst) (h.engine.addr_false (by simp [hes])) (h.engine.sb_false (by simp [hes])) rfl
  · have hes := (h.phaseInv.dataPhase hp).2.imp (fun h => h.1) fun h => h.1
    have haddr := h.engine.addr_false (by obtain hes | hes := hes <;> simp [hes])
    have hsb := h.engine.sb_false (by obtain hes | hes := hes <;> simp [hes])
    exact CallsAndWaits.timesOut (i := .start) (fun _ => rfl) (fun _ => rfl) (accepts_restart hb hi (.inr hp)) hd he
      (assertStart_open (.inr hes) ha) haddr hsb rfl
  · obtain ⟨hes, -⟩ := h.phaseInv.addressPhase hp
    have hcall := assertStart_open (.inl hes) ha
    have haddr := h.engine.addr_false (by simp [hes])
    have hsb := h.engine.sb_stands hes (by simp [ha])
    have hbody : CallsAndWaits .start Engine.assertStart .waitStart (fun f => f.sb) never
      (fun r u => .done r (setPhase r .addressPhase u)) := fun _ => rfl
    rw [hbody.exec_withheld (accepts_restart hb hi (.inl hp)) hd he
      (wait_withheld_seen _ hd he hl (by rw [hcall]; exact haddr) (by rw [hcall]; exact hsb)) rfl hd, hcall]
    simp [finish, State.ended, State.rested, State.waiting, seqAt, accept, setPhase, hp]
  · obtain ⟨hes, -⟩ := h.phaseInv.addressPhase hp
    exact CallsAndWaits.timesOut (i := .wraddr a) (fun _ => rfl) (fun _ => rfl) (accepts_wraddr a hb hi hp) hd he
      (loadTx_sb a hes ha) (h.engine.addr_false (by simp [hes])) (h.engine.addr_false (by simp [hes])) haf
  · have hr := accepts_wrbyte b hb hi hp hdir
    obtain ⟨hes, -, htxe⟩ := accepted_wrbyte_engine h hr
    exact CallsAndWaits.timesOut (i := .wrbyte b) (fun _ => rfl) (fun _ => rfl) hr hd he
      (loadTx_tx b hes ha htxe) (h.engine.addr_false (by simp [hes])) rfl haf
  · have hr := accepts_rdbyte k hb hi hp hdir
    obtain ⟨hes, -, hrxne⟩ := accepted_rdbyte_engine h hr
    exact CallsAndWaits.timesOut (i := .rdbyte k) (fun _ => rfl) (fun _ => rfl) hr hd he
      (setAckMode_rx k hes ha hrxne) (h.engine.addr_false (by simp [hes])) hrxne rfl

end Sys2Proof.Machine
end

section
/-!
PROOFS. The chunks of a page-split write (R200): a write that fits in its page is one chunk, a longer one begins with the bytes to the
page boundary and goes on from there.
-/

namespace Sys2Proof.Machine

variable {p a n : Nat}

/-! ### The page boundary after an address (R67) -/

theorem remaining_pos (hp : 1 ≤ p) (a : Nat) : 1 ≤ remaining p a := by
  have := Nat.mod_lt a hp
  unfold remaining
  omega

theorem remaining_le (p a : Nat) : remaining p a ≤ p := Nat.sub_le _ _

/-- A whole page remains at a page start only. -/
theorem remaining_eq_iff (hp : 1 ≤ p) (a : Nat) : remaining p a = p ↔ a % p = 0 := by
  unfold remaining
  omega

/-- The bytes that remain lead to the start of the next page. -/
theorem add_remaining (hp : 1 ≤ p) (a : Nat) : a + remaining p a = p * (a / p + 1) := by
  have hdiv := Nat.div_add_mod a p
  have hlt := Nat.mod_lt a hp
  unfold remaining
  rw [Nat.mul_add, Nat.mul_one]
  omega

theorem add_remaining_mod (hp : 1 ≤ p) (a : Nat) : (a + remaining p a) % p = 0 := by
  rw [add_remaining hp, Nat.mul_mod_right]

theorem add_remaining_div (hp : 1 ≤ p) (a : Nat) : (a + remaining p a) / p = a / p + 1 := by
  rw [add_remaining hp, Nat.mul_div_cancel_left _ hp]

/-- No more bytes than remain stay in the page. -/
theorem last_byte_page (hp : 1 ≤ p) {m : Nat} (hm : 1 ≤ m) (hle : m ≤ remaining p a) : a / p = (a + m - 1) / p := by
  have hnext := add_remaining hp a
  have hstart := Nat.div_mul_le_self a p
  refine (Nat.div_eq_of_lt_le (by omega) ?_).symm
  rw [Nat.mul_comm]
  omega

/-! ### The chunks one after another -/

theorem chunksFrom_last (fuel : Nat) (hn : 1 ≤ n) (h : n ≤ remaining p a) : chunksFrom p (fuel + 1) a n = [(a, n)] := by
  have hrest : ∀ b, chunksFrom p fuel b 0 = [] := by cases fuel <;> simp [chunksFrom]
  rw [chunksFrom, if_neg (by omega), Nat.min_eq_right h, Nat.sub_self, hrest]

theorem chunksFrom_full (fuel : Nat) (h : remaining p a < n) : chunksFrom p (fuel + 1) a n =
    (a, remaining p a) :: chunksFrom p fuel (a + remaining p a) (n - remaining p a) := by
  rw [chunksFrom, if_neg (by omega), Nat.min_eq_left (Nat.le_of_lt h)]

/-- What holds of a write within a page, and of a longer one when it holds of what follows its first chunk, holds of every write. -/
theorem chunks_induction {motive : Nat → Nat → List (Nat × Nat) → Prop} (hp : 1 ≤ p)
    (last : ∀ a n, 1 ≤ n → n ≤ remaining p a → motive a n [(a, n)])
    (full : ∀ a n cs, remaining p a < n → motive (a + remaining p a) (n - remaining p a) cs →
      motive a n ((a, remaining p a) :: cs)) (a : Nat) (hn : 1 ≤ n) : motive a n (chunks p a n) := by
  suffices h : ∀ fuel a n, 1 ≤ n → n ≤ fuel → motive a n (chunksFrom p fuel a n) from h n a n hn (Nat.le_refl n)
  intro fuel
  induction fuel with
  | zero => intro a n h1 hle; omega
  | succ fuel ih =>
    intro a n h1 hle
    have hpos := remaining_pos hp a
    by_cases h : n ≤ remaining p a
    · rw [chunksFrom_last fuel h1 h]
      exact last a n h1 h
    · rw [chunksFrom_full fuel (by omega)]
      exact full a n _ (by omega) (ih _ _ (by omega) (by omega))

/-! ### The laws -/

/-- One chunk for each page touched. -/
theorem chunks_length (hp : 1 ≤ p) (a : Nat) (hn : 1 ≤ n) : (chunks p a n).length = (a + n - 1) / p - a / p + 1 := by
  refine chunks_induction (motive := fun a n cs => cs.length = (a + n - 1) / p - a / p + 1) hp (fun a n h1 h => ?_)
    (fun a n cs h ih => ?_) a hn
  · rw [← last_byte_page hp h1 h, Nat.sub_self]
    rfl
  · have hpage : (a + remaining p a) / p ≤ (a + n - 1) / p := Nat.div_le_div_right (by omega)
    rw [add_remaining_div hp] at ih hpage
    rw [show a + remaining p a + (n - remaining p a) - 1 = a + n - 1 by omega] at ih
    rw [List.length_cons, ih]
    omega

theorem chunks_total (hp : 1 ≤ p) (a : Nat) (hn : 1 ≤ n) : chunkTotal (chunks p a n) = n := by
  refine chunks_induction (motive := fun _ n cs => chunkTotal cs = n) hp (fun a n _ _ => by simp) (fun a n cs h ih => ?_) a hn
  rw [chunkTotal_cons, ih]
  omega

/-- The chunk of `m` bytes at `c` is one of a write of `n` bytes at `a`: not empty, in one page, within the write, beginning and ending
at page boundaries but where the write does. -/
structure ChunkFits (p a n c m : Nat) : Prop where
  pos : 1 ≤ m
  page : c / p = (c + m - 1) / p
  from_le : a ≤ c
  le_end : c + m ≤ a + n
  start : c ≠ a → c % p = 0
  stop : c + m ≠ a + n → (c + m) % p = 0

theorem chunks_fit (hp : 1 ≤ p) (a : Nat) (hn : 1 ≤ n) : ∀ x ∈ chunks p a n, ChunkFits p a n x.1 x.2 := by
  refine chunks_induction (motive := fun a n cs => ∀ x ∈ cs, ChunkFits p a n x.1 x.2) hp (fun a n h1 h x hx => ?_)
    (fun a n cs h ih x hx => ?_) a hn
  · obtain rfl := List.mem_singleton.1 hx
    exact ⟨h1, last_byte_page hp h1 h, Nat.le_refl _, Nat.le_refl _, fun h => absurd rfl h, fun h => absurd rfl h⟩
  · have hpos := remaining_pos hp a
    have hboundary := add_remaining_mod hp a
    obtain rfl | hx := List.mem_cons.1 hx
    · exact ⟨hpos, last_byte_page hp hpos (Nat.le_refl _), Nat.le_refl _, by simp only; omega, fun h => absurd rfl h, fun _ => hboundary⟩
    · obtain ⟨h1, hpage, hfrom, hend, hstart, hstop⟩ := ih x hx
      refine ⟨h1, hpage, by omega, by omega, fun _ => ?_, fun h => hstop (by omega)⟩
      by_cases hc : x.1 = a + remaining p a
      · rw [hc, hboundary]
      · exact hstart hc

/-- A chunk starts where those before it end. -/
theorem chunks_starts (hp : 1 ≤ p) (a : Nat) (hn : 1 ≤ n) : ∀ k, k < (chunks p a n).length →
    ((chunks p a n).map (fun x => x.1)).getD k 0 = a + chunkTotal ((chunks p a n).take k) := by
  refine chunks_induction
    (motive := fun a _ cs => ∀ k, k < cs.length → (cs.map (fun x => x.1)).getD k 0 = a + chunkTotal (cs.take k)) hp
    (fun a n _ _ k hk => ?_) (fun a n cs _ ih k hk => ?_) a hn
  · obtain rfl : k = 0 := by simpa using hk
    simp
  · cases k with
    | zero => simp
    | succ k =>
      have hrest := ih k (by simpa using hk)
      rw [List.map_cons, List.getD_cons_succ, hrest, List.take_succ_cons, chunkTotal_cons, Nat.add_assoc]

/-- Settles O33: the laws of `remaining`, and those of the chunks, by induction on the chunks. -/
theorem chunkLaws : Obligations.ChunkLaws := by
  intro p hp
  refine ⟨fun c => ⟨remaining_pos hp c, remaining_le p c, remaining_eq_iff hp c⟩, fun a n hn => ?_⟩
  refine ⟨chunks_length hp a hn, chunks_total hp a hn, fun c m hx => ?_, chunks_starts hp a hn⟩
  obtain ⟨hpos, hpage, hfrom, hend, hstart, hstop⟩ := chunks_fit hp a hn (c, m) hx
  exact ⟨hpos, hpage, hfrom, hend, hstart, hstop⟩

end Sys2Proof.Machine
end

section
/-!
PROOFS. How long a ready wait takes (R197, R231), whatever the schedule and the bus do. The wait is a run of its own here: no command
need execute, so the moves of the other agents are those of a block that is busy or not.
-/

namespace Sys2Proof.Machine

variable {α : Type} {f : State → α} {s t : State}

/-! ### Fields a probe leaves alone -/

/-- `f` reads nothing that a probe or the other agents write, the host's pending accesses among it. -/
structure UnreadByProbe (f : State → α) : Prop where
  untouched : Untouched f
  host : ∀ s x, f { s with host := x } = f s
  err : ∀ s e, f { s with err := e } = f s

/-- A state that differs only where `f` does not read. -/
theorem Untouched.of_eq (h : Untouched f) (ht : t = { s with
      eng := t.eng, ee := t.ee, draws := t.draws, sched := t.sched, ill := t.ill, illcause := t.illcause, rdata := t.rdata
      spin := t.spin, phase := t.phase, seq := t.seq }) : f t = f s :=
  (congrArg f ht).trans (h s t.eng t.ee t.draws t.sched t.ill t.illcause t.rdata t.spin t.phase t.seq)

/-- Of the other agents' moves only a reset while a command executes writes such a field. -/
theorem UnreadByProbe.move (h : UnreadByProbe f) {m : Move} (hm : (isReset m && s.busy) = false) : f (move m s) = f s := by
  match m with
  | .env (.engine a) =>
    show f (engineStep a s) = f s
    rw [engineStep_eq]
    exact h.untouched.of_eq rfl
  | .env .hold | .env .ready => exact h.untouched.of_eq rfl
  | .host a =>
    simp only [Machine.move, hostMove]
    split
    · rename_i hb
      cases a with
      | write off v =>
        simp only [hostWrite_busy hb]
        split
        · exact h.untouched.of_eq rfl
        · rfl
      | read off | idle => exact h.untouched.of_eq rfl
      | reset => simp [isReset, hb] at hm
    · exact h.host s _

theorem UnreadByProbe.runMoves (h : UnreadByProbe f) (ms : List Move) : ∀ {s : State},
    (runMoves ms s).All (fun _ t => f t = f s) (fun _ => True) := by
  induction ms with
  | nil => exact rfl
  | cons m ms ih =>
    intro s
    unfold Machine.runMoves
    split
    · trivial
    · rename_i hm
      exact ih.mono (fun _ _ ht => ht.trans (h.move (by simpa using hm))) fun _ _ => trivial

theorem UnreadByProbe.nextGap (h : UnreadByProbe f) (s : State) : f (nextGap s).2 = f s := by
  unfold Machine.nextGap
  split <;> exact h.untouched.of_eq rfl

theorem UnreadByProbe.gap (h : UnreadByProbe f) (s : State) : (gap s).All (fun _ t => f t = f s) (fun _ => True) :=
  (h.runMoves _).mono (fun _ _ ht => ht.trans (h.nextGap s)) fun _ _ => trivial

/-- A run that has an outcome of the bus, and leaves the field alone. -/
abbrev Passes (f : State → α) (s : State) (r : Ran TransferOutcome) : Prop :=
  r.All (fun e t => f t = f s ∧ BusOutcome e) (fun _ => True)

theorem Passes.of_eq {r : Ran TransferOutcome} (h : Passes f t r) (ht : f t = f s) : Passes f s r :=
  h.mono (fun _ _ hu => ⟨hu.1.trans ht, hu.2⟩) fun _ hu => hu

theorem UnreadByProbe.waitLoop (h : UnreadByProbe f) (ok bad : Sample → Bool) (n : Nat) : ∀ s : State,
    Passes f s (waitLoop ok bad n s) := by
  induction n with
  | zero => exact fun s => ⟨rfl, busOutcome_timeout⟩
  | succ n ih =>
    intro s
    refine (h.gap s).andThen fun _ t ht => ?_
    have hsampled : f (readSr1 t) = f s := (h.untouched.of_eq rfl).trans ht
    split
    · exact ⟨hsampled, busOutcome_success⟩
    · split
      · exact ⟨hsampled, busOutcome_noAcknowledge⟩
      · exact (ih _).of_eq ((h.untouched.of_eq rfl).trans ht)

theorem UnreadByProbe.wait (h : UnreadByProbe f) (ok bad : Sample → Bool) (s : State) : Passes f s (wait ok bad s) :=
  (h.waitLoop ok bad _ _).of_eq (h.untouched.of_eq rfl)

theorem UnreadByProbe.blStart (h : UnreadByProbe f) (s : State) : Passes f s (blStart s) :=
  (h.gap s).andThen fun _ _ ht => (h.wait _ _ _).andThen fun _ _ hu =>
    ⟨(h.untouched.of_eq rfl).trans (hu.1.trans ((h.untouched.of_eq rfl).trans ht)), hu.2⟩

theorem UnreadByProbe.settleAddress (h : UnreadByProbe f) (r : TransferOutcome) (s : State) : f (settleAddress r s) = f s := by
  unfold Machine.settleAddress
  split <;> exact h.untouched.of_eq rfl

theorem UnreadByProbe.blWriteAddress (h : UnreadByProbe f) (a : Byte) (s : State) : Passes f s (blWriteAddress a s) :=
  (h.gap s).andThen fun _ _ ht => (h.wait _ _ _).andThen fun _ _ hu =>
    ⟨(h.settleAddress _ _).trans (hu.1.trans ((h.untouched.of_eq rfl).trans ht)), hu.2⟩

theorem UnreadByProbe.stopWait (h : UnreadByProbe f) (s : State) : Passes f s (stopWait s) := by
  have hstop : (blStop s).All (fun _ t => f t = f s) (fun _ => True) :=
    (h.gap s).andThen fun _ _ ht => (h.untouched.of_eq rfl).trans ht
  exact hstop.andThen fun _ _ ht => (h.wait _ _ _).of_eq ((h.untouched.of_eq rfl).trans ht)

/-- A step of a probe, its abort path, and what follows it. -/
theorem UnreadByProbe.orAbort (h : UnreadByProbe f) {r : Ran TransferOutcome} {k : State → Ran TransferOutcome}
    (hr : Passes f s r) (hk : ∀ t, Passes f t (k t)) : Passes f s (r.orFail abort k) :=
  hr.orFail
    (fun e _ ht _ => (h.stopWait _).andThen fun _ _ hu => ⟨hu.1.trans ((h.err _ e).trans ht.1), ht.2⟩)
    fun t ht => (hk t).of_eq ht.1

theorem UnreadByProbe.pmProbe (h : UnreadByProbe f) (s : State) : Passes f s (pmProbe s) :=
  h.orAbort (h.blStart s) fun t => h.orAbort (h.blWriteAddress _ t) h.stopWait

theorem UnreadByProbe.delayLoop (h : UnreadByProbe f) (hticks : ∀ s x, f { s with ticks := x } = f s) (n : Nat) : ∀ s : State,
    (delayLoop n s).All (fun _ t => f t = f s) (fun _ => True) := by
  induction n with
  | zero => exact fun _ => rfl
  | succ n ih =>
    intro s
    refine (h.gap s).andThen fun _ t ht => ?_
    split
    · exact (ih _).mono (fun _ _ hu => hu.trans ((hticks t _).trans ht)) fun _ hu => hu
    · trivial

/-! ### The probes of a ready wait -/

theorem unreadByProbe_retry : UnreadByProbe State.retry := ⟨fun _ _ _ _ _ _ _ _ _ _ _ => rfl, fun _ _ => rfl, fun _ _ => rfl⟩

/-- How a ready wait with `n` probes left ends: RETRY counted at least one if there was one left, and no more than there were. -/
abbrev CountsProbes (n : Nat) (s : State) (r : TransferOutcome) (t : State) : Prop :=
  s.retry + min n 1 ≤ t.retry ∧ t.retry ≤ s.retry + n ∧ (r = .success ∨ r = .timeout)

/-- RETRY goes on with each probe, and a refused probe is never the last word. -/
theorem readyLoop_counts (n : Nat) : ∀ s : State, (readyLoop n s).All (CountsProbes n s) (fun _ => True) := by
  have hretry := unreadByProbe_retry
  induction n with
  | zero => exact fun s => ⟨by simp, by simp, .inr rfl⟩
  | succ n ih =>
    intro s
    refine (hretry.pmProbe s).andThen fun r t ⟨ht, hr⟩ => ?_
    simp only
    split
    · refine (hretry.gap _).andThen fun _ v hv => ?_
      have hv : v.retry = s.retry + 1 := hv.trans (congrArg (· + 1) ht)
      split
      · exact ⟨by omega, by omega, .inr rfl⟩
      · refine (hretry.delayLoop (fun _ _ => rfl) _ _).andThen fun _ x hx => ?_
        have hx : x.retry = s.retry + 1 := hx.trans hv
        exact (ih x).mono (fun _ _ ⟨h1, h2, h3⟩ => ⟨by omega, by omega, h3⟩) fun _ hu => hu
    · rename_i hne
      exact ⟨by simp [ht], by simp [ht], hr.imp_right fun h => h.resolve_left hne⟩

/-- Settles O35: by induction on the probes left. -/
theorem readyWaitIsBounded : Obligations.ReadyWaitIsBounded := by
  intro s t r hn hw
  have h := readyLoop_counts s.cfg.readyRetries { s with retry := 0 }
  rw [show readyLoop s.cfg.readyRetries { s with retry := 0 } = .done r t from hw, Ran.all_done] at h
  obtain ⟨h1, h2, h3⟩ := h
  exact ⟨by simp only at h1; omega, by simpa using h2, h3⟩

end Sys2Proof.Machine
end

section
/-!
PROOFS. The commands of PagedMemoryDevice that put nothing on the wire: those out of range (R199, R221), and reads and writes of no
bytes (R195, R196). Their only gap is the last one, in which nothing is pending.
-/

namespace Sys2Proof.Machine

variable {i : Instr} {s t u : State} {e : TransferOutcome}

/-! ### The range check (R199) -/

theorem outOfRange_iff (c : Params) (a n : Nat) :
    outOfRange c a n = true ↔ if n = 0 then c.maxAddress < a else c.maxAddress < a + n - 1 := by
  unfold outOfRange
  split <;> simp

theorem outOfRange_one_iff (c : Params) (a : Nat) : outOfRange c a 1 = true ↔ c.maxAddress < a := by
  simp [outOfRange_iff]

theorem isPaged_of_leavesRange {c : Params} {n : Nat} (h : leavesRange i c n) : isPaged i = true := by
  cases i <;> simp_all [leavesRange, isPaged]

/-! ### A command with nothing pending -/

/-- What the other agents leave alone while nothing is pending on the wire, unless the block is reset. -/
def State.settled (s : State) : Nat × Engine × Phase × Byte × Memory × Memory × Count :=
  (s.epoch, s.eng, s.phase, s.result, s.rbuf, s.ee.mem, s.doneCount)

theorem settled_eq_iff : t.settled = s.settled ↔ t.epoch = s.epoch ∧ t.eng = s.eng ∧ t.phase = s.phase ∧ t.result = s.result ∧
    t.rbuf = s.rbuf ∧ t.ee.mem = s.ee.mem ∧ t.doneCount = s.doneCount := by
  simp [State.settled]

theorem settled_kept (ha : s.eng.act = .none) (hst : s.eng.stopp = false) :
    KeptByAgents (fun t => t.busy = true ∧ t.settled = s.settled) where
  busy h := h.1
  engine {t} a h := by
    obtain ⟨-, heng, -⟩ := settled_eq_iff.1 h.2
    rwa [engineStep_none a (by rw [heng, ha]) (by rw [heng, hst])]
  ready h := h
  sched _ h := h
  draws _ h := h
  refused h := h
  read _ h := h

/-- A command of L2 whose body ends at once, writing DONE at most: it finishes with everything else as it was, unless the block is
reset in the last gap. -/
theorem exec_without_bus (hs : s.ReadyForPaged) (hi : isPaged i = true) (hl : lenTooLong i s = false) (d : Count)
    (hb : bodyOf i (accept i s) = .done e { accept i s with doneCount := d }) :
    ∃ t, exec i s = .next t ∧
      (t.epoch = s.epoch → t.cpl = true ∧ t.outcome = e ∧ t.settled = State.settled { s with doneCount := d }) := by
  refine ⟨_, exec_accepted (accepted_paged hs hi hl), ?_⟩
  obtain ⟨-, -, hp, hst, -, hphase⟩ := hs
  have ha := (hphase.idle hp hst).2
  have hk := settled_kept (s := { s with doneCount := d }) ha hst
  have hreset : Resets (fun t => t.busy = true ∧ t.settled = State.settled { s with doneCount := d }) (ResetSince s) :=
    fun u hu => by
      obtain ⟨hepoch, -⟩ := settled_eq_iff.1 hu.2
      simp [ResetSince, hepoch]
  refine conclude_all
    (R := fun e' t => e' = e ∧ t.busy = true ∧ t.settled = State.settled { s with doneCount := d })
    (F := fun e' t => e' = e ∧ t.settled = State.settled { s with doneCount := d })
    (G := fun t => t.epoch = s.epoch → t.cpl = true ∧ t.outcome = e ∧ t.settled = State.settled { s with doneCount := d }) ?_
    (fun e' u hu => (hk.gap hreset hu.2).mono (fun _ _ hv => ⟨hu.1, hv.2⟩) fun _ hv => hv)
    (fun e' u hu _ => ⟨rfl, hu.1, hu.2⟩) (fun u hu h => absurd h hu)
  rw [hb]
  exact ⟨rfl, rfl, rfl⟩

/-! ### AddressOutOfRange -/

theorem body_of_leavesRange (h : leavesRange i s.cfg s.len.toNat) :
    ∃ d, bodyOf i (accept i s) = .done .addressOutOfRange { accept i s with doneCount := d } := by
  cases i with
  | mrd1 a => exact ⟨s.doneCount, if_pos ((outOfRange_one_iff _ _).2 h)⟩
  | mwr1 a x => exact ⟨s.doneCount, if_pos ((outOfRange_one_iff _ _).2 h)⟩
  | mrdn a => exact ⟨0, if_pos ((outOfRange_iff _ _ _).2 h)⟩
  | mwrn a => exact ⟨0, if_pos ((outOfRange_iff _ _ _).2 h)⟩
  | init _ | start | stop | wraddr _ | wrbyte _ | rdbyte _ | probe | waitrdy => exact h.elim

/-- AddressOutOfRange, and it alone, says that the command leaves the device's range. -/
abbrev SaysRange (i : Instr) (c : Params) (n : Nat) (e : TransferOutcome) : Prop := e = .addressOutOfRange ↔ leavesRange i c n

theorem BusOutcome.ne_addressOutOfRange (h : BusOutcome e) : e ≠ .addressOutOfRange := by
  obtain rfl | rfl | rfl := h <;> simp

theorem RangedOutcome.saysRange {c : Params} {n : Nat} {out : Bool} (h : RangedOutcome out e)
    (hout : out = true ↔ leavesRange i c n) : SaysRange i c n e := by
  cases out with
  | true => exact iff_of_true h (hout.1 rfl)
  | false => exact iff_of_false (BusOutcome.ne_addressOutOfRange h) fun hr => absurd (hout.2 hr) (by simp)

/-- A bus outcome of a command without a range check. -/
theorem BusOutcome.saysRange {c : Params} {n : Nat} (h : BusOutcome e) (hi : ¬ leavesRange i c n) : SaysRange i c n e :=
  iff_of_false h.ne_addressOutOfRange hi

/-- The outcome of every body, by its range check (R191, R199, R221). -/
theorem body_saysRange (i : Instr) (s : State) :
    (bodyOf i (accept i s)).All (fun e u => Doing u ∧ SaysRange i s.cfg s.len.toNat e) Unfinished := by
  have h := doing_kept
  have hQ := resets_unfinished Doing
  have hPQ : ∀ u, Doing u → Unfinished u := fun _ hu => hu.2
  have h0 : Doing (accept i s) := ⟨rfl, rfl⟩
  have bus {r : Ran TransferOutcome} (hi : ¬ leavesRange i s.cfg s.len.toNat)
      (hr : r.All (fun e u => Doing u ∧ BusOutcome e) Unfinished) :
      r.All (fun e u => Doing u ∧ SaysRange i s.cfg s.len.toNat e) Unfinished :=
    hr.mono (fun _ _ hu => ⟨hu.1, hu.2.saysRange hi⟩) fun _ hu => hu
  have ranged {r : Ran TransferOutcome} {out : Bool} (hout : out = true ↔ leavesRange i s.cfg s.len.toNat)
      (hr : r.All (fun e u => Doing u ∧ RangedOutcome out e) Unfinished) :
      r.All (fun e u => Doing u ∧ SaysRange i s.cfg s.len.toNat e) Unfinished :=
    hr.mono (fun _ _ hu => ⟨hu.1, RangedOutcome.saysRange hu.2 hout⟩) fun _ hu => hu
  cases i with
  | init m => exact bus id ((h.gap hQ h0).andThen fun _ _ hu => ⟨hu, busOutcome_success⟩)
  | start => exact bus id (h.blStart_outcome hQ h0)
  | stop => exact bus id ((h.blStop hQ h0).mono (fun _ _ hu => ⟨hu.1, .inl hu.2.1⟩) fun _ hu => hu)
  | wraddr a => exact bus id (h.blWriteAddress hQ a h0)
  | wrbyte b => exact bus id (h.blWriteByte hQ b h0)
  | rdbyte k => exact bus id (h.blReadByte_outcome hQ k h0)
  | probe => exact bus id (h.pmProbe hQ h0)
  | waitrdy => exact bus id (h.readyWait_outcome hQ hPQ h0)
  | mrd1 a => exact ranged (outOfRange_one_iff _ _) (h.pmReadByte hQ a h0)
  | mwr1 a b => exact ranged (outOfRange_one_iff _ _) (h.pmWriteByte hQ hPQ a b h0)
  | mrdn a =>
    exact ranged (outOfRange_iff _ _ _) (h.pmReadBytes (s := accept (.mrdn a) s) hQ a (fun _ _ hu => hu) h0 h0)
  | mwrn a => exact ranged (outOfRange_iff _ _ _) (h.pmWriteBytes hQ hPQ (fun _ _ _ _ hu => hu) a h0)

/-- Settles O42: the body ends at its range check; and every outcome but its comes from the bus. -/
theorem commandsOutOfRange : Obligations.OutOfRange := by
  refine ⟨fun i s hs hlen h => ?_, fun i s t hok hx hc => ?_⟩
  · obtain ⟨d, hb⟩ := body_of_leavesRange h
    have hi := isPaged_of_leavesRange h
    obtain ⟨t, hx, ht⟩ := exec_without_bus hs hi (hlen hi) d hb
    refine ⟨t, hx, fun hepoch => ?_⟩
    obtain ⟨hcpl, hout, hsettled⟩ := ht hepoch
    obtain ⟨-, heng, hphase, hresult, hrbuf, hmem, -⟩ := settled_eq_iff.1 hsettled
    exact ⟨hcpl, hout, heng, hphase.trans hs.2.2.1, hresult, hrbuf, memRead_congr hmem⟩
  · exact exec_completed (f := fun _ => ()) (R := fun e _ => SaysRange i s.cfg s.len.toNat e)
      (fun _ _ _ _ _ _ _ _ _ _ _ => rfl) (fun _ _ => rfl) hok (body_saysRange i s) hx hc

/-! ### No bytes -/

theorem body_of_zero {a : MemAddr} (hi : i = .mrdn a ∨ i = .mwrn a) (h0 : s.len = 0) (ha : a.toNat ≤ s.cfg.maxAddress) :
    bodyOf i (accept i s) = .done .success { accept i s with doneCount := 0 } := by
  have hlen : (accept i s).len.toNat = 0 := by simp [h0]
  have hrange : ¬ outOfRange s.cfg a.toNat 0 = true := by simpa [outOfRange_iff] using ha
  obtain rfl | rfl := hi
  · simp only [bodyOf, pmReadBytes, hlen]
    exact if_neg hrange
  · simp only [bodyOf, pmWriteBytes, hlen]
    exact if_neg hrange

/-- Settles O43: the body ends before its first operation. -/
theorem zeroLength : Obligations.ZeroLength := by
  intro i a s hi hs h0 ha
  have hpaged : isPaged i = true := by obtain rfl | rfl := hi <;> rfl
  have hl : lenTooLong i s = false := by obtain rfl | rfl := hi <;> simp [lenTooLong, h0]
  obtain ⟨t, hx, ht⟩ := exec_without_bus hs hpaged hl 0 (body_of_zero hi h0 ha)
  refine ⟨t, hx, fun hepoch => ?_⟩
  obtain ⟨hcpl, hout, hsettled⟩ := ht hepoch
  obtain ⟨-, heng, hphase, hresult, hrbuf, hmem, hdone⟩ := settled_eq_iff.1 hsettled
  exact ⟨hcpl, hout, heng, hphase.trans hs.2.2.1, hdone, hresult, hrbuf, memRead_congr hmem⟩

end Sys2Proof.Machine
end

section
/-!
PROOFS. Where the commands of PagedMemoryDevice complete (R192 to R197): the lemma on the body in an environment in which every wait ends
(`At.probe`, `At.readByte`, ...) gives the body's ends, the device says which of them it is, and a last quiet gap follows.
-/

namespace Sys2Proof.Machine

variable {v : Env} {s s1 t u : State} {d : Steady} {i : Instr} {e : TransferOutcome} {w : List Symbol} {P P' Q : Bool → Prop}
  {m : Memory}

/-! ### What a command leaves whose body freed the bus -/

/-- The state `t` that a command finishes in with `e`, its body having freed the bus in `u`: the symbols `w` have gone on the wire, the
registers are those of `s1`, and the reference EEPROM, if it is the slave, is busy or not as `P` says and holds the content `m`. -/
structure Left (s1 u : State) (w : List Symbol) (P : Bool → Prop) (m : Memory) (e : TransferOutcome) (t : State) : Prop where
  freed : t.Freed e
  eng : t.eng = u.eng
  trace : t.eng.trace = s1.eng.trace ++ w
  acken : t.eng.acken = s1.eng.acken
  result : t.result = s1.result
  doneCount : t.doneCount = s1.doneCount
  rbuf : t.rbuf = s1.rbuf
  retry : t.retry = s1.retry
  epoch : t.epoch = s1.epoch
  slave : s1.bus = .reference → SlaveFree P m t.ee
  other : s1.bus = .unknown → t.ee.mem = s1.ee.mem

theorem Left.of_at {g : State} (hg : At v s1 .idle w (SlaveFree P m) g) (hfreed : (finish e g).Freed e) (heng : g.eng = u.eng) :
    Left s1 u w P m e (finish e g) := by
  obtain ⟨hresult, hdone, hrbuf, hacken, hretry, -, hepoch, -⟩ := hg.facts
  exact ⟨hfreed, heng, hg.eng.trace, hacken, hresult, hdone, hrbuf, hretry, hepoch, fun hb => hg.ee (hg.bus_eq.trans hb),
    fun hb => hg.eeU (hg.bus_eq.trans hb)⟩

/-- An accepted command of L2 whose body freed the bus. -/
theorem exec_left (hs : s.ReadyForPaged) (hi : isPaged i = true) (hl : lenTooLong i s = false)
    (hb : bodyOf i (accept i s) = .done e u) (hS : v.Settles Q P) (hu : At v s1 .idle w (SlaveFree P m) u)
    (hrest : u.eng.AtRest) (hp : u.phase = .idle) :
    ∃ g, exec i s = .next (finish e g) ∧ At v s1 .idle w (SlaveFree P m) g ∧ Left s1 u w P m e (finish e g) := by
  obtain ⟨g, hx, hg, hc⟩ := exec_paged hs hi hl hb hu (SlaveFree.rests hS)
  exact ⟨g, hx, hg, .of_at hg (freed_of e hc hrest hp) hc.eng_eq⟩

/-- And in a steady environment that withholds no step. -/
theorem exec_left_steady (hs : s.ReadyForPaged) (hprompt : s.Prompt d) (hi : isPaged i = true) (hl : lenTooLong i s = false)
    (hb : bodyOf i (accept i s) = .done e u) (hS : (steadyEnv d).Settles Q P)
    (hu : At (steadyEnv d) s1 .idle w (SlaveFree P m) u) (hrest : u.eng.AtRest) (hp : u.phase = .idle)
    (hs1 : (s1.inited, s1.mode, s1.ccr, s1.trise, s1.len, s1.wbuf, s1.host, s1.rdata, s1.cfg, s1.bus, s1.epoch, s1.ill,
      s1.illcause) = (s.inited, s.mode, s.ccr, s.trise, s.len, s.wbuf, s.host, s.rdata, s.cfg, s.bus, s.epoch, false, .none)) :
    ∃ t, exec i s = .next t ∧ s.Completed t e ∧ Left s1 u w P m e t := by
  obtain ⟨g, hx, hg, hleft⟩ := exec_left hs hi hl hb hS hu hrest hp
  exact ⟨_, hx, completed_steady hprompt hg hs1, hleft⟩

/-- Content that no write has changed. -/
theorem Left.memRead (h : Left s1 u w P s1.ee.mem e t) (x : Nat) : t.ee.memRead x = s1.ee.memRead x := by
  refine memRead_congr ?_ x
  cases hb : s1.bus with
  | reference => exact (h.slave hb).2.2
  | unknown => exact h.other hb

/-- Content that a write has changed at the addresses where `new` has a byte, on a bus with the reference EEPROM. -/
theorem Left.memRead_written (h : Left s1 u w P m e t) {D : Nat → Prop} [DecidablePred D] {new : Nat → Byte}
    (hm : ∀ x, Memory.read m x = if D x then some (new x) else Memory.read s1.ee.mem x) (x : Nat) :
    t.ee.memRead x = if s1.bus = .reference ∧ D x then new x else s1.ee.memRead x := by
  cases hb : s1.bus with
  | reference =>
    have hmem : t.ee.mem = m := (h.slave hb).2.2
    simp only [Eeprom.memRead, hmem, hm, true_and]
    split <;> rfl
  | unknown => simp [memRead_congr (h.other hb)]

theorem Left.not_driving (h : Left s1 u w P m e t) (hb : s1.bus = .reference) : t.ee.out ≠ .driving := (h.slave hb).1

/-! ### The devices of the statements -/

/-- The busy state of the device after a probe. -/
theorem Env.Settles.after_probe (hS : v.Settles P P') (k : Bool) :
    v.Settles (if k = true then Off else P') (if k = true then Off else P') := by
  cases k with
  | true => exact v.settles_off
  | false => exact hS.again

/-- An accepted command of L2 at its start, in the steady environment. -/
theorem begun_steady (hs : s.ReadyForPaged) (hprompt : s.Prompt d) (hfree : s.bus = .reference → SlaveFree P m s.ee) (i : Instr) :
    At (steadyEnv d) (accept i s) .idle [] (SlaveFree P m) (accept i s) :=
  At.init hs (prompt_holds i hprompt) hfree

/-- A device of the statements, and the one acknowledge bit it is heard to give to its address byte. -/
theorem answers_settle {k : Bool} (hack : k = true → s.DeviceAcks d) (hnak : k = false → s.DeviceNaks d) :
    ∃ P P', (steadyEnv d).Settles P P' ∧ (s.bus = .reference → SlaveFree P s.ee.mem s.ee) ∧
      ∀ k', (steadyEnv d).Hears P' s.bus k' → k' = k := by
  cases k with
  | true =>
    refine ⟨_, Off, steady_settles_acks d, acks_free (hack rfl), fun k' hH => ?_⟩
    cases k' with
    | true => rfl
    | false => exact (acks_not_false (hack rfl) hH).elim
  | false =>
    obtain ⟨P, hS, hfree, hnot⟩ := naks_settle (hnak rfl)
    refine ⟨P, P, hS, hfree, fun k' hH => ?_⟩
    cases k' with
    | true => exact absurd hH hnot
    | false => rfl

theorem deviceByte_unknown (hb : s.bus = .unknown) (a : Nat) : s.deviceByte d a = d.answer.byte := by
  simp [State.deviceByte, hb]

/-- An unknown bus answers every read with the byte of the statements. -/
theorem deviceByte_answers (hb : s.bus = .unknown) (ans : Answer) (hans : (steadyEnv d).answers ans) (a : Nat) :
    ans.byte = s.deviceByte d a := by
  rw [deviceByte_unknown hb, show ans = d.answer from hans]

theorem deviceByte_reference (hb : s.bus = .reference) (a : Nat) : s.deviceByte d a = s.ee.memRead a := by
  simp [State.deviceByte, hb]

/-! ### PROBE -/

/-- Settles O53: by the acknowledge bit of the one address byte. -/
theorem probeCompletes : Obligations.ProbeCompletes := by
  intro s d k hs hprompt hack hnak
  obtain ⟨P, P', hS, hfree, hone⟩ := answers_settle hack hnak
  obtain ⟨k', u, hb, hu, hrest, hp, haf, hdir, hdr, hH⟩ := (begun_steady hs hprompt hfree .probe).probe hS
  obtain rfl := hone k' hH
  obtain ⟨t, hx, hcompleted, h⟩ := exec_left_steady (i := .probe) hs hprompt rfl rfl hb (hS.after_probe k') hu hrest hp rfl
  exact ⟨t, hx, hcompleted, h.freed.rest, h.freed.phase, h.trace, h.eng ▸ haf, h.eng ▸ hdr, h.eng ▸ hdir, h.acken, h.result,
    h.doneCount, h.rbuf, h.memRead⟩

/-! ### MRD1 and MRDN -/

/-- Settles O54: the byte is the device's, or the first byte is refused. -/
theorem mrd1Completes : Obligations.Mrd1Completes := by
  intro a s d hs hprompt ha
  refine ⟨fun hd => ?_, fun hd => ?_⟩
  · obtain ⟨u, hb, hu, hrest, hp, haf, hdir, hdr, -⟩ | ⟨u, -, hN⟩ :=
      At.readByte (s0 := accept (.mrd1 a) s) (steady_settles_acks d) (steady_alike d _) a (s.deviceByte d a.toNat) ha
        (fun hb ans hans => deviceByte_answers hb ans hans _) (fun hb => (deviceByte_reference hb _).symm)
        (begun_steady hs hprompt (acks_free hd) _)
    · obtain ⟨t, hx, hcompleted, h⟩ :=
        exec_left_steady (i := .mrd1 a) hs hprompt rfl rfl hb (steadyEnv d).settles_off hu hrest hp rfl
      exact ⟨t, hx, hcompleted, h.freed.rest, h.freed.phase, h.trace, h.result, h.eng ▸ hdr, h.eng ▸ haf, h.acken,
        h.eng ▸ hdir, h.doneCount, h.rbuf, h.not_driving, h.memRead⟩
    · exact (acks_not_false hd hN.hears).elim
  · obtain ⟨P, hS, hfree, hnot⟩ := naks_settle hd
    obtain ⟨u, -, -, -, -, -, -, -, hH⟩ | ⟨u, hb, hN⟩ :=
      At.readByte (s0 := accept (.mrd1 a) s) hS (steady_alike d _) a (s.deviceByte d a.toNat) ha
        (fun hb ans hans => deviceByte_answers hb ans hans _) (fun hb => (deviceByte_reference hb _).symm)
        (begun_steady hs hprompt hfree _)
    · exact absurd hH hnot
    · exact refused_of (i := .mrd1 a) (s1 := accept (.mrd1 a) s) hs rfl hprompt rfl hS (t := accept _ s) rfl hb hN rfl

/-- Settles O56: the bytes are the device's, or the first byte is refused. -/
theorem mrdnCompletes : Obligations.MrdnCompletes := by
  intro a s d hs hprompt hleg h1 hlen ha
  have hl : lenTooLong (.mrdn a) s = false := by simpa [lenTooLong] using hlen
  refine ⟨fun hd => ?_, fun hd => ?_⟩
  · obtain ⟨u, s1, hb, hu, hs1, hread, hrest, hp, haf, hdir, -⟩ | ⟨u, -, hN⟩ :=
      At.readBytes (s0 := accept (.mrdn a) s) (steady_settles_acks d) (steady_alike d _) hleg.2.1 a
        (fun i => s.deviceByte d (a.toNat + i)) h1 ha (fun hb ans hans _ => deviceByte_answers hb ans hans _)
        (fun hb _ _ => (deviceByte_reference hb _).symm) (begun_steady hs hprompt (acks_free hd) _)
    · rw [hs1] at hu
      obtain ⟨t, hx, hcompleted, h⟩ :=
        exec_left_steady (i := .mrdn a) hs hprompt rfl hl hb (steadyEnv d).settles_off hu hrest hp rfl
      refine ⟨t, hx, hcompleted, h.freed.rest, h.freed.phase, h.trace, h.doneCount, fun i hi => ?_, fun i hi => ?_, ?_,
        h.eng ▸ haf, h.acken, h.eng ▸ hdir, h.not_driving, h.memRead⟩
      · simp [State.rbufRead, h.rbuf, hread, hi]
      · simp [State.rbufRead, h.rbuf, h.epoch, hread, Nat.not_lt.2 hi]
      · rw [h.result, Nat.add_sub_assoc h1]
        rfl
    · exact (acks_not_false hd hN.hears).elim
  · obtain ⟨P, hS, hfree, hnot⟩ := naks_settle hd
    obtain ⟨u, s1, -, -, -, -, -, -, -, -, hH⟩ | ⟨u, hb, hN⟩ :=
      At.readBytes (s0 := accept (.mrdn a) s) hS (steady_alike d _) hleg.2.1 a
        (fun i => s.deviceByte d (a.toNat + i)) h1 ha (fun hb ans hans _ => deviceByte_answers hb ans hans _)
        (fun hb _ _ => (deviceByte_reference hb _).symm) (begun_steady hs hprompt hfree _)
    · exact absurd hH hnot
    · exact refused_of (i := .mrdn a) (s1 := { accept (.mrdn a) s with doneCount := 0 }) hs rfl hprompt hl hS (t := accept _ s) rfl hb hN rfl

end Sys2Proof.Machine
end

section
/-!
PROOFS. Where the writing commands of PagedMemoryDevice and the ready wait complete (R194, R196, R197), in a steady environment and in
every timely schedule, and how they end on a device whose write cycle does not (R203).
-/

namespace Sys2Proof.Machine

variable {v : Env} {s s1 t u : State} {d : Steady} {i : Instr} {e : TransferOutcome} {w : List Symbol} {P P' Q Q' : Bool → Prop}
  {m : Memory}

/-! ### The devices of the statements -/

/-- The busy state of a device that takes a write: busy after it, not once a gap has passed, if the environment ends busy periods. -/
abbrev Cycles (d : Steady) : Bool → Prop := fun b => d.ready = true → b = false

/-- No byte is refused by a device whose write cycle ends before it is probed. -/
theorem writes_not_cycles (h : s.DeviceWrites d) : ¬(steadyEnv d).Hears (Cycles d) s.bus false :=
  fun hH => writes_not_false h (fun hb hr => by simpa using hb hr) hH

theorem writes_not_off (h : s.DeviceWrites d) : ¬(steadyEnv d).Hears Off s.bus false :=
  fun hH => writes_not_false h (fun hb _ => by simp at hb) hH

/-- The probes that were refused, if none could be. -/
theorem probes_zero {j : Nat} {p : Prop} (hj : 0 < j → p) (hnot : ¬p) : j = 0 :=
  Nat.eq_zero_of_not_pos fun h => hnot (hj h)

/-! ### MWR1 -/

theorem mwr1_writes (hs : s.ReadyForPaged) (hleg : s.cfg.Legal) {a : MemAddr} (ha : a.toNat ≤ s.cfg.maxAddress) (x : Byte)
    (hprompt : s.Prompt d) (hd : s.DeviceWrites d) :
    ∃ t, exec (.mwr1 a x) s = .next t ∧ s.Completed t .success ∧ t.eng.AtRest ∧ t.phase = .idle ∧
      t.eng.trace = s.eng.trace ++ writeShape s.cfg a [x] ++ probeShape s.cfg true ∧ t.retry = 1 ∧
      t.eng.af = false ∧ t.eng.acken = s.eng.acken ∧ t.eng.dir = false ∧ t.result = s.result ∧
      t.doneCount = s.doneCount ∧ t.rbuf = s.rbuf ∧ (s.bus = .reference → t.ee.out ≠ .driving) ∧
      ∀ y, t.ee.memRead y = if s.bus = .reference ∧ y = a.toNat then x else s.ee.memRead y := by
  obtain ⟨j, u, -, hb, hu, hrest, hp, haf, hdir, -, -, hj⟩ | ⟨u, -, -, -, -, -, -, hH⟩ | ⟨u, -, hN⟩ :=
    At.writeByte (s0 := accept (.mwr1 a x) s) (Q := Any) (steady_settles_acks d) (steady_alike d _) (fun _ _ => trivial)
      (steady_settles d) (fun _ hH => absurd hH (writes_not_cycles hd)) hleg a x ha
      (begun_steady hs hprompt (fun hb => (writes_free hd hb).1) _)
  · obtain rfl := probes_zero hj (writes_not_cycles hd)
    obtain ⟨t, hx, hcompleted, h⟩ :=
      exec_left_steady (i := .mwr1 a x) hs hprompt rfl rfl hb (steadyEnv d).settles_off hu hrest hp rfl
    exact ⟨t, hx, hcompleted, h.freed.rest, h.freed.phase, by simpa [refusedProbes] using h.trace, h.retry, h.eng ▸ haf, h.acken,
      h.eng ▸ hdir, h.result, h.doneCount, h.rbuf, h.not_driving, h.memRead_written (fun _ => Memory.read_write _ _ _ _)⟩
  · exact absurd hH (writes_not_cycles hd)
  · exact absurd hN.hears (writes_not_off hd)

theorem mwr1_refused (hs : s.ReadyForPaged) (hleg : s.cfg.Legal) {a : MemAddr} (ha : a.toNat ≤ s.cfg.maxAddress) (x : Byte)
    (hprompt : s.Prompt d) (hd : s.DeviceNaks d) : ∃ t, exec (.mwr1 a x) s = .next t ∧ s.Refused t s.doneCount := by
  obtain ⟨P, hS, hfree, hnot⟩ := naks_settle hd
  obtain ⟨j, u, -, -, -, -, -, -, -, hH, -⟩ | ⟨u, -, -, -, -, -, hH, -⟩ | ⟨u, hb, hN⟩ :=
    At.writeByte (s0 := accept (.mwr1 a x) s) (Q := Any) hS (steady_alike d _) (fun _ _ => trivial)
      (steadyEnv d).settles_any (fun hH => absurd hH hnot) hleg a x ha (begun_steady hs hprompt hfree _)
  · exact absurd hH hnot
  · exact absurd hH hnot
  · exact refused_of (i := .mwr1 a x) (s1 := accept (.mwr1 a x) s) hs rfl hprompt rfl hS (t := accept _ s) rfl hb hN rfl

/-- On the reference EEPROM: the byte is written, however many probes of the ready wait are refused. -/
theorem mwr1_timely (hs : s.ReadyForPaged) (hleg : s.cfg.Legal) {a : MemAddr} (ha : a.toNat ≤ s.cfg.maxAddress) (x : Byte)
    (htimely : Timely s.cfg s.sched) (hbus : s.bus = .reference) (hout : s.ee.out ≠ .driving) (hidle : s.ee.busydev = false) :
    ∃ t, exec (.mwr1 a x) s = .next t ∧
      ((t.Freed .success ∧ t.ee.busydev = false ∧ ∃ j, j < s.cfg.readyRetries ∧ t.retry = j + 1 ∧
          t.eng.trace = s.eng.trace ++ writeShape s.cfg a [x] ++ refusedProbes s.cfg j ++ probeShape s.cfg true) ∨
        (t.Freed .timeout ∧ t.retry = s.cfg.readyRetries ∧
          t.eng.trace = s.eng.trace ++ writeShape s.cfg a [x] ++ refusedProbes s.cfg s.cfg.readyRetries)) ∧
      t.result = s.result ∧ t.doneCount = s.doneCount ∧ t.rbuf = s.rbuf ∧
      ∀ y, t.ee.memRead y = if y = a.toNat then x else s.ee.memRead y := by
  have hr : timelyEnv.Ready Off s.ee.mem s := ⟨hs, fun _ => ⟨rfl, htimely⟩, hbus, hout, hidle, rfl⟩
  obtain ⟨j, u, hj, hb, hu, hrest, hp, -⟩ | ⟨u, hb, hu, hrest, hp, -⟩ | ⟨u, -, hN⟩ :=
    At.writeByte (s0 := accept (.mwr1 a x) s) (Q := Any) timelyEnv.settles_off hr.alike (fun _ _ => trivial)
      timelyEnv.settles_any (fun _ _ => .inl trivial) hleg a x ha (hr.begun _)
  · obtain ⟨g, hx, -, h⟩ := exec_left (i := .mwr1 a x) hs rfl rfl hb timelyEnv.settles_off hu hrest hp
    refine ⟨_, hx, .inl ⟨h.freed, (h.slave hbus).2.1, j, hj, h.retry, by simpa using h.trace⟩, h.result, h.doneCount, h.rbuf,
      fun y => ?_⟩
    simpa [hbus] using h.memRead_written (fun _ => Memory.read_write _ _ _ _) y
  · obtain ⟨g, hx, -, h⟩ := exec_left (i := .mwr1 a x) hs rfl rfl hb timelyEnv.settles_any hu hrest hp
    refine ⟨_, hx, .inr ⟨h.freed, h.retry, by simpa using h.trace⟩, h.result, h.doneCount, h.rbuf, fun y => ?_⟩
    simpa [hbus] using h.memRead_written (fun _ => Memory.read_write _ _ _ _) y
  · exact absurd hN.hears hr.not_refused

/-- Settles O55: by the device and the environment. -/
theorem mwr1Completes : Obligations.Mwr1Completes := fun _ x _ hs hleg ha =>
  ⟨fun _ hprompt => ⟨mwr1_writes hs hleg ha x hprompt, mwr1_refused hs hleg ha x hprompt⟩, mwr1_timely hs hleg ha x⟩

/-! ### MWRN -/

/-- Settles O57: no probe is refused, or the first byte is. -/
theorem mwrnCompletes : Obligations.MwrnCompletes := by
  intro a s d hs hprompt hleg h1 hlen ha
  have hl : lenTooLong (.mwrn a) s = false := by simpa [lenTooLong] using hlen
  refine ⟨fun hd => ?_, fun hd => ?_⟩
  · obtain ⟨u, m, js, r, hb, hjs, hj, hu, hm, hrest, hp, haf, hdir⟩ | ⟨u, w, m, s1, -, -, -, -, -, hH, -⟩ :=
      At.writeBytes (s0 := accept (.mwrn a) s) (Q := Any) (steady_settles_acks d) (fun _ _ => trivial) (steady_settles d)
        (fun hH => absurd hH (writes_not_cycles hd)) hleg a h1 ha (fun _ => by simp) (writes_unknown hd)
        (begun_steady hs hprompt (fun hb => (writes_free hd hb).1) _)
    · obtain ⟨t, hx, hcompleted, h⟩ :=
        exec_left_steady (i := .mwrn a) hs hprompt rfl hl hb (steadyEnv d).settles_off hu hrest hp rfl
      have hshapes := probedShapes_zero (accept (.mwrn a) s) a js
        (fun j hmem => probes_zero (hj j hmem).2 (writes_not_cycles hd)) s.len.toNat hjs
      exact ⟨t, hx, hcompleted, h.freed.rest, h.freed.phase, h.trace.trans (congrArg (s.eng.trace ++ ·) hshapes), h.doneCount,
        h.eng ▸ haf, h.acken, h.eng ▸ hdir, h.result, h.rbuf, h.not_driving, h.memRead_written hm⟩
    · exact absurd hH (writes_not_cycles hd)
  · obtain ⟨P, hS, hfree, hnot⟩ := naks_settle hd
    obtain ⟨u, hb, hN⟩ := At.writeBytesRefused (s0 := accept (.mwrn a) s) hS (steady_alike d _) hleg a h1 ha hnot
      (begun_steady hs hprompt hfree _)
    exact refused_of (i := .mwrn a) (s1 := { accept (.mwrn a) s with doneCount := 0 }) hs rfl hprompt hl hS (t := accept _ s) rfl
      hb hN rfl

end Sys2Proof.Machine
end

section
/-!
PROOFS. The ready wait as a command (R197, R198, R203): in a steady environment and in every timely schedule, with its ticks and without
them (U12); and the writes whose ready wait never ends in an acknowledge (R201).
-/

namespace Sys2Proof.Machine

variable {v : Env} {s s0 t u : State} {d : Steady} {i : Instr} {e : TransferOutcome} {w : List Symbol} {P P' Q Q' : Bool → Prop}
  {m : Memory}

/-! ### A delay without ticks (U12) -/

/-- The command of `s0` waits in a delay in `u`, no tick having come: the bus is free, the symbols `w` have gone on the wire. -/
structure Delayed (s0 : State) (w : List Symbol) (u : State) : Prop where
  rest : u.eng.AtRest
  trace : u.eng.trace = s0.eng.trace ++ w
  seq : u.seq = (s0.seq.map (fun q => q.cmd)).map (⟨·, .delay⟩)
  ticks : u.ticks = 0
  busy : u.busy = s0.busy
  cpl : u.cpl = s0.cpl

theorem seqAt_of_cmd (p : SeqPoint) (s : State) : (seqAt p s).seq = (s.seq.map (fun q => q.cmd)).map (⟨·, p⟩) := by
  simp [Option.map_map, Function.comp_def]

/-- A delay whose first tick never comes. -/
theorem delayMs_cut (hticks : ∀ u, v.holds u → (nextGap u).1.pulse = false) {n : Nat} (hn : 1 ≤ n) (hS : v.Settles Q P)
    (h : At v s0 .idle w (SlaveFree P m) t) (hrest : t.eng.AtRest) : ∃ u, delayMs n t = .cut u ∧ Delayed s0 w u := by
  obtain ⟨k, rfl⟩ : ∃ k, n = k + 1 := ⟨n - 1, by omega⟩
  obtain ⟨-, -, -, -, -, -, -, -, hbusy, hcpl, hcmd⟩ := h.facts
  have h0 : At v s0 .idle w (SlaveFree P m) { seqAt .delay t with ticks := 0 } :=
    h.write rfl rfl rfl rfl rfl (by rw [← h.kept]; simp only [State.sequenceKept, seqAt, Seq.map_cmd])
  obtain ⟨u, hg, hu, hc, -⟩ := h0.gap (SlaveFree.rests hS)
  refine ⟨u, ?_, by rw [hc.eng_eq]; exact hrest, hu.eng.trace, ?_, by rw [hc.2], hc.busy_eq.trans hbusy, by rw [hc.2]; exact hcpl⟩
  · simp only [delayMs, delayLoop, hg, Ran.andThen_done, hticks _ h0.holds, Bool.false_eq_true, if_false]
  · rw [hc.2, ← hcmd]
    exact seqAt_of_cmd .delay t

/-- A ready wait whose first probe is refused, in an environment without ticks, stays in its first delay. -/
theorem readyWait_cut (hticks : ∀ u, v.holds u → (nextGap u).1.pulse = false) (hretries : 1 ≤ s0.cfg.readyRetries)
    (hdelay : 1 ≤ s0.cfg.readyDelayMs) (hS : v.Settles P P') (hnot : ¬v.Hears P' s0.bus true)
    (h : At v s0 .idle w (SlaveFree P m) t) :
    ∃ u, readyWait t = .cut u ∧ Delayed s0 (w ++ probeShape s0.cfg false) u := by
  obtain ⟨n, hn⟩ : ∃ n, s0.cfg.readyRetries = n + 1 := ⟨s0.cfg.readyRetries - 1, by omega⟩
  obtain ⟨k, u, hprobe, hu, hrest, -, -, -, -, hH⟩ := (h.setRetry 0).probe hS
  cases k with
  | true => exact absurd hH hnot
  | false =>
    obtain ⟨x, hgap, hx, hc, -⟩ := (hu.setRetry (u.retry + 1)).gap (SlaveFree.rests hS)
    have hrest' : x.eng.AtRest := by rw [hc.eng_eq]; exact hrest
    obtain ⟨y, hy, hdelayed⟩ := delayMs_cut hticks (n := x.cfg.readyDelayMs) (by rw [hx.cfg_eq]; exact hdelay) hS hx hrest'
    refine ⟨y, ?_, hdelayed.rest, hdelayed.trace, hdelayed.seq, hdelayed.ticks, hdelayed.busy, hdelayed.cpl⟩
    have hloop : readyWait t = readyLoop (n + 1) { t with retry := 0 } := by rw [readyWait, h.cfg_eq, hn]
    simp only [Bool.false_eq_true, if_false] at hprobe
    simp only [hloop, readyLoop, hprobe, Ran.andThen_done, if_true, hgap, hrest'.stopp, Bool.false_eq_true, if_false, hy,
      Ran.andThen_cut]

theorem steady_no_ticks (hd : d.pulse = false) (u : State) (hu : (steadyEnv d).holds u) : (nextGap u).1.pulse = false := by
  have hsched : u.sched = ⟨[], .steady d⟩ := hu.1
  simp [nextGap, hsched, steadyGap, hd]

/-- A command cut short stays where it was cut. -/
theorem exec_cut (hr : refusalCause i s = none) (hb : bodyOf i (accept i s) = .cut u) : exec i s = .next u := by
  rw [exec_accepted hr, hb]
  rfl

/-! ### WAITRDY -/

theorem waitrdy_acknowledged (hs : s.ReadyForPaged) (hn : 1 ≤ s.cfg.readyRetries) (hprompt : s.Prompt d) (hd : s.DeviceAcks d) :
    ∃ t, exec .waitrdy s = .next t ∧ s.Completed t .success ∧ t.eng.AtRest ∧ t.phase = .idle ∧
      t.eng.trace = s.eng.trace ++ probeShape s.cfg true ∧ t.retry = 1 ∧ t.eng.af = false ∧
      t.eng.acken = s.eng.acken ∧ t.result = s.result ∧ t.doneCount = s.doneCount ∧ t.rbuf = s.rbuf ∧
      ∀ x, t.ee.memRead x = s.ee.memRead x := by
  have hnot : ¬(steadyEnv d).Hears Off s.bus false := acks_not_false hd
  obtain ⟨j, u, -, hb, hu, hrest, hp, haf, -, -, -, hj⟩ | ⟨u, -, -, -, -, -, -, -, hH⟩ :=
    At.readyWait (s0 := accept .waitrdy s) (fun hH => absurd hH hnot) (steady_settles_acks d) hn
      (begun_steady hs hprompt (acks_free hd) _)
  · obtain rfl := probes_zero hj hnot
    obtain ⟨t, hx, hcompleted, h⟩ :=
      exec_left_steady (i := .waitrdy) hs hprompt rfl rfl hb (steadyEnv d).settles_off hu hrest hp rfl
    exact ⟨t, hx, hcompleted, h.freed.rest, h.freed.phase, by simpa [refusedProbes] using h.trace, h.retry, h.eng ▸ haf, h.acken,
      h.result, h.doneCount, h.rbuf, h.memRead⟩
  · exact absurd hH hnot

theorem waitrdy_refused (hs : s.ReadyForPaged) (hn : 1 ≤ s.cfg.readyRetries) (hprompt : s.Prompt d) (hd : s.DeviceNaks d)
    (hticks : d.pulse = true ∨ s.cfg.readyDelayMs = 0) :
    ∃ t, exec .waitrdy s = .next t ∧ s.Completed t .timeout ∧ t.eng.AtRest ∧ t.phase = .idle ∧
      t.eng.trace = s.eng.trace ++ refusedProbes s.cfg s.cfg.readyRetries ∧
      t.retry = s.cfg.readyRetries ∧ t.eng.af = true ∧ t.eng.acken = s.eng.acken ∧ t.result = s.result ∧
      t.doneCount = s.doneCount ∧ t.rbuf = s.rbuf ∧ ∀ x, t.ee.memRead x = s.ee.memRead x := by
  obtain ⟨P, hS, hfree, hnot⟩ := naks_settle hd
  obtain ⟨j, u, -, -, -, -, -, -, -, -, hH, -⟩ | ⟨u, hb, hu, hrest, hp, haf, -⟩ :=
    At.readyWait (s0 := accept .waitrdy s) (fun _ => hticks) hS hn (begun_steady hs hprompt hfree _)
  · exact absurd hH hnot
  · obtain ⟨t, hx, hcompleted, h⟩ := exec_left_steady (i := .waitrdy) hs hprompt rfl rfl hb hS hu hrest hp rfl
    exact ⟨t, hx, hcompleted, h.freed.rest, h.freed.phase, h.trace, h.retry, h.eng ▸ haf, h.acken, h.result, h.doneCount, h.rbuf,
      h.memRead⟩

theorem waitrdy_delayed (hs : s.ReadyForPaged) (hn : 1 ≤ s.cfg.readyRetries) (hprompt : s.Prompt d) (hd : s.DeviceNaks d)
    (hticks : d.pulse = false) (hdelay : 1 ≤ s.cfg.readyDelayMs) :
    ∃ t, exec .waitrdy s = .next t ∧ t.busy = true ∧ t.cpl = false ∧ t.seq = some ⟨.waitrdy, .delay⟩ ∧
      t.eng.AtRest ∧ t.eng.trace = s.eng.trace ++ probeShape s.cfg false ∧ t.ticks = 0 := by
  obtain ⟨P, hS, hfree, hnot⟩ := naks_settle hd
  obtain ⟨u, hb, h⟩ := readyWait_cut (s0 := accept .waitrdy s) (steady_no_ticks hticks) hn hdelay hS hnot
    (begun_steady hs hprompt hfree _)
  exact ⟨u, exec_cut (accepted_paged hs rfl rfl) hb, h.busy, h.cpl, h.seq, h.rest, h.trace, h.ticks⟩

theorem waitrdy_timely (hs : s.ReadyForPaged) (hn : 1 ≤ s.cfg.readyRetries) (htimely : Timely s.cfg s.sched)
    (hout : s.bus = .reference → s.ee.out ≠ .driving) :
    ∃ t, exec .waitrdy s = .next t ∧
      ((t.Freed .success ∧ t.eng.af = false ∧ (s.bus = .reference → t.ee.busydev = false) ∧
          ∃ j, j < s.cfg.readyRetries ∧ t.retry = j + 1 ∧
            t.eng.trace = s.eng.trace ++ refusedProbes s.cfg j ++ probeShape s.cfg true) ∨
        (t.Freed .timeout ∧ t.eng.af = true ∧ t.retry = s.cfg.readyRetries ∧
          t.eng.trace = s.eng.trace ++ refusedProbes s.cfg s.cfg.readyRetries)) ∧
      t.result = s.result ∧ t.doneCount = s.doneCount ∧ t.rbuf = s.rbuf ∧ ∀ x, t.ee.memRead x = s.ee.memRead x := by
  have hbegun : At timelyEnv (accept .waitrdy s) .idle [] (SlaveFree Any s.ee.mem) (accept .waitrdy s) :=
    At.init hs ⟨rfl, htimely⟩ fun hb => ⟨hout hb, trivial, rfl⟩
  obtain ⟨j, u, hj, hb, hu, hrest, hp, haf, -⟩ | ⟨u, hb, hu, hrest, hp, haf, -⟩ :=
    At.readyWait (s0 := accept .waitrdy s) (fun _ => .inl trivial) timelyEnv.settles_any hn hbegun
  · obtain ⟨g, hx, -, h⟩ := exec_left (i := .waitrdy) hs rfl rfl hb timelyEnv.settles_off hu hrest hp
    exact ⟨_, hx, .inl ⟨h.freed, h.eng ▸ haf, fun hb => (h.slave hb).2.1, j, hj, h.retry, by simpa using h.trace⟩, h.result,
      h.doneCount, h.rbuf, h.memRead⟩
  · obtain ⟨g, hx, -, h⟩ := exec_left (i := .waitrdy) hs rfl rfl hb timelyEnv.settles_any hu hrest hp
    exact ⟨_, hx, .inr ⟨h.freed, h.eng ▸ haf, h.retry, by simpa using h.trace⟩, h.result, h.doneCount, h.rbuf, h.memRead⟩

/-- Settles O58: by the device, the ticks and the environment. -/
theorem waitrdyCompletes : Obligations.WaitrdyCompletes := fun _ hs hn =>
  ⟨fun _ hprompt => ⟨waitrdy_acknowledged hs hn hprompt, waitrdy_refused hs hn hprompt, waitrdy_delayed hs hn hprompt⟩,
    waitrdy_timely hs hn⟩

/-! ### A write cycle that never ends (R201, R203) -/

/-- The reference EEPROM alone on the bus, idle, and with a write cycle that never ends once it is begun; the ticks come, or none is
waited for. -/
structure NeverReady (d : Steady) (s : State) : Prop where
  bus : s.bus = .reference
  out : s.ee.out ≠ .driving
  idle : s.ee.busydev = false
  ready : d.ready = false
  ticks : d.pulse = true ∨ s.cfg.readyDelayMs = 0

/-- Busy. -/
abbrev StillBusy : Bool → Prop := fun b => b = true

theorem NeverReady.free (h : NeverReady d s) (_ : s.bus = .reference) : SlaveFree Off s.ee.mem s.ee := ⟨h.out, h.idle, rfl⟩

theorem NeverReady.begun (h : NeverReady d s) (hs : s.ReadyForPaged) (hprompt : s.Prompt d) (i : Instr) :
    At (steadyEnv d) (accept i s) .idle [] (SlaveFree Off s.ee.mem) (accept i s) :=
  begun_steady hs hprompt h.free i

/-- Before the write no byte is refused. -/
theorem NeverReady.not_refused (h : NeverReady d s) : ¬(steadyEnv d).Hears Off s.bus false := fun hH => by
  simpa using hH.reference h.bus

/-- After it no probe is acknowledged. -/
theorem NeverReady.not_acknowledged (h : NeverReady d s) : ¬(steadyEnv d).Hears StillBusy s.bus true := fun hH => by
  simpa using hH.reference h.bus

theorem NeverReady.alike (h : NeverReady d s) : (steadyEnv d).Alike s.bus := fun hb => by simp [h.bus] at hb

/-- The device stays busy. -/
theorem NeverReady.settles (h : NeverReady d s) : (steadyEnv d).Settles StillBusy StillBusy := steady_settles_busy h.ready

theorem NeverReady.mwr1 (h : NeverReady d s) (hs : s.ReadyForPaged) (hprompt : s.Prompt d) (hleg : s.cfg.Legal) {a : MemAddr}
    (ha : a.toNat ≤ s.cfg.maxAddress) (x : Byte) :
    ∃ t, exec (.mwr1 a x) s = .next t ∧ s.Completed t .timeout ∧ t.eng.AtRest ∧ t.phase = .idle ∧
      t.eng.trace = s.eng.trace ++ writeShape s.cfg a [x] ++ refusedProbes s.cfg s.cfg.readyRetries ∧
      t.retry = s.cfg.readyRetries ∧ ∀ y, t.ee.memRead y = if y = a.toNat then x else s.ee.memRead y := by
  obtain ⟨j, u, -, -, -, -, -, -, -, -, hH, -⟩ | ⟨u, hb, hu, hrest, hp, -⟩ | ⟨u, -, hN⟩ :=
    At.writeByte (s0 := accept (.mwr1 a x) s) (Q := StillBusy) (steadyEnv d).settles_off h.alike (fun _ hb => hb) h.settles
      (fun _ _ => h.ticks) hleg a x ha (h.begun hs hprompt _)
  · exact absurd hH h.not_acknowledged
  · obtain ⟨t, hx, hcompleted, hleft⟩ := exec_left_steady (i := .mwr1 a x) hs hprompt rfl rfl hb h.settles hu hrest hp rfl
    refine ⟨t, hx, hcompleted, hleft.freed.rest, hleft.freed.phase, by simpa using hleft.trace, hleft.retry, fun y => ?_⟩
    simpa [h.bus] using hleft.memRead_written (fun _ => Memory.read_write _ _ _ _) y
  · exact absurd hN.hears h.not_refused

/-- The first chunk of a write (R196). -/
theorem chunks_first {p a n : Nat} (h1 : 1 ≤ n) : ∃ cs, chunks p a n = (a, min (remaining p a) n) :: cs := by
  obtain ⟨k, rfl⟩ : ∃ k, n = k + 1 := ⟨n - 1, by omega⟩
  exact ⟨chunksFrom p k _ _, by rw [chunks, chunksFrom, if_neg (by omega)]⟩

/-- MWRN with bytes to write, all in range, writes its chunks (R196). -/
theorem pmWriteBytes_inRange {a : MemAddr} (h1 : 1 ≤ t.len.toNat) (ha : a.toNat + t.len.toNat - 1 ≤ t.cfg.maxAddress) :
    pmWriteBytes a t = chunkLoop (chunks t.cfg.pageSize a.toNat t.len.toNat) 0
      { t with doneCount := 0, cur := a.setWidth 17, idx := 0 } := by
  simp only [pmWriteBytes]
  rw [outOfRange_false h1 ha, if_neg (by simp), if_neg (by omega)]

/-- MWRN up to the end of its first chunk: the chunk is written, and no probe after it is acknowledged. -/
theorem NeverReady.pmWriteBytes (h : NeverReady d s) (hs : s.ReadyForPaged) (hprompt : s.Prompt d) (hleg : s.cfg.Legal) {a : MemAddr}
    {n : Nat} (hn : n = min (remaining s.cfg.pageSize a.toNat) s.len.toNat) (h1 : 1 ≤ s.len.toNat)
    (ha : a.toNat + s.len.toNat - 1 ≤ s.cfg.maxAddress) :
    ∃ u, pmWriteBytes a (accept (.mwrn a) s) = .done .timeout u ∧
      At (steadyEnv d) { accept (.mwrn a) s with doneCount := 0, retry := s.cfg.readyRetries } .idle
        (writeShape s.cfg a (s.chunkData a.toNat a.toNat n) ++ refusedProbes s.cfg s.cfg.readyRetries)
        (SlaveFree StillBusy (committed s.cfg (pairsOf s.wbufRead 0 a.toNat n) s.ee.mem)) u ∧
      u.eng.AtRest ∧ u.phase = .idle := by
  have hpos := Params.Legal.remaining_pos hleg a
  obtain ⟨cs, hcs⟩ := chunks_first (p := s.cfg.pageSize) (a := a.toNat) h1
  rw [← hn] at hcs
  have hbody : Machine.pmWriteBytes a (accept (.mwrn a) s) =
      chunkLoop ((a.toNat, n) :: cs) 0 { accept (.mwrn a) s with doneCount := 0, cur := a.setWidth 17, idx := 0 } :=
    hcs ▸ pmWriteBytes_inRange (t := accept (.mwrn a) s) h1 ha
  have h0 := ((h.begun hs hprompt (.mwrn a)).setProgress (a.setWidth 17) 0 0).setChunk (BitVec.ofNat 17 n)
  obtain ⟨u, hchunk, hu, -⟩ | ⟨u, -, hN⟩ :=
    At.chunk (Q := StillBusy) (s0 := { accept (.mwrn a) s with doneCount := 0 }) (steadyEnv d).settles_off h.alike (fun _ hb => hb)
      hleg 0 a.toNat n a.isLt (by omega) (hn ▸ Nat.min_le_left _ _)
      (fun s => (readyWait s).orFail giveBack fun s => chunkLoop cs (0 + n)
        { s with
          cur := BitVec.ofNat 17 (a.toNat + n), idx := BitVec.ofNat 17 (0 + n), doneCount := BitVec.ofNat 17 (0 + n) }) h0
  · obtain ⟨j, u, -, -, -, -, -, -, -, -, hH, -⟩ | ⟨y, hwait, hy, hrest, hp, -⟩ :=
      At.readyWait (s0 := { accept (.mwrn a) s with doneCount := 0 }) (fun _ => h.ticks) h.settles hleg.2.2.2.1 hu
    · exact absurd hH h.not_acknowledged
    · refine ⟨y, ?_, ?_, hrest, hp⟩
      · rw [hbody]
        refine hchunk.trans ?_
        rw [hwait, Ran.orFail_error (by simp)]
        rfl
      · have haddr : BitVec.ofNat 16 a.toNat = a := by simp
        have hdata : s.chunkData a.toNat a.toNat n = (List.range n).map fun j => s.wbufRead (0 + j) := by
          simp [State.chunkData]
        rw [hdata]
        rw [haddr] at hy
        exact hy
  · exact absurd hN.hears h.not_refused

theorem NeverReady.mwrn (h : NeverReady d s) (hs : s.ReadyForPaged) (hprompt : s.Prompt d) (hleg : s.cfg.Legal) {a : MemAddr}
    {n : Nat} (hn : n = min (remaining s.cfg.pageSize a.toNat) s.len.toNat) (h1 : 1 ≤ s.len.toNat)
    (hlen : s.len.toNat ≤ s.cfg.bufSize) (ha : a.toNat + s.len.toNat - 1 ≤ s.cfg.maxAddress) :
    ∃ t, exec (.mwrn a) s = .next t ∧ s.Completed t .timeout ∧ t.eng.AtRest ∧ t.phase = .idle ∧
      t.eng.trace = s.eng.trace ++ writeShape s.cfg a (s.chunkData a.toNat a.toNat n) ++
        refusedProbes s.cfg s.cfg.readyRetries ∧
      t.retry = s.cfg.readyRetries ∧ t.doneCount = 0 ∧
      ∀ x, t.ee.memRead x =
        if a.toNat ≤ x ∧ x < a.toNat + n then s.wbufRead (x - a.toNat) else s.ee.memRead x := by
  have hl : lenTooLong (.mwrn a) s = false := by simpa [lenTooLong] using hlen
  obtain ⟨u, hb, hu, hrest, hp⟩ := h.pmWriteBytes hs hprompt hleg hn h1 ha
  obtain ⟨t, hx, hcompleted, hleft⟩ := exec_left_steady (i := .mwrn a) hs hprompt rfl hl hb h.settles hu hrest hp rfl
  refine ⟨t, hx, hcompleted, hleft.freed.rest, hleft.freed.phase, by simpa using hleft.trace, hleft.retry, hleft.doneCount,
    fun x => ?_⟩
  simpa [h.bus] using hleft.memRead_written (read_committed s.cfg s.wbufRead n s.ee.mem 0 a.toNat (by omega)) x

/-- Settles O59: by the command. -/
theorem persistentBusy : Obligations.PersistentBusy := by
  intro a x s d hs hprompt hleg hbus hout hidle hready hticks
  have h : NeverReady d s := ⟨hbus, hout, hidle, hready, hticks⟩
  exact ⟨fun ha => h.mwr1 hs hprompt hleg ha x, fun n hn h1 hlen ha => h.mwrn hs hprompt hleg hn h1 hlen ha⟩

end Sys2Proof.Machine
end

section
/-!
PROOFS. The outcomes each command can finish with (R220 to R223, R235): those of its body, which ends before the last gap.
-/

namespace Sys2Proof.Machine

variable {i : Instr} {r : Ran TransferOutcome}

/-- The run does not finish the command, and its outcome is one the table of R235 allows the command. -/
abbrev EndsAllowed (i : Instr) (r : Ran TransferOutcome) : Prop :=
  r.All (fun e u => Doing u ∧ e ∈ outcomesOf i) Unfinished

/-- A run whose outcomes are all in the command's row of the table. -/
theorem EndsAllowed.of_outcomes {R : TransferOutcome → State → Prop} (hr : r.All (fun e u => Doing u ∧ R e u) Unfinished)
    (hR : ∀ e u, R e u → e ∈ outcomesOf i) : EndsAllowed i r :=
  hr.mono (fun e u hu => ⟨hu.1, hR e u hu.2⟩) fun _ hu => hu

/-- A run of a command whose row of the table is full. -/
theorem EndsAllowed.of_full_row (hr : r.All (fun _ => Doing) Unfinished) (hi : ∀ e, e ∈ outcomesOf i) : EndsAllowed i r :=
  hr.mono (fun e _ hu => ⟨hu, hi e⟩) fun _ hu => hu

/-- Success, NoAcknowledge and Timeout, the row of the commands that send a byte. -/
theorem BusOutcome.mem {e : TransferOutcome} (h : BusOutcome e) : e ∈ [.success, .noAcknowledge, .timeout] := by
  simpa using h

/-- Every body ends in an outcome of its command's row (R235). -/
theorem body_endsAllowed (i : Instr) (s : State) : EndsAllowed i (bodyOf i (accept i s)) := by
  have h := doing_kept
  have hQ := resets_unfinished Doing
  have hPQ : ∀ u, Doing u → Unfinished u := fun _ hu => hu.2
  have h0 : Doing (accept i s) := ⟨rfl, rfl⟩
  cases i with
  | init m => exact (h.gap hQ h0).andThen fun _ _ hu => ⟨hu, List.mem_singleton_self _⟩
  | stop => exact .of_outcomes (h.blStop hQ h0) fun _ _ he => List.mem_singleton.2 he.1
  | start => exact .of_outcomes (h.blStart hQ h0) fun _ _ he => List.mem_pair.2 he.never_outcome
  | rdbyte k => exact .of_outcomes (h.blReadByte hQ k h0) fun _ _ => List.mem_pair.2
  | waitrdy => exact .of_outcomes (h.readyWait hQ hPQ h0) fun _ _ => List.mem_pair.2
  | wraddr a => exact .of_outcomes (h.blWriteAddress hQ a h0) fun _ _ => BusOutcome.mem
  | wrbyte b => exact .of_outcomes (h.blWriteByte hQ b h0) fun _ _ => BusOutcome.mem
  | probe => exact .of_outcomes (h.pmProbe hQ h0) fun _ _ => BusOutcome.mem
  | mrd1 _ | mwr1 _ _ | mrdn _ | mwrn _ =>
    exact .of_full_row (body_doing _ s) fun e => by cases e <;> simp [outcomesOf]

/-- Settles O37: the outcome of the body is what `finish` stores. -/
theorem outcomesAllowed : Obligations.OutcomesAllowed := fun i s _ hok hx hc =>
  exec_completed (f := fun _ => ()) (R := fun e _ => e ∈ outcomesOf i) (fun _ _ _ _ _ _ _ _ _ _ _ => rfl) (fun _ _ => rfl)
    hok (body_endsAllowed i s) hx hc

end Sys2Proof.Machine
end

section
/-!
PROOFS. The flag invariants the spec derives from R133 to R139 (10_state section 4, 40_line_engine section 3): each flag stands in
its own state of the engine, and an address byte sets ADDR or AF by its one acknowledge bit.
-/

namespace Sys2Proof.Machine

variable {e : Engine} {s : State}

theorem Engine.Inv.rxne_false (h : e.Inv) (hes : e.es ≠ .rx) : e.rxne = false :=
  Bool.eq_false_iff.2 fun hrxne => hes (h.rxne_state hrxne)

theorem Engine.Inv.not_sb_and_addr (h : e.Inv) : ¬(e.sb = true ∧ e.addr = true) := by
  rintro ⟨hsb, haddr⟩
  have hhold : e.es = .addrHold := h.addr_state.1 haddr
  simp [h.sb_false (by simp [hhold])] at hsb

theorem Engine.Inv.flags_idle (h : e.Inv) (hes : e.es = .idle) :
    e.sb = false ∧ e.addr = false ∧ e.txe = false ∧ e.rxne = false ∧ e.stopp = false :=
  ⟨h.sb_false (by simp [hes]), h.addr_false (by simp [hes]), h.txe_false (by simp [hes]), h.rxne_false (by simp [hes]),
    h.stopp_false hes⟩

/-- The step of an address byte sets ADDR if the byte was acknowledged and AF if it was not (R134); the other flag stays. -/
theorem engineStep_txAddr_not_addr_and_af (ans : Answer) (ha : s.eng.act = .txAddr) (haddr : s.eng.addr = false)
    (haf : s.eng.af = false) : ¬((engineStep ans s).eng.addr = true ∧ (engineStep ans s).eng.af = true) := by
  cases hk : (s.slaveByte ans s.eng.dr).1 with
  | true => simp [engineStep_txAddr_ack ans ha hk, haf]
  | false => simp [engineStep_txAddr_nak ans ha hk, haddr]

/-- Settles O21: by the state each flag stands in, and by the acknowledge bit of the address byte. -/
theorem flagInvariants : Obligations.FlagInvariants :=
  ⟨fun _ h => ⟨h.not_sb_and_addr, fun htxe => ⟨h.tx_dir (h.txe_state htxe), h.txe_state htxe⟩,
    fun hrxne => ⟨h.rx_dir (h.rxne_state hrxne), h.rxne_state hrxne⟩, fun hes _ => h.flags_idle hes, h.stopp_open⟩,
    fun ans _ => engineStep_txAddr_not_addr_and_af ans⟩

end Sys2Proof.Machine
end
